-- ==== Sys2Proof/Word.lean ====
section
/-! DEFINITION. The word types of the part (Table 0-4) and the numbers of its streams and slots. -/
namespace Sys2Proof

abbrev Byte := BitVec 8

/-- A 40-bit bus address (Table 0-4). -/
abbrev Address := BitVec 40

/-- A bus agent's ID, 0 to 15 (Table 0-4). -/
abbrev Initiator := Fin 16

/-- An upstream tag: 64 tags per initiator (Table 0-4; log 15). -/
abbrev Tag := BitVec 6

/-- A stream slot, 0 to 7. -/
abbrev StreamId := Fin 8

/-- A reader slot, 0 or 1. -/
abbrev ReaderSlot := Fin 2

/-- One of the three copies of the configuration image (R149). -/
abbrev CopyIndex := Fin 3

/-- The 64 bytes of a stream descriptor (Table 11-8). -/
abbrev Descriptor := List Byte

/-- An instant or an interval on the µs time base (R97; log 23). -/
abbrev Micros := Nat

end Sys2Proof
end

