-- ==== Sys2Proof/Syntax.lean ====
section
/-! DEFINITION. The commands of the part: one constructor of Instr per row of the table of operations and events,
with the operands the model gives it (logs 5, 6, 11, 18), and the bus shapes they carry. -/
namespace Sys2Proof

/-- What a bus transaction asks: a read of a number of bytes, or a write of these bytes. -/
inductive TxnBody where
  | read (length : Nat)
  | write (data : List Byte)
  deriving DecidableEq, Repr

/-- A transaction on the upstream bus group (Table 0-5). -/
structure Txn where
  initiator : Initiator
  tag : Tag
  address : Address
  body : TxnBody
  deriving DecidableEq, Repr

/-- A bus response status. -/
inductive Status where
  | okay
  | error
  deriving DecidableEq, Repr

/-- A response on the downstream bus group: the origin flag and the tag of the transaction it answers, its initiator
ID, a status, and for a read its data (R142, R143). With the origin flag set the initiator ID is not looked at. -/
structure DsResponse where
  origin : Bool
  initiator : Initiator
  tag : Tag
  status : Status
  data : List Byte
  deriving DecidableEq, Repr

/-- The five blocks that take an arm message (R170). -/
inductive ArmBlock where
  | poolManager
  | captureUnit
  | presentationUnit
  | cadenceMonitor
  | eventUnit
  deriving DecidableEq, Repr

/-- The commands. -/
inductive Instr where
  /-- RESET_N goes low (R182). -/
  | powerOnReset
  /-- RESET_N rises, with these values on the straps (R167). -/
  | resetRelease (apsel cfgsel : Byte)
  /-- The stream byte of a SOFT_RESET frame completes (R180). -/
  | softReset (byte : Byte)
  /-- The reinitialisation that ends a soft reset, with these values on the straps (R181). -/
  | reinitialisation (apsel cfgsel : Byte)
  /-- The stream byte of a GET_DEVICE frame completes (R188). -/
  | getDevice (byte : Byte)
  /-- The stream byte of a GET_STREAM frame completes (R188). -/
  | getStream (byte : Byte)
  /-- The stream byte of a GET_POOL frame completes (R189). -/
  | getPool (byte : Byte)
  /-- The stream byte of a GET_READERS frame completes (R189). -/
  | getReaders (byte : Byte)
  /-- The argument byte of a GET_COVERAGE frame completes (R189). -/
  | getCoverage (byte : Byte)
  /-- The argument byte of a GET_COUNTERS frame completes (R195). -/
  | getCounters (byte : Byte)
  /-- The argument byte of an ACK_EVENTS frame completes (R192). -/
  | ackEvents (byte : Byte)
  /-- The stream byte of an ARM frame completes (R171). -/
  | arm (byte : Byte)
  /-- The stream byte of a DISARM frame completes (R172). -/
  | disarm (byte : Byte)
  /-- The stream byte of a RELOAD frame completes (R175). -/
  | reload (byte : Byte)
  /-- The stream byte of a frame whose command byte names no command completes (R184). -/
  | unlistedCommand (byte : Byte)
  /-- MCS_N rises (R185). -/
  | frameEnd
  /-- A transaction outside the aperture is on offer (R122). -/
  | passThrough (t : Txn)
  /-- A producer's write to the line area is on offer (R32). -/
  | lineAreaWrite (t : Txn)
  /-- A producer's write to the excess region is on offer (R35). -/
  | excessWrite (t : Txn)
  /-- A producer's read of the line area or the excess region is on offer (R36). -/
  | captureRead (t : Txn)
  /-- A close record is on offer (R41). -/
  | close (t : Txn)
  /-- A capture status read is on offer (R46). -/
  | captureStatusRead (t : Txn)
  /-- A claim is on offer (R74). -/
  | claim (t : Txn)
  /-- A peek is on offer (R83). -/
  | peek (t : Txn)
  /-- A reader's line read is on offer (R86). -/
  | presentationLineRead (t : Txn)
  /-- A producer's access to a dormant capture window is on offer (R127). -/
  | dormantCaptureAccess (t : Txn)
  /-- A reader's read of a dormant presentation window is on offer (R128). -/
  | dormantPresentationAccess (t : Txn)
  /-- A transaction that classification refuses is on offer (R120). -/
  | accessRefusal (t : Txn)
  /-- The Arbiter grants a LOADER or a REPAIR request, while this initiator's transaction, if any, is on offer (R138). -/
  | grant (onOffer : Option Initiator)
  /-- A response arrives at the downstream port (R142). -/
  | returned (r : DsResponse)
  /-- A stream's cadence timer expires (R99). -/
  | miss (stream : StreamId)
  /-- A reader's scan timer expires (R91). -/
  | scanTimerExpiry (stream : StreamId) (slot : ReaderSlot)
  /-- One block takes the arm message for a stream (R170). -/
  | armMessage (stream : StreamId) (block : ArmBlock)
  /-- The next block takes the teardown request for a stream (R173). -/
  | teardownRequest (stream : StreamId)
  /-- MCS_N falls (R183). -/
  | frameBegin
  /-- A link byte that takes no command completes (R183). -/
  | byteComplete (byte : Byte)
  deriving DecidableEq, Repr

end Sys2Proof
end

