-- ==== Sys2Proof/Decode.lean ====
section
/-! DEFINITION. Reading the byte formats of Chapter 11: little-endian fields, the close record, the descriptor, the image
header and slot CRC, the command byte; and writing little-endian fields. The table of operations gives no row any bits,
so no word spells a command (decodeTableWord). -/
namespace Sys2Proof

/-- No row of the table of operations has bits: a word spells no command. -/
def decodeTableWord (_nbits _w : Nat) : Option Instr := none

namespace Decode

/-! ### Little-endian fields (R197) -/

/-- Byte n of a record; a record read past its end reads 0. -/
def byteAt (bytes : List Byte) (n : Nat) : Nat := (bytes.getD n 0#8).toNat

/-- A field of two bytes, the least significant first (R197). -/
def le16 (bytes : List Byte) (n : Nat) : Nat := byteAt bytes n + 0x100 * byteAt bytes (n + 1)

/-- A field of three bytes. -/
def le24 (bytes : List Byte) (n : Nat) : Nat := le16 bytes n + 0x10000 * byteAt bytes (n + 2)

/-- A field of four bytes. -/
def le32 (bytes : List Byte) (n : Nat) : Nat := le16 bytes n + 0x10000 * le16 bytes (n + 2)

/-- Byte k of a number, counted from the least significant. -/
def byteOf (v k : Nat) : Byte := BitVec.ofNat 8 (v / 256 ^ k)

/-- A number as `size` bytes, the least significant first (R197). -/
def leBytes (size v : Nat) : List Byte := (List.range size).map (byteOf v)

/-- Bit n of a byte of a record, bit 0 the least significant (R197). -/
def bitAt (bytes : List Byte) (n bit : Nat) : Bool := (byteAt bytes n).testBit bit

/-- A byte whose bit 0, 1, 2, … are the flags given, the rest 0. -/
def flagByte (flags : List Bool) : Byte :=
  BitVec.ofNat 8 (flags.zipIdx.foldl (fun v fk => if fk.1 then v + 2 ^ fk.2 else v) 0)

/-! ### The close record (Table 11-1) -/

/-- The fields of a close record (R40). -/
structure CloseRecord where
  abandon : Bool
  noRepair : Bool
  tagValid : Bool
  producerSeq : BitVec 16
  userTag : BitVec 32
  deriving DecidableEq, Repr

/-- The kind byte of a close record (Table 11-1). -/
def closeKind : Nat := 0x43

/-- The fields of a record whose kind is 43h (R198). -/
def closeRecord (bytes : List Byte) : CloseRecord :=
  { abandon := bitAt bytes 1 0
    noRepair := bitAt bytes 1 1
    tagValid := bitAt bytes 1 2
    producerSeq := BitVec.ofNat 16 (le16 bytes 2)
    userTag := BitVec.ofNat 32 (le32 bytes 4) }

/-! ### The stream descriptor (Table 11-8) -/

/-- Claim and steal behaviour (Table 11-9). -/
inductive Discipline where
  | latest
  | queue
  deriving DecidableEq, Repr

/-- What readers receive in SEARCH and FREERUN (Table 11-9). -/
inductive Unlock where
  | hold
  | fill
  | follow
  deriving DecidableEq, Repr

/-- Treatment of incomplete frames (Table 11-9). -/
inductive RepairPolicy where
  | pad
  | copy
  | reject
  deriving DecidableEq, Repr

/-- A reader slot of a descriptor: valid flag and ID (Table 11-8). -/
structure ReaderId where
  valid : Bool
  id : Initiator
  deriving DecidableEq, Repr

/-- The 4-bit ID in the low half of a byte. -/
def idAt (d : Descriptor) (n : Nat) : Initiator := Fin.ofNat 16 (byteAt d n)

def enable (d : Descriptor) : Bool := bitAt d 0 0
def guards (d : Descriptor) : Bool := bitAt d 0 1
def producer (d : Descriptor) : Initiator := idAt d 1
def readerSlot (d : Descriptor) (k : ReaderSlot) : ReaderId :=
  { valid := bitAt d (2 + k.val) 7, id := idAt d (2 + k.val) }

/-- Window address = field × 64 KiB (Table 8-3). -/
def captureBase (d : Descriptor) : Nat := le24 d 4 * 0x10000
def presentationBase (d : Descriptor) : Nat := le24 d 7 * 0x10000
def sizeCode (d : Descriptor) : Nat := byteAt d 10

/-- W, the size of both windows (Table 8-3). -/
def windowSize (d : Descriptor) : Nat := 2 ^ sizeCode d
def poolSize (d : Descriptor) : Nat := byteAt d 11
def lineBytes (d : Descriptor) : Nat := le16 d 12
def pitch (d : Descriptor) : Nat := le16 d 14
def lines (d : Descriptor) : Nat := le16 d 16

/-- lines × pitch: the line area and the extent of each buffer (R1, R119). -/
def extent (d : Descriptor) : Nat := lines d * pitch d

def discipline (d : Descriptor) : Discipline := if bitAt d 18 0 then .queue else .latest

/-- Bits 1 and 2 of byte 18; the fourth code names no policy (Table 11-9). -/
def unlock (d : Descriptor) : Option Unlock :=
  match bitAt d 18 2, bitAt d 18 1 with
  | false, false => some .hold
  | false, true => some .fill
  | true, false => some .follow
  | true, true => none

/-- Bits 3 and 4 of byte 18; the fourth code names no policy (Table 11-9). -/
def repairPolicy (d : Descriptor) : Option RepairPolicy :=
  match bitAt d 18 4, bitAt d 18 3 with
  | false, false => some .pad
  | false, true => some .copy
  | true, false => some .reject
  | true, true => none

def eventMask (d : Descriptor) : BitVec 8 := d.getD 19 0#8
def repairLimit (d : Descriptor) : Nat := le16 d 20

/-- The acquire count A, bits 0 to 3 of the counts. -/
def acquireCount (d : Descriptor) : Nat := le16 d 22 % 16

/-- The reacquire count Q, bits 4 to 7 of the counts. -/
def reacquireCount (d : Descriptor) : Nat := le16 d 22 / 16 % 16

/-- The loss count D, bits 8 to 11 of the counts. -/
def lossCount (d : Descriptor) : Nat := le16 d 22 / 256 % 16
def fillWord (d : Descriptor) : BitVec 32 := BitVec.ofNat 32 (le32 d 24)

/-- P, the cadence period in µs; 0 turns cadence off. -/
def period (d : Descriptor) : Nat := le32 d 28

/-- T, the cadence tolerance in µs. -/
def tolerance (d : Descriptor) : Nat := le32 d 32

/-- S, the scan timeout in µs; 0 turns it off. -/
def scanTimeout (d : Descriptor) : Nat := le32 d 36

/-- Buffer base i in 4 KiB units. -/
def bufferBase (d : Descriptor) (i : Nat) : BitVec 32 := BitVec.ofNat 32 (le32 d (40 + 4 * i))

/-! ### The image copy (Tables 11-6 and 11-7) -/

/-- One bit of the CRC-16 with polynomial 1021h. -/
def crcShift (c : BitVec 16) : BitVec 16 := if c.msb then (c <<< 1) ^^^ 0x1021#16 else c <<< 1

/-- One byte of the CRC, most significant bit first. -/
def crcByte (c : BitVec 16) (b : Byte) : BitVec 16 :=
  let c := c ^^^ (b.setWidth 16 <<< 8)
  crcShift (crcShift (crcShift (crcShift (crcShift (crcShift (crcShift (crcShift c)))))))

/-- CRC-16, polynomial 1021h, initial value FFFFh, no final inversion (R152). -/
def crc (bytes : List Byte) : BitVec 16 := bytes.foldl crcByte 0xFFFF#16

/-- Slot bytes 0 to 3 hold "ZCFG" (R200). -/
def signatureOk (slot : List Byte) : Bool := slot.take 4 == [0x5A#8, 0x43#8, 0x46#8, 0x47#8]

/-- Slot bytes 4 and 5 hold 0001h (R200). -/
def versionOk (slot : List Byte) : Bool := le16 slot 4 == 1

/-- The CRC over slot bytes 0 to 575 equals slot bytes 576 and 577 (R152). -/
def crcOk (slot : List Byte) : Bool := (crc (slot.take 576)).toNat == le16 slot 576

def imageGeneration (slot : List Byte) : BitVec 32 := BitVec.ofNat 32 (le32 slot 8)

/-- Descriptor k stands at slot bytes 64 + 64 × k (R149). -/
def imageDescriptor (slot : List Byte) (k : Nat) : Descriptor := (slot.drop (64 + 64 * k)).take 64

/-! ### The management link's command byte (Table 11-10) -/

/-- The commands of Table 11-10. -/
inductive LinkCommand where
  | getDevice
  | getStream
  | getPool
  | getReaders
  | getCoverage
  | getCounters
  | ackEvents
  | arm
  | disarm
  | reload
  | softReset
  deriving DecidableEq, Repr

/-- The command a command byte names; none where it names no command (R184). -/
def linkCommand (b : Byte) : Option LinkCommand :=
  match b.toNat with
  | 0x01 => some .getDevice
  | 0x02 => some .getStream
  | 0x03 => some .getPool
  | 0x04 => some .getReaders
  | 0x05 => some .getCoverage
  | 0x06 => some .getCounters
  | 0x07 => some .ackEvents
  | 0x20 => some .arm
  | 0x21 => some .disarm
  | 0x22 => some .reload
  | 0x2F => some .softReset
  | _ => none

/-- Whether a command has an argument byte (Table 11-10). -/
def hasArgument : LinkCommand → Bool
  | .getCoverage => true
  | .getCounters => true
  | .ackEvents => true
  | .getDevice => false
  | .getStream => false
  | .getPool => false
  | .getReaders => false
  | .arm => false
  | .disarm => false
  | .reload => false
  | .softReset => false

end Decode
end Sys2Proof
end

