-- ==== Sys2Proof/Config.lean ====
section
/-! DEFINITION. Fixed sizes of the part (Table 0-4, Chapter 11) and the one value the manual leaves open. -/
namespace Sys2Proof.Config

/-- Size of the aperture, 256 MiB (R116). -/
def apertureSize : Nat := 0x10000000

/-- Top of the 40-bit address space, exclusive (R121, R160). -/
def addressTop : Nat := 0x10000000000

/-- A transaction must not cross a boundary of this size (R121). -/
def pageSize : Nat := 4096

/-- Unit of a window base (R156). -/
def windowUnit : Nat := 0x10000

/-- Unit of a buffer base (R1). -/
def bufferUnit : Nat := 4096

/-- Bytes of a mark slot (Table 0-3). -/
def markSize : Nat := 64

/-- Entries of the downstream outstanding table (R136). -/
def tableSize : Nat := 32

/-- Entries in use at most for the Repair Engine (R136). -/
def repairLimit : Nat := 4

/-- Entries in use at most for the Configuration Loader (R136). -/
def loaderLimit : Nat := 3

/-- Entries of a response order list (R132). -/
def orderLimit : Nat := 64

/-- Jobs of the repair queue (R50). -/
def jobLimit : Nat := 8

/-- Where the starvation counter stands when relief is due (R138, R139). -/
def reliefAt : Nat := 8

/-- Bytes of one copy slot of the image (R149). -/
def copySlotSize : Nat := 1024

/-- Device code and revision of GET_DEVICE (Table 11-12). -/
def deviceCode : BitVec 16 := 0x4216#16
def revision : Byte := 0x01#8

/-- FREE VALUE (log 2): which of several expiries due at one instant is taken first on an empty queue.
The manual gives no order between them; the argument is the state's `choice` counter. -/
opaque expiryChoice : Nat → Nat

end Sys2Proof.Config
end

