-- ==== Sys2Proof/Machine/State.lean ====
section
/-! DEFINITION. Everything the part holds (Table 0-1), block by block, as plain data; its values at power-on reset;
and the reasons a step can stop. -/
namespace Sys2Proof.Machine

open Sys2Proof.Decode (ReaderId)

/-! ### Pool Manager -/

/-- Buffer states (Table 1-3). -/
inductive BufState where
  | free
  | filling
  | closing
  | repairing
  | ready
  | shown
  | kept
  | releasing
  deriving DecidableEq, Repr

/-- Verdicts (Table 11-4). -/
inductive Verdict where
  | none
  | clean
  | repairedPad
  | repairedCopy
  | rejectedShort
  | rejectedBusy
  | rejectedRepairFail
  | rejectedWriteError
  | abandoned
  | droppedOverrun
  deriving DecidableEq, Repr

/-- What a close records in its buffer (Table 1-1, close info). -/
structure CloseInfo where
  abandon : Bool
  noRepair : Bool
  tagValid : Bool
  producerSeq : BitVec 16
  userTag : BitVec 32
  /-- Close arrival time. -/
  time : Micros
  deriving DecidableEq, Repr

/-- The close info of a buffer in FREE (R3). -/
def CloseInfo.zero : CloseInfo :=
  { abandon := false, noRepair := false, tagValid := false, producerSeq := 0#16, userTag := 0#32, time := 0 }

/-- A buffer record (Table 1-1). -/
structure Buf where
  state : BufState
  /-- Base address in 4 KiB units (R1; log 12). -/
  base : BitVec 32
  seq : BitVec 32
  /-- The lines whose coverage flag is set, in rising order (log 33). -/
  coverage : List Nat
  early : Bool
  writeError : Bool
  close : CloseInfo
  verdict : Verdict
  readers : Nat
  pins : Nat
  inFlight : Nat
  hold : Bool
  deriving DecidableEq, Repr

/-- A record in FREE with every field cleared (R3). -/
def Buf.fresh (base : BitVec 32) : Buf :=
  { state := .free, base := base, seq := 0#32, coverage := [], early := false, writeError := false,
    close := CloseInfo.zero, verdict := .none, readers := 0, pins := 0, inFlight := 0, hold := false }

/-! ### Capture Unit -/

/-- Frame mode, with the filling index in BUFFER (Table 2-1). -/
inductive FrameMode where
  | none
  | buffer (index : Nat)
  | sink
  deriving DecidableEq, Repr

/-- A verdict entry (Table 2-1). -/
structure VerdictEntry where
  verdict : Verdict
  seq : BitVec 32
  producerSeq : BitVec 16
  missing : Nat
  deriving DecidableEq, Repr

/-- A verdict entry with verdict NONE (Table 2-1, note 2). -/
def VerdictEntry.zero : VerdictEntry := { verdict := .none, seq := 0#32, producerSeq := 0#16, missing := 0 }

/-! ### Timers, readers, lock -/

/-- A cadence timer or a scan timer (Tables 4-1 and 5-1). -/
inductive Timer where
  | stopped
  | running (expiry : Micros)
  deriving DecidableEq, Repr

/-- Reader states, with the bound buffer in BOUND (Tables 4-1 and 4-2). -/
inductive ReaderState where
  | unbound
  | bound (buffer : Nat)
  | subst
  | stale
  deriving DecidableEq, Repr

/-- A claim's source (Table 11-3). -/
inductive Source where
  | fill
  | frame
  | repeated
  | hold
  deriving DecidableEq, Repr

/-- A reader entry (Table 4-1). -/
structure Reader where
  valid : Bool
  id : Initiator
  state : ReaderState
  boundSeq : BitVec 32
  lastSource : Source
  lastSkipped : BitVec 16
  timer : Timer
  deriving DecidableEq, Repr

/-- Lock states (Table 11-5). -/
inductive Lock where
  | down
  | search
  | locked
  | coast
  | freerun
  deriving DecidableEq, Repr

/-! ### Configuration Loader and Aperture Decoder, per stream -/

/-- A descriptor's outcome (R157). -/
inductive DescOutcome where
  | enabled
  | refused
  | disabled
  deriving DecidableEq, Repr

/-- A descriptor's refusal cause (Table 11-17). -/
inductive RefusalCause where
  | none
  | badGeometry
  | windowOutsideAperture
  | windowOverlap
  | badPool
  | bufferOverlap
  | badReaders
  | holdNeedsThree
  | badCounts
  | badTiming
  deriving DecidableEq, Repr

/-- A descriptor with what validation gave it (Table 8-1). -/
structure Installed where
  desc : Descriptor
  outcome : DescOutcome
  cause : RefusalCause
  mapped : Bool
  deriving DecidableEq, Repr

/-- A stream's two entries of the window match table (R118). -/
structure Windows where
  capture : Address
  presentation : Address
  /-- W. -/
  size : Nat
  lines : Nat
  lineBytes : Nat
  pitch : Nat
  fill : BitVec 32
  producer : Initiator
  reader0 : ReaderId
  reader1 : ReaderId
  deriving DecidableEq, Repr

/-! ### Stream Control, Event Unit, per stream -/

/-- Lifecycle states (R169). -/
inductive Lifecycle where
  | off
  | active
  | draining
  | refused
  deriving DecidableEq, Repr

/-- The stream events, in the order of Table 10-4. -/
inductive StreamEvent where
  | lockGained
  | lockLost
  | overrun
  | frameRejected
  | repairFault
  | readerStale
  | accessFault
  | streamDown
  deriving DecidableEq, Repr

/-- The device events, in the order of Table 10-4. -/
inductive DeviceEvent where
  | tableLoaded
  | tableFault
  | reloadDone
  | reloadFailed
  | apertureFault
  deriving DecidableEq, Repr

/-- A stream's twelve counters (Table 10-5). -/
structure Counters where
  framesStarted : BitVec 16
  clean : BitVec 16
  repaired : BitVec 16
  rejected : BitVec 16
  droppedOverrun : BitVec 16
  abandoned : BitVec 16
  misses : BitVec 16
  earlyCloses : BitVec 16
  emptyCloses : BitVec 16
  excessWrites : BitVec 16
  skipped : BitVec 16
  stales : BitVec 16
  deriving DecidableEq, Repr

/-- All twelve counters at 0. -/
def Counters.zero : Counters :=
  { framesStarted := 0#16, clean := 0#16, repaired := 0#16, rejected := 0#16, droppedOverrun := 0#16,
    abandoned := 0#16, misses := 0#16, earlyCloses := 0#16, emptyCloses := 0#16, excessWrites := 0#16,
    skipped := 0#16, stales := 0#16 }

/-- Names of the counters (Table 10-5). -/
inductive Counter where
  | framesStarted
  | clean
  | repaired
  | rejected
  | droppedOverrun
  | abandoned
  | misses
  | earlyCloses
  | emptyCloses
  | excessWrites
  | skipped
  | stales
  deriving DecidableEq, Repr

/-! ### A stream slot -/

/-- All that the blocks hold for one stream slot. -/
structure StreamState where
  /-- The descriptor in force (R148). -/
  current : Option Installed
  /-- The pending descriptor (R148). -/
  pendingSlot : Option Installed
  /-- The entries of the window match table (R118). -/
  windows : Option Windows
  life : Lifecycle
  armRequest : Bool
  /-- The blocks that have not yet taken the arm message; an arm is in progress while there is one (R170). -/
  armAwaited : List ArmBlock
  /-- Drain progress: teardown requests taken, 0 to 5 (R173). -/
  drainTaken : Nat
  poolQuiet : Bool
  bufs : List Buf
  /-- The READY queue, head first (R14). -/
  ready : List Nat
  mode : FrameMode
  lastSeq : BitVec 32
  newest : VerdictEntry
  previous : VerdictEntry
  /-- No entries, or slot 0 and slot 1 (R69). -/
  readers : List Reader
  /-- The reference point r (R96). -/
  ref : Micros
  timer : Timer
  lock : Lock
  acquire : Nat
  loss : Nat
  flags : BitVec 8
  counters : Counters
  deriving DecidableEq, Repr

/-- A stream slot after power-on reset (Tables 1-5, 2-2, 4-3, 5-2, 8-2, 9-2, 10-6). -/
def StreamState.empty : StreamState :=
  { current := none, pendingSlot := none, windows := none, life := .off, armRequest := false, armAwaited := [],
    drainTaken := 0, poolQuiet := false, bufs := [], ready := [], mode := .none, lastSeq := 0#32,
    newest := VerdictEntry.zero, previous := VerdictEntry.zero, readers := [], ref := 0, timer := .stopped,
    lock := .down, acquire := 0, loss := 0, flags := 0#8, counters := Counters.zero }

/-! ### Repair Engine -/

/-- A job's method, with its source for COPY (Table 3-1). -/
inductive Method where
  | pad
  | copy (source : Nat)
  deriving DecidableEq, Repr

/-- Job states (Table 3-2). -/
inductive JobState where
  | queued
  | running
  | failing
  | cancelling
  deriving DecidableEq, Repr

/-- A repair job (Table 3-1). -/
structure Job where
  stream : StreamId
  target : Nat
  method : Method
  state : JobState
  nextLine : Nat
  nextPos : Nat
  outstanding : Nat
  deriving DecidableEq, Repr

/-- What a burst in a transaction slot waits for (R58, R59). -/
inductive BurstPhase where
  /-- The response to its COPY read. -/
  | reading
  /-- The grant of its COPY write, which carries these bytes. -/
  | held (data : List Byte)
  /-- The response to its write. -/
  | writing
  deriving DecidableEq, Repr

/-- A burst that holds a transaction slot of the Repair Engine (R56, R58). -/
structure Burst where
  slot : Nat
  /-- Extent offset n × pitch + p. -/
  offset : Nat
  length : Nat
  phase : BurstPhase
  deriving DecidableEq, Repr

/-! ### Downstream Arbiter -/

/-- One read of an image copy: copy index, byte offset and length within the slot (R150). -/
structure LoaderRead where
  copy : CopyIndex
  offset : Nat
  length : Nat
  deriving DecidableEq, Repr

/-- The kind of an outstanding-table entry, with the fields Table 7-1 gives that kind. -/
inductive EntryKind where
  | passThrough (initiator : Initiator) (tag : Tag)
  | captureWrite (initiator : Initiator) (tag : Tag) (stream : StreamId) (buffer : Nat)
  | captureRead (initiator : Initiator) (tag : Tag)
  | presentationRead (initiator : Initiator) (tag : Tag) (stream : StreamId) (buffer : Nat)
  | repairRead (stream : StreamId) (buffer : Nat) (slot : Nat)
  | repairWrite (stream : StreamId) (buffer : Nat) (slot : Nat)
  | loaderRead (read : LoaderRead)
  deriving DecidableEq, Repr

/-- Requesters (R136). -/
inductive Requester where
  | pass
  | repair
  | loader
  deriving DecidableEq, Repr

/-- An entry in use. The table is the list of them, oldest first, which is the age order of Table 7-1. -/
structure Entry where
  index : Nat
  kind : EntryKind
  deriving DecidableEq, Repr

/-! ### Configuration Loader, device level -/

/-- Load purpose (Table 8-1). -/
inductive Purpose where
  | start
  | reload
  deriving DecidableEq, Repr

/-- Copy receive state (Table 8-1). -/
inductive RxState where
  | pending
  | received
  | failed
  deriving DecidableEq, Repr

/-- What a load has received of one copy: its receive state and the bytes each of its three reads returned (R151). -/
structure CopyRx where
  state : RxState
  first : Option (List Byte)
  second : Option (List Byte)
  third : Option (List Byte)
  deriving DecidableEq, Repr

/-- A load in progress: load state READING (Table 8-1). The head of the plan is the read presented (R150). -/
structure Load where
  purpose : Purpose
  plan : List LoaderRead
  copies : Vector CopyRx 3
  deriving DecidableEq, Repr

/-! ### Aperture Decoder, device level -/

/-- A transaction's direction. -/
inductive Dir where
  | read
  | write
  deriving DecidableEq, Repr

/-- Access fault causes (Table 11-16). -/
inductive FaultCause where
  | none
  | crossing
  | guardedWrite
  | unmapped
  | notReady
  | notOwner
  | writeToPresentation
  | markMisuse
  deriving DecidableEq, Repr

/-- The last access fault record (R130). -/
structure FaultRecord where
  initiator : Initiator
  dir : Dir
  address : Address
  cause : FaultCause
  stream : Option StreamId
  deriving DecidableEq, Repr

/-- The record after power-on reset (R130). -/
def FaultRecord.none : FaultRecord :=
  { initiator := 0, dir := .read, address := 0#40, cause := .none, stream := Option.none }

/-- A response: status, and for a read its data. -/
structure Response where
  status : Status
  data : List Byte
  deriving DecidableEq, Repr

/-- What an order list entry holds: the outstanding-table entry whose response it waits for, or its response (R132;
the link of Table 7-1 is held here, log 21). -/
inductive OrderState where
  | waits (entry : Nat)
  | ready (response : Response)
  deriving DecidableEq, Repr

/-- An entry of an initiator's response order list (R132). -/
structure OrderEntry where
  tag : Tag
  dir : Dir
  state : OrderState
  deriving DecidableEq, Repr

/-! ### Stream Control and link controller, device level -/

/-- Device states (Table 9-3). -/
inductive Device where
  | transparent
  | loading
  | running
  | configFault
  deriving DecidableEq, Repr

/-- The last reload result (Table 9-1). -/
inductive ReloadResult where
  | none
  | applied
  | noChange
  | failed
  deriving DecidableEq, Repr

/-- Link frame states with what each has received (Table 10-1). -/
inductive Link where
  | idle
  | command
  | stream (command : Byte)
  | arguments (command stream : Byte)
  /-- The response bytes not yet shifted out. -/
  | response (rest : List Byte)
  deriving DecidableEq, Repr

/-! ### Output pins -/

/-- A response sent to an initiator (R132). -/
structure UpResponse where
  initiator : Initiator
  tag : Tag
  dir : Dir
  response : Response
  deriving DecidableEq, Repr

/-- A transaction issued on the downstream bus group. With the origin flag set it carries no initiator ID (R142; log 30). -/
structure DsTxn where
  origin : Bool
  initiator : Option Initiator
  tag : Tag
  address : Address
  body : TxnBody
  deriving DecidableEq, Repr

/-- What the last step drove on the output pins (log 16). -/
structure Ports where
  /-- The upstream port took the transaction on offer (R140). -/
  accepted : Bool
  /-- Responses sent to initiators, in the order they left (R132). -/
  responses : List UpResponse
  /-- The transaction issued downstream (R138). -/
  issued : Option DsTxn
  /-- The byte MDO shifted in the byte position just completed; none where MDO was not driven (R183). -/
  mdo : Option Byte
  deriving DecidableEq, Repr

/-- Nothing driven. -/
def Ports.quiet : Ports := { accepted := false, responses := [], issued := Option.none, mdo := Option.none }

/-! ### The whole part -/

/-- The state of the part, and the queue of commands that wait for it. -/
structure State where
  /-- The µs time base (R97). -/
  time : BitVec 64
  /-- RESET_N is high. -/
  resetN : Bool
  /-- MCS_N is high. -/
  mcsN : Bool
  apsel : Byte
  cfgsel : Byte
  device : Device
  reloadInProgress : Bool
  softResetPending : Bool
  lastReload : ReloadResult
  /-- The reload wait set, without repeats (R177). -/
  waitSet : List StreamId
  streams : Vector StreamState 8
  /-- The repair queue, head first (R50). -/
  jobs : List Job
  /-- The bursts that hold a transaction slot, oldest first (R59). -/
  bursts : List Burst
  /-- The outstanding table's entries in use, oldest first (R136). -/
  table : List Entry
  /-- The starvation counter (R139). -/
  starvation : Nat
  /-- The load in progress; none in load state IDLE (R148). -/
  load : Option Load
  generation : BitVec 32
  copyIndex : Option CopyIndex
  fault : FaultRecord
  /-- One response order list per initiator, head first (R132). -/
  orders : Vector (List OrderEntry) 16
  deviceFlags : BitVec 5
  link : Link
  ports : Ports
  /-- The model's own: the argument of the next free value (log 2). -/
  choice : Nat
  /-- The commands that wait, first in first out. -/
  pending : List Instr
  deriving DecidableEq, Repr

/-- Why a step stops with a fault. -/
inductive Fault where
  /-- A frame mode, a binding or a repair job names a buffer index that has no buffer record, so no address can be formed.
  Raised by a forwarded capture access, a translated presentation read and a REPAIR grant. R1 and R20 rule it out in
  every run from reset. Safe: the step stops. -/
  | noBufferRecord
  deriving DecidableEq, Repr

/-- Why a step has no meaning. -/
inductive Refusal where
  /-- Raised by exec for a command without a meaning in this model. Safe. -/
  | notModelled (mnemonic : String)
  /-- Raised by the commands that carry a bus transaction or a response, where the operand is none the bus can carry
  (a length outside Table 0-4). Safe. -/
  | badTransaction
  deriving DecidableEq, Repr

/-- The part while RESET_N is low after power-on (R182): the power-on values of every block's chapter, the time base at 0,
the link idle, nothing driven. Straps not yet sampled read 0 (log 7); MCS_N is high (log 8). -/
def State.reset : State :=
  { time := 0#64, resetN := false, mcsN := true, apsel := 0#8, cfgsel := 0#8, device := .transparent,
    reloadInProgress := false, softResetPending := false, lastReload := .none, waitSet := [],
    streams := Vector.replicate 8 StreamState.empty, jobs := [], bursts := [], table := [], starvation := 0, load := none,
    generation := 0#32, copyIndex := none, fault := FaultRecord.none, orders := Vector.replicate 16 [],
    deviceFlags := 0#5, link := .idle, ports := Ports.quiet, choice := 0, pending := [] }

end Sys2Proof.Machine
end

