-- ==== Sys2Proof/Machine/Flags.lean ====
section
/-! DEFINITION. The Event Unit: raising event flags, advancing counters, the ATTN_N line (sections 10.3 and 10.4). -/
namespace Sys2Proof.Machine

open Sys2Proof

/-- A stream event's position in its set and in the event mask (Table 10-4). -/
def StreamEvent.position : StreamEvent → Nat
  | .lockGained => 0
  | .lockLost => 1
  | .overrun => 2
  | .frameRejected => 3
  | .repairFault => 4
  | .readerStale => 5
  | .accessFault => 6
  | .streamDown => 7

/-- A device event's position in its set (Table 10-4). -/
def DeviceEvent.position : DeviceEvent → Nat
  | .tableLoaded => 0
  | .tableFault => 1
  | .reloadDone => 2
  | .reloadFailed => 3
  | .apertureFault => 4

/-- Raising a stream event sets its flag; a flag already set stays set (R190). -/
def StreamState.raise (x : StreamState) (e : StreamEvent) : StreamState :=
  { x with flags := x.flags ||| (1#8 <<< e.position) }

/-- Raising a device event sets its flag (R190). -/
def State.raiseDevice (s : State) (e : DeviceEvent) : State :=
  { s with deviceFlags := s.deviceFlags ||| (1#5 <<< e.position) }

/-- One advance of a 16-bit counter: at FFFFh it stays (R194). -/
def advance16 (c : BitVec 16) : BitVec 16 := if c = 0xFFFF#16 then c else c + 1#16

/-- One advance of the counter named (R194). -/
def Counters.advance (c : Counters) : Counter → Counters
  | .framesStarted => { c with framesStarted := advance16 c.framesStarted }
  | .clean => { c with clean := advance16 c.clean }
  | .repaired => { c with repaired := advance16 c.repaired }
  | .rejected => { c with rejected := advance16 c.rejected }
  | .droppedOverrun => { c with droppedOverrun := advance16 c.droppedOverrun }
  | .abandoned => { c with abandoned := advance16 c.abandoned }
  | .misses => { c with misses := advance16 c.misses }
  | .earlyCloses => { c with earlyCloses := advance16 c.earlyCloses }
  | .emptyCloses => { c with emptyCloses := advance16 c.emptyCloses }
  | .excessWrites => { c with excessWrites := advance16 c.excessWrites }
  | .skipped => { c with skipped := advance16 c.skipped }
  | .stales => { c with stales := advance16 c.stales }

/-- One advance of a stream's counter (R194). -/
def StreamState.count (x : StreamState) (c : Counter) : StreamState :=
  { x with counters := x.counters.advance c }

/-- The counters in the order of Table 10-5. -/
def Counters.inOrder (c : Counters) : List (BitVec 16) :=
  [c.framesStarted, c.clean, c.repaired, c.rejected, c.droppedOverrun, c.abandoned, c.misses, c.earlyCloses,
    c.emptyCloses, c.excessWrites, c.skipped, c.stales]

/-- The event mask in force: that of the current descriptor, 00h without one (R193). -/
def StreamState.mask (x : StreamState) : BitVec 8 :=
  match x.current with
  | some i => Decode.eventMask i.desc
  | none => 0#8

/-- ATTN_N is low: a device flag is set, or a stream flag whose mask bit is 1, and RESET_N is high (R182, R193). -/
def State.attnLow (s : State) : Bool :=
  s.resetN && (s.deviceFlags != 0#5 || s.streams.toList.any (fun x => x.flags &&& x.mask != 0#8))

end Sys2Proof.Machine
end

