-- ==== Sys2Proof/WellFormed.lean ====
section
/-! DEFINITION. Which operands are commands of the part: bus transactions carry 1 to 256 bytes (Table 0-4). -/
namespace Sys2Proof

/-- How many bytes a transaction covers (Table 0-4: 1 to 256). -/
def TxnBody.length : TxnBody → Nat
  | .read n => n
  | .write d => d.length

/-- The length L of R27 and R121. -/
def Txn.length (t : Txn) : Nat := t.body.length

/-- A transaction the bus can carry: 1 to 256 bytes (Table 0-4). -/
def Txn.wf (t : Txn) : Bool := decide (1 ≤ t.length) && decide (t.length ≤ 256)

/-- A response carries at most the 256 bytes of the longest read. -/
def DsResponse.wf (r : DsResponse) : Bool := decide (r.data.length ≤ 256)

/-- A command's operands are ones the part can be given. -/
def Instr.wf : Instr → Bool
  | .passThrough t => t.wf
  | .lineAreaWrite t => t.wf
  | .excessWrite t => t.wf
  | .captureRead t => t.wf
  | .close t => t.wf
  | .captureStatusRead t => t.wf
  | .claim t => t.wf
  | .peek t => t.wf
  | .presentationLineRead t => t.wf
  | .dormantCaptureAccess t => t.wf
  | .dormantPresentationAccess t => t.wf
  | .accessRefusal t => t.wf
  | .returned r => r.wf
  | .powerOnReset => true
  | .resetRelease _ _ => true
  | .softReset _ => true
  | .reinitialisation _ _ => true
  | .getDevice _ => true
  | .getStream _ => true
  | .getPool _ => true
  | .getReaders _ => true
  | .getCoverage _ => true
  | .getCounters _ => true
  | .ackEvents _ => true
  | .arm _ => true
  | .disarm _ => true
  | .reload _ => true
  | .unlistedCommand _ => true
  | .frameEnd => true
  | .grant _ => true
  | .miss _ => true
  | .scanTimerExpiry _ _ => true
  | .armMessage _ _ => true
  | .teardownRequest _ => true
  | .frameBegin => true
  | .byteComplete _ => true

end Sys2Proof
end

