-- ==== Sys2Proof/Machine/Ops.lean ====
section
/-! DEFINITION. The named operations over the state that every block uses: one stream slot of the state, the output pins,
the outstanding table, the response order lists, the fault record, fill data. -/
namespace Sys2Proof.Machine

open Sys2Proof

/-! ### Stream slots -/

/-- One stream slot. -/
def State.stream (s : State) (i : StreamId) : StreamState := s.streams.get i

/-- Puts back one stream slot. -/
def State.setStream (s : State) (i : StreamId) (x : StreamState) : State :=
  { s with streams := s.streams.set i.val x i.isLt }

/-- Changes one stream slot. -/
def State.onStream (s : State) (i : StreamId) (f : StreamState → StreamState) : State :=
  s.setStream i (f (s.stream i))

/-- The stream slots in index order. -/
def allStreams : List StreamId := [0, 1, 2, 3, 4, 5, 6, 7]

/-- The whole µs count (R97). -/
def State.now (s : State) : Micros := s.time.toNat

/-- The bytes of the descriptor in force (R148, note 1); none reads as no bytes. -/
def StreamState.desc (x : StreamState) : Descriptor :=
  match x.current with
  | some i => i.desc
  | none => []

/-- The outcome of the descriptor in force. -/
def StreamState.outcome (x : StreamState) : Option DescOutcome := x.current.map (·.outcome)

/-- An arm is in progress (R170). -/
def StreamState.arming (x : StreamState) : Bool := !x.armAwaited.isEmpty

/-- The lock state the part reports: DOWN for a stream that is not ACTIVE (R115). -/
def StreamState.reportedLock (x : StreamState) : Lock :=
  match x.life with
  | .active => x.lock
  | .off => .down
  | .draining => .down
  | .refused => .down

/-! ### Output pins -/

/-- The pins at the start of a step: nothing driven yet. -/
def State.quietPorts (s : State) : State := { s with ports := Ports.quiet }

/-! ### The outstanding table (R136) -/

/-- Who made an entry (Table 7-1, note 1). -/
def EntryKind.requester : EntryKind → Requester
  | .passThrough _ _ => .pass
  | .captureWrite _ _ _ _ => .pass
  | .captureRead _ _ => .pass
  | .presentationRead _ _ _ _ => .pass
  | .repairRead _ _ _ => .repair
  | .repairWrite _ _ _ => .repair
  | .loaderRead _ => .loader

/-- The initiator ID and tag of a PASS entry (Table 7-1). -/
def EntryKind.passKey : EntryKind → Option (Initiator × Tag)
  | .passThrough i t => some (i, t)
  | .captureWrite i t _ _ => some (i, t)
  | .captureRead i t => some (i, t)
  | .presentationRead i t _ _ => some (i, t)
  | .repairRead _ _ _ => none
  | .repairWrite _ _ _ => none
  | .loaderRead _ => none

/-- The stream and buffer an entry records, whose in-flight count it is counted in (R5, Table 7-1). -/
def EntryKind.counted : EntryKind → Option (StreamId × Nat)
  | .passThrough _ _ => none
  | .captureWrite _ _ st b => some (st, b)
  | .captureRead _ _ => none
  | .presentationRead _ _ st b => some (st, b)
  | .repairRead st b _ => some (st, b)
  | .repairWrite st b _ => some (st, b)
  | .loaderRead _ => none

/-- The entries in use of a requester. -/
def State.entriesOf (s : State) (r : Requester) : List Entry := s.table.filter (fun e => e.kind.requester == r)

/-- The table has a free entry (R137). -/
def State.tableHasRoom (s : State) : Bool := decide (s.table.length < Config.tableSize)

/-- The lowest-numbered free one of the numbers below `size` (log 9). -/
def lowestFree (size : Nat) (used : List Nat) : Nat :=
  ((List.range size).find? (fun n => !used.contains n)).getD 0

/-- The index a new entry takes (log 9). -/
def State.freeIndex (s : State) : Nat := lowestFree Config.tableSize (s.table.map (·.index))

/-- Makes an entry and issues its transaction on the downstream port: one event (R138). -/
def State.issue (s : State) (kind : EntryKind) (txn : DsTxn) : State :=
  { s with
    table := s.table ++ [{ index := s.freeIndex, kind := kind }]
    ports := { s.ports with issued := some txn } }

/-- Frees an entry (R144). -/
def State.freeEntry (s : State) (e : Entry) : State :=
  { s with table := s.table.filter (fun x => x.index != e.index) }

/-! ### Response order lists (R132) -/

/-- One initiator's list. -/
def State.order (s : State) (i : Initiator) : List OrderEntry := s.orders.get i

/-- Puts back one initiator's list. -/
def State.setOrder (s : State) (i : Initiator) (l : List OrderEntry) : State :=
  { s with orders := s.orders.set i.val l i.isLt }

/-- The ready entries at the head of a list, and what stays behind the first that waits (R132, Leave). -/
def splitReady : List OrderEntry → List OrderEntry × List OrderEntry
  | [] => ([], [])
  | e :: l =>
    match e.state with
    | .ready _ => (e :: (splitReady l).1, (splitReady l).2)
    | .waits _ => ([], e :: l)

/-- A ready entry as the response its initiator gets. -/
def OrderEntry.sent (i : Initiator) (e : OrderEntry) : List UpResponse :=
  match e.state with
  | .ready r => [{ initiator := i, tag := e.tag, dir := e.dir, response := r }]
  | .waits _ => []

/-- Sends the ready responses at the head of an initiator's list (R132, Leave). -/
def State.leaveReady (s : State) (i : Initiator) : State :=
  let l := splitReady (s.order i)
  { s.setOrder i l.2 with
    ports := { s.ports with responses := s.ports.responses ++ l.1.flatMap (OrderEntry.sent i) } }

/-- Direction of a transaction. -/
def Txn.dir (t : Txn) : Dir :=
  match t.body with
  | .read _ => .read
  | .write _ => .write

/-- A taken transaction joins the tail of its initiator's list (R132, Join). -/
def State.joinOrder (s : State) (t : Txn) (st : OrderState) : State :=
  s.setOrder t.initiator (s.order t.initiator ++ [{ tag := t.tag, dir := Txn.dir t, state := st }])

/-- The part answers a transaction itself: the entry is ready at the taking, and leaves when it is the head (R132, R133). -/
def State.answer (s : State) (t : Txn) (status : Status) (data : List Byte) : State :=
  (s.joinOrder t (.ready { status := status, data := data })).leaveReady t.initiator

/-- An OKAY acknowledgement of a write that the part drops or consumes. -/
def State.acknowledge (s : State) (t : Txn) : State := s.answer t .okay []

/-- The list entry that waits for table entry n holds this response from now on (R132, Ready). -/
def OrderEntry.fulfil (n : Nat) (r : Response) (e : OrderEntry) : OrderEntry :=
  if e.state = .waits n then { e with state := .ready r } else e

/-- A response from memory makes its order list entry ready, and the list sends what it can (R132, R143). -/
def State.fulfil (s : State) (i : Initiator) (n : Nat) (r : Response) : State :=
  (s.setOrder i ((s.order i).map (OrderEntry.fulfil n r))).leaveReady i

/-! ### Byte ranges and fill data (R38, R57, R123, R160) -/

/-- Two byte ranges, each a base and a length, share a byte. -/
def overlap (a n b m : Nat) : Bool := decide (a < b + m) && decide (b < a + n) && decide (0 < n) && decide (0 < m)

/-- Byte lane k of a fill word, lane 0 the least significant. -/
def fillLane (w : BitVec 32) (k : Nat) : Byte := Decode.byteOf w.toNat k

/-- `length` bytes of fill from bus address a on: the byte at address b carries lane b mod 4. -/
def fillBytes (w : BitVec 32) (a length : Nat) : List Byte :=
  (List.range length).map (fun i => fillLane w ((a + i) % 4))

/-- Answers a read with fill (R38). -/
def State.answerFill (s : State) (t : Txn) (w : BitVec 32) : State :=
  s.answer t .okay (fillBytes w t.address.toNat t.length)

/-! ### Access faults (R130, R131) -/

/-- Sets the event flag of a refusal: the stream's ACCESS_FAULT, or APERTURE_FAULT when no stream applies (R131). -/
def State.raiseRefusal (s : State) : Option StreamId → State
  | some st => s.onStream st (·.raise .accessFault)
  | none => s.raiseDevice .apertureFault

/-- Refuses a transaction: fault record, event, ERROR answer without data (R120, R130, R131). -/
def State.refuse (s : State) (t : Txn) (cause : FaultCause) (st : Option StreamId) : State :=
  ({ s with fault := { initiator := t.initiator, dir := Txn.dir t, address := t.address, cause := cause, stream := st } }
    |>.raiseRefusal st).answer t .error []

end Sys2Proof.Machine
end

