-- ==== Sys2Proof/Machine/Pool.lean ====
section
/-! DEFINITION. The Pool Manager's requests on one stream's buffers (Chapter 1): release, frame start and steal, pins and
in-flight counts, skip, bind, unbind, hold mark, join, building the pool. -/
namespace Sys2Proof.Machine

open Sys2Proof

/-! ### Records -/

/-- A record cleared into FREE (R3, R4). -/
def Buf.cleared (b : Buf) : Buf := Buf.fresh b.base

/-- The base as a byte address (R1). -/
def Buf.address (b : Buf) : Nat := b.base.toNat * Config.bufferUnit

/-- The number of set coverage flags (Table 1-1). -/
def Buf.covered (b : Buf) : Nat := b.coverage.length

/-- A RELEASING buffer whose in-flight and pins are both 0 goes to FREE (R4). -/
def Buf.settle (b : Buf) : Buf :=
  if b.state = .releasing ∧ b.inFlight = 0 ∧ b.pins = 0 then b.cleared else b

/-- The release of one record (R4, steps 2 and 3); RELEASING and FREE stay as they are. -/
def Buf.release (b : Buf) : Buf :=
  if b.state = .free ∨ b.state = .releasing then b
  else if b.inFlight = 0 ∧ b.pins = 0 then b.cleared
  else { b with state := .releasing, hold := false }

/-- Sets a line's flag in a rising list of lines; a flag already set stays (R33). -/
def markLine (n : Nat) : List Nat → List Nat
  | [] => [n]
  | m :: l => if n < m then n :: m :: l else if n = m then m :: l else m :: markLine n l

/-- The record becomes FILLING for the frame with this sequence (R8). -/
def Buf.fill (seq : BitVec 32) (b : Buf) : Buf :=
  { Buf.fresh b.base with state := .filling, seq := seq }

/-! ### One stream's pool -/

/-- Changes one record. -/
def StreamState.onBuf (x : StreamState) (i : Nat) (f : Buf → Buf) : StreamState :=
  { x with bufs := x.bufs.modify i f }

/-- Takes a buffer out of the READY queue. -/
def StreamState.dequeue (x : StreamState) (i : Nat) : StreamState :=
  { x with ready := x.ready.filter (· != i) }

/-- The indices of the records for which p holds, in index order. -/
def StreamState.indices (x : StreamState) (p : Buf → Bool) : List Nat :=
  (List.range x.bufs.length).filter (fun i => (x.bufs[i]?).any p)

/-- A record's sequence, 0 for no record. -/
def StreamState.seqOf (x : StreamState) (i : Nat) : Nat :=
  match x.bufs[i]? with
  | some b => b.seq.toNat
  | none => 0

/-- A record's state. -/
def StreamState.stateOf (x : StreamState) (i : Nat) : Option BufState := (x.bufs[i]?).map Buf.state

/-- The index with the highest key; the first of equals (log 27). -/
def highest (key : Nat → Nat) : List Nat → Option Nat
  | [] => none
  | i :: l =>
    match highest key l with
    | none => some i
    | some j => if key i < key j then some j else some i

/-- The index with the lowest key; the first of equals (log 27). -/
def lowest (key : Nat → Nat) : List Nat → Option Nat
  | [] => none
  | i :: l =>
    match lowest key l with
    | none => some i
    | some j => if key j < key i then some j else some i

/-- The newest buffer for which p holds: the highest sequence. -/
def StreamState.newestBuf (x : StreamState) (p : Buf → Bool) : Option Nat := highest x.seqOf (x.indices p)

/-- The oldest buffer for which p holds: the lowest sequence. -/
def StreamState.oldestBuf (x : StreamState) (p : Buf → Bool) : Option Nat := lowest x.seqOf (x.indices p)

/-- How many buffers are in one of these states. -/
def StreamState.countIn (x : StreamState) (states : List BufState) : Nat :=
  (x.bufs.filter (fun b => states.contains b.state)).length

/-- Every buffer is FREE (R25). -/
def StreamState.allFree (x : StreamState) : Bool := x.bufs.all (fun b => b.state == .free)

/-- A release (R4): out of the READY queue, hold cleared, to FREE or RELEASING. -/
def StreamState.release (x : StreamState) (i : Nat) : StreamState := (x.dequeue i).onBuf i Buf.release

/-- A release counted once in skipped (R9, R14, R15, R16). -/
def StreamState.releaseSkipped (x : StreamState) (i : Nat) : StreamState := (x.release i).count .skipped

/-! ### Pins and in-flight (R5, R7) -/

def StreamState.increment (x : StreamState) (i : Nat) : StreamState :=
  x.onBuf i (fun b => { b with inFlight := b.inFlight + 1 })

def StreamState.pin (x : StreamState) (i : Nat) : StreamState :=
  x.onBuf i (fun b => { b with pins := b.pins + 1 })

/-- Unpin; a RELEASING buffer left with pins 0 and in-flight 0 goes to FREE (R7). -/
def StreamState.unpin (x : StreamState) (i : Nat) : StreamState :=
  x.onBuf i (fun b => Buf.settle { b with pins := b.pins - 1 })

/-- The record after a decrement, with the write error mark of R6 when the response was an ERROR to a capture write. -/
def Buf.decrement (writeError : Bool) (b : Buf) : Buf :=
  let marked : Bool := writeError && decide (b.state = .filling ∨ b.state = .closing)
  Buf.settle { b with inFlight := b.inFlight - 1, writeError := b.writeError || marked }

/-! ### Frame start (R8 to R10) -/

/-- Stealing is allowed: LATEST in any lock state, QUEUE in SEARCH or FREERUN (R9). -/
def StreamState.stealAllowed (x : StreamState) : Bool :=
  match Decode.discipline x.desc with
  | .latest => true
  | .queue => x.lock == .search || x.lock == .freerun

/-- A frame start with its sequence: the buffer the frame takes, or none for SINK, with OVERRUN raised (R8 to R10). -/
def StreamState.startFrame (x : StreamState) (seq : BitVec 32) : StreamState × Option Nat :=
  match x.bufs.findIdx? (fun b => b.state == .free) with
  | some i => (x.onBuf i (Buf.fill seq), some i)
  | none =>
    match if x.stealAllowed then x.oldestBuf (fun b => b.state == .ready && b.pins == 0) else none with
    | some i => (((x.dequeue i).count .skipped).onBuf i (Buf.fill seq), some i)
    | none => (x.raise .overrun, none)

/-! ### Skip, bind, unbind (R15, R20, R21) -/

/-- A skip naming sequence s releases every READY buffer below it (R15). -/
def StreamState.skip (x : StreamState) (seq : BitVec 32) : StreamState :=
  (x.indices (fun b => b.state == .ready && decide (b.seq < seq))).foldl StreamState.releaseSkipped x

/-- A bind (R20). -/
def StreamState.bind (x : StreamState) (i : Nat) : StreamState :=
  match x.stateOf i with
  | some .ready => (x.dequeue i).onBuf i (fun b => { b with state := .shown, readers := 1 })
  | some .shown => x.onBuf i (fun b => { b with readers := b.readers + 1 })
  | some .kept => x.onBuf i (fun b => { b with state := .shown, readers := 1 })
  | _ => x

/-- An unbind (R21): at readers 0 the buffer becomes KEPT with the hold mark, and is released without it. -/
def StreamState.unbind (x : StreamState) (i : Nat) : StreamState :=
  let y := x.onBuf i (fun b => { b with readers := b.readers - 1 })
  match y.bufs[i]? with
  | some b =>
    if b.readers = 0 then
      if b.hold then y.onBuf i (fun b => { b with state := .kept }) else y.release i
    else y
  | none => y

/-! ### Hold mark (R22, R23) -/

/-- The hold placement: the newest SHOWN or READY buffer takes the mark, a READY one becoming KEPT (R22). -/
def StreamState.placeHold (x : StreamState) : StreamState :=
  match x.newestBuf (fun b => b.state == .shown || b.state == .ready) with
  | some i =>
    (x.dequeue i).onBuf i (fun b =>
      if b.state = .ready then { b with state := .kept, hold := true } else { b with hold := true })
  | none => x

/-- The buffer that carries the hold mark. -/
def StreamState.marked (x : StreamState) : Option Nat := x.bufs.findIdx? (·.hold)

/-- The hold clearing: a KEPT buffer is released, a SHOWN one stays SHOWN (R23). -/
def StreamState.clearHold (x : StreamState) : StreamState :=
  match x.marked with
  | some i =>
    let y := x.onBuf i (fun b => { b with hold := false })
    if x.stateOf i = some .kept then y.release i else y
  | none => x

/-! ### Join (R14, R16) -/

/-- Places a buffer in the READY queue after every one of lower sequence and before every one of higher (R14). -/
def insertBySeq (key : Nat → Nat) (i : Nat) : List Nat → List Nat
  | [] => [i]
  | j :: l => if key i < key j then i :: j :: l else j :: insertBySeq key i l

/-- Trimming applies: SEARCH or FREERUN, under HOLD or FILL (R16). -/
def StreamState.trims (x : StreamState) : Bool :=
  (x.lock == .search || x.lock == .freerun)
    && (Decode.unlock x.desc == some .hold || Decode.unlock x.desc == some .fill)

/-- The trim releases every READY buffer but the newest (R16). -/
def StreamState.trim (x : StreamState) : StreamState :=
  match x.newestBuf (fun b => b.state == .ready) with
  | some n => ((x.indices (fun b => b.state == .ready)).filter (· != n)).foldl StreamState.releaseSkipped x
  | none => x

/-- A finished frame newer than this one is READY, SHOWN or KEPT (R14). -/
def StreamState.overtaken (x : StreamState) (i : Nat) : Bool :=
  x.bufs.any (fun b => (b.state == .ready || b.state == .shown || b.state == .kept)
    && decide (x.seqOf i < b.seq.toNat))

/-- A join: superseding under LATEST, else insertion by sequence and trimming (R14). -/
def StreamState.join (x : StreamState) (i : Nat) : StreamState :=
  if Decode.discipline x.desc = .latest ∧ x.overtaken i then x.releaseSkipped i
  else
    let y := { x.onBuf i (fun b => { b with state := .ready }) with ready := insertBySeq x.seqOf i x.ready }
    if y.trims then y.trim else y

/-! ### Order barrier (R17) -/

/-- Some CLOSING or REPAIRING buffer is older than the READY head (R17). -/
def StreamState.barrier (x : StreamState) : Bool :=
  match x.ready.head? with
  | some h => x.bufs.any (fun b => (b.state == .closing || b.state == .repairing) && decide (b.seq.toNat < x.seqOf h))
  | none => false

/-! ### Building (R26, R70) -/

/-- The pool of a descriptor: pool size records, all FREE (R26). -/
def poolOf (d : Descriptor) : List Buf := (List.range (Decode.poolSize d)).map (fun i => Buf.fresh (Decode.bufferBase d i))

/-- A stream's pool is built from its descriptor in force; the READY queue is empty (R26). -/
def StreamState.buildPool (x : StreamState) : StreamState := { x with bufs := poolOf x.desc, ready := [] }

/-- A stream has no buffer records (R26). -/
def StreamState.dropPool (x : StreamState) : StreamState := { x with bufs := [], ready := [] }

/-- The pool of an OFF stream: built when the descriptor's pool size lies in 2 to 6, none otherwise (R26). -/
def StreamState.standbyPool (x : StreamState) : StreamState :=
  if 2 ≤ Decode.poolSize x.desc ∧ Decode.poolSize x.desc ≤ 6 then x.buildPool else x.dropPool

/-- A reader entry as it is built from a descriptor (R70). -/
def readerOf (d : Descriptor) (k : ReaderSlot) : Reader :=
  { valid := (Decode.readerSlot d k).valid, id := (Decode.readerSlot d k).id, state := .unbound, boundSeq := 0#32,
    lastSource := .fill, lastSkipped := 0#16, timer := .stopped }

/-- Both reader entries are built from the descriptor in force (R70). -/
def StreamState.buildReaders (x : StreamState) : StreamState := { x with readers := [readerOf x.desc 0, readerOf x.desc 1] }

/-! ### Teardown (R24) -/

/-- The Pool Manager's teardown request: every CLOSING and READY buffer is released, uncounted (R24). -/
def StreamState.poolTeardown (x : StreamState) : StreamState :=
  (x.indices (fun b => b.state == .closing || b.state == .ready)).foldl StreamState.release x

end Sys2Proof.Machine
end

