-- ==== Sys2Proof/Machine/Lock.lean ====
section
/-! DEFINITION. The Cadence Monitor: arrivals, lock inputs, the lock state machine and its hold requests (Chapter 5); and
the handing-on of a final verdict (R13, R44). -/
namespace Sys2Proof.Machine

open Sys2Proof

/-- Classes of lock inputs (R102). -/
inductive LockInput where
  | good
  | fault
  | neutral
  deriving DecidableEq, Repr

/-- The class of a final verdict with its buffer's early flag (Table 5-3). -/
def Verdict.lockInput (early : Bool) : Verdict → LockInput
  | .clean => if early then .fault else .good
  | .repairedPad => if early then .fault else .good
  | .repairedCopy => if early then .fault else .good
  | .rejectedShort => .fault
  | .rejectedBusy => .fault
  | .rejectedRepairFail => .fault
  | .rejectedWriteError => .fault
  | .abandoned => .neutral
  | .droppedOverrun => .neutral
  | .none => .neutral

/-- The change into FREERUN: LOCK_LOST, and under HOLD the hold placement in the same taking (R106, R108, R109). -/
def StreamState.loseLock (x : StreamState) : StreamState :=
  let y := { x with lock := .freerun, loss := 0 }.raise .lockLost
  if Decode.unlock x.desc = some .hold then y.placeHold else y

/-- The change from SEARCH into LOCKED: LOCK_GAINED (R105, R108). -/
def StreamState.gainLock (x : StreamState) : StreamState :=
  { x with lock := .locked, acquire := 0 }.raise .lockGained

/-- The relock: LOCK_GAINED, and under HOLD the hold clearing in the same taking (R107, R110). -/
def StreamState.relock (x : StreamState) : StreamState :=
  let y := x.gainLock
  if Decode.unlock x.desc = some .hold then y.clearHold else y

/-- One lock input applied to the lock state machine (Table 5-4). -/
def StreamState.lockInput (x : StreamState) (input : LockInput) : StreamState :=
  match x.lock, input with
  | .down, _ => x
  | _, .neutral => x
  | .search, .good =>
    if Decode.acquireCount x.desc ≤ x.acquire + 1 then x.gainLock else { x with acquire := x.acquire + 1 }
  | .search, .fault => { x with acquire := 0 }
  | .locked, .good => x
  | .locked, .fault => if Decode.lossCount x.desc ≤ 1 then x.loseLock else { x with lock := .coast, loss := 1 }
  | .coast, .good => { x with lock := .locked, loss := 0 }
  | .coast, .fault =>
    if Decode.lossCount x.desc ≤ x.loss + 1 then x.loseLock else { x with loss := x.loss + 1 }
  | .freerun, .good =>
    if Decode.reacquireCount x.desc ≤ x.acquire + 1 then x.relock else { x with acquire := x.acquire + 1 }
  | .freerun, .fault => { x with acquire := 0 }

/-- An arrival at time t with P ≠ 0 is early when t < r + P − T (R98); with P = 0 none is (R101). -/
def StreamState.isEarly (x : StreamState) (t : Micros) : Bool :=
  decide (Decode.period x.desc ≠ 0) && decide (t + Decode.tolerance x.desc < x.ref + Decode.period x.desc)

/-- The timer of reference point r: RUNNING to r + P + T, or STOPPED with P = 0 (R96, R101). -/
def cadenceTimer (d : Descriptor) (r : Micros) : Timer :=
  if Decode.period d = 0 then .stopped else .running (r + Decode.period d + Decode.tolerance d)

/-- An arrival taken at time t: count, reference point, timer (R98, R101). -/
def StreamState.arrive (x : StreamState) (t : Micros) : StreamState :=
  let y := if x.isEarly t then x.count .earlyCloses else x
  { y with ref := t, timer := cadenceTimer x.desc t }

/-- A cadence expiry taken as a miss (R99). -/
def StreamState.miss (x : StreamState) : StreamState :=
  let r := x.ref + Decode.period x.desc
  { x.count .misses with ref := r, timer := cadenceTimer x.desc r }.lockInput .fault

/-- The Capture Unit takes a verdict report (R44). -/
def StreamState.report (x : StreamState) (e : VerdictEntry) : StreamState :=
  { x with previous := x.newest, newest := e }

/-- The Event Unit's part of a verdict handed on (R13). -/
def StreamState.countVerdict (x : StreamState) : Verdict → StreamState
  | .clean => x.count .clean
  | .repairedPad => x.count .repaired
  | .repairedCopy => x.count .repaired
  | .rejectedShort => (x.count .rejected).raise .frameRejected
  | .rejectedBusy => (x.count .rejected).raise .frameRejected
  | .rejectedRepairFail => (x.count .rejected).raise .frameRejected
  | .rejectedWriteError => (x.count .rejected).raise .frameRejected
  | .abandoned => x.count .abandoned
  | .droppedOverrun => x.count .droppedOverrun
  | .none => x

/-- lines − covered count (R12). -/
def StreamState.missing (x : StreamState) (b : Buf) : Nat := Decode.lines x.desc - b.covered

/-- The final verdict of a buffer's frame is handed on to the Cadence Monitor, the Capture Unit and the Event Unit (R13). -/
def StreamState.handOn (x : StreamState) (v : Verdict) (b : Buf) : StreamState :=
  ((x.lockInput (v.lockInput b.early)).report
    { verdict := v, seq := b.seq, producerSeq := b.close.producerSeq, missing := x.missing b }).countVerdict v

/-- A good verdict: handed on, recorded, and the buffer joins the READY queue (R12, R14, R18). -/
def StreamState.finishGood (x : StreamState) (v : Verdict) (i : Nat) (b : Buf) : StreamState :=
  ((x.handOn v b).onBuf i (fun b => { b with verdict := v })).join i

/-- A bad verdict: handed on, and the buffer is released (R12, R19). -/
def StreamState.finishBad (x : StreamState) (v : Verdict) (i : Nat) (b : Buf) : StreamState :=
  (x.handOn v b).release i

/-- The Cadence Monitor takes the teardown request: timer STOPPED, DOWN, counters 0, hold clearing under HOLD (R113). -/
def StreamState.cadenceTeardown (x : StreamState) : StreamState :=
  let y := { x with timer := .stopped, lock := .down, acquire := 0, loss := 0 }
  if Decode.unlock x.desc = some .hold then y.clearHold else y

end Sys2Proof.Machine
end

