-- ==== Sys2Proof/Machine/Records.lean ====
section
/-! DEFINITION. The codes and byte layouts of the records and snapshots the part makes (Chapter 11). -/
namespace Sys2Proof.Machine

open Sys2Proof Sys2Proof.Decode

/-! ### Codes -/

/-- Table 11-4. -/
def Verdict.code : Verdict → Nat
  | .none => 0
  | .clean => 1
  | .repairedPad => 2
  | .repairedCopy => 3
  | .rejectedShort => 4
  | .rejectedBusy => 5
  | .rejectedRepairFail => 6
  | .rejectedWriteError => 7
  | .abandoned => 8
  | .droppedOverrun => 9

/-- Table 11-5. -/
def Lock.code : Lock → Nat
  | .down => 0
  | .search => 1
  | .locked => 2
  | .coast => 3
  | .freerun => 4

/-- Table 11-2, frame mode. -/
def FrameMode.code : FrameMode → Nat
  | .none => 0
  | .buffer _ => 1
  | .sink => 2

/-- Table 11-3, source. -/
def Source.code : Source → Nat
  | .fill => 0
  | .frame => 1
  | .repeated => 2
  | .hold => 3

/-- Table 11-3, reader state. -/
def ReaderState.code : ReaderState → Nat
  | .unbound => 0
  | .bound _ => 1
  | .subst => 2
  | .stale => 3

/-- Table 11-14, state. -/
def BufState.code : BufState → Nat
  | .free => 0
  | .filling => 1
  | .closing => 2
  | .repairing => 3
  | .ready => 4
  | .shown => 5
  | .kept => 6
  | .releasing => 7

/-- Table 11-12, device state. -/
def Device.code : Device → Nat
  | .transparent => 0
  | .loading => 1
  | .running => 2
  | .configFault => 3

/-- Table 11-12, last reload result. -/
def ReloadResult.code : ReloadResult → Nat
  | .none => 0
  | .applied => 1
  | .noChange => 2
  | .failed => 3

/-- Table 11-13, lifecycle state. -/
def Lifecycle.code : Lifecycle → Nat
  | .off => 0
  | .active => 1
  | .draining => 2
  | .refused => 3

/-- Table 11-13, descriptor. -/
def outcomeCode : Option DescOutcome → Nat
  | none => 0
  | some .enabled => 1
  | some .refused => 2
  | some .disabled => 3

/-- Table 11-16. -/
def FaultCause.code : FaultCause → Nat
  | .none => 0
  | .crossing => 1
  | .guardedWrite => 2
  | .unmapped => 3
  | .notReady => 4
  | .notOwner => 5
  | .writeToPresentation => 6
  | .markMisuse => 7

/-- Table 11-17. -/
def RefusalCause.code : RefusalCause → Nat
  | .none => 0
  | .badGeometry => 1
  | .windowOutsideAperture => 2
  | .windowOverlap => 3
  | .badPool => 4
  | .bufferOverlap => 5
  | .badReaders => 6
  | .holdNeedsThree => 7
  | .badCounts => 8
  | .badTiming => 9

/-- Table 11-12, direction. -/
def Dir.code : Dir → Nat
  | .read => 0
  | .write => 1

/-- One byte. -/
def byte (n : Nat) : List Byte := leBytes 1 n

/-- An optional index: FFh when absent (R201). -/
def optionalByte : Option Nat → List Byte
  | some n => byte n
  | none => byte 0xFF

/-! ### Mark slot records -/

/-- The capture status record of Table 11-2 from its varying fields; the verdict fields come from the entries (R46, R47). -/
def statusRecord (x : StreamState) (lock : Lock) (mode : FrameMode) (freeCount covered pending : Nat) : List Byte :=
  byte 0x53 ++ byte lock.code ++ byte mode.code ++ byte freeCount ++ leBytes 4 x.lastSeq.toNat ++ leBytes 2 covered
    ++ byte pending ++ byte x.newest.verdict.code ++ byte x.previous.verdict.code ++ byte 0
    ++ leBytes 2 x.newest.missing ++ leBytes 4 x.newest.seq.toNat ++ leBytes 2 x.newest.producerSeq.toNat
    ++ leBytes 2 x.previous.producerSeq.toNat ++ leBytes 4 x.previous.seq.toNat ++ leBytes 2 x.previous.missing
    ++ leBytes 2 0

/-- Covered lines of the status record: the FILLING buffer's count in BUFFER, 0 otherwise (Table 2-3). -/
def StreamState.coveredNow (x : StreamState) : Nat :=
  match x.mode with
  | .buffer i => ((x.bufs[i]?).map Buf.covered).getD 0
  | .none => 0
  | .sink => 0

/-- The capture status record of an ACTIVE stream (R46). -/
def StreamState.activeStatus (x : StreamState) : List Byte :=
  statusRecord x x.lock x.mode (x.countIn [.free]) x.coveredNow (x.countIn [.closing, .repairing])

/-- The capture status record of a stream that is OFF, DRAINING or REFUSED (R47). -/
def StreamState.dormantStatus (x : StreamState) : List Byte :=
  statusRecord x .down .none (x.countIn [.free]) 0 0

/-- Time from the close arrival to now, held at FFFF FFFFh (Table 4-5). -/
def ageOf (now close : Micros) : Nat := min (now - close) 0xFFFFFFFF

/-- The presentation record of reader slot k with this entry (R84, Table 11-3). -/
def StreamState.presentationRecord (x : StreamState) (now : Micros) (k : ReaderSlot) (r : Reader) : List Byte :=
  let head := byte 0x50 ++ byte r.lastSource.code ++ byte k.val ++ byte r.state.code ++ byte x.reportedLock.code
  match r.state with
  | .bound i =>
    match x.bufs[i]? with
    | some b =>
      head ++ byte b.verdict.code ++ [flagByte [b.close.tagValid, b.early]] ++ byte 0 ++ leBytes 4 r.boundSeq.toNat
        ++ leBytes 2 b.close.producerSeq.toNat ++ leBytes 2 (x.missing b) ++ leBytes 4 b.close.userTag.toNat
        ++ leBytes 2 r.lastSkipped.toNat ++ leBytes 2 0 ++ leBytes 4 (ageOf now b.close.time) ++ leBytes 4 0
    | none => head ++ List.replicate 27 0#8
  | .unbound => head ++ List.replicate 27 0#8
  | .subst => head ++ List.replicate 27 0#8
  | .stale => head ++ List.replicate 27 0#8

/-- The dormant presentation record, naming the requesting reader slot (R85). -/
def dormantPresentation (k : ReaderSlot) : List Byte := byte 0x50 ++ byte 0 ++ byte k.val ++ List.replicate 29 0#8

/-! ### Management snapshots -/

/-- GET_DEVICE data (Table 11-12, R188). -/
def State.deviceSnapshot (s : State) : List Byte :=
  leBytes 2 Config.deviceCode.toNat ++ [Config.revision, s.apsel, s.cfgsel] ++ byte s.device.code
    ++ [flagByte [s.reloadInProgress, s.softResetPending]] ++ byte s.lastReload.code ++ leBytes 4 s.generation.toNat
    ++ optionalByte (s.copyIndex.map (·.val)) ++ byte s.deviceFlags.toNat ++ byte s.fault.initiator.val
    ++ byte s.fault.dir.code ++ leBytes 5 s.fault.address.toNat ++ byte s.fault.cause.code
    ++ optionalByte (s.fault.stream.map (·.val))

/-- The refusal cause of the descriptor in force, NONE without one (R188). -/
def StreamState.refusalCause (x : StreamState) : RefusalCause :=
  match x.current with
  | some i => i.cause
  | none => .none

/-- GET_STREAM data (Table 11-13, R188; log 14). -/
def StreamState.snapshot (x : StreamState) : List Byte :=
  byte (outcomeCode x.outcome) ++ byte x.refusalCause.code ++ byte x.life.code
    ++ byte x.armRequest.toNat ++ byte x.reportedLock.code ++ byte x.acquire ++ byte x.loss ++ [x.flags, x.mask]

/-- One GET_POOL entry (Table 11-14). -/
def Buf.snapshot (b : Buf) : List Byte :=
  byte b.state.code ++ byte b.verdict.code
    ++ [flagByte [b.early, b.writeError, b.hold, b.close.abandon, b.close.noRepair, b.close.tagValid]]
    ++ byte b.readers ++ byte b.pins ++ byte b.inFlight ++ leBytes 2 b.covered ++ leBytes 4 b.base.toNat
    ++ leBytes 4 b.seq.toNat ++ leBytes 2 b.close.producerSeq.toNat ++ leBytes 2 0 ++ leBytes 4 b.close.userTag.toNat
    ++ leBytes 4 b.close.time

/-- GET_POOL data (R189, R202). -/
def StreamState.poolSnapshot (x : StreamState) : List Byte :=
  byte x.bufs.length ++ x.bufs.flatMap Buf.snapshot ++ byte x.ready.length ++ x.ready.flatMap byte

/-- The µs remaining of a timer, 0 when STOPPED (Table 11-15). -/
def Timer.remaining (now : Micros) : Timer → Nat
  | .stopped => 0
  | .running e => e - now

/-- Whether a timer runs (Table 11-15). -/
def Timer.isRunning : Timer → Bool
  | .stopped => false
  | .running _ => true

/-- The bound buffer of a reader state. -/
def ReaderState.buffer : ReaderState → Option Nat
  | .bound i => some i
  | .unbound => none
  | .subst => none
  | .stale => none

/-- One GET_READERS entry (Table 11-15). -/
def Reader.snapshot (now : Micros) (r : Reader) : List Byte :=
  [flagByte [true, r.valid]] ++ byte r.id.val ++ byte r.state.code ++ optionalByte r.state.buffer
    ++ leBytes 4 r.boundSeq.toNat ++ byte r.lastSource.code ++ byte r.timer.isRunning.toNat
    ++ leBytes 2 r.lastSkipped.toNat ++ leBytes 4 (r.timer.remaining now)

/-- GET_READERS data: slot 0, then slot 1; an absent entry is 16 zero bytes (R189, R202). -/
def StreamState.readersSnapshot (x : StreamState) (now : Micros) : List Byte :=
  ([0, 1] : List Nat).flatMap (fun k =>
    match x.readers[k]? with
    | some r => r.snapshot now
    | none => List.replicate 16 0#8)

/-- Byte n of a coverage snapshot: lines 8n to 8n + 7 (R202). -/
def coverageByte (coverage : List Nat) (n : Nat) : Byte :=
  flagByte ((List.range 8).map (fun k => coverage.contains (8 * n + k)))

/-- GET_COVERAGE data of one buffer: 256 bytes (R202). -/
def Buf.coverageSnapshot (b : Buf) : List Byte := (List.range 256).map (coverageByte b.coverage)

/-- GET_COUNTERS data (R195, R202). -/
def Counters.snapshot (c : Counters) : List Byte := c.inOrder.flatMap (fun v => leBytes 2 v.toNat)

end Sys2Proof.Machine
end

