-- ==== Sys2Proof/Machine/Repair.lean ====
section
/-! DEFINITION. The Repair Engine (Chapter 3) and the verdict at drain, which queues its jobs (R12, R51). -/
namespace Sys2Proof.Machine

open Sys2Proof

/-! ### The walk (R55, R56) -/

/-- The lowest line from n on that is not covered, or `lines` when there is none (R51, R55). -/
def nextMissing (coverage : List Nat) (lines n : Nat) : Nat :=
  ((List.range lines).find? (fun k => decide (n ≤ k) && !coverage.contains k)).getD lines

/-- The extent offset of the job's next burst (R56). -/
def burstOffset (d : Descriptor) (j : Job) : Nat := j.nextLine * Decode.pitch d + j.nextPos

/-- The length of the job's next burst: the smallest of the three bounds of R56. -/
def burstLength (d : Descriptor) (j : Job) : Nat :=
  min 256 (min (Decode.lineBytes d - j.nextPos) (Config.pageSize - burstOffset d j % Config.pageSize))

/-- The walk is finished (R55). -/
def walkDone (d : Descriptor) (j : Job) : Bool := decide (Decode.lines d ≤ j.nextLine)

/-- The job after its next burst is issued (R55, R56). -/
def Job.walked (j : Job) (d : Descriptor) (coverage : List Nat) : Job :=
  let p := j.nextPos + burstLength d j
  if p < Decode.lineBytes d then { j with nextPos := p }
  else { j with nextLine := nextMissing coverage (Decode.lines d) (j.nextLine + 1), nextPos := 0 }

/-! ### The presented request (R59; log 10) -/

/-- What the Repair Engine presents: the write of a held COPY burst, or the first transaction of the next burst. -/
inductive RepairRequest where
  | writeHeld (slot offset : Nat) (data : List Byte)
  | nextBurst
  deriving DecidableEq, Repr

/-- The oldest burst whose read has returned and whose write is not issued (R59). -/
def oldestHeld : List Burst → Option RepairRequest
  | [] => none
  | b :: l =>
    match b.phase with
    | .held d => some (.writeHeld b.slot b.offset d)
    | .reading => oldestHeld l
    | .writing => oldestHeld l

/-- The request the Repair Engine presents for its head job (R59); none outside RUNNING and in a soft reset's wait (R68). -/
def State.repairRequest (s : State) : Option (Job × RepairRequest) :=
  if s.softResetPending then none
  else
    match s.jobs with
    | [] => none
    | j :: _ =>
      if j.state = .running then
        match oldestHeld s.bursts with
        | some q => some (j, q)
        | none =>
          if s.bursts.length < Config.repairLimit ∧ ¬ walkDone (s.stream j.stream).desc j then some (j, .nextBurst) else none
      else none

/-- A REPAIR request stands (R137). -/
def State.repairStands (s : State) : Bool := s.repairRequest.isSome

/-- The standing REPAIR request is withdrawn, which sets the starvation counter to 0 (R139). Used where the head job
leaves RUNNING by an error or a cancellation, on the state before it does. -/
def State.withdrawRepair (s : State) : State := if s.repairStands then { s with starvation := 0 } else s

/-! ### Queueing (R51, R52) -/

/-- The COPY source for a target: the newest READY, SHOWN or KEPT buffer older than it (R52). -/
def StreamState.copySource (x : StreamState) (i : Nat) : Option Nat :=
  x.newestBuf (fun b => (b.state == .ready || b.state == .shown || b.state == .kept) && decide (b.seq.toNat < x.seqOf i))

/-- The method of a job for this target (R52). -/
def StreamState.repairMethod (x : StreamState) (i : Nat) : Method :=
  if Decode.repairPolicy x.desc = some .copy then
    match x.copySource i with
    | some k => .copy k
    | none => .pad
  else .pad

/-- Pins the source of a COPY job (R7). -/
def StreamState.pinFor (x : StreamState) : Method → StreamState
  | .copy k => x.pin k
  | .pad => x

/-- Unpins the source of a COPY job (R7). -/
def StreamState.unpinFor (x : StreamState) : Method → StreamState
  | .copy k => x.unpin k
  | .pad => x

/-- Check 6 of the drain: a job for the buffer joins the tail of the queue, RUNNING at once when it was empty (R51). -/
def State.queueJob (s : State) (st : StreamId) (i : Nat) (b : Buf) : State :=
  let x := s.stream st
  let m := x.repairMethod i
  let y := (x.pinFor m).onBuf i (fun b => { b with state := .repairing })
  let j : Job :=
    { stream := st, target := i, method := m, state := if s.jobs.isEmpty then .running else .queued,
      nextLine := nextMissing b.coverage (Decode.lines x.desc) 0, nextPos := 0, outstanding := 0 }
  { s.setStream st y with jobs := s.jobs ++ [j] }

/-! ### The verdict at drain (R12) -/

/-- The checks of R12 in their order; NONE stands for check 6, the queuing of a job. -/
def drainVerdict (x : StreamState) (b : Buf) (queued : Nat) : Verdict :=
  if b.writeError then .rejectedWriteError
  else if b.close.abandon then .abandoned
  else if x.missing b = 0 then .clean
  else if b.close.noRepair ∨ Decode.repairPolicy x.desc = some .reject ∨ Decode.repairLimit x.desc < x.missing b then
    .rejectedShort
  else if Config.jobLimit ≤ queued then .rejectedBusy
  else .none

/-- The verdict at drain of a CLOSING buffer whose in-flight count is 0 (R12). -/
def State.drain (s : State) (st : StreamId) (i : Nat) : State :=
  match (s.stream st).bufs[i]? with
  | none => s
  | some b =>
    if b.state = .closing ∧ b.inFlight = 0 then
      match drainVerdict (s.stream st) b s.jobs.length with
      | .none => s.queueJob st i b
      | .clean => s.onStream st (fun x => x.finishGood .clean i b)
      | v => s.onStream st (fun x => x.finishBad v i b)
    else s

/-- An in-flight decrement, with the write error mark of R6 where asked, and the verdict it may start (R5). -/
def State.decrement (s : State) (st : StreamId) (i : Nat) (writeError : Bool) : State :=
  (s.onStream st (fun x => x.onBuf i (Buf.decrement writeError))).drain st i

/-! ### Job ends (R60, R64, R66) -/

/-- The Pool Manager has taken the stream's teardown request: the third of the five (R173). -/
def StreamState.poolTornDown (x : StreamState) : Bool := x.life == .draining && decide (3 ≤ x.drainTaken)

/-- The report of a job end at the Pool Manager: done, failed, or taken as cancelled after its teardown request (R67). -/
def StreamState.jobReport (x : StreamState) (j : Job) : StreamState :=
  match x.bufs[j.target]? with
  | none => x
  | some b =>
    if j.state = .cancelling ∨ x.poolTornDown then x.release j.target
    else if j.state = .failing then x.finishBad .rejectedRepairFail j.target b
    else
      match j.method with
      | .copy _ => x.finishGood .repairedCopy j.target b
      | .pad => x.finishGood .repairedPad j.target b

/-- A job that becomes the head is RUNNING (R54). -/
def promote : List Job → List Job
  | [] => []
  | j :: l => (if j.state = .queued then { j with state := .running } else j) :: l

/-- The head job ends: unpin, report, removal, and the next job becomes the head (R60, R64, R66). -/
def State.endJob (s : State) (j : Job) : State :=
  { s.onStream j.stream (fun x => (x.unpinFor j.method).jobReport j) with jobs := promote s.jobs.tail, bursts := [] }

/-- The head job has nothing left to wait for: in RUNNING the walk is finished and no slot is held, in FAILING and
CANCELLING nothing is outstanding (R60, R64, R66). -/
def State.jobOver (s : State) (j : Job) : Bool :=
  match j.state with
  | .running => walkDone (s.stream j.stream).desc j && j.outstanding == 0 && s.bursts.isEmpty
  | .failing => j.outstanding == 0
  | .cancelling => j.outstanding == 0
  | .queued => false

/-- Ends the head job where it is over; not in a soft reset's wait (R68). -/
def State.settleJob (s : State) : State :=
  match s.jobs with
  | [] => s
  | j :: _ => if !s.softResetPending && s.jobOver j then s.endJob j else s

/-! ### Responses (R58, R63, R64, R68) -/

/-- Changes the head job. -/
def State.onHead (s : State) (f : Job → Job) : State :=
  match s.jobs with
  | [] => s
  | j :: l => { s with jobs := f j :: l }

/-- The bursts without the one in this slot. -/
def freeSlot (n : Nat) (l : List Burst) : List Burst := l.filter (fun b => b.slot != n)

/-- The burst in this slot holds the data its read returned (R58). -/
def holdData (n : Nat) (data : List Byte) (l : List Burst) : List Burst :=
  l.map (fun b => if b.slot = n then { b with phase := .held data } else b)

/-- Bursts whose data waits for a write are abandoned (R63, R66). -/
def dropHeld (l : List Burst) : List Burst :=
  l.filter (fun b => match b.phase with
    | .held _ => false
    | .reading => true
    | .writing => true)

/-- The head job stands in RUNNING and its responses are looked at: not in a soft reset's wait (R68). -/
def State.repairLive (s : State) : Bool :=
  !s.softResetPending && (s.jobs.head?).any (fun j => j.state == .running)

/-- The Repair Engine's taking of a response to the transaction in this slot, before the decrement: data kept, slot freed,
or the job's first error (R58, R63, R64, R66, R68). -/
def State.routeRepair (s : State) (isRead : Bool) (slot : Nat) (status : Status) (data : List Byte) : State :=
  if s.repairLive then
    match status with
    | .okay =>
      if isRead then { s with bursts := holdData slot data s.bursts } else { s with bursts := freeSlot slot s.bursts }
    | .error =>
      let t := (s.withdrawRepair).onHead (fun j => { j with state := .failing })
      match s.jobs.head? with
      | some j => { t with bursts := dropHeld (freeSlot slot t.bursts) }.onStream j.stream (·.raise .repairFault)
      | none => t
  else { s with bursts := freeSlot slot s.bursts }

/-- The job's outstanding count falls by one and the job ends where it is over (R144, step 2). -/
def State.accountRepair (s : State) : State :=
  (s.onHead (fun j => { j with outstanding := j.outstanding - 1 })).settleJob

/-! ### Cancellation (R65, R66, R68) -/

/-- Unpin and cancelled report of a job of this stream (R65). -/
def StreamState.cancelJob (x : StreamState) (j : Job) : StreamState := (x.unpinFor j.method).release j.target

/-- The jobs behind the head are removed with their unpins and cancelled reports, in queue order (R65). -/
def State.cancelQueued (s : State) (st : StreamId) : State :=
  match s.jobs with
  | [] => s
  | j :: l =>
    { s.onStream st (fun x => (l.filter (fun k => k.stream == st)).foldl StreamState.cancelJob x) with
      jobs := j :: l.filter (fun k => k.stream != st) }

/-- The head job of the stream becomes CANCELLING, its request withdrawn and its held data discarded (R66). -/
def State.cancelHead (s : State) (st : StreamId) : State :=
  match s.jobs with
  | [] => s
  | j :: _ =>
    if j.stream = st then
      { (s.withdrawRepair).onHead (fun k => { k with state := .cancelling }) with bursts := dropHeld s.bursts }.settleJob
    else s

/-- The Repair Engine takes a cancellation; in a soft reset's wait it changes no job (R68). -/
def State.cancelRepair (s : State) (st : StreamId) : State :=
  if s.softResetPending then s else (s.cancelQueued st).cancelHead st

end Sys2Proof.Machine
end

