-- ==== Sys2Proof/Machine/Operands.lean ====
section
/-! DEFINITION. What the operand of an upstream command is: classification of a transaction at its taking (R118 to R128, with
the mark slot forms of R39, R72, R127, R128); and when the upstream port may take it (R137 to R140). -/
namespace Sys2Proof.Machine

open Sys2Proof

/-! ### When the port takes (R137 to R140) -/

/-- A LOADER request stands (R137): the head of the plan is presented; withdrawn in a soft reset's wait (R146). -/
def State.loaderRequest (s : State) : Option LoaderRead :=
  if s.softResetPending then none
  else
    match s.load with
    | some l => l.plan.head?
    | none => none

/-- A LOADER request stands and is eligible (R137). -/
def State.loaderEligible (s : State) : Bool :=
  s.loaderRequest.isSome && s.tableHasRoom && decide ((s.entriesOf .loader).length < Config.loaderLimit)

/-- A REPAIR request stands and is eligible (R137). -/
def State.repairEligible (s : State) : Bool :=
  s.repairStands && s.tableHasRoom && decide ((s.entriesOf .repair).length < Config.repairLimit)

/-- The REPAIR relief of R138 is due. -/
def State.reliefDue (s : State) : Bool := s.starvation == Config.reliefAt && s.repairEligible

/-- A PASS request of this initiator would be eligible: the port takes transactions at all (R135, R182), a table entry is
free and the initiator's list is not full (R137). -/
def State.passEligible (s : State) (i : Initiator) : Bool :=
  s.resetN && !s.softResetPending && s.tableHasRoom && decide ((s.order i).length < Config.orderLimit)

/-- The Arbiter grants a PASS request of this initiator (R138): the five waits of R140 are over. -/
def State.mayTake (s : State) (i : Initiator) : Bool := s.passEligible i && !s.loaderEligible && !s.reliefDue

/-! ### The aperture and its windows (R116, R118, R119) -/

/-- Aperture base (R116). -/
def State.apertureBase (s : State) : Nat := s.apsel.toNat * Config.apertureSize

/-- An address lies in the aperture (R116). -/
def State.inAperture (s : State) (a : Nat) : Bool :=
  decide (s.apertureBase ≤ a) && decide (a < s.apertureBase + Config.apertureSize)

/-- A window's kind (R118). -/
inductive WindowKind where
  | capture
  | presentation
  deriving DecidableEq, Repr

/-- A window of a stream that an address lies in. -/
structure Match where
  stream : StreamId
  kind : WindowKind
  entry : Windows
  deriving DecidableEq, Repr

/-- The window's base. -/
def Match.base (m : Match) : Nat :=
  match m.kind with
  | .capture => m.entry.capture.toNat
  | .presentation => m.entry.presentation.toNat

/-- The window offset of an address (R119). -/
def Match.offset (m : Match) (a : Nat) : Nat := a - m.base

/-- An address lies in a window of this base. -/
def Windows.covers (w : Windows) (base a : Nat) : Bool := decide (base ≤ a) && decide (a < base + w.size)

/-- A stream's entry for an address, the capture window before the presentation window (R118). -/
def State.matchIn (s : State) (a : Nat) (st : StreamId) : Option Match :=
  match (s.stream st).windows with
  | none => none
  | some w =>
    if w.covers w.capture.toNat a then some { stream := st, kind := .capture, entry := w }
    else if w.covers w.presentation.toNat a then some { stream := st, kind := .presentation, entry := w }
    else none

/-- The window match of an address: entries kept for draining streams first, then the others, lower index first (R118).
That every DRAINING stream counts here, one without a pending descriptor too, is log 35; the lower index first among
several draining streams is log 25. -/
def State.windowAt (s : State) (a : Nat) : Option Match :=
  let draining := allStreams.filter (fun st => (s.stream st).life == .draining)
  let others := allStreams.filter (fun st => (s.stream st).life != .draining)
  (draining ++ others).findSome? (s.matchIn a)

/-- The regions of a window (R119). -/
inductive Region where
  | line
  | excess
  | mark
  deriving DecidableEq, Repr

/-- The region of a window offset (R119). -/
def Windows.region (w : Windows) (o : Nat) : Region :=
  if o < w.lines * w.pitch then .line
  else if o < w.size - Config.markSize then .excess
  else .mark

/-- The mark offset of a window offset. -/
def Windows.markOffset (w : Windows) (o : Nat) : Nat := o - (w.size - Config.markSize)

/-- The reader slot an initiator's ID matches: valid and equal, the lower-numbered one first (R126). -/
def Windows.slotOf (w : Windows) (i : Initiator) : Option ReaderSlot :=
  if w.reader0.valid ∧ w.reader0.id = i then some 0
  else if w.reader1.valid ∧ w.reader1.id = i then some 1
  else none

/-! ### Classification (R120) -/

/-- What a transaction is, as the part classifies it at its taking. -/
inductive Class where
  /-- Forwarded unchanged (R117, R122). -/
  | forward
  /-- Refused with this cause; the stream that applies (R131). -/
  | refuse (cause : FaultCause) (stream : Option StreamId)
  /-- A write to the line area of an ACTIVE capture window, at this window offset. -/
  | lineWrite (stream : StreamId) (offset : Nat)
  | excessWrite (stream : StreamId)
  /-- A read of the line area of an ACTIVE capture window. -/
  | captureLineRead (stream : StreamId) (offset : Nat) (fill : BitVec 32)
  | captureExcessRead (stream : StreamId) (fill : BitVec 32)
  /-- A close record with kind 43h (R39). -/
  | close (stream : StreamId)
  | statusRead (stream : StreamId)
  | claim (stream : StreamId) (slot : ReaderSlot)
  | peek (stream : StreamId) (slot : ReaderSlot)
  /-- A read of the line area of an ACTIVE presentation window. -/
  | presentationLineRead (stream : StreamId) (slot : ReaderSlot) (offset : Nat) (fill : BitVec 32)
  | presentationExcessRead (stream : StreamId) (slot : ReaderSlot) (fill : BitVec 32)
  /-- A dropped write of a dormant capture window, closes included (R127). -/
  | dormantDrop (stream : StreamId)
  | dormantCaptureFill (stream : StreamId) (fill : BitVec 32)
  | dormantStatus (stream : StreamId)
  | dormantPresentationFill (stream : StreamId) (slot : ReaderSlot) (fill : BitVec 32)
  | dormantPresentationRecord (stream : StreamId) (slot : ReaderSlot)
  deriving DecidableEq, Repr

/-- The transaction crosses a 4 KiB boundary or reaches past the top of the address space (R121). -/
def Txn.crossesPage (t : Txn) : Bool :=
  decide (t.address.toNat / Config.pageSize ≠ (t.address.toNat + t.length - 1) / Config.pageSize)
    || decide (Config.addressTop < t.address.toNat + t.length)

/-- A write's bytes meet the extent of a buffer of this stream, which is guarded (R123). -/
def StreamState.guardedWrite (x : StreamState) (a length : Nat) : Bool :=
  x.life == .active && Decode.guards x.desc
    && x.bufs.any (fun b => overlap a length b.address (Decode.extent x.desc))

/-- The guarded stream a write meets (R123); the lowest index where it meets several, which R123 takes not to happen (log
36). -/
def State.guardHit (s : State) (t : Txn) : Option StreamId :=
  match t.body with
  | .read _ => none
  | .write _ => allStreams.find? (fun st => (s.stream st).guardedWrite t.address.toNat t.length)

/-- A mark slot write that is a close record: 32 bytes at mark offset 0 with kind 43h (R39, R198). -/
def isClose (w : Windows) (o : Nat) (data : List Byte) : Bool :=
  decide (w.markOffset o = 0) && decide (data.length = 32) && decide (Decode.byteAt data 0 = Decode.closeKind)

/-- A producer's access to a capture window of an ACTIVE stream (R39, Table 2-4). -/
def classifyCapture (st : StreamId) (w : Windows) (o : Nat) (body : TxnBody) : Class :=
  match w.region o, body with
  | .line, .write _ => .lineWrite st o
  | .excess, .write _ => .excessWrite st
  | .mark, .write d => if isClose w o d then .close st else .refuse .markMisuse (some st)
  | .line, .read _ => .captureLineRead st o w.fill
  | .excess, .read _ => .captureExcessRead st w.fill
  | .mark, .read n => if w.markOffset o = 0 ∧ n = 32 then .statusRead st else .refuse .markMisuse (some st)

/-- A producer's access to a dormant capture window (R127). -/
def classifyDormantCapture (st : StreamId) (w : Windows) (o : Nat) (body : TxnBody) : Class :=
  match w.region o, body with
  | .line, .write _ => .dormantDrop st
  | .excess, .write _ => .dormantDrop st
  | .mark, .write d => if isClose w o d then .dormantDrop st else .refuse .markMisuse (some st)
  | .line, .read _ => .dormantCaptureFill st w.fill
  | .excess, .read _ => .dormantCaptureFill st w.fill
  | .mark, .read n => if w.markOffset o = 0 ∧ n = 32 then .dormantStatus st else .refuse .markMisuse (some st)

/-- A valid reader's read of a presentation window of an ACTIVE stream (R72, R86, R87). -/
def classifyPresentation (st : StreamId) (k : ReaderSlot) (w : Windows) (o n : Nat) : Class :=
  match w.region o with
  | .line => .presentationLineRead st k o w.fill
  | .excess => .presentationExcessRead st k w.fill
  | .mark =>
    if w.markOffset o = 0 ∧ n = 32 then .claim st k
    else if w.markOffset o = 32 ∧ n = 32 then .peek st k
    else .refuse .markMisuse (some st)

/-- A valid reader's read of a dormant presentation window (R128). -/
def classifyDormantPresentation (st : StreamId) (k : ReaderSlot) (w : Windows) (o n : Nat) : Class :=
  match w.region o with
  | .line => .dormantPresentationFill st k w.fill
  | .excess => .dormantPresentationFill st k w.fill
  | .mark =>
    if (w.markOffset o = 0 ∨ w.markOffset o = 32) ∧ n = 32 then .dormantPresentationRecord st k
    else .refuse .markMisuse (some st)

/-- Checks 4 and 5 of R120, for a transaction that lies in one region of a matched window. -/
def State.classifyWindow (s : State) (t : Txn) (m : Match) : Class :=
  let o := m.offset t.address.toNat
  let live := (s.stream m.stream).life == .active
  match m.kind with
  | .capture =>
    if t.initiator ≠ m.entry.producer then .refuse .notOwner (some m.stream)
    else if live then classifyCapture m.stream m.entry o t.body
    else classifyDormantCapture m.stream m.entry o t.body
  | .presentation =>
    match m.entry.slotOf t.initiator, t.body with
    | none, _ => .refuse .notOwner (some m.stream)
    | some _, .write _ => .refuse .writeToPresentation (some m.stream)
    | some k, .read n =>
      if live then classifyPresentation m.stream k m.entry o n else classifyDormantPresentation m.stream k m.entry o n

/-- The transaction's first and last bytes lie in different regions of the window its first byte lies in (R121). -/
def Match.crossesRegion (m : Match) (t : Txn) : Bool :=
  m.entry.region (m.offset t.address.toNat) != m.entry.region (m.offset (t.address.toNat + t.length - 1))

/-- The window match inside the aperture. In TRANSPARENT there is no aperture (R117). -/
def State.matchOf (s : State) (t : Txn) : Option Match :=
  if s.inAperture t.address.toNat then s.windowAt t.address.toNat else none

/-- Classification at the taking: the first check that applies decides (R117, R120). -/
def State.classify (s : State) (t : Txn) : Class :=
  if s.device = .transparent then .forward
  else if Txn.crossesPage t || (s.matchOf t).any (fun m => m.crossesRegion t) then
    .refuse .crossing ((s.matchOf t).map (·.stream))
  else if s.inAperture t.address.toNat then
    match s.matchOf t with
    | some m => s.classifyWindow t m
    | none => .refuse (if s.device = .loading then .notReady else .unmapped) none
  else
    match s.guardHit t with
    | some st => .refuse .guardedWrite (some st)
    | none => .forward

end Sys2Proof.Machine
end

