-- ==== Sys2Proof/Machine/Capture.lean ====
section
/-! DEFINITION. The Capture Unit's takings (Chapter 2): frame start, line writes and their coverage, excess writes, reads,
closes, status reads. -/
namespace Sys2Proof.Machine

open Sys2Proof

/-- What a command answers. -/
abbrev Result := Host.Outcome State Fault Refusal

/-- Forwards a taken transaction: its entry is made, its order list entry waits for it, and the PASS grant counts for the
starvation counter while a REPAIR request stands (R132, R139, R140). -/
def State.forward (s : State) (t : Txn) (kind : EntryKind) (address : Address) : State :=
  let n := s.freeIndex
  let relief := if s.repairStands then min (s.starvation + 1) Config.reliefAt else s.starvation
  { (s.joinOrder t (.waits n)).issue kind
      { origin := false, initiator := some t.initiator, tag := t.tag, address := address, body := t.body } with
    starvation := relief }

/-- The address of an offset in a buffer's extent. -/
def Buf.addressAt (b : Buf) (offset : Nat) : Address := BitVec.ofNat 40 (b.address + offset)

/-! ### Frame start (R29, R30) -/

/-- The write is the first of a frame and numbers are used up (R30). -/
def StreamState.sequenceEnded (x : StreamState) : Bool := x.mode == .none && x.lastSeq == 0xFFFFFFFF#32

/-- The frame mode after the Pool Manager's answer (R29). -/
def modeOf : Option Nat → FrameMode
  | some i => .buffer i
  | none => .sink

/-- The frame start of a line or excess write: in mode NONE the next sequence is assigned and a buffer asked for (R29). -/
def StreamState.beginFrame (x : StreamState) : StreamState :=
  match x.mode with
  | .none =>
    let seq := x.lastSeq + 1#32
    let y := ({ x with lastSeq := seq }.count .framesStarted).startFrame seq
    { y.1 with mode := modeOf y.2 }
  | .buffer _ => x
  | .sink => x

/-! ### Line area writes (R31 to R33) -/

/-- The lines whose last data byte lies in offsets o to o + L − 1 (R33). -/
def linesMarked (d : Descriptor) (o length : Nat) : List Nat :=
  (List.range (Decode.lines d)).filter (fun n =>
    decide (o ≤ n * Decode.pitch d + Decode.lineBytes d - 1)
      && decide (n * Decode.pitch d + Decode.lineBytes d - 1 < o + length))

/-- The coverage marks of a forwarded write (R33). -/
def Buf.mark (lines : List Nat) (b : Buf) : Buf := { b with coverage := lines.foldl (fun c n => markLine n c) b.coverage }

/-- A line area write in mode BUFFER is translated and forwarded (R32). -/
def State.forwardWrite (s : State) (t : Txn) (st : StreamId) (i o : Nat) : Result :=
  match (s.stream st).bufs[i]? with
  | none => .fault .noBufferRecord
  | some b =>
    .next ((s.onStream st (fun x =>
      (x.onBuf i (Buf.mark (linesMarked x.desc o t.length))).increment i)).forward t
        (.captureWrite t.initiator t.tag st i) (b.addressAt o))

/-- A write to the line area of an ACTIVE capture window (R32, Table 2-4). -/
def State.takeLineWrite (s : State) (t : Txn) (st : StreamId) (o : Nat) : Result :=
  if (s.stream st).sequenceEnded then .next ((s.onStream st (·.count .excessWrites)).acknowledge t)
  else
    let u := s.onStream st StreamState.beginFrame
    match (u.stream st).mode with
    | .buffer i => u.forwardWrite t st i o
    | .sink => .next (u.acknowledge t)
    | .none => .next (u.acknowledge t)

/-- A write to the excess region of an ACTIVE capture window (R35). -/
def State.takeExcessWrite (s : State) (t : Txn) (st : StreamId) : State :=
  (s.onStream st (fun x =>
    if x.sequenceEnded then x.count .excessWrites else x.beginFrame.count .excessWrites)).acknowledge t

/-! ### Reads (R36 to R38) -/

/-- A read of the line area of an ACTIVE capture window: forwarded in BUFFER, uncounted, and fill otherwise (R36, R37). -/
def State.takeCaptureRead (s : State) (t : Txn) (st : StreamId) (o : Nat) (fill : BitVec 32) : Result :=
  match (s.stream st).mode with
  | .buffer i =>
    match (s.stream st).bufs[i]? with
    | some b => .next (s.forward t (.captureRead t.initiator t.tag) (b.addressAt o))
    | none => .fault .noBufferRecord
  | .none => .next (s.answerFill t fill)
  | .sink => .next (s.answerFill t fill)

/-! ### Close (R40 to R43) -/

/-- A transaction's write data. -/
def TxnBody.data : TxnBody → List Byte
  | .write d => d
  | .read _ => []

/-- The close info a close leaves in its buffer (R11). -/
def closeInfoOf (c : Decode.CloseRecord) (now : Micros) : CloseInfo :=
  { abandon := c.abandon, noRepair := c.noRepair, tagValid := c.tagValid, producerSeq := c.producerSeq,
    userTag := c.userTag, time := now }

/-- A close in mode SINK gives DROPPED_OVERRUN at once (R43). -/
def StreamState.closeSink (x : StreamState) (c : Decode.CloseRecord) : StreamState :=
  let e : VerdictEntry :=
    { verdict := .droppedOverrun, seq := x.lastSeq, producerSeq := c.producerSeq, missing := Decode.lines x.desc }
  { (((x.report e).countVerdict .droppedOverrun).lockInput (Verdict.lockInput false .droppedOverrun)) with mode := .none }

/-- The FILLING buffer goes to CLOSING with its close info and early flag (R11). -/
def StreamState.closeBuffer (x : StreamState) (i : Nat) (c : Decode.CloseRecord) (now : Micros) (early : Bool) :
    StreamState :=
  { x.onBuf i (fun b => { b with state := .closing, close := closeInfoOf c now, early := early }) with mode := .none }

/-- The handling of a close by frame mode, after its arrival (R41 to R43). -/
def State.handleClose (s : State) (st : StreamId) (c : Decode.CloseRecord) (now : Micros) (early : Bool) : State :=
  match (s.stream st).mode with
  | .buffer i => (s.onStream st (fun x => x.closeBuffer i c now early)).drain st i
  | .none => s.onStream st (fun x => (x.count .emptyCloses).lockInput .fault)
  | .sink => s.onStream st (fun x => x.closeSink c)

/-- A close: the arrival first, then the handling by frame mode, acknowledged OKAY (R41). -/
def State.takeClose (s : State) (t : Txn) (st : StreamId) : State :=
  let early := (s.stream st).isEarly s.now
  ((s.onStream st (fun x => x.arrive s.now)).handleClose st (Decode.closeRecord (TxnBody.data t.body)) s.now early).acknowledge t

/-! ### Status (R46), teardown (R48), arm (R49) -/

/-- A capture status read of an ACTIVE stream (R46). -/
def State.takeStatusRead (s : State) (t : Txn) (st : StreamId) : State := s.answer t .okay (s.stream st).activeStatus

/-- The Capture Unit takes the teardown request: the current frame is dropped, its buffer released (R48). -/
def StreamState.captureTeardown (x : StreamState) : StreamState :=
  match x.mode with
  | .buffer i => { x.release i with mode := .none }
  | .none => { x with mode := .none }
  | .sink => { x with mode := .none }

/-- The Capture Unit takes the arm message (R49). -/
def StreamState.captureArm (x : StreamState) : StreamState :=
  { x with mode := .none, lastSeq := 0#32, newest := VerdictEntry.zero, previous := VerdictEntry.zero }

end Sys2Proof.Machine
end

