-- ==== Sys2Proof/Machine/Presentation.lean ====
section
/-! DEFINITION. The Presentation Unit's takings (Chapter 4): claim, peek, line reads, scan timer expiry, teardown. -/
namespace Sys2Proof.Machine

open Sys2Proof

/-! ### Claim target (R75 to R77) -/

/-- A claim's outcome (R74, step 2). -/
inductive Target where
  /-- Bind this buffer with this source, FRAME or HOLD. -/
  | bind (buffer : Nat) (source : Source)
  /-- Keep the present binding with this source, REPEAT or HOLD. -/
  | keep (source : Source)
  /-- No buffer: source FILL. -/
  | fill
  deriving DecidableEq, Repr

/-- REPEAT for a BOUND reader, FILL otherwise (R76). -/
def Reader.repeatOrFill (r : Reader) : Target :=
  match r.state with
  | .bound _ => .keep .repeated
  | .unbound => .fill
  | .subst => .fill
  | .stale => .fill

/-- The LATEST candidate: the newest READY or SHOWN buffer (R75). -/
def StreamState.candidate (x : StreamState) : Option Nat := x.newestBuf (fun b => b.state == .ready || b.state == .shown)

/-- Target under LATEST (R75). -/
def StreamState.latestTarget (x : StreamState) (r : Reader) : Target :=
  match x.candidate with
  | some i => if r.boundSeq.toNat < x.seqOf i then .bind i .frame else r.repeatOrFill
  | none => .fill

/-- Target under QUEUE (R76). -/
def StreamState.queueTarget (x : StreamState) (r : Reader) : Target :=
  match x.ready.head? with
  | some h => if x.barrier then r.repeatOrFill else .bind h .frame
  | none => r.repeatOrFill

/-- Target in FREERUN under HOLD (R77). -/
def StreamState.holdTarget (x : StreamState) (r : Reader) : Target :=
  match x.marked with
  | some i => if r.state = .bound i then .keep .hold else .bind i .hold
  | none => .fill

/-- The claim is decided by the discipline: LOCKED or COAST, or FOLLOW (Table 4-4). -/
def StreamState.byDiscipline (x : StreamState) : Bool :=
  x.lock == .locked || x.lock == .coast || Decode.unlock x.desc == some .follow

/-- The claim is decided by R75, which sends the skip request (R79). -/
def StreamState.latestClaim (x : StreamState) : Bool :=
  x.byDiscipline && Decode.discipline x.desc == .latest

/-- The claim's target (Table 4-4). -/
def StreamState.target (x : StreamState) (r : Reader) : Target :=
  if x.byDiscipline then
    match Decode.discipline x.desc with
    | .latest => x.latestTarget r
    | .queue => x.queueTarget r
  else if x.lock = .freerun ∧ Decode.unlock x.desc = some .hold then x.holdTarget r
  else .fill

/-! ### Binding and entry (R78 to R80) -/

/-- The unbind of the buffer a reader was bound to (R78). -/
def StreamState.unbindOld (x : StreamState) (r : Reader) : StreamState :=
  match r.state with
  | .bound i => x.unbind i
  | .unbound => x
  | .subst => x
  | .stale => x

/-- Bind and unbind of a claim, the bind first (R78). -/
def StreamState.rebind (x : StreamState) (r : Reader) : Target → StreamState
  | .bind i _ => (x.bind i).unbindOld r
  | .keep _ => x
  | .fill => x.unbindOld r

/-- The skip request of a claim decided by R75, naming the candidate's sequence; none without a candidate (R79). -/
def StreamState.claimSkip (x : StreamState) (seq : Option Nat) : StreamState :=
  match seq with
  | some n => x.skip (BitVec.ofNat 32 n)
  | none => x

/-- Last skipped from the old and new bound sequences (R80). -/
def skippedBetween (old new : Nat) : BitVec 16 :=
  if old = 0 ∨ new = 0 then 0#16 else BitVec.ofNat 16 (min (new - old - 1) 0xFFFF)

/-- The entry a claim leaves (R80), before its timer. `seq` is the sequence of the buffer bound. -/
def Reader.claimed (r : Reader) (seq : Nat) : Target → Reader
  | .bind i src =>
    { r with state := .bound i, boundSeq := BitVec.ofNat 32 seq, lastSource := src,
             lastSkipped := skippedBetween r.boundSeq.toNat seq }
  | .keep src => { r with lastSource := src, lastSkipped := 0#16 }
  | .fill => { r with state := .subst, boundSeq := 0#32, lastSource := .fill, lastSkipped := 0#16 }

/-- The sequence a target binds. -/
def StreamState.targetSeq (x : StreamState) : Target → Nat
  | .bind i _ => x.seqOf i
  | .keep _ => 0
  | .fill => 0

/-- The timer a claim leaves (R90). -/
def scanTimer (d : Descriptor) (now : Micros) : Timer :=
  if Decode.scanTimeout d = 0 then .stopped else .running (now + Decode.scanTimeout d)

/-- The pool after a claim: bind, unbind, and under LATEST the skip (R78, R79). -/
def StreamState.claimPool (x : StreamState) (r : Reader) : StreamState :=
  let y := x.rebind r (x.target r)
  if x.latestClaim then y.claimSkip (x.candidate.map x.seqOf) else y

/-- The reader entry after a claim taken at `now` (R80, R90). -/
def StreamState.claimEntry (x : StreamState) (now : Micros) (r : Reader) : Reader :=
  { r.claimed (x.targetSeq (x.target r)) (x.target r) with timer := scanTimer x.desc now }

/-- Puts back a reader entry. -/
def StreamState.setReader (x : StreamState) (k : ReaderSlot) (r : Reader) : StreamState :=
  { x with readers := x.readers.set k.val r }

/-- The reader entry of a slot; a stream without entries reads as one that is UNBOUND and not valid. -/
def StreamState.reader (x : StreamState) (k : ReaderSlot) : Reader := x.readers.getD k.val (readerOf [] k)

/-- A claim at the Presentation Unit (R74). -/
def StreamState.claim (x : StreamState) (now : Micros) (k : ReaderSlot) : StreamState :=
  (x.claimPool (x.reader k)).setReader k (x.claimEntry now (x.reader k))

/-- A claim is taken and answered with the record it leaves (R74). -/
def State.takeClaim (s : State) (t : Txn) (st : StreamId) (k : ReaderSlot) : State :=
  let u := s.onStream st (fun x => x.claim s.now k)
  u.answer t .okay ((u.stream st).presentationRecord s.now k ((u.stream st).reader k))

/-- A peek is answered with the present entry's record (R83). -/
def State.takePeek (s : State) (t : Txn) (st : StreamId) (k : ReaderSlot) : State :=
  s.answer t .okay ((s.stream st).presentationRecord s.now k ((s.stream st).reader k))

/-- A line read: translated for a BOUND reader, fill for any other (R86, R87). -/
def State.takePresentationRead (s : State) (t : Txn) (st : StreamId) (k : ReaderSlot) (o : Nat) (fill : BitVec 32) :
    Result :=
  match ((s.stream st).reader k).state with
  | .bound i =>
    match (s.stream st).bufs[i]? with
    | some b =>
      .next ((s.onStream st (fun x => x.increment i)).forward t (.presentationRead t.initiator t.tag st i) (b.addressAt o))
    | none => .fault .noBufferRecord
  | .unbound => .next (s.answerFill t fill)
  | .subst => .next (s.answerFill t fill)
  | .stale => .next (s.answerFill t fill)

/-! ### Expiry and teardown (R91, R93) -/

/-- An entry without a binding, in this state, its timer STOPPED (R91, R93). -/
def Reader.dropped (r : Reader) (state : ReaderState) : Reader :=
  { r with state := state, boundSeq := 0#32, lastSource := .fill, lastSkipped := 0#16, timer := .stopped }

/-- A scan timer expiry (R91). -/
def StreamState.expire (x : StreamState) (k : ReaderSlot) : StreamState :=
  ((((x.unbindOld (x.reader k)).setReader k ((x.reader k).dropped .stale)).raise .readerStale).count .stales)

/-- The Presentation Unit takes the teardown request: every reader unbound, every timer STOPPED (R93). -/
def StreamState.presentationTeardown (x : StreamState) : StreamState :=
  { x.readers.foldl StreamState.unbindOld x with readers := x.readers.map (fun r => r.dropped .unbound) }

end Sys2Proof.Machine
end

