-- ==== Sys2Proof/Machine/Loader.lean ====
section
/-! DEFINITION. The Configuration Loader's reads, copy selection and descriptor validation (Chapter 8). -/
namespace Sys2Proof.Machine

open Sys2Proof Sys2Proof.Decode

/-! ### Reads (R149 to R151) -/

/-- The image base (R149). -/
def imageBase (cfgsel : Byte) : Nat := cfgsel.toNat * Config.windowUnit

/-- The address of a copy's slot (R149). -/
def copyBase (cfgsel : Byte) (c : CopyIndex) : Nat := imageBase cfgsel + c.val * Config.copySlotSize

/-- The three reads of a copy (R150). -/
def copyReads (c : CopyIndex) : List LoaderRead :=
  [{ copy := c, offset := 0, length := 256 }, { copy := c, offset := 256, length := 256 },
    { copy := c, offset := 512, length := 66 }]

/-- The nine reads of a load in their order (R150). -/
def loadPlan : List LoaderRead := copyReads 0 ++ copyReads 1 ++ copyReads 2

/-- A copy of which nothing has returned. -/
def CopyRx.start : CopyRx := { state := .pending, first := none, second := none, third := none }

/-- A load begins (R150). -/
def State.startLoad (s : State) (p : Purpose) : State :=
  { s with load := some { purpose := p, plan := loadPlan, copies := Vector.replicate 3 CopyRx.start } }

/-- The copy's receive state follows its three reads (R151). -/
def CopyRx.settled (c : CopyRx) : CopyRx :=
  if c.state = .pending ∧ c.first.isSome ∧ c.second.isSome ∧ c.third.isSome then { c with state := .received } else c

/-- The bytes of an OKAY response to a copy's read; those of a FAILED copy are discarded (R151). -/
def CopyRx.store (c : CopyRx) (offset : Nat) (data : List Byte) : CopyRx :=
  if c.state = .failed then c
  else if offset = 0 then CopyRx.settled { c with first := some data }
  else if offset = 256 then CopyRx.settled { c with second := some data }
  else CopyRx.settled { c with third := some data }

/-- A load after a response to one of its reads (R151). -/
def Load.receive (l : Load) (r : LoaderRead) (status : Status) (data : List Byte) : Load :=
  match status with
  | .okay => { l with copies := l.copies.set r.copy.val ((l.copies.get r.copy).store r.offset data) r.copy.isLt }
  | .error =>
    { l with
      copies := l.copies.set r.copy.val { l.copies.get r.copy with state := .failed } r.copy.isLt
      plan := l.plan.filter (fun q => q.copy != r.copy) }

/-! ### Validity and selection (R152, R153) -/

/-- Slot bytes 0 to 577 as returned. -/
def CopyRx.bytes (c : CopyRx) : List Byte := c.first.getD [] ++ c.second.getD [] ++ c.third.getD []

/-- The four tests of R152. -/
def CopyRx.valid (c : CopyRx) : Bool :=
  c.state == .received && signatureOk c.bytes && versionOk c.bytes && crcOk c.bytes

/-- Generation g is newer than h (R153). -/
def newer (g h : BitVec 32) : Bool := decide (1 ≤ (g - h).toNat) && decide ((g - h).toNat ≤ 2 ^ 31 - 1)

/-- One step of the walk in copy order (R153). -/
def walkCopy (l : Load) (candidate : Option CopyIndex) (c : CopyIndex) : Option CopyIndex :=
  if (l.copies.get c).valid then
    match candidate with
    | none => some c
    | some k =>
      if newer (imageGeneration (l.copies.get c).bytes) (imageGeneration (l.copies.get k).bytes) then some c else some k
  else candidate

/-- The selected copy (R153, R154). -/
def Load.selected (l : Load) : Option CopyIndex := ([0, 1, 2] : List CopyIndex).foldl (walkCopy l) none

/-! ### Validation (R157 to R162) -/

/-- What validation reads besides the descriptors: the aperture base and the image base in force. -/
structure Place where
  aperture : Nat
  image : Nat
  deriving DecidableEq, Repr

/-- Check 1 passes (R158). -/
def geometryOk (d : Descriptor) : Bool :=
  decide (64 ≤ lineBytes d) && decide (lineBytes d ≤ 16384) && decide (lineBytes d % 64 = 0)
    && decide (lineBytes d ≤ pitch d) && decide (pitch d ≤ 32768) && decide (pitch d % 64 = 0)
    && decide (1 ≤ lines d) && decide (lines d ≤ 2048)
    && decide (16 ≤ sizeCode d) && decide (sizeCode d ≤ 26)
    && decide (extent d + Config.markSize ≤ windowSize d)

/-- A window lies wholly within the aperture (R159). -/
def windowInside (p : Place) (base size : Nat) : Bool :=
  decide (p.aperture ≤ base) && decide (base + size ≤ p.aperture + Config.apertureSize)

/-- Check 2 passes (R159). -/
def windowsInside (p : Place) (d : Descriptor) : Bool :=
  windowInside p (captureBase d) (windowSize d) && windowInside p (presentationBase d) (windowSize d)

/-- Two descriptors' windows share a byte. -/
def windowsMeet (d e : Descriptor) : Bool :=
  let n := windowSize d
  let m := windowSize e
  overlap (captureBase d) n (captureBase e) m || overlap (captureBase d) n (presentationBase e) m
    || overlap (presentationBase d) n (captureBase e) m || overlap (presentationBase d) n (presentationBase e) m

/-- The descriptors of a copy other than descriptor k for which a test holds. -/
def othersWith (ds : List Descriptor) (k : Nat) (p : Descriptor → Bool) : List Descriptor :=
  (ds.zipIdx.filter (fun e => e.2 != k && p e.1)).map (·.1)

/-- The comparison set of check 3: ENABLE set, checks 1 and 2 passed (R159). -/
def windowPeer (p : Place) (d : Descriptor) : Bool := enable d && geometryOk d && windowsInside p d

/-- Check 3 passes for descriptor k of the copy (R159). -/
def windowsApart (p : Place) (ds : List Descriptor) (k : Nat) (d : Descriptor) : Bool :=
  !overlap (captureBase d) (windowSize d) (presentationBase d) (windowSize d)
    && (othersWith ds k (windowPeer p)).all (fun e => !windowsMeet d e)

/-- The buffers of a descriptor as base addresses, indices 0 to pool size − 1 (R1). -/
def bufferAddresses (d : Descriptor) : List Nat :=
  (List.range (poolSize d)).map (fun i => (bufferBase d i).toNat * Config.bufferUnit)

/-- Check 4 passes (R160). -/
def poolOk (d : Descriptor) : Bool :=
  decide (2 ≤ poolSize d) && decide (poolSize d ≤ 6)
    && (bufferAddresses d).all (fun a => decide (a + extent d ≤ Config.addressTop))

/-- The comparison set of check 5: ENABLE set, checks 1 to 4 passed (R160). -/
def bufferPeer (p : Place) (ds : List Descriptor) (k : Nat) (d : Descriptor) : Bool :=
  enable d && geometryOk d && windowsInside p d && windowsApart p ds k d && poolOk d

/-- No two of these extents share a byte. -/
def extentsApart (n : Nat) : List Nat → Bool
  | [] => true
  | a :: l => l.all (fun b => !overlap a n b n) && extentsApart n l

/-- The other descriptors of the copy that check 5 compares against. -/
def bufferPeers (p : Place) (ds : List Descriptor) (k : Nat) : List Descriptor :=
  (ds.zipIdx.filter (fun e => e.2 != k && bufferPeer p ds e.2 e.1)).map (·.1)

/-- Check 5 passes for descriptor k of the copy (R160). -/
def buffersApart (p : Place) (ds : List Descriptor) (k : Nat) (d : Descriptor) : Bool :=
  extentsApart (extent d) (bufferAddresses d)
    && (bufferPeers p ds k).all (fun e =>
      (bufferAddresses d).all (fun a => (bufferAddresses e).all (fun b => !overlap a (extent d) b (extent e))))
    && (bufferAddresses d).all (fun a =>
      !overlap a (extent d) p.aperture Config.apertureSize && !overlap a (extent d) p.image (3 * Config.copySlotSize))

/-- Check 6 passes (R161). -/
def readersOk (d : Descriptor) : Bool :=
  let a := readerSlot d 0
  let b := readerSlot d 1
  (a.valid || b.valid) && !(a.valid && b.valid && a.id == b.id) && !(discipline d == .queue && a.valid && b.valid)

/-- Check 7 passes (R161). -/
def holdPoolOk (d : Descriptor) : Bool := !(unlock d == some .hold && poolSize d == 2)

/-- Check 8 passes (R162). -/
def countsOk (d : Descriptor) : Bool :=
  decide (acquireCount d ≠ 0) && decide (reacquireCount d ≠ 0) && decide (lossCount d ≠ 0)
    && (unlock d).isSome && (repairPolicy d).isSome
    && (repairPolicy d == some .reject || (decide (1 ≤ repairLimit d) && decide (repairLimit d ≤ 2048)))

/-- Check 9 passes (R162). -/
def timingOk (d : Descriptor) : Bool :=
  decide (period d = 0 ∨ (500 ≤ period d ∧ period d ≤ 1000000))
    && decide (period d = 0 → tolerance d = 0)
    && decide (period d ≠ 0 → 2 * tolerance d < period d)
    && decide (scanTimeout d = 0 ∨ (1000 ≤ scanTimeout d ∧ scanTimeout d ≤ 4000000))

/-- The cause of the first failing check of the nine, NONE when all pass (Table 8-4). -/
def firstFailure (p : Place) (ds : List Descriptor) (k : Nat) (d : Descriptor) : RefusalCause :=
  if !geometryOk d then .badGeometry
  else if !windowsInside p d then .windowOutsideAperture
  else if !windowsApart p ds k d then .windowOverlap
  else if !poolOk d then .badPool
  else if !buffersApart p ds k d then .bufferOverlap
  else if !readersOk d then .badReaders
  else if !holdPoolOk d then .holdNeedsThree
  else if !countsOk d then .badCounts
  else if !timingOk d then .badTiming
  else .none

/-- The windows are mapped when checks 1 to 3 pass (R157). -/
def windowsMapped (p : Place) (ds : List Descriptor) (k : Nat) (d : Descriptor) : Bool :=
  geometryOk d && windowsInside p d && windowsApart p ds k d

/-- The outcome of validation for descriptor k of a copy (R157). -/
def validate (p : Place) (ds : List Descriptor) (k : Nat) (d : Descriptor) : Installed :=
  if enable d then
    { desc := d, outcome := if firstFailure p ds k d = .none then .enabled else .refused,
      cause := firstFailure p ds k d, mapped := windowsMapped p ds k d }
  else { desc := d, outcome := .disabled, cause := .none, mapped := windowsMapped p ds k d }

/-- The window entries of a descriptor (R118). -/
def windowsOf (d : Descriptor) : Windows :=
  { capture := BitVec.ofNat 40 (captureBase d), presentation := BitVec.ofNat 40 (presentationBase d),
    size := windowSize d, lines := lines d, lineBytes := lineBytes d, pitch := pitch d, fill := fillWord d,
    producer := producer d, reader0 := readerSlot d 0, reader1 := readerSlot d 1 }

/-- A descriptor comes into force: current descriptor and window entries together (R163 to R165). -/
def StreamState.install (x : StreamState) (i : Installed) : StreamState :=
  { x with current := some i, windows := if i.mapped then some (windowsOf i.desc) else none }

end Sys2Proof.Machine
end

