-- ==== Sys2Proof/Machine/Control.lean ====
section
/-! DEFINITION. Stream Control (Chapter 9): arm, teardown, drain end, the hand-offs of a load, the end of a reload, resets;
with the Loader's evaluation that hands over (R151, R163 to R165). -/
namespace Sys2Proof.Machine

open Sys2Proof

/-! ### Arm (R170) -/

/-- The five arm messages. -/
def armBlocks : List ArmBlock := [.poolManager, .captureUnit, .presentationUnit, .cadenceMonitor, .eventUnit]

/-- An arm is started: the five messages are to be taken (R170). -/
def StreamState.beginArm (x : StreamState) : StreamState :=
  { x with life := .off, armRequest := true, armAwaited := armBlocks }

/-- The Cadence Monitor takes the arm message (R112). -/
def StreamState.cadenceArm (x : StreamState) (now : Micros) : StreamState :=
  { x with lock := .search, acquire := 0, loss := 0, ref := now, timer := cadenceTimer x.desc now }

/-- A block's own effect of the arm message (R170). -/
def StreamState.armBlock (x : StreamState) (now : Micros) : ArmBlock → StreamState
  | .poolManager => x.buildPool
  | .captureUnit => x.captureArm
  | .presentationUnit => x.buildReaders
  | .cadenceMonitor => x.cadenceArm now
  | .eventUnit => { x with counters := Counters.zero }

/-- When the last of the five messages is taken the stream becomes ACTIVE (R170). -/
def StreamState.armTaken (x : StreamState) (b : ArmBlock) : StreamState :=
  let l := x.armAwaited.filter (· != b)
  if l.isEmpty then { x with armAwaited := [], life := .active } else { x with armAwaited := l }

/-! ### States a stream comes to rest in (R163, R168, R174, R177) -/

/-- OFF: arm request 0, pool and reader entries from the descriptor in force (R26, R70). -/
def StreamState.restOff (x : StreamState) : StreamState :=
  ({ x with life := .off, armRequest := false, armAwaited := [], drainTaken := 0, poolQuiet := false }.standbyPool).buildReaders

/-- REFUSED: arm request 0, no buffer records, reader entries from the descriptor in force (R26, R70). -/
def StreamState.restRefused (x : StreamState) : StreamState :=
  ({ x with life := .refused, armRequest := false, armAwaited := [], drainTaken := 0, poolQuiet := false }.dropPool).buildReaders

/-- An arm that starts with a descriptor new in force or after a drain: buffer records and reader entries of that
descriptor stand from its start, as R1 and R69 hold them for every such slot, and the arm messages build the same ones
(R26, R70, R165, R170; log 34). -/
def StreamState.rearm (x : StreamState) : StreamState :=
  { x with drainTaken := 0, poolQuiet := false }.beginArm.buildPool.buildReaders

/-- A stream that is not DRAINING follows the outcome of its new descriptor in force: ENABLED is armed, DISABLED OFF,
REFUSED refused (R168, R177). -/
def StreamState.follow (x : StreamState) : DescOutcome → StreamState
  | .enabled => x.rearm
  | .disabled => x.restOff
  | .refused => x.restRefused

/-- An arm in progress whose slot a reload changes ends: the Cadence Monitor's part of it is undone (log 13). -/
def StreamState.dropArm (x : StreamState) : StreamState :=
  if x.arming then { x with armAwaited := [], timer := .stopped, lock := .down, acquire := 0, loss := 0 } else x

/-! ### Teardown start (R173) -/

/-- A teardown starts: DRAINING, no request taken yet (R173). -/
def StreamState.beginTeardown (x : StreamState) : StreamState :=
  { x with life := .draining, drainTaken := 0, poolQuiet := false }

/-! ### Reload end (R178) -/

/-- The reload ends with this result and event (R176, R178, R179). -/
def State.endReload (s : State) (r : ReloadResult) (e : DeviceEvent) : State :=
  { s with reloadInProgress := false, lastReload := r }.raiseDevice e

/-- The slot leaves the wait set; the removal that leaves the set empty ends the reload (R174, step 4). -/
def State.leaveWaitSet (s : State) (st : StreamId) : State :=
  if s.waitSet.contains st then
    let t := { s with waitSet := s.waitSet.filter (· != st) }
    if t.waitSet.isEmpty then t.endReload .applied .reloadDone else t
  else s

/-! ### Drain end (R174) -/

/-- The pending descriptor comes into force (R165). -/
def StreamState.switch (x : StreamState) : StreamState :=
  match x.pendingSlot with
  | some i => { x.install i with pendingSlot := none }
  | none => x

/-- The next state after a drain, from the arm request and the outcome now in force (R174, step 3). -/
def StreamState.afterDrain (x : StreamState) : StreamState :=
  match x.outcome with
  | some .refused => x.restRefused
  | some .enabled => if x.armRequest then x.rearm else x.restOff
  | some .disabled => x.restOff
  | none => x.restOff

/-- The drain end: STREAM_DOWN, descriptor switch, next state, wait set (R174). In a soft reset's wait the stream becomes
OFF, nothing switches and the wait set stays (R180; log 24). -/
def State.endDrain (s : State) (st : StreamId) : State :=
  if s.softResetPending then s.onStream st (fun x => (x.raise .streamDown).restOff)
  else (s.onStream st (fun x => ((x.raise .streamDown).switch).afterDrain)).leaveWaitSet st

/-- The drain ends when the pool is quiet and the fifth request is taken (R174). -/
def State.settleDrain (s : State) (st : StreamId) : State :=
  let x := s.stream st
  if x.life = .draining ∧ x.poolQuiet ∧ x.drainTaken = 5 then s.endDrain st else s

/-- The Pool Manager reports the pool of a DRAINING stream quiet: at the request that leaves every buffer FREE, given the
stream before that request, or within its teardown request (R25). -/
def State.reportQuiet (s : State) (st : StreamId) (before : StreamState) (atRequest : Bool) : State :=
  let x := s.stream st
  if x.life = .draining ∧ x.allFree ∧ (atRequest ∨ ¬ before.allFree) then
    s.onStream st (fun x => { x with poolQuiet := true })
  else s

/-! ### The teardown requests (R173) -/

/-- The next block takes the teardown request; the count rises by one (R173). -/
def State.teardownTaking (s : State) (st : StreamId) : State :=
  match (s.stream st).drainTaken with
  | 0 => s.onStream st StreamState.captureTeardown
  | 1 => s.onStream st StreamState.cadenceTeardown
  | 2 => s.onStream st StreamState.poolTeardown
  | 3 => s.onStream st StreamState.presentationTeardown
  | _ => s.cancelRepair st

/-- One teardown request, with the quiet report and the drain end it may bring (R173, R174). -/
def State.takeTeardown (s : State) (st : StreamId) : State :=
  let n := (s.stream st).drainTaken
  let t := (s.teardownTaking st).onStream st (fun x => { x with drainTaken := n + 1 })
  (t.reportQuiet st (s.stream st) (n == 2)).settleDrain st

/-! ### Hand-offs (R163, R164, R168, R176 to R179) -/

/-- Where validation stands: the aperture and the image in force. -/
def State.place (s : State) : Place := { aperture := s.apertureBase, image := imageBase s.cfgsel }

/-- The eight descriptors of a slot. -/
def imageDescriptors (slot : List Byte) : List Descriptor := (List.range 8).map (Decode.imageDescriptor slot)

/-- What validation gives descriptor k of a copy. -/
def installedOf (p : Place) (ds : List Descriptor) (k : Nat) : Installed := validate p ds k (ds.getD k [])

/-- One slot at a start-up hand-off (R163, R168). -/
def StreamState.handOff (i : Installed) (x : StreamState) : StreamState := ({ x with pendingSlot := none }.install i).follow i.outcome

/-- The start-up hand-off of the selected copy: tables, RUNNING, TABLE_LOADED (R163, R168). -/
def State.handOffStart (s : State) (c : CopyIndex) (slot : List Byte) : State :=
  let ds := imageDescriptors slot
  let t := { s with generation := Decode.imageGeneration slot, copyIndex := some c, device := .running }
  (allStreams.foldl (fun u st => u.onStream st (StreamState.handOff (installedOf s.place ds st.val))) t).raiseDevice .tableLoaded

/-- The slot's bytes differ from those of its current descriptor (R164). -/
def StreamState.changedBy (x : StreamState) (d : Descriptor) : Bool := x.current.map (·.desc) != some d

/-- The new descriptor is held as the pending one, and the arm request follows its outcome (R164, R177). -/
def StreamState.awaitSwitch (x : StreamState) (i : Installed) : StreamState :=
  { x with pendingSlot := some i, armRequest := decide (i.outcome = .enabled) }

/-- One changed slot at a reload hand-off, by its lifecycle state (R164, R177). -/
def StreamState.reloadSlot (i : Installed) (x : StreamState) : StreamState :=
  match x.life with
  | .active => (x.awaitSwitch i).beginTeardown
  | .draining => x.awaitSwitch i
  | .off => (x.dropArm.install i).follow i.outcome
  | .refused => (x.install i).follow i.outcome

/-- A changed slot that is ACTIVE or DRAINING joins the wait set (R177). -/
def State.joinWaitSet (s : State) (st : StreamId) : State :=
  if s.waitSet.contains st then s else { s with waitSet := s.waitSet ++ [st] }

/-- One slot at a reload hand-off; an unchanged slot is not touched (R164, R177). -/
def State.reloadOne (p : Place) (ds : List Descriptor) (s : State) (st : StreamId) : State :=
  let x := s.stream st
  if x.changedBy (ds.getD st.val []) then
    let t := s.onStream st (StreamState.reloadSlot (installedOf p ds st.val))
    if x.life = .active ∨ x.life = .draining then t.joinWaitSet st else t
  else s

/-- The reload hand-off in RUNNING; the reload ends here when no changed slot waits for a drain (R177, R178). -/
def State.handOffReload (s : State) (c : CopyIndex) (slot : List Byte) : State :=
  let ds := imageDescriptors slot
  let t := { s with generation := Decode.imageGeneration slot, copyIndex := some c }
  let u := allStreams.foldl (State.reloadOne s.place ds) t
  if u.waitSet.isEmpty then u.endReload .applied .reloadDone else u

/-- The evaluation of a load of purpose START (R154, R163, R168). -/
def State.evaluateStart (s : State) (l : Load) : State :=
  match l.selected with
  | some c => s.handOffStart c (l.copies.get c).bytes
  | none => { s with device := .configFault }.raiseDevice .tableFault

/-- The selected copy is the current one at the current generation (R155). -/
def State.isNoChange (s : State) (c : CopyIndex) (slot : List Byte) : Bool :=
  s.copyIndex == some c && s.generation == Decode.imageGeneration slot

/-- The evaluation of a load of purpose RELOAD (R154, R155, R176 to R179). -/
def State.evaluateReload (s : State) (l : Load) : State :=
  match l.selected with
  | none => s.endReload .failed .reloadFailed
  | some c =>
    if s.isNoChange c (l.copies.get c).bytes then s.endReload .noChange .reloadDone
    else if s.device = .configFault then (s.handOffStart c (l.copies.get c).bytes).endReload .applied .reloadDone
    else s.handOffReload c (l.copies.get c).bytes

/-- The evaluation at the return that ends the reads (R151); none in a soft reset's wait (R146). -/
def State.settleLoad (s : State) : State :=
  match s.load with
  | none => s
  | some l =>
    if s.softResetPending ∨ l.plan ≠ [] ∨ (s.entriesOf .loader) ≠ [] then s
    else
      match l.purpose with
      | .start => { s with load := none }.evaluateStart l
      | .reload => { s with load := none }.evaluateReload l

/-! ### Resets (R167, R180 to R182) -/

/-- The straps are sampled and the device state set from APSEL (R116, R167). -/
def State.sampleStraps (s : State) (apsel cfgsel : Byte) : State :=
  let t := { s with apsel := apsel, cfgsel := cfgsel }
  if apsel = 0#8 then { t with device := .transparent } else { t with device := .loading }.startLoad .start

/-- Power-on reset: every block at its power-on value; the queue, the pin MCS_N and the model's counter stay (R182; log 26). -/
def State.powerOn (s : State) : State :=
  { State.reset with pending := s.pending, mcsN := s.mcsN, choice := s.choice }

/-- Every block but the link controller and the time base as at power-on (R97, R181). -/
def State.reinitialised (s : State) : State :=
  { s.powerOn with time := s.time, resetN := s.resetN, link := s.link }

/-- The downstream port and the order lists are quiet (R181). -/
def State.portsDrained (s : State) : Bool := s.table.isEmpty && s.orders.toList.all List.isEmpty

/-- A soft reset's wait begins: requests withdrawn, the load's plan dropped (R146, R180). -/
def State.beginSoftReset (s : State) : State :=
  { s with
    softResetPending := true
    starvation := 0
    load := s.load.map (fun l => { l with plan := [] }) }

end Sys2Proof.Machine
end

