-- ==== Sys2Proof/Machine/Link.lean ====
section
/-! DEFINITION. The Management Link Controller: the taking of each command with its status and data, and what a completed byte
does in each frame state (Chapter 10). -/
namespace Sys2Proof.Machine

open Sys2Proof Sys2Proof.Decode

/-- Status codes (Table 11-11). -/
inductive LinkStatus where
  | done
  | busy
  | badArg
  | badState
  deriving DecidableEq, Repr

/-- Table 11-11. -/
def LinkStatus.code : LinkStatus → Byte
  | .done => 0x01#8
  | .busy => 0x02#8
  | .badArg => 0x03#8
  | .badState => 0x04#8

/-- The controller holds a response from now on, and MDO shifted 00h in the byte position just completed (R183, R184). -/
def State.respond (s : State) (status : LinkStatus) (data : List Byte) : State :=
  { s with link := .response (status.code :: data), ports := { s.ports with mdo := some 0x00#8 } }

/-- The stream a stream byte names; none above 7 (R186). -/
def streamOfByte (b : Byte) : Option StreamId := if h : b.toNat < 8 then some ⟨b.toNat, h⟩ else none

/-! ### Status commands (R187 to R189, R195) -/

/-- GET_DEVICE (R188). -/
def State.takeGetDevice (s : State) : State := s.respond .done s.deviceSnapshot

/-- GET_STREAM (R188). -/
def State.takeGetStream (s : State) (streamByte : Byte) : State :=
  match streamOfByte streamByte with
  | some st => s.respond .done (s.stream st).snapshot
  | none => s.respond .badArg []

/-- GET_POOL (R189). -/
def State.takeGetPool (s : State) (streamByte : Byte) : State :=
  match streamOfByte streamByte with
  | some st => s.respond .done (s.stream st).poolSnapshot
  | none => s.respond .badArg []

/-- GET_READERS (R189). -/
def State.takeGetReaders (s : State) (streamByte : Byte) : State :=
  match streamOfByte streamByte with
  | some st => s.respond .done ((s.stream st).readersSnapshot s.now)
  | none => s.respond .badArg []

/-- GET_COVERAGE (R186, R189). -/
def State.takeGetCoverage (s : State) (streamByte argument : Byte) : State :=
  match streamOfByte streamByte with
  | none => s.respond .badArg []
  | some st =>
    if 5 < argument.toNat then s.respond .badArg []
    else
      match (s.stream st).bufs[argument.toNat]? with
      | some b => s.respond .done b.coverageSnapshot
      | none => s.respond .badState []

/-- GET_COUNTERS, with clearing when the argument is 1 (R186, R195). -/
def State.takeGetCounters (s : State) (streamByte argument : Byte) : State :=
  match streamOfByte streamByte with
  | none => s.respond .badArg []
  | some st =>
    if 1 < argument.toNat then s.respond .badArg []
    else
      let data := (s.stream st).counters.snapshot
      if argument = 1#8 then (s.onStream st (fun x => { x with counters := Counters.zero })).respond .done data
      else s.respond .done data

/-- ACK_EVENTS of a stream's set or, with FFh, of the device set (R186, R192). -/
def State.takeAckEvents (s : State) (streamByte mask : Byte) : State :=
  if streamByte = 0xFF#8 then
    let left := s.deviceFlags &&& ~~~(mask.setWidth 5)
    { s with deviceFlags := left }.respond .done [left.setWidth 8]
  else
    match streamOfByte streamByte with
    | none => s.respond .badArg []
    | some st =>
      let left := (s.stream st).flags &&& ~~~mask
      (s.onStream st (fun x => { x with flags := left })).respond .done [left]

/-! ### ARM, DISARM, RELOAD, SOFT_RESET (R171, R172, R175, R180) -/

/-- The status and whether the arm is started, by the table of R171. -/
def State.armDecision (s : State) (st : StreamId) : LinkStatus × Bool :=
  let x := s.stream st
  if s.softResetPending then (.busy, false)
  else
    match s.device with
    | .loading => (.busy, false)
    | .transparent => (.badState, false)
    | .configFault => (.badState, false)
    | .running =>
      if s.reloadInProgress then (.busy, false)
      else
        match x.life with
        | .active => (.done, false)
        | .draining => (.busy, false)
        | .refused => (.badState, false)
        | .off =>
          if x.arming then (.done, false)
          else if x.outcome = some .enabled then (.done, true)
          else (.badState, false)

/-- ARM (R171). -/
def State.takeArm (s : State) (streamByte : Byte) : State :=
  match streamOfByte streamByte with
  | none => s.respond .badArg []
  | some st =>
    let d := s.armDecision st
    (if d.2 then s.onStream st StreamState.beginArm else s).respond d.1 []

/-- The status and whether the teardown is started, by the table of R172. -/
def State.disarmDecision (s : State) (st : StreamId) : LinkStatus × Bool :=
  let x := s.stream st
  if s.softResetPending then (.busy, false)
  else
    match s.device with
    | .loading => (.busy, false)
    | .transparent => (.done, false)
    | .configFault => (.done, false)
    | .running =>
      if s.reloadInProgress then (.busy, false)
      else
        match x.life with
        | .active => (.done, true)
        | .off => if x.arming then (.busy, false) else (.done, false)
        | .draining => (.done, false)
        | .refused => (.done, false)

/-- DISARM (R172). -/
def State.takeDisarm (s : State) (streamByte : Byte) : State :=
  match streamOfByte streamByte with
  | none => s.respond .badArg []
  | some st =>
    let d := s.disarmDecision st
    (if d.2 then s.onStream st (fun x => { x with armRequest := false }.beginTeardown) else s).respond d.1 []

/-- An arm is in progress for some slot (R175). -/
def State.anyArming (s : State) : Bool := allStreams.any (fun st => (s.stream st).arming)

/-- RELOAD is taken: no soft reset pending, RUNNING or CONFIG_FAULT, no reload in progress, and in RUNNING no arm in
progress (R175). -/
def State.reloadTaken (s : State) : Bool :=
  !s.softResetPending && !s.reloadInProgress &&
    match s.device with
    | .running => !s.anyArming
    | .configFault => true
    | .transparent => false
    | .loading => false

/-- RELOAD (R175). -/
def State.takeReload (s : State) : State :=
  if s.reloadTaken then ({ s with reloadInProgress := true }.startLoad .reload).respond .done []
  else s.respond .busy []

/-- SOFT_RESET (R180). -/
def State.takeSoftReset (s : State) : State :=
  (if s.softResetPending then s else s.beginSoftReset).respond .done []

/-- A command byte that names no command (R184). -/
def State.takeUnlisted (s : State) : State := s.respond .badArg []

/-! ### Completed bytes (R183, R184) -/

/-- The taking of a command without an argument byte at its stream byte. -/
def State.takeAtStream (s : State) (c : LinkCommand) (streamByte : Byte) : State :=
  match c with
  | .getDevice => s.takeGetDevice
  | .getStream => s.takeGetStream streamByte
  | .getPool => s.takeGetPool streamByte
  | .getReaders => s.takeGetReaders streamByte
  | .arm => s.takeArm streamByte
  | .disarm => s.takeDisarm streamByte
  | .reload => s.takeReload
  | .softReset => s.takeSoftReset
  | .getCoverage => s
  | .getCounters => s
  | .ackEvents => s

/-- The taking of a command with an argument byte at that byte. -/
def State.takeAtArgument (s : State) (c : LinkCommand) (streamByte argument : Byte) : State :=
  match c with
  | .getCoverage => s.takeGetCoverage streamByte argument
  | .getCounters => s.takeGetCounters streamByte argument
  | .ackEvents => s.takeAckEvents streamByte argument
  | .getDevice => s
  | .getStream => s
  | .getPool => s
  | .getReaders => s
  | .arm => s
  | .disarm => s
  | .reload => s
  | .softReset => s

/-- The frame moves on, with MDO at this byte. -/
def State.linkMoves (s : State) (l : Link) (mdo : Byte) : State :=
  { s with link := l, ports := { s.ports with mdo := some mdo } }

/-- What a completed byte does in the frame state it completes in (Table 10-1, R184). In IDLE it is ignored. -/
def State.byteCompletes (s : State) (b : Byte) : State :=
  match s.link with
  | .idle => s
  | .command => s.linkMoves (.stream b) 0x00#8
  | .stream c =>
    match linkCommand c with
    | none => s.takeUnlisted
    | some k => if hasArgument k then s.linkMoves (.arguments c b) 0x00#8 else s.takeAtStream k b
  | .arguments c sb =>
    match linkCommand c with
    | none => s.takeUnlisted
    | some k => s.takeAtArgument k sb b
  | .response [] => s.linkMoves (.response []) 0x00#8
  | .response (r :: rest) => s.linkMoves (.response rest) r

/-- The frame waits for the stream byte of this command: its completion takes it (R184). -/
def State.takesAtStream (s : State) (k : LinkCommand) : Bool :=
  match s.link with
  | .stream c => linkCommand c == some k
  | .idle => false
  | .command => false
  | .arguments _ _ => false
  | .response _ => false

/-- The frame waits for the argument byte of this command: the stream byte it holds (R184). -/
def State.takesAtArgument (s : State) (k : LinkCommand) : Option Byte :=
  match s.link with
  | .arguments c sb => if linkCommand c = some k then some sb else none
  | .idle => none
  | .command => none
  | .stream _ => none
  | .response _ => none

end Sys2Proof.Machine
end

