-- ==== Sys2Proof/Machine/Port.lean ====
section
/-! DEFINITION. The Downstream Arbiter's grants to the Loader and the Repair Engine, and the return of a response
(Chapter 7). -/
namespace Sys2Proof.Machine

open Sys2Proof

/-! ### Grants (R138, R141) -/

/-- A transaction of the part's own: origin flag, and the entry's index as its tag (R142). -/
def State.ownTxn (s : State) (address : Address) (body : TxnBody) : DsTxn :=
  { origin := true, initiator := none, tag := BitVec.ofNat 6 s.freeIndex, address := address, body := body }

/-- A LOADER grant of the presented read (R150, R141). -/
def State.grantLoader (s : State) (q : LoaderRead) : State :=
  { s.issue (.loaderRead q)
      (s.ownTxn (BitVec.ofNat 40 (copyBase s.cfgsel q.copy + q.offset)) (.read q.length)) with
    load := s.load.map (fun l => { l with plan := l.plan.tail }) }

/-- The Repair Engine's lowest free slot (log 9). -/
def State.freeRepairSlot (s : State) : Nat := lowestFree Config.repairLimit (s.bursts.map (·.slot))

/-- The job's own transaction count rises at the grant (R59). -/
def State.jobIssued (s : State) : State := s.onHead (fun j => { j with outstanding := j.outstanding + 1 })

/-- The burst in this slot waits for the response to its write from now on. -/
def Burst.writes (slot : Nat) (u : Burst) : Burst := if u.slot = slot then { u with phase := .writing } else u

/-- The grant of the write of a held COPY burst (R58, R59). -/
def State.grantHeldWrite (s : State) (j : Job) (slot offset : Nat) (data : List Byte) : Result :=
  match (s.stream j.stream).bufs[j.target]? with
  | none => .fault .noBufferRecord
  | some b =>
    .next ({ (s.onStream j.stream (fun x => x.increment j.target)).issue (.repairWrite j.stream j.target slot)
        (s.ownTxn (b.addressAt offset) (.write data)) with
      bursts := s.bursts.map (Burst.writes slot)
      starvation := 0 }.jobIssued)

/-- The head job after its next burst is issued, with the burst in a slot (R56, R59). -/
def State.burstIssued (s : State) (d : Descriptor) (j : Job) (coverage : List Nat) (phase : BurstPhase) : State :=
  let u : Burst := { slot := s.freeRepairSlot, offset := burstOffset d j, length := burstLength d j, phase := phase }
  ({ s with bursts := s.bursts ++ [u] }.onHead (fun j => j.walked d coverage)).jobIssued

/-- The grant of a PAD write (R57). -/
def State.grantPad (s : State) (j : Job) : Result :=
  let d := (s.stream j.stream).desc
  match (s.stream j.stream).bufs[j.target]? with
  | none => .fault .noBufferRecord
  | some b =>
    let a := b.addressAt (burstOffset d j)
    .next ({ (s.onStream j.stream (fun x => x.increment j.target)).issue (.repairWrite j.stream j.target s.freeRepairSlot)
        (s.ownTxn a (.write (fillBytes (Decode.fillWord d) a.toNat (burstLength d j)))) with
      starvation := 0 }.burstIssued d j b.coverage .writing)

/-- The grant of a COPY read (R58). -/
def State.grantCopyRead (s : State) (j : Job) (source : Nat) : Result :=
  let d := (s.stream j.stream).desc
  match (s.stream j.stream).bufs[source]?, (s.stream j.stream).bufs[j.target]? with
  | some b, some t =>
    .next ({ (s.onStream j.stream (fun x => x.increment source)).issue (.repairRead j.stream source s.freeRepairSlot)
        (s.ownTxn (b.addressAt (burstOffset d j)) (.read (burstLength d j))) with
      starvation := 0 }.burstIssued d j t.coverage .reading)
  | _, _ => .fault .noBufferRecord

/-- A REPAIR grant of the presented request (R138, R141). -/
def State.grantRepair (s : State) (j : Job) : RepairRequest → Result
  | .writeHeld slot offset data => s.grantHeldWrite j slot offset data
  | .nextBurst =>
    match j.method with
    | .pad => s.grantPad j
    | .copy k => s.grantCopyRead j k

/-- The REPAIR request is the one to grant: by relief, or with no eligible PASS request on offer (R138). -/
def State.repairTurn (s : State) (onOffer : Option Initiator) : Bool :=
  s.repairEligible && (s.starvation == Config.reliefAt || !(onOffer.any s.passEligible))

/-- The grant the Arbiter makes among LOADER and REPAIR; none where it would grant PASS or nothing is eligible (R138). -/
def State.takeGrant (s : State) (onOffer : Option Initiator) : Result :=
  match s.loaderEligible, s.loaderRequest with
  | true, some q => .next (s.grantLoader q)
  | _, _ =>
    match s.repairTurn onOffer, s.repairRequest with
    | true, some (j, q) => s.grantRepair j q
    | _, _ => .next s

/-! ### Returns (R142 to R144) -/

/-- The entry a response matches (R142): the oldest PASS entry with its initiator ID and tag, or with the origin flag the
LOADER or REPAIR entry whose index is its tag. -/
def State.matched (s : State) (r : DsResponse) : Option Entry :=
  if r.origin then s.table.find? (fun e => e.index == r.tag.toNat && e.kind.requester != .pass)
  else s.table.find? (fun e => e.kind.passKey == some (r.initiator, r.tag))

/-- The routing of a response by its entry's kind (R143). -/
def State.route (s : State) (e : Entry) (r : DsResponse) : State :=
  match e.kind with
  | .passThrough i _ => s.fulfil i e.index { status := r.status, data := r.data }
  | .captureWrite i _ _ _ => s.fulfil i e.index { status := r.status, data := r.data }
  | .captureRead i _ => s.fulfil i e.index { status := r.status, data := r.data }
  | .presentationRead i _ _ _ => s.fulfil i e.index { status := r.status, data := r.data }
  | .repairRead _ _ slot => s.routeRepair true slot r.status r.data
  | .repairWrite _ _ slot => s.routeRepair false slot r.status r.data
  | .loaderRead q =>
    if s.softResetPending then s else { s with load := s.load.map (fun l => l.receive q r.status r.data) }

/-- The response is an ERROR to a capture write (R6). -/
def EntryKind.writeFailed (k : EntryKind) (status : Status) : Bool :=
  match k, status with
  | .captureWrite _ _ _ _, .error => true
  | _, _ => false

/-- The decrement of the buffer an entry records (R144, step 1). -/
def State.settleCount (s : State) (k : EntryKind) (status : Status) : State :=
  match k.counted with
  | some (st, b) => s.decrement st b (k.writeFailed status)
  | none => s

/-- The accounting of the requester after the decrement (R144, step 2), and the evaluation it may bring (R151). The entry
is already freed (R144, step 3), so the evaluation sees which reads are left. -/
def State.settleRequester (s : State) (k : EntryKind) : State :=
  match k.requester with
  | .pass => s
  | .repair => s.accountRepair
  | .loader => s.settleLoad

/-- The quiet report and the drain end that a return may bring to the stream its entry records (R25, R174). -/
def State.settleStream (s : State) (k : EntryKind) (before : State) : State :=
  match k.counted with
  | some (st, _) => (s.reportQuiet st (before.stream st) false).settleDrain st
  | none => s

/-- The return of a response: matched, routed, settled; discarded where it matches no entry (R142 to R144). -/
def State.takeReturn (s : State) (r : DsResponse) : State :=
  match s.matched r with
  | none => s
  | some e => ((((s.route e r).settleCount e.kind r.status).freeEntry e).settleRequester e.kind).settleStream e.kind s

end Sys2Proof.Machine
end

