-- ==== Sys2Proof/Machine/Upstream.lean ====
section
/-! DEFINITION. The commands of the upstream port: each is a transaction on offer, classified at its taking (R120, R140).
A transaction that is not the command's own kind is taken as what it is (log 5). -/
namespace Sys2Proof.Machine

open Sys2Proof

/-- The port with a transaction on offer: taken when the Arbiter grants it, else left with the interconnect (R140; log 3).
The taking answers from the state with the acceptance driven. -/
def State.offered (s : State) (t : Txn) (taking : State → Result) : Result :=
  if t.wf then
    if s.mayTake t.initiator then taking { s with ports := { Ports.quiet with accepted := true } }
    else .next s.quietPorts
  else .refused .badTransaction

/-- A dormant capture access (R127). -/
def State.takeDormantStatus (s : State) (t : Txn) (st : StreamId) : State := s.answer t .okay (s.stream st).dormantStatus

/-- A dormant claim or peek (R128). -/
def State.takeDormantRecord (s : State) (t : Txn) (k : ReaderSlot) : State := s.answer t .okay (dormantPresentation k)

/-- Pass-through (R122): forwarded unchanged. -/
def State.takeForward (s : State) (t : Txn) : State := s.forward t (.passThrough t.initiator t.tag) t.address

/-- What the part does with a transaction of each class. -/
def State.takeAs (s : State) (t : Txn) : Class → Result
  | .forward => .next (s.takeForward t)
  | .refuse cause st => .next (s.refuse t cause st)
  | .lineWrite st o => s.takeLineWrite t st o
  | .excessWrite st => .next (s.takeExcessWrite t st)
  | .captureLineRead st o fill => s.takeCaptureRead t st o fill
  | .captureExcessRead _ fill => .next (s.answerFill t fill)
  | .close st => .next (s.takeClose t st)
  | .statusRead st => .next (s.takeStatusRead t st)
  | .claim st k => .next (s.takeClaim t st k)
  | .peek st k => .next (s.takePeek t st k)
  | .presentationLineRead st k o fill => s.takePresentationRead t st k o fill
  | .presentationExcessRead _ _ fill => .next (s.answerFill t fill)
  | .dormantDrop _ => .next (s.acknowledge t)
  | .dormantCaptureFill _ fill => .next (s.answerFill t fill)
  | .dormantStatus st => .next (s.takeDormantStatus t st)
  | .dormantPresentationFill _ _ fill => .next (s.answerFill t fill)
  | .dormantPresentationRecord _ k => .next (s.takeDormantRecord t k)

/-- The taking of a transaction whatever its class. -/
def State.takeAny (t : Txn) (s : State) : Result := s.takeAs t (s.classify t)

/-- PASS_THROUGH (R122). -/
def execPassThrough (t : Txn) (s : State) : Result :=
  s.offered t (fun u =>
    match u.classify t with
    | .forward => .next (u.takeForward t)
    | _ => u.takeAny t)

/-- LINE_AREA_WRITE (R32). -/
def execLineAreaWrite (t : Txn) (s : State) : Result :=
  s.offered t (fun u =>
    match u.classify t with
    | .lineWrite st o => u.takeLineWrite t st o
    | _ => u.takeAny t)

/-- EXCESS_WRITE (R35). -/
def execExcessWrite (t : Txn) (s : State) : Result :=
  s.offered t (fun u =>
    match u.classify t with
    | .excessWrite st => .next (u.takeExcessWrite t st)
    | _ => u.takeAny t)

/-- CAPTURE_READ (R36 to R38). -/
def execCaptureRead (t : Txn) (s : State) : Result :=
  s.offered t (fun u =>
    match u.classify t with
    | .captureLineRead st o fill => u.takeCaptureRead t st o fill
    | .captureExcessRead _ fill => .next (u.answerFill t fill)
    | _ => u.takeAny t)

/-- CLOSE (R41). -/
def execClose (t : Txn) (s : State) : Result :=
  s.offered t (fun u =>
    match u.classify t with
    | .close st => .next (u.takeClose t st)
    | _ => u.takeAny t)

/-- CAPTURE_STATUS_READ (R46). -/
def execCaptureStatusRead (t : Txn) (s : State) : Result :=
  s.offered t (fun u =>
    match u.classify t with
    | .statusRead st => .next (u.takeStatusRead t st)
    | _ => u.takeAny t)

/-- CLAIM (R74). -/
def execClaim (t : Txn) (s : State) : Result :=
  s.offered t (fun u =>
    match u.classify t with
    | .claim st k => .next (u.takeClaim t st k)
    | _ => u.takeAny t)

/-- PEEK (R83). -/
def execPeek (t : Txn) (s : State) : Result :=
  s.offered t (fun u =>
    match u.classify t with
    | .peek st k => .next (u.takePeek t st k)
    | _ => u.takeAny t)

/-- PRESENTATION_LINE_READ (R86, R87). -/
def execPresentationLineRead (t : Txn) (s : State) : Result :=
  s.offered t (fun u =>
    match u.classify t with
    | .presentationLineRead st k o fill => u.takePresentationRead t st k o fill
    | .presentationExcessRead _ _ fill => .next (u.answerFill t fill)
    | _ => u.takeAny t)

/-- DORMANT_CAPTURE_ACCESS (R127). -/
def execDormantCaptureAccess (t : Txn) (s : State) : Result :=
  s.offered t (fun u =>
    match u.classify t with
    | .dormantDrop _ => .next (u.acknowledge t)
    | .dormantCaptureFill _ fill => .next (u.answerFill t fill)
    | .dormantStatus st => .next (u.takeDormantStatus t st)
    | _ => u.takeAny t)

/-- DORMANT_PRESENTATION_ACCESS (R128). -/
def execDormantPresentationAccess (t : Txn) (s : State) : Result :=
  s.offered t (fun u =>
    match u.classify t with
    | .dormantPresentationFill _ _ fill => .next (u.answerFill t fill)
    | .dormantPresentationRecord _ k => .next (u.takeDormantRecord t k)
    | _ => u.takeAny t)

/-- ACCESS_REFUSAL (R120, R130, R131). -/
def execAccessRefusal (t : Txn) (s : State) : Result :=
  s.offered t (fun u =>
    match u.classify t with
    | .refuse cause st => .next (u.refuse t cause st)
    | _ => u.takeAny t)

end Sys2Proof.Machine
end

