-- ==== Sys2Proof/Machine/Downstream.lean ====
section
/-! DEFINITION. The commands of the downstream port: GRANT and RETURN (Chapter 7). -/
namespace Sys2Proof.Machine

open Sys2Proof

/-- GRANT (R138): the Arbiter grants the eligible LOADER or REPAIR request whose turn it is (log 4, log 11). -/
def execGrant (onOffer : Option Initiator) (s : State) : Result := s.quietPorts.takeGrant onOffer

/-- RETURN (R142). -/
def execReturned (r : DsResponse) (s : State) : Result :=
  if r.wf then .next (s.quietPorts.takeReturn r) else .refused .badTransaction

end Sys2Proof.Machine
end

