-- ==== Sys2Proof/Machine/Timers.lean ====
section
/-! DEFINITION. Expiries and the blocks' own takings: MISS, SCAN_TIMER_EXPIRY, ARM_MESSAGE, TEARDOWN_REQUEST. A step that is
not due in the state it meets does not happen (log 4). -/
namespace Sys2Proof.Machine

open Sys2Proof

/-- A timer's expiry time is reached. -/
def Timer.due (now : Micros) : Timer → Bool
  | .stopped => false
  | .running e => decide (e ≤ now)

/-- MISS (R99). -/
def execMiss (st : StreamId) (s : State) : Result :=
  if (s.stream st).timer.due s.now then .next (s.quietPorts.onStream st StreamState.miss) else .next s.quietPorts

/-- SCAN_TIMER_EXPIRY (R91), with the quiet report that an unbind in a DRAINING stream may bring (R25). -/
def execScanTimerExpiry (st : StreamId) (k : ReaderSlot) (s : State) : Result :=
  if ((s.stream st).reader k).timer.due s.now then
    .next ((s.quietPorts.onStream st (fun x => x.expire k)).reportQuiet st (s.stream st) false)
  else .next s.quietPorts

/-- ARM_MESSAGE (R170). -/
def execArmMessage (st : StreamId) (b : ArmBlock) (s : State) : Result :=
  if (s.stream st).armAwaited.contains b then
    .next (s.quietPorts.onStream st (fun x => (x.armBlock s.now b).armTaken b))
  else .next s.quietPorts

/-- TEARDOWN_REQUEST (R173). -/
def execTeardownRequest (st : StreamId) (s : State) : Result :=
  if (s.stream st).life = .draining ∧ (s.stream st).drainTaken < 5 then .next (s.quietPorts.takeTeardown st)
  else .next s.quietPorts

end Sys2Proof.Machine
end

