-- ==== Sys2Proof/Machine/Reset.lean ====
section
/-! DEFINITION. The commands of the resets: POWER_ON_RESET, RESET_RELEASE, REINITIALISATION (R167, R181, R182). -/
namespace Sys2Proof.Machine

open Sys2Proof

/-- POWER_ON_RESET (R182): RESET_N is low from now on. -/
def execPowerOnReset (s : State) : Result := .next s.powerOn

/-- RESET_RELEASE (R167): a rise of RESET_N; none where it is high already (log 4). -/
def execResetRelease (apsel cfgsel : Byte) (s : State) : Result :=
  if s.resetN then .next s.quietPorts
  else .next ({ s.quietPorts with resetN := true, link := .idle }.sampleStraps apsel cfgsel)

/-- REINITIALISATION (R181): in a soft reset's wait, with the ports drained (log 4). -/
def execReinitialisation (apsel cfgsel : Byte) (s : State) : Result :=
  if s.softResetPending ∧ s.portsDrained then .next (s.reinitialised.sampleStraps apsel cfgsel) else .next s.quietPorts

end Sys2Proof.Machine
end

