-- ==== Sys2Proof/Machine/Management.lean ====
section
/-! DEFINITION. The commands of the management link: each is a link byte that completes, or an edge of MCS_N (Chapter 10).
A byte that does not take the command's own code is the byte it is (log 6). -/
namespace Sys2Proof.Machine

open Sys2Proof

/-- A completed byte, whatever it takes. -/
def State.takeByte (s : State) (b : Byte) : Result := .next (s.quietPorts.byteCompletes b)

/-- GET_DEVICE (R188). -/
def execGetDevice (b : Byte) (s : State) : Result :=
  if s.takesAtStream .getDevice then .next s.quietPorts.takeGetDevice else s.takeByte b

/-- GET_STREAM (R188). -/
def execGetStream (b : Byte) (s : State) : Result :=
  if s.takesAtStream .getStream then .next (s.quietPorts.takeGetStream b) else s.takeByte b

/-- GET_POOL (R189). -/
def execGetPool (b : Byte) (s : State) : Result :=
  if s.takesAtStream .getPool then .next (s.quietPorts.takeGetPool b) else s.takeByte b

/-- GET_READERS (R189). -/
def execGetReaders (b : Byte) (s : State) : Result :=
  if s.takesAtStream .getReaders then .next (s.quietPorts.takeGetReaders b) else s.takeByte b

/-- GET_COVERAGE (R189). -/
def execGetCoverage (b : Byte) (s : State) : Result :=
  match s.takesAtArgument .getCoverage with
  | some sb => .next (s.quietPorts.takeGetCoverage sb b)
  | none => s.takeByte b

/-- GET_COUNTERS (R195). -/
def execGetCounters (b : Byte) (s : State) : Result :=
  match s.takesAtArgument .getCounters with
  | some sb => .next (s.quietPorts.takeGetCounters sb b)
  | none => s.takeByte b

/-- ACK_EVENTS (R192). -/
def execAckEvents (b : Byte) (s : State) : Result :=
  match s.takesAtArgument .ackEvents with
  | some sb => .next (s.quietPorts.takeAckEvents sb b)
  | none => s.takeByte b

/-- ARM (R171). -/
def execArm (b : Byte) (s : State) : Result :=
  if s.takesAtStream .arm then .next (s.quietPorts.takeArm b) else s.takeByte b

/-- DISARM (R172). -/
def execDisarm (b : Byte) (s : State) : Result :=
  if s.takesAtStream .disarm then .next (s.quietPorts.takeDisarm b) else s.takeByte b

/-- RELOAD (R175). -/
def execReload (b : Byte) (s : State) : Result :=
  if s.takesAtStream .reload then .next s.quietPorts.takeReload else s.takeByte b

/-- SOFT_RESET (R180). -/
def execSoftReset (b : Byte) (s : State) : Result :=
  if s.takesAtStream .softReset then .next s.quietPorts.takeSoftReset else s.takeByte b

/-- The frame waits for the stream byte of a command byte that names no command (R184). -/
def State.takesUnlisted (s : State) : Bool :=
  match s.link with
  | .stream c => (Decode.linkCommand c).isNone
  | .idle => false
  | .command => false
  | .arguments _ _ => false
  | .response _ => false

/-- UNLISTED_COMMAND (R184). -/
def execUnlistedCommand (b : Byte) (s : State) : Result :=
  if s.takesUnlisted then .next s.quietPorts.takeUnlisted else s.takeByte b

/-- BYTE_COMPLETE (R183). -/
def execByteComplete (b : Byte) (s : State) : Result := .next (s.quietPorts.byteCompletes b)

/-- FRAME_BEGIN (R183): a fall of MCS_N; while RESET_N is low no frame begins (R185). -/
def execFrameBegin (s : State) : Result :=
  if s.mcsN then .next { s.quietPorts with mcsN := false, link := if s.resetN then .command else s.link }
  else .next s.quietPorts

/-- FRAME_END (R185): a rise of MCS_N ends the frame; received bytes and response are dropped. -/
def execFrameEnd (s : State) : Result := .next { s.quietPorts with mcsN := true, link := .idle }

end Sys2Proof.Machine
end

