-- ==== Sys2Proof/Machine/Dispatch.lean ====
section
/-! DEFINITION. One arm per command: each calls its meaning. -/
namespace Sys2Proof.Machine
open Sys2Proof

-- The arms stand in the order of spec/opcode_table.json.
def exec (i : Instr) (s : State) : Host.Outcome State Fault Refusal :=
  match i with
  | .powerOnReset => Sys2Proof.Machine.execPowerOnReset s
  | .resetRelease apsel cfgsel => Sys2Proof.Machine.execResetRelease apsel cfgsel s
  | .softReset b => Sys2Proof.Machine.execSoftReset b s
  | .reinitialisation apsel cfgsel => Sys2Proof.Machine.execReinitialisation apsel cfgsel s
  | .getDevice b => Sys2Proof.Machine.execGetDevice b s
  | .getStream b => Sys2Proof.Machine.execGetStream b s
  | .getPool b => Sys2Proof.Machine.execGetPool b s
  | .getReaders b => Sys2Proof.Machine.execGetReaders b s
  | .getCoverage b => Sys2Proof.Machine.execGetCoverage b s
  | .getCounters b => Sys2Proof.Machine.execGetCounters b s
  | .ackEvents b => Sys2Proof.Machine.execAckEvents b s
  | .arm b => Sys2Proof.Machine.execArm b s
  | .disarm b => Sys2Proof.Machine.execDisarm b s
  | .reload b => Sys2Proof.Machine.execReload b s
  | .unlistedCommand b => Sys2Proof.Machine.execUnlistedCommand b s
  | .frameEnd => Sys2Proof.Machine.execFrameEnd s
  | .passThrough t => Sys2Proof.Machine.execPassThrough t s
  | .lineAreaWrite t => Sys2Proof.Machine.execLineAreaWrite t s
  | .excessWrite t => Sys2Proof.Machine.execExcessWrite t s
  | .captureRead t => Sys2Proof.Machine.execCaptureRead t s
  | .close t => Sys2Proof.Machine.execClose t s
  | .captureStatusRead t => Sys2Proof.Machine.execCaptureStatusRead t s
  | .claim t => Sys2Proof.Machine.execClaim t s
  | .peek t => Sys2Proof.Machine.execPeek t s
  | .presentationLineRead t => Sys2Proof.Machine.execPresentationLineRead t s
  | .dormantCaptureAccess t => Sys2Proof.Machine.execDormantCaptureAccess t s
  | .dormantPresentationAccess t => Sys2Proof.Machine.execDormantPresentationAccess t s
  | .accessRefusal t => Sys2Proof.Machine.execAccessRefusal t s
  | .grant offer => Sys2Proof.Machine.execGrant offer s
  | .returned r => Sys2Proof.Machine.execReturned r s
  | .miss st => Sys2Proof.Machine.execMiss st s
  | .scanTimerExpiry st k => Sys2Proof.Machine.execScanTimerExpiry st k s
  | .armMessage st b => Sys2Proof.Machine.execArmMessage st b s
  | .teardownRequest st => Sys2Proof.Machine.execTeardownRequest st s
  | .frameBegin => Sys2Proof.Machine.execFrameBegin s
  | .byteComplete b => Sys2Proof.Machine.execByteComplete b s

end Sys2Proof.Machine
end

