-- ==== Sys2Proof/Machine/Idle.lean ====
section
/-! DEFINITION. The part on an empty queue: an expiry that is due is taken, and with none due one microsecond passes
(R91, R97, R99; log 1, log 2). -/
namespace Sys2Proof.Machine

open Sys2Proof

/-- A timer of the part. -/
inductive TimerName where
  | cadence (stream : StreamId)
  | scan (stream : StreamId) (slot : ReaderSlot)
  deriving DecidableEq, Repr

/-- The timers of one stream that are due. -/
def State.dueIn (s : State) (st : StreamId) : List TimerName :=
  (if (s.stream st).timer.due s.now then [.cadence st] else [])
    ++ (if ((s.stream st).reader 0).timer.due s.now then [.scan st 0] else [])
    ++ (if ((s.stream st).reader 1).timer.due s.now then [.scan st 1] else [])

/-- The timers that are due. -/
def State.due (s : State) : List TimerName := allStreams.flatMap s.dueIn

/-- The taking of an expiry. -/
def State.takeExpiry (s : State) : TimerName → Result
  | .cadence st => execMiss st s
  | .scan st k => execScanTimerExpiry st k s

/-- One microsecond of the time base; while RESET_N is low it holds 0 (R97). -/
def State.tick (s : State) : State := if s.resetN then { s.quietPorts with time := s.time + 1#64 } else s.quietPorts

/-- The part with no command waiting: the expiry that is due, the free value choosing among several, else a tick. -/
def State.idle (s : State) : Result :=
  match s.due with
  | [] => .next s.tick
  | [e] => s.takeExpiry e
  | e :: more =>
    { s with choice := s.choice + 1 }.takeExpiry
      (((e :: more)[Config.expiryChoice s.choice % (e :: more).length]?).getD e)

end Sys2Proof.Machine
end

