-- ==== Sys2Proof/Safety.lean ====
section
/-! DEFINITION. The terms the statements use: what taking, forwarding and answering a transaction leave; little-endian fields
written out; and the invariants of the part's tables, order lists and lock states. -/
namespace Sys2Proof.Safety

open Sys2Proof Sys2Proof.Machine

/-! ### Fields of records, the least significant byte first (R197) -/

def lsb16 (v : BitVec 16) : List Byte := [v.extractLsb' 0 8, v.extractLsb' 8 8]

def lsb32 (v : BitVec 32) : List Byte := [v.extractLsb' 0 8, v.extractLsb' 8 8, v.extractLsb' 16 8, v.extractLsb' 24 8]

def lsb40 (v : BitVec 40) : List Byte :=
  [v.extractLsb' 0 8, v.extractLsb' 8 8, v.extractLsb' 16 8, v.extractLsb' 24 8, v.extractLsb' 32 8]

/-- A code or a small count in one byte. -/
def one (n : Nat) : Byte := BitVec.ofNat 8 n

/-- A bit of a flag byte. -/
def bit (b : Bool) (k : Nat) : Byte := if b then 1#8 <<< k else 0#8

/-! ### Entries of the snapshots -/

/-- One GET_POOL entry by Table 11-14. -/
def poolEntryBytes (b : Buf) : List Byte :=
  [one b.state.code, one b.verdict.code,
    bit b.early 0 ||| bit b.writeError 1 ||| bit b.hold 2 ||| bit b.close.abandon 3 ||| bit b.close.noRepair 4
      ||| bit b.close.tagValid 5,
    one b.readers, one b.pins, one b.inFlight] ++ lsb16 (BitVec.ofNat 16 b.covered) ++ lsb32 b.base ++ lsb32 b.seq
    ++ lsb16 b.close.producerSeq ++ [0#8, 0#8] ++ lsb32 b.close.userTag ++ lsb32 (BitVec.ofNat 32 b.close.time)

/-- One GET_READERS entry by Table 11-15. -/
def readerEntryBytes (now : Nat) (r : Reader) : List Byte :=
  [1#8 ||| bit r.valid 1, one r.id.val, one r.state.code, match r.state with | .bound i => one i | _ => 0xFF#8]
    ++ lsb32 r.boundSeq ++ [one r.lastSource.code, match r.timer with | .stopped => 0#8 | .running _ => 1#8]
    ++ lsb16 r.lastSkipped ++ lsb32 (match r.timer with | .stopped => 0#32 | .running e => BitVec.ofNat 32 (e - now))

/-! ### What the link, the upstream port and the downstream port leave -/

/-- The state after a management command is taken: the response it holds, MDO at 00h, nothing else (R184, Table 10-1). -/
def responds (s : State) (bytes : List Byte) : State :=
  { s with link := .response bytes, ports := { Ports.quiet with mdo := some 0x00#8 } }

/-- A transaction the bus can carry is on offer, and the upstream port takes it (R140). -/
def Takes (s : State) (t : Txn) : Prop := t.wf = true ∧ s.mayTake t.initiator = true

/-- The order list entry of a transaction. -/
def orderEntry (t : Txn) (o : OrderState) : OrderEntry := { tag := t.tag, dir := Txn.dir t, state := o }

/-- The part answered a transaction itself: it makes no entry; the response leaves at once on an empty order list and
waits at the tail behind an entry that waits; every other list stays (R132, R133, R140). -/
structure Answered (s u : State) (t : Txn) (status : Status) (data : List Byte) : Prop where
  accepted : u.ports.accepted = true
  quiet : u.ports.issued = none ∧ u.ports.mdo = none
  atOnce : s.order t.initiator = [] →
    u.order t.initiator = [] ∧
      u.ports.responses =
        [{ initiator := t.initiator, tag := t.tag, dir := Txn.dir t, response := { status := status, data := data } }]
  behind : ∀ e l n, s.order t.initiator = e :: l → e.state = .waits n →
    u.order t.initiator = s.order t.initiator ++ [orderEntry t (.ready { status := status, data := data })] ∧
      u.ports.responses = []
  others : ∀ i, i ≠ t.initiator → u.order i = s.order i

/-- The part forwarded a transaction: one entry is made, the transaction is issued at this address with its own initiator
ID, tag and body, its order list entry waits, and the starvation counter rises while a REPAIR request stands
(R122, R132, R139 to R141). -/
structure Forwarded (s u : State) (t : Txn) (kind : EntryKind) (address : Address) : Prop where
  entry : u.table = s.table ++ [{ index := s.freeIndex, kind := kind }]
  waits : u.order t.initiator = s.order t.initiator ++ [orderEntry t (.waits s.freeIndex)]
  others : ∀ i, i ≠ t.initiator → u.order i = s.order i
  ports : u.ports =
    { accepted := true, responses := [], mdo := none,
      issued := some { origin := false, initiator := some t.initiator, tag := t.tag, address := address, body := t.body } }
  starvation : u.starvation = if s.repairStands then min (s.starvation + 1) 8 else s.starvation
  rest : u = { s with streams := u.streams, orders := u.orders, ports := u.ports, table := u.table,
                      starvation := u.starvation }

/-- Nothing differs but the stream slots, the order lists and the output pins. -/
def PortAndStreams (s u : State) : Prop := u = { s with streams := u.streams, orders := u.orders, ports := u.ports }

/-- Fill data: byte k of a read at address a is lane (a + k) mod 4 of the fill word, lane 0 the least significant (R38). -/
def fillData (w : BitVec 32) (a length : Nat) : List Byte :=
  (List.range length).map (fun k => w.extractLsb' (8 * ((a + k) % 4)) 8)

/-- An arrival is early: P is not 0 and t < r + P − T (R98, R101). -/
def Early (x : StreamState) (t : Nat) : Prop :=
  Decode.period x.desc ≠ 0 ∧ t + Decode.tolerance x.desc < x.ref + Decode.period x.desc

/-- A slot after the Cadence Monitor has taken an arrival at time t: an early one is counted, r becomes t, the timer runs to
t + P + T, or stays STOPPED with P = 0 (R98, R101). -/
def arrived (x : StreamState) (t : Nat) : StreamState :=
  { x with
    counters := if Decode.period x.desc ≠ 0 ∧ t + Decode.tolerance x.desc < x.ref + Decode.period x.desc then
      { x.counters with earlyCloses := advance16 x.counters.earlyCloses } else x.counters
    ref := t
    timer := if Decode.period x.desc = 0 then .stopped else .running (t + Decode.period x.desc + Decode.tolerance x.desc) }

/-- Only this stream's slot differs. -/
def OnlyStream (s u : State) (st : StreamId) : Prop := ∀ k, k ≠ st → u.stream k = s.stream k

/-! ### The presentation record, reader entries and released buffers -/

/-- The 32 bytes of the presentation record of slot k by Table 11-3; the frame fields are 0 without a binding (R84). -/
def presentationBytes (x : StreamState) (now : Nat) (k : ReaderSlot) (r : Reader) : List Byte :=
  [0x50#8, one r.lastSource.code, one k.val, one r.state.code, if x.life = .active then one x.lock.code else 0#8]
    ++ match r.state with
      | .bound i =>
        match x.bufs[i]? with
        | some b =>
          [one b.verdict.code, bit b.close.tagValid 0 ||| bit b.early 1, 0#8] ++ lsb32 r.boundSeq
            ++ lsb16 b.close.producerSeq ++ lsb16 (BitVec.ofNat 16 (Decode.lines x.desc - b.coverage.length))
            ++ lsb32 b.close.userTag ++ lsb16 r.lastSkipped ++ [0#8, 0#8]
            ++ lsb32 (BitVec.ofNat 32 (min (now - b.close.time) 0xFFFFFFFF)) ++ [0#8, 0#8, 0#8, 0#8]
        | none => List.replicate 27 0#8
      | .unbound => List.replicate 27 0#8
      | .subst => List.replicate 27 0#8
      | .stale => List.replicate 27 0#8

/-- The scan timer a claim leaves: RUNNING to now + S, or STOPPED with S = 0 (R90). -/
def scanRestart (x : StreamState) (now : Nat) : Timer :=
  if Decode.scanTimeout x.desc = 0 then .stopped else .running (now + Decode.scanTimeout x.desc)

/-- New bound sequence − old − 1 brought into 0 to 65535, 0 where either is 0 (R80). -/
def skippedFrames (old new : BitVec 32) : BitVec 16 :=
  if old = 0#32 ∨ new = 0#32 then 0#16
  else if new.toNat ≤ old.toNat then 0#16
  else BitVec.ofNat 16 (min (new.toNat - old.toNat - 1) 65535)

/-- An entry after a claim that binds buffer i with this sequence and source (R80, R90). -/
def entryBound (x : StreamState) (now : Nat) (r : Reader) (i : Nat) (seq : BitVec 32) (source : Source) : Reader :=
  { r with state := .bound i, boundSeq := seq, lastSource := source, lastSkipped := skippedFrames r.boundSeq seq,
           timer := scanRestart x now }

/-- An entry after a claim that keeps the binding (R80, R90). -/
def entryKept (x : StreamState) (now : Nat) (r : Reader) (source : Source) : Reader :=
  { r with lastSource := source, lastSkipped := 0#16, timer := scanRestart x now }

/-- An entry after a claim that found no buffer (R80, R90). -/
def entrySubst (x : StreamState) (now : Nat) (r : Reader) : Reader :=
  { r with state := .subst, boundSeq := 0#32, lastSource := .fill, lastSkipped := 0#16, timer := scanRestart x now }

/-- The pool after the unbind of the buffer an entry was bound to; without a binding it stays (R78). -/
def unboundFrom (x : StreamState) (r : Reader) : StreamState :=
  match r.state with
  | .bound i => x.unbind i
  | .unbound => x
  | .subst => x
  | .stale => x

/-- The claim is decided by the discipline (Table 4-4): LOCKED, COAST, or unlock policy FOLLOW. -/
def ByDiscipline (x : StreamState) : Prop :=
  x.lock = .locked ∨ x.lock = .coast ∨ Decode.unlock x.desc = some .follow

/-- A record as a release leaves it: FREE with its fields cleared, or RELEASING while counts are above 0 (R3, R4). -/
def releasedBuf (b : Buf) : Buf :=
  if b.inFlight = 0 ∧ b.pins = 0 then Buf.fresh b.base else { b with state := .releasing, hold := false }

/-- A slot after the release of a buffer (R4). -/
def releasedAt (x : StreamState) (i : Nat) (b : Buf) : StreamState :=
  { x with bufs := x.bufs.set i (releasedBuf b), ready := x.ready.filter (· != i) }

/-- Record i is the one with the highest sequence among those in these states. -/
def Newest (x : StreamState) (states : List BufState) (i : Nat) (b : Buf) : Prop :=
  x.bufs[i]? = some b ∧ b.state ∈ states ∧
    ∀ j c, j ≠ i → x.bufs[j]? = some c → c.state ∈ states → c.seq < b.seq

/-- A slot after the unpin of buffer k: the count falls by one, and a RELEASING buffer left with counts of 0 goes to FREE (R7). -/
def unpinnedAt (x : StreamState) (k : Nat) (c : Buf) : StreamState :=
  { x with
    bufs := x.bufs.set k
      (if c.state = .releasing ∧ c.inFlight = 0 ∧ c.pins ≤ 1 then Buf.fresh c.base else { c with pins := c.pins - 1 }) }

/-- A slot after the end of a job's hold on its COPY source; a PAD job holds none (R7, R52). -/
def sourceLeft (x : StreamState) (m : Method) : StreamState :=
  match m with
  | .pad => x
  | .copy k =>
    match x.bufs[k]? with
    | some c => unpinnedAt x k c
    | none => x

/-- A slot after the release of the target of a job taken as cancelled, without a verdict: a REPAIRING target goes to FREE,
one already FREE or RELEASING stays (R4, R65 to R67). -/
def targetReleased (x : StreamState) (i : Nat) : StreamState :=
  match x.bufs[i]? with
  | some b =>
    if b.state = .free ∨ b.state = .releasing then { x with ready := x.ready.filter (· != i) } else releasedAt x i b
  | none => { x with ready := x.ready.filter (· != i) }

/-- A slot after its jobs in this list are cancelled, in queue order: each unpins its source and then has its target
released (R65). -/
def cancelled (x : StreamState) : List Job → StreamState
  | [] => x
  | j :: l => cancelled (targetReleased (sourceLeft x j.method) j.target) l

/-- A DRAINING slot with the quiet report, where the request that led from `before` to it left every buffer FREE (R25). -/
def quietAfter (before x : StreamState) : StreamState :=
  if x.life = .draining ∧ (∀ b ∈ x.bufs, b.state = .free) ∧ ∃ b ∈ before.bufs, b.state ≠ .free then
    { x with poolQuiet := true }
  else x

/-- The buffer records a descriptor gives: pool size records, all FREE (R1, R26). -/
def poolBuilt (d : Descriptor) : List Buf :=
  (List.range (Decode.poolSize d)).map (fun i => Buf.fresh (Decode.bufferBase d i))

/-- The two reader entries a descriptor gives (R69, R70). -/
def entriesBuilt (d : Descriptor) : List Reader :=
  [0, 1].map (fun k =>
    { valid := (Decode.readerSlot d k).valid, id := (Decode.readerSlot d k).id, state := .unbound, boundSeq := 0#32,
      lastSource := .fill, lastSkipped := 0#16, timer := .stopped })

/-- Buffer records, READY queue and reader entries of a slot as a load, a reload or a drain end leaves them for the
descriptor in force (R1, R26, R69, R70, Table 1-5, Table 4-3; for an arm that starts there, log 34). -/
structure BuiltFor (y : StreamState) (i : Installed) : Prop where
  readers : y.readers = entriesBuilt i.desc
  queue : y.ready = []
  pool : i.outcome ≠ .refused → 2 ≤ Decode.poolSize i.desc → Decode.poolSize i.desc ≤ 6 → y.bufs = poolBuilt i.desc
  absent : i.outcome = .refused ∨ (i.outcome = .disabled ∧ ¬ (2 ≤ Decode.poolSize i.desc ∧ Decode.poolSize i.desc ≤ 6)) →
    y.bufs = []

/-- The slot after every READY buffer for which p holds is released and counted once in skipped (R15, R16). -/
structure ReleasesReady (x y : StreamState) (p : Nat → Buf → Prop) : Prop where
  released : ∀ j c, x.bufs[j]? = some c → c.state = .ready → p j c → y.bufs[j]? = some (releasedBuf c)
  kept : ∀ j c, x.bufs[j]? = some c → ¬ (c.state = .ready ∧ p j c) → y.bufs[j]? = some c
  length : y.bufs.length = x.bufs.length
  queue : y.ready.Sublist x.ready ∧
    ∀ j, j ∈ y.ready ↔ j ∈ x.ready ∧ ∀ c, x.bufs[j]? = some c → ¬ (c.state = .ready ∧ p j c)
  counted : ∃ l : List Nat, l.Nodup ∧ (∀ j, j ∈ l ↔ ∃ c, x.bufs[j]? = some c ∧ c.state = .ready ∧ p j c) ∧
    y.counters = { x.counters with skipped := (advance16^[l.length]) x.counters.skipped }
  rest : y = { x with bufs := y.bufs, ready := y.ready, counters := y.counters }

/-! ### Grants and returns -/

/-- A REPAIR request may be granted now: an entry is free, the Repair Engine is below its limit, no LOADER request is
eligible, and the relief is due or no eligible PASS request is on offer (R137, R138). -/
def RepairTurn (s : State) (onOffer : Option Initiator) : Prop :=
  s.softResetPending = false ∧ s.table.length < 32 ∧ (s.entriesOf .repair).length < 4 ∧
    (s.loaderRequest = none ∨ 3 ≤ (s.entriesOf .loader).length) ∧
    (s.starvation = 8 ∨ ∀ i, onOffer = some i → s.passEligible i = false)

/-- No burst of the Repair Engine holds data for a write, a slot is free, and the head job's walk is not finished (R59). -/
def NextBurstDue (s : State) (j : Job) : Prop :=
  j.state = .running ∧ (∀ b ∈ s.bursts, ∀ d, b.phase ≠ .held d) ∧ s.bursts.length < 4 ∧
    j.nextLine < Decode.lines (s.stream j.stream).desc

/-- The length of the next burst of a job (R56). -/
def nextLength (d : Descriptor) (j : Job) : Nat :=
  min 256 (min (Decode.lineBytes d - j.nextPos) (4096 - (j.nextLine * Decode.pitch d + j.nextPos) % 4096))

/-- A job after its next burst is granted: one more transaction outstanding; the position moves on in the line, or the walk goes
to the next line of the target that is not covered, past the last line when there is none (R55, R56, R59). -/
structure Walked (d : Descriptor) (covered : List Nat) (j k : Job) : Prop where
  same : k = { j with nextLine := k.nextLine, nextPos := k.nextPos, outstanding := j.outstanding + 1 }
  inLine : j.nextPos + nextLength d j < Decode.lineBytes d →
    k.nextLine = j.nextLine ∧ k.nextPos = j.nextPos + nextLength d j
  nextLine : Decode.lineBytes d ≤ j.nextPos + nextLength d j →
    k.nextPos = 0 ∧ j.nextLine < k.nextLine ∧ (k.nextLine < Decode.lines d → k.nextLine ∉ covered) ∧
      ∀ n, j.nextLine < n → n < Decode.lines d → n ∉ covered → k.nextLine ≤ n

/-- What the part issues on its own: origin flag, no initiator ID, the entry's index as tag (R142; log 30). -/
def ownIssue (s : State) (address : Address) (body : TxnBody) : Ports :=
  { Ports.quiet with
    issued := some { origin := true, initiator := none, tag := BitVec.ofNat 6 s.freeIndex, address := address, body := body } }

/-- A response that an order list entry holds or sends. -/
def sentFor (i : Initiator) (e : OrderEntry) (r : Response) : UpResponse :=
  { initiator := i, tag := e.tag, dir := e.dir, response := r }

/-! ### Invariants -/

/-- The sizes of the part's tables and queues: 32 entries with distinct indices, at most 4 of the Repair Engine and 3 of the
Loader (R136), 8 jobs (R50), 4 transaction slots (R59), 64 entries of an order list (R132), the counter 0 to 8 (R139). -/
structure Capacity (s : State) : Prop where
  table : s.table.length ≤ 32
  indices : (s.table.map (·.index)).Nodup ∧ ∀ e ∈ s.table, e.index < 32
  repair : (s.entriesOf .repair).length ≤ 4
  loader : (s.entriesOf .loader).length ≤ 3
  jobs : s.jobs.length ≤ 8
  slots : s.bursts.length ≤ 4 ∧ (s.bursts.map (·.slot)).Nodup ∧ ∀ b ∈ s.bursts, b.slot < 4
  orders : ∀ i, (s.order i).length ≤ 64
  starvation : s.starvation ≤ 8

/-- Order lists and outstanding table belong together: no list keeps a ready entry at its head, every entry that waits waits
for an entry in use of its own initiator, and the indices in use are distinct (R132, R136, Table 7-1). -/
structure OrderLinks (s : State) : Prop where
  heads : ∀ i e l r, s.order i = e :: l → e.state ≠ .ready r
  links : ∀ i, ∀ o ∈ s.order i, ∀ n, o.state = .waits n →
    ∃ e ∈ s.table, e.index = n ∧ e.kind.passKey = some (i, o.tag)
  indices : (s.table.map (·.index)).Nodup
  room : s.table.length ≤ 32 ∧ ∀ e ∈ s.table, e.index < 32

/-- A descriptor's counts A, Q and D are at least 1 (R156, R162). -/
def countsPositive (d : Descriptor) : Prop :=
  1 ≤ Decode.acquireCount d ∧ 1 ≤ Decode.reacquireCount d ∧ 1 ≤ Decode.lossCount d

/-- The ranges R105 gives the acquire and loss counters of a slot. -/
def CountersInRange (x : StreamState) : Prop :=
  match x.lock with
  | .down => x.acquire = 0 ∧ x.loss = 0
  | .search => x.acquire < Decode.acquireCount x.desc ∧ x.loss = 0 ∧ x.loss < Decode.lossCount x.desc
  | .locked => x.acquire = 0 ∧ x.loss = 0 ∧ x.loss < Decode.lossCount x.desc
  | .coast => x.acquire = 0 ∧ x.loss < Decode.lossCount x.desc
  | .freerun => x.acquire < Decode.reacquireCount x.desc ∧ x.loss = 0 ∧ x.loss < Decode.lossCount x.desc

/-- An ENABLED descriptor of a slot, in force or pending, has counts of at least 1 (R157, R162). -/
def EnabledCounts (i : Option Installed) : Prop := ∀ d, i = some d → d.outcome = .enabled → countsPositive d.desc

/-- What a slot holds of its lifecycle and lock at every moment (Table 5-2, R105, R169, R170, R173). -/
structure SlotLock (x : StreamState) : Prop where
  current : EnabledCounts x.current
  waiting : EnabledCounts x.pendingSlot
  ranges : CountersInRange x
  counts : x.lock ≠ .down → countsPositive x.desc
  arming : x.armAwaited ≠ [] → x.life = .off ∧ countsPositive x.desc
  off : x.life = .off → x.armAwaited = [] → x.lock = .down
  refused : x.life = .refused → x.lock = .down
  draining : x.life = .draining → 2 ≤ x.drainTaken → x.lock = .down

/-- A slot in which nothing runs. -/
def SlotIdle (x : StreamState) : Prop := x.lock = .down ∧ x.armAwaited = [] ∧ x.life = .off

/-- Every slot's lock state and counters stand as Chapters 5 and 9 give them; outside RUNNING no slot runs; a START load
reads in LOADING and a RELOAD load in RUNNING or CONFIG_FAULT; while RESET_N is low the link is idle and no soft reset
pending, and the device TRANSPARENT (R105, R150, R167, R169, R175, R182, R185; the device state there, `held`, is log 7). -/
structure LockStates (s : State) : Prop where
  slots : ∀ st, SlotLock (s.stream st)
  idle : s.device ≠ .running → ∀ st, SlotIdle (s.stream st)
  held : s.resetN = false → s.device = .transparent
  quiet : s.resetN = false → s.softResetPending = false ∧ s.link = .idle
  start : ∀ l, s.load = some l → l.purpose = .start → s.device = .loading
  reload : ∀ l, s.load = some l → l.purpose = .reload → s.device = .running ∨ s.device = .configFault

/-- How many reader entries of a slot are bound to buffer i (R20). -/
def boundTo (x : StreamState) (i : Nat) : Nat := x.readers.countP (fun r => r.state == .bound i)

/-- How many jobs of a stream in the repair queue copy from buffer i (R7). -/
def pinsOf (jobs : List Job) (st : StreamId) (i : Nat) : Nat :=
  jobs.countP (fun j => j.stream == st && j.method == .copy i)

/-- The targets of a stream's jobs, in queue order (R51). -/
def targetsOf (jobs : List Job) (st : StreamId) : List Nat := (jobs.filter (fun j => j.stream == st)).map (·.target)

/-- One buffer record of a slot, with its stream's jobs: FREE with every field cleared (R3); as many readers as entries are
bound to it, which makes it SHOWN (R20); the hold mark only in SHOWN or KEPT, in FREERUN under HOLD, and on every KEPT
buffer (R22, Table 1-3); FILLING exactly for the current frame (R8); a sequence the stream has assigned (R8, R29); as many pins
as jobs copy from it (R7); REPAIRING for the target of a job (R51). -/
structure BufOk (x : StreamState) (pins : Nat → Nat) (targets : List Nat) (i : Nat) (b : Buf) : Prop where
  free : b.state = .free → b = Buf.fresh b.base
  readers : b.readers = boundTo x i
  shown : b.state = .shown ↔ b.readers ≠ 0
  hold : b.hold = true → (b.state = .shown ∨ b.state = .kept) ∧ x.lock = .freerun ∧ Decode.unlock x.desc = some .hold
  kept : b.state = .kept → b.hold = true
  filling : b.state = .filling ↔ x.mode = .buffer i
  number : b.state ≠ .free → 1 ≤ b.seq.toNat ∧ b.seq ≤ x.lastSeq
  pins : b.pins = pins i
  target : i ∈ targets → b.state = .repairing

/-- A slot's buffer records together: each as BufOk says; the READY queue holds exactly the READY buffers in strictly rising
sequence (R14); at most one buffer carries the hold mark (R22); no two frames have one sequence (R8, R29, R30); frame mode,
reader entries and jobs name buffers that exist, and no two jobs one target (R1, R8, R20, R51). -/
structure PoolOk (x : StreamState) (pins : Nat → Nat) (targets : List Nat) : Prop where
  each : ∀ i b, x.bufs[i]? = some b → BufOk x pins targets i b
  queue : ∀ i, i ∈ x.ready ↔ ∃ b, x.bufs[i]? = some b ∧ b.state = .ready
  rising : x.ready.Pairwise (fun i j => x.seqOf i < x.seqOf j)
  oneHold : ∀ (i j : Nat) (b c : Buf), x.bufs[i]? = some b → x.bufs[j]? = some c → b.hold = true → c.hold = true → i = j
  distinct : ∀ (i j : Nat) (b c : Buf), x.bufs[i]? = some b → x.bufs[j]? = some c → b.state ≠ .free → c.state ≠ .free →
    b.seq = c.seq → i = j
  bound : ∀ r ∈ x.readers, ∀ i, r.state = .bound i → i < x.bufs.length
  current : ∀ i, x.mode = .buffer i → i < x.bufs.length
  pinned : ∀ i, pins i ≠ 0 → i < x.bufs.length
  targets : targets.Nodup ∧ ∀ i ∈ targets, i < x.bufs.length

/-- Every buffer of a slot is FREE. -/
def AllFree (x : StreamState) : Prop := ∀ b ∈ x.bufs, b.state = .free

/-- A slot's pool and reader entries against its descriptor and lifecycle: the records keep the bases of the descriptor in
force (R1, R26); two reader entries with the descriptor's valid bits and IDs where there is one, none otherwise (R69; in a
slot whose arm messages are still to be taken, log 34); an
OFF or REFUSED slot has no frame and only FREE records (R26, R70); a pool reported quiet is FREE (R25); the first teardown
request ends the current frame (R48). A stream that is ACTIVE or DRAINING has a descriptor (R169). -/
structure SlotPool (x : StreamState) : Prop where
  bases : x.bufs = [] ∨ x.bufs.map (·.base) = (poolBuilt x.desc).map (·.base)
  entries : x.readers.map (fun r => (r.valid, r.id)) =
    match x.current with
    | none => []
    | some i => (entriesBuilt i.desc).map (fun r => (r.valid, r.id))
  live : x.life = .active ∨ x.life = .draining → x.current.isSome = true
  rest : x.life = .off ∨ x.life = .refused → x.mode = .none ∧ AllFree x
  quiet : x.poolQuiet = true → x.life = .draining ∧ AllFree x
  captured : x.life = .draining → 1 ≤ x.drainTaken → x.mode = .none

/-- Every slot's pool, READY queue and reader entries stand as Chapters 1 and 4 give them. -/
def PoolsOk (s : State) : Prop :=
  ∀ st, PoolOk (s.stream st) (pinsOf s.jobs st) (targetsOf s.jobs st) ∧ SlotPool (s.stream st)

end Sys2Proof.Safety
end

