-- ==== Sys2Proof/Certificates/Slice0/Obligations.lean ====
section
/-! DEFINITION. The statements about the model, rule by rule of the spec. The invariants and the shared terms stand in
Sys2Proof/Safety.lean. Where a statement rests on a choice of the model its docstring names the log entry. -/

open Sys2Proof Sys2Proof.Machine Sys2Proof.Safety

/-! ### The queue and time -/

/-- One step runs the command at the front of the queue on the state with the queue's rest. That commands wait in a
queue and that a step takes its front is the model's own (log 32, log 1); what the spec gives is that each of its
operations is taken whole, as one event (R2, R140). -/
def Obligations.StepRunsFrontCommand : Prop :=
  ∀ (s : State) (c : Instr) (rest : List Instr), s.pending = c :: rest → step s = exec c { s with pending := rest }

/-- On an empty queue with no timer due one microsecond passes while RESET_N is high and none while it is low, and
nothing else changes; a cadence timer that alone is due is taken as that stream's miss (R97, R99). That an empty queue
lets time pass and expiries be taken is the model's choice, log 1. -/
def Obligations.EmptyQueueStep : Prop :=
  (∀ (s : State), s.pending = [] →
      (∀ st e, (s.stream st).timer = .running e → s.time.toNat < e) →
      (∀ st k e, ((s.stream st).reader k).timer = .running e → s.time.toNat < e) →
      step s = .next { s with time := if s.resetN then s.time + 1#64 else s.time, ports := Ports.quiet }) ∧
  (∀ (s : State) (st : StreamId) (e : Nat), s.pending = [] → (s.stream st).timer = .running e → e ≤ s.time.toNat →
      (∀ st' e', st' ≠ st → (s.stream st').timer = .running e' → s.time.toNat < e') →
      (∀ st' k e', ((s.stream st').reader k).timer = .running e' → s.time.toNat < e') →
      step s = exec (.miss st) s)

/-! ### Resets -/

/-- POWER_ON_RESET leaves RESET_N low, the time base at 0, no outstanding transaction, no order list entry, no job, no
load, every slot OFF without a descriptor, every lock DOWN, every counter 0, every flag clear, ATTN_N released, the
fault record at NONE and the link idle (R182, R147, R135, R68, R130, R196). -/
def Obligations.PowerOnResetClears : Prop :=
  ∀ (s : State), ∃ u, exec .powerOnReset s = .next u ∧
    u.resetN = false ∧ u.time = 0#64 ∧ u.link = .idle ∧ u.ports = Ports.quiet ∧ u.attnLow = false ∧
    u.table = [] ∧ u.starvation = 0 ∧ u.jobs = [] ∧ u.bursts = [] ∧ u.load = none ∧ u.generation = 0#32 ∧
    u.copyIndex = none ∧ u.deviceFlags = 0#5 ∧ u.reloadInProgress = false ∧ u.softResetPending = false ∧
    u.lastReload = .none ∧ u.waitSet = [] ∧
    u.fault = { initiator := 0, dir := .read, address := 0#40, cause := .none, stream := none } ∧
    (∀ i, u.order i = []) ∧
    ∀ st, (u.stream st).current = none ∧ (u.stream st).pendingSlot = none ∧ (u.stream st).windows = none ∧
      (u.stream st).life = .off ∧ (u.stream st).armRequest = false ∧ (u.stream st).armAwaited = [] ∧
      (u.stream st).bufs = [] ∧ (u.stream st).ready = [] ∧ (u.stream st).mode = .none ∧ (u.stream st).lastSeq = 0#32 ∧
      (u.stream st).newest = VerdictEntry.zero ∧ (u.stream st).previous = VerdictEntry.zero ∧ (u.stream st).readers = [] ∧
      (u.stream st).ref = 0 ∧ (u.stream st).timer = .stopped ∧ (u.stream st).lock = .down ∧ (u.stream st).acquire = 0 ∧
      (u.stream st).loss = 0 ∧ (u.stream st).flags = 0#8 ∧ (u.stream st).counters = Counters.zero

/-- RESET_RELEASE samples the straps; APSEL 0 gives TRANSPARENT and no load, any other APSEL gives LOADING and a START
load that presents the nine reads of the three copies in order (R167, R150). -/
def Obligations.ResetReleaseStartsUp : Prop :=
  ∀ (s : State) (apsel cfgsel : Byte), s.resetN = false →
    (apsel = 0#8 → exec (.resetRelease apsel cfgsel) s = .next
      { s with resetN := true, link := .idle, apsel := apsel, cfgsel := cfgsel, device := .transparent,
               ports := Ports.quiet }) ∧
    (apsel ≠ 0#8 → exec (.resetRelease apsel cfgsel) s = .next
      { s with resetN := true, link := .idle, apsel := apsel, cfgsel := cfgsel, device := .loading, ports := Ports.quiet,
               load := some { purpose := .start, copies := Vector.replicate 3 ⟨.pending, none, none, none⟩,
                              plan := [⟨0, 0, 256⟩, ⟨0, 256, 256⟩, ⟨0, 512, 66⟩, ⟨1, 0, 256⟩, ⟨1, 256, 256⟩, ⟨1, 512, 66⟩,
                                       ⟨2, 0, 256⟩, ⟨2, 256, 256⟩, ⟨2, 512, 66⟩] } })

/-- SOFT_RESET is taken with status DONE in every device state: it sets the pending flag, withdraws the requests of
the Repair Engine and the Loader and sets the starvation counter to 0; a second one changes nothing but the link
(R180, R146). REINITIALISATION, once the outstanding table and every order list are empty in that wait, sets every
block but the link controller and the time base as at power-on and samples the straps anew (R181, R116, R167, R97). -/
def Obligations.SoftResetWaitAndEnd : Prop :=
  (∀ (s : State) (b : Byte), s.link = .stream 0x2F#8 →
      ∃ u, exec (.softReset b) s = .next u ∧ u.link = .response [0x01#8] ∧ u.softResetPending = true ∧
        u.repairStands = false ∧ u.loaderRequest = none ∧
        (s.softResetPending = true → u = responds s [0x01#8]) ∧
        (s.softResetPending = false → u.starvation = 0 ∧
          u = { responds s [0x01#8] with softResetPending := true, starvation := 0, load := u.load } ∧
          (s.load = none → u.load = none) ∧
          ∀ l, s.load = some l → ∃ m, u.load = some m ∧ m.plan = [] ∧ m.purpose = l.purpose ∧ m.copies = l.copies)) ∧
  (∀ (s : State) (apsel cfgsel : Byte), s.softResetPending = true → s.table = [] → (∀ i, s.order i = []) →
      ∃ u, exec (.reinitialisation apsel cfgsel) s = .next u ∧
        u.apsel = apsel ∧ u.cfgsel = cfgsel ∧ u.time = s.time ∧ u.link = s.link ∧ u.mcsN = s.mcsN ∧ u.resetN = s.resetN ∧
        u.device = (if apsel = 0#8 then .transparent else .loading) ∧
        (apsel = 0#8 → u.load = none) ∧
        (apsel ≠ 0#8 → ∃ l, u.load = some l ∧ l.purpose = .start ∧ l.plan.length = 9) ∧
        u.softResetPending = false ∧ u.reloadInProgress = false ∧ u.lastReload = .none ∧ u.waitSet = [] ∧
        u.table = [] ∧ u.starvation = 0 ∧ u.jobs = [] ∧ u.bursts = [] ∧ u.generation = 0#32 ∧ u.copyIndex = none ∧
        u.deviceFlags = 0#5 ∧ u.attnLow = false ∧ u.fault = FaultRecord.none ∧ u.ports = Ports.quiet ∧
        ∀ st, u.stream st = StreamState.empty)

/-! ### The management link -/

/-- A frame begins at COMMAND when MCS_N falls, and not while RESET_N is low; when MCS_N rises the controller is IDLE
and what it held is dropped. Bytes that take no command: the command byte, the stream byte of a command with an
argument byte, and the byte positions of a response, which shift its bytes out and then 00h; in IDLE a byte is
ignored. Nothing else changes (R183 to R185, Tables 10-1, 10-3). A command byte outside Table 11-10 is taken at the
completion of its stream byte, with status BAD_ARG alone and no other effect (R184, R201). A stream byte above 7 gives
BAD_ARG and no effect for every command that names a stream, save FFh for ACK_EVENTS; so does an argument byte out of
range (R186). -/
def Obligations.LinkFramesAndBadArguments : Prop :=
  (∀ (s : State),
      (s.mcsN = true → s.resetN = true →
        exec .frameBegin s = .next { s with mcsN := false, link := .command, ports := Ports.quiet }) ∧
      (s.mcsN = true → s.resetN = false →
        exec .frameBegin s = .next { s with mcsN := false, ports := Ports.quiet }) ∧
      exec .frameEnd s = .next { s with mcsN := true, link := .idle, ports := Ports.quiet }) ∧
  (∀ (s : State) (b : Byte),
      (s.link = .idle → exec (.byteComplete b) s = .next { s with ports := Ports.quiet }) ∧
      (s.link = .command → exec (.byteComplete b) s =
        .next { s with link := .stream b, ports := { Ports.quiet with mdo := some 0x00#8 } }) ∧
      (∀ c ∈ [0x05#8, 0x06#8, 0x07#8], s.link = .stream c → exec (.byteComplete b) s =
        .next { s with link := .arguments c b, ports := { Ports.quiet with mdo := some 0x00#8 } }) ∧
      (∀ r rest, s.link = .response (r :: rest) → exec (.byteComplete b) s =
        .next { s with link := .response rest, ports := { Ports.quiet with mdo := some r } }) ∧
      (s.link = .response [] → exec (.byteComplete b) s =
        .next { s with ports := { Ports.quiet with mdo := some 0x00#8 } })) ∧
  (∀ (s : State) (c b : Byte), s.link = .stream c →
      c ∉ [0x01#8, 0x02#8, 0x03#8, 0x04#8, 0x05#8, 0x06#8, 0x07#8, 0x20#8, 0x21#8, 0x22#8, 0x2F#8] →
      exec (.unlistedCommand b) s = .next (responds s [0x03#8])) ∧
  (∀ (s : State) (b sb : Byte),
      (7 < b.toNat → s.link = .stream 0x02#8 → exec (.getStream b) s = .next (responds s [0x03#8])) ∧
      (7 < b.toNat → s.link = .stream 0x03#8 → exec (.getPool b) s = .next (responds s [0x03#8])) ∧
      (7 < b.toNat → s.link = .stream 0x04#8 → exec (.getReaders b) s = .next (responds s [0x03#8])) ∧
      (7 < b.toNat → s.link = .stream 0x20#8 → exec (.arm b) s = .next (responds s [0x03#8])) ∧
      (7 < b.toNat → s.link = .stream 0x21#8 → exec (.disarm b) s = .next (responds s [0x03#8])) ∧
      (7 < sb.toNat ∨ 5 < b.toNat → s.link = .arguments 0x05#8 sb →
        exec (.getCoverage b) s = .next (responds s [0x03#8])) ∧
      (7 < sb.toNat ∨ 1 < b.toNat → s.link = .arguments 0x06#8 sb →
        exec (.getCounters b) s = .next (responds s [0x03#8])) ∧
      (7 < sb.toNat → sb ≠ 0xFF#8 → s.link = .arguments 0x07#8 sb →
        exec (.ackEvents b) s = .next (responds s [0x03#8])))

/-- The codes of the records and the link: verdicts (Table 11-4), lock states (Table 11-5), frame mode (Table 11-2),
source and reader state (Table 11-3), device state, last reload result and direction (Table 11-12), descriptor outcome
and lifecycle state (Table 11-13), buffer state (Table 11-14), fault causes (Table 11-16), refusal causes (Table
11-17), link status (Table 11-11). -/
def Obligations.RecordCodes : Prop :=
  [Verdict.none, .clean, .repairedPad, .repairedCopy, .rejectedShort, .rejectedBusy, .rejectedRepairFail,
    .rejectedWriteError, .abandoned, .droppedOverrun].map Verdict.code = List.range 10 ∧
  [Lock.down, .search, .locked, .coast, .freerun].map Lock.code = List.range 5 ∧
  (FrameMode.none.code = 0 ∧ (∀ i, (FrameMode.buffer i).code = 1) ∧ FrameMode.sink.code = 2) ∧
  [Source.fill, .frame, .repeated, .hold].map Source.code = List.range 4 ∧
  (ReaderState.unbound.code = 0 ∧ (∀ i, (ReaderState.bound i).code = 1) ∧ ReaderState.subst.code = 2 ∧
    ReaderState.stale.code = 3) ∧
  [Device.transparent, .loading, .running, .configFault].map Device.code = List.range 4 ∧
  [ReloadResult.none, .applied, .noChange, .failed].map ReloadResult.code = List.range 4 ∧
  [Dir.read, .write].map Dir.code = List.range 2 ∧
  [none, some DescOutcome.enabled, some .refused, some .disabled].map outcomeCode = List.range 4 ∧
  [Lifecycle.off, .active, .draining, .refused].map Lifecycle.code = List.range 4 ∧
  [BufState.free, .filling, .closing, .repairing, .ready, .shown, .kept, .releasing].map BufState.code = List.range 8 ∧
  [FaultCause.none, .crossing, .guardedWrite, .unmapped, .notReady, .notOwner, .writeToPresentation,
    .markMisuse].map FaultCause.code = List.range 8 ∧
  [RefusalCause.none, .badGeometry, .windowOutsideAperture, .windowOverlap, .badPool, .bufferOverlap, .badReaders,
    .holdNeedsThree, .badCounts, .badTiming].map RefusalCause.code = List.range 10 ∧
  [LinkStatus.done, .busy, .badArg, .badState].map LinkStatus.code = [0x01#8, 0x02#8, 0x03#8, 0x04#8]

/-- GET_DEVICE answers DONE and the 23 bytes of Table 11-12, whatever the stream byte. GET_STREAM answers DONE and the
9 bytes of Table 11-13: a stream that is not ACTIVE reports lock state DOWN, a slot without a descriptor cause NONE
and mask 00h; the two counters are reported as held (log 14). Neither changes anything else (R188, R115, R193, R201).
-/
def Obligations.DeviceAndStreamSnapshot : Prop :=
  (∀ (s : State) (b : Byte), s.link = .stream 0x01#8 →
      exec (.getDevice b) s = .next (responds s
        ([0x01#8, 0x16#8, 0x42#8, 0x01#8, s.apsel, s.cfgsel, one s.device.code,
          bit s.reloadInProgress 0 ||| bit s.softResetPending 1, one s.lastReload.code] ++ lsb32 s.generation
          ++ [match s.copyIndex with | some c => one c.val | none => 0xFF#8, s.deviceFlags.setWidth 8,
              one s.fault.initiator.val, one s.fault.dir.code] ++ lsb40 s.fault.address
          ++ [one s.fault.cause.code, match s.fault.stream with | some st => one st.val | none => 0xFF#8]))) ∧
  (∀ (s : State) (b : Byte) (st : StreamId), s.link = .stream 0x02#8 → b.toNat = st.val →
      exec (.getStream b) s = .next (responds s
        [0x01#8,
         match (s.stream st).current with
           | none => 0#8
           | some i => match i.outcome with
             | .enabled => 1#8
             | .refused => 2#8
             | .disabled => 3#8,
         match (s.stream st).current with
           | none => 0#8
           | some i => one i.cause.code,
         one (s.stream st).life.code,
         if (s.stream st).armRequest then 1#8 else 0#8,
         if (s.stream st).life = .active then one (s.stream st).lock.code else 0#8,
         one (s.stream st).acquire, one (s.stream st).loss, (s.stream st).flags,
         match (s.stream st).current with
           | none => 0#8
           | some i => i.desc.getD 19 0#8]))

/-- GET_POOL answers DONE, the record count, each record from index 0 upward, and the READY queue from head to tail;
GET_READERS answers DONE and the two entries, slot 0 first, 16 zero bytes for an absent one. Neither changes anything
else (R189, R202). -/
def Obligations.PoolAndReadersSnapshot : Prop :=
  (∀ (s : State) (b : Byte) (st : StreamId), s.link = .stream 0x03#8 → b.toNat = st.val →
      exec (.getPool b) s = .next (responds s
        ([0x01#8, one (s.stream st).bufs.length] ++ ((s.stream st).bufs.map poolEntryBytes).flatten
          ++ [one (s.stream st).ready.length] ++ (s.stream st).ready.map one)) ∧
      (((s.stream st).bufs.map poolEntryBytes).flatten).length = 28 * (s.stream st).bufs.length) ∧
  (∀ (s : State) (b : Byte) (st : StreamId), s.link = .stream 0x04#8 → b.toNat = st.val →
      (∀ r0 r1, (s.stream st).readers = [r0, r1] → exec (.getReaders b) s = .next (responds s
        ([0x01#8] ++ readerEntryBytes s.time.toNat r0 ++ readerEntryBytes s.time.toNat r1))) ∧
      ((s.stream st).readers = [] → exec (.getReaders b) s = .next (responds s ([0x01#8] ++ List.replicate 32 0#8))))

/-- GET_COVERAGE of a record the stream has answers DONE and 256 bytes in which bit n mod 8 of byte n ÷ 8 is line n's
flag; of one it has not, BAD_STATE (R189, R202). GET_COUNTERS answers DONE and the twelve counters in the order of
Table 10-5; with argument 1 the same taking sets them to 0 (R195, R202). Neither changes anything else. An advance
raises a counter by one and leaves FFFFh as it is (R194). -/
def Obligations.CoverageAndCounters : Prop :=
  (∀ (s : State) (b sb : Byte) (st : StreamId), s.link = .arguments 0x05#8 sb → sb.toNat = st.val → b.toNat ≤ 5 →
      ((s.stream st).bufs[b.toNat]? = none → exec (.getCoverage b) s = .next (responds s [0x04#8])) ∧
      (∀ r, (s.stream st).bufs[b.toNat]? = some r →
        ∃ data : List Byte, exec (.getCoverage b) s = .next (responds s (0x01#8 :: data)) ∧ data.length = 256 ∧
          ∀ n, n < 2048 → (data.getD (n / 8) 0#8).getLsbD (n % 8) = decide (n ∈ r.coverage))) ∧
  (∀ (s : State) (b sb : Byte) (st : StreamId), s.link = .arguments 0x06#8 sb → sb.toNat = st.val → b.toNat ≤ 1 →
      ∃ u, exec (.getCounters b) s = .next u ∧
        u.link = .response (0x01#8 :: (lsb16 (s.stream st).counters.framesStarted ++ lsb16 (s.stream st).counters.clean
          ++ lsb16 (s.stream st).counters.repaired ++ lsb16 (s.stream st).counters.rejected
          ++ lsb16 (s.stream st).counters.droppedOverrun ++ lsb16 (s.stream st).counters.abandoned
          ++ lsb16 (s.stream st).counters.misses ++ lsb16 (s.stream st).counters.earlyCloses
          ++ lsb16 (s.stream st).counters.emptyCloses ++ lsb16 (s.stream st).counters.excessWrites
          ++ lsb16 (s.stream st).counters.skipped ++ lsb16 (s.stream st).counters.stales)) ∧
        u = { s with link := u.link, ports := { Ports.quiet with mdo := some 0x00#8 }, streams := u.streams } ∧
        OnlyStream s u st ∧
        u.stream st = { s.stream st with counters := if b = 1#8 then Counters.zero else (s.stream st).counters }) ∧
  (∀ (c : BitVec 16), (c ≠ 0xFFFF#16 → (advance16 c).toNat = c.toNat + 1) ∧ advance16 0xFFFF#16 = 0xFFFF#16)

/-- ACK_EVENTS clears the flags of the named set whose position has a 1 in the mask and answers the set after the
clearing, for the device with positions 5 to 7 at 0; nothing else changes (R192). -/
def Obligations.AckEventsClearsMasked : Prop :=
  ∀ (s : State) (b sb : Byte), s.link = .arguments 0x07#8 sb →
    (sb = 0xFF#8 → ∃ u, exec (.ackEvents b) s = .next u ∧ u.link = .response [0x01#8, u.deviceFlags.setWidth 8] ∧
      (∀ n, u.deviceFlags.getLsbD n = (s.deviceFlags.getLsbD n && !b.getLsbD n)) ∧
      u = { s with link := u.link, ports := { Ports.quiet with mdo := some 0x00#8 }, deviceFlags := u.deviceFlags }) ∧
    (∀ st : StreamId, sb.toNat = st.val → ∃ u, exec (.ackEvents b) s = .next u ∧
      u.link = .response [0x01#8, (u.stream st).flags] ∧
      (∀ n, (u.stream st).flags.getLsbD n = ((s.stream st).flags.getLsbD n && !b.getLsbD n)) ∧
      u = { s with link := u.link, ports := { Ports.quiet with mdo := some 0x00#8 }, streams := u.streams } ∧
      OnlyStream s u st ∧ u.stream st = { s.stream st with flags := (u.stream st).flags })

/-- ATTN_N is low exactly while RESET_N is high and a device flag is set, or a stream flag whose bit in the event
mask, byte 19 of the slot's current descriptor, is 1 (R182, R193, Table 11-9). -/
def Obligations.AttnOutput : Prop :=
  ∀ (s : State), s.attnLow = true ↔ s.resetN = true ∧
    ((∃ n, s.deviceFlags.getLsbD n = true) ∨
      ∃ st i n, (s.stream st).current = some i ∧ (s.stream st).flags.getLsbD n = true ∧
        (i.desc.getD 19 0#8).getLsbD n = true)

/-- ARM is taken by the table of R171, its conditions in the table's order; the one effect is the arm request and the
start of the arm, five messages awaited, of an OFF stream with an ENABLED descriptor (R171, R170). -/
def Obligations.ArmByTable : Prop :=
  ∀ (s : State) (b : Byte) (st : StreamId), s.link = .stream 0x20#8 → b.toNat = st.val →
    exec (.arm b) s = .next (
      if s.softResetPending then responds s [0x02#8]
      else if s.device = .loading then responds s [0x02#8]
      else if s.device = .transparent ∨ s.device = .configFault then responds s [0x04#8]
      else if s.reloadInProgress then responds s [0x02#8]
      else if (s.stream st).life = .active then responds s [0x01#8]
      else if (s.stream st).life = .draining then responds s [0x02#8]
      else if (s.stream st).life = .refused then responds s [0x04#8]
      else if (s.stream st).armAwaited ≠ [] then responds s [0x01#8]
      else if (s.stream st).outcome ≠ some .enabled then responds s [0x04#8]
      else (responds s [0x01#8]).setStream st
        { s.stream st with
          armRequest := true
          armAwaited := [.poolManager, .captureUnit, .presentationUnit, .cadenceMonitor, .eventUnit] })

/-- DISARM is taken by the table of R172, its conditions in the table's order; the one effect is on an ACTIVE stream:
arm request cleared, DRAINING with no teardown request taken (R172, R173). RELOAD is taken by the table of R175: DONE
starts a load with purpose RELOAD, every copy PENDING and nine reads to present, and sets reload in progress; in every
other condition BUSY and no effect (R175, R150). -/
def Obligations.DisarmAndReloadByTable : Prop :=
  (∀ (s : State) (b : Byte) (st : StreamId), s.link = .stream 0x21#8 → b.toNat = st.val →
      exec (.disarm b) s = .next (
        if s.softResetPending then responds s [0x02#8]
        else if s.device = .loading then responds s [0x02#8]
        else if s.device = .transparent ∨ s.device = .configFault then responds s [0x01#8]
        else if s.reloadInProgress then responds s [0x02#8]
        else if (s.stream st).life = .active then (responds s [0x01#8]).setStream st
          { s.stream st with armRequest := false, life := .draining, drainTaken := 0, poolQuiet := false }
        else if (s.stream st).life = .off ∧ (s.stream st).armAwaited ≠ [] then responds s [0x02#8]
        else responds s [0x01#8])) ∧
  (∀ (s : State) (b : Byte), s.link = .stream 0x22#8 →
      exec (.reload b) s = .next (
        if s.softResetPending ∨ s.device = .transparent ∨ s.device = .loading ∨ s.reloadInProgress
            ∨ (s.device = .running ∧ ∃ st, (s.stream st).armAwaited ≠ []) then responds s [0x02#8]
        else { responds s [0x01#8] with
          reloadInProgress := true
          load := some { purpose := .reload, copies := Vector.replicate 3 ⟨.pending, none, none, none⟩,
                         plan := [⟨0, 0, 256⟩, ⟨0, 256, 256⟩, ⟨0, 512, 66⟩, ⟨1, 0, 256⟩, ⟨1, 256, 256⟩, ⟨1, 512, 66⟩,
                                  ⟨2, 0, 256⟩, ⟨2, 256, 256⟩, ⟨2, 512, 66⟩] } }))

/-! ### Classification -/

/-- Each upstream transaction is decided by the first check that applies, in the order of R120: crossing, the guard,
no window, the capture window's owner, the presentation window's readers and their writes; a transaction that passes
checks 1 to 3 inside the aperture has the class its window gives it, which WindowClasses and MarkSlotForms state; in
TRANSPARENT it is forwarded unchecked (R117, R120, R121, R124 to R126). -/
def Obligations.ClassificationOrder : Prop :=
  ∀ (s : State) (t : Txn),
    (s.device = .transparent → s.classify t = .forward) ∧
    (s.device ≠ .transparent →
      ((t.address.toNat / 4096 ≠ (t.address.toNat + t.length - 1) / 4096 ∨ 2 ^ 40 < t.address.toNat + t.length
          ∨ ∃ m, s.matchOf t = some m ∧ m.crossesRegion t = true) →
        s.classify t = .refuse .crossing ((s.matchOf t).map (·.stream))) ∧
      (t.address.toNat / 4096 = (t.address.toNat + t.length - 1) / 4096 → t.address.toNat + t.length ≤ 2 ^ 40 →
        (∀ m, s.matchOf t = some m → m.crossesRegion t = false) →
        (s.inAperture t.address.toNat = false →
          (∀ st, s.guardHit t = some st → s.classify t = .refuse .guardedWrite (some st)) ∧
          (s.guardHit t = none → s.classify t = .forward)) ∧
        (s.inAperture t.address.toNat = true →
          (s.windowAt t.address.toNat = none →
            s.classify t = .refuse (if s.device = .loading then .notReady else .unmapped) none) ∧
          (∀ m, s.windowAt t.address.toNat = some m → s.classify t = s.classifyWindow t m) ∧
          (∀ m, s.windowAt t.address.toNat = some m → m.kind = .capture → t.initiator ≠ m.entry.producer →
            s.classify t = .refuse .notOwner (some m.stream)) ∧
          (∀ m, s.windowAt t.address.toNat = some m → m.kind = .presentation → m.entry.slotOf t.initiator = none →
            s.classify t = .refuse .notOwner (some m.stream)) ∧
          (∀ m k d, s.windowAt t.address.toNat = some m → m.kind = .presentation →
            m.entry.slotOf t.initiator = some k → t.body = .write d →
            s.classify t = .refuse .writeToPresentation (some m.stream)))))

/-- An address is matched to the entries kept for a draining stream first, then to the others, the lower stream index
first, and within one stream the capture window before the presentation window; it matches none exactly where no
stream's windows hold it, and a slot without mapped windows matches nothing (R118). R118 does not say whether a stream
that drains without a pending descriptor, after a DISARM, counts as draining here, and gives no order among several:
that every DRAINING stream counts is log 35, that the lower index wins among them is log 25. -/
def Obligations.WindowPrecedence : Prop :=
  ∀ (s : State) (a : Nat),
    (s.windowAt a = none ↔ ∀ st, s.matchIn a st = none) ∧
    (∀ m, s.windowAt a = some m → s.matchIn a m.stream = some m ∧
      (∀ st, (s.stream st).life = .draining → (s.matchIn a st).isSome = true →
        (s.stream m.stream).life = .draining ∧ m.stream.val ≤ st.val) ∧
      (∀ st, (s.matchIn a st).isSome = true → (s.stream m.stream).life = .draining ∨ m.stream.val ≤ st.val)) ∧
    (∀ st, (s.stream st).windows = none → s.matchIn a st = none) ∧
    (∀ st w, (s.stream st).windows = some w →
      let inCapture : Prop := w.capture.toNat ≤ a ∧ a < w.capture.toNat + w.size
      let inPresentation : Prop := w.presentation.toNat ≤ a ∧ a < w.presentation.toNat + w.size
      (inCapture → s.matchIn a st = some { stream := st, kind := .capture, entry := w }) ∧
      (¬ inCapture → inPresentation → s.matchIn a st = some { stream := st, kind := .presentation, entry := w }) ∧
      (¬ inCapture → ¬ inPresentation → s.matchIn a st = none))

/-- What classification reads of an address and of a window. The aperture is the 256 MiB at APSEL × 2²⁸ (R116), and a
match counts inside it; a window entry holds the descriptor's bases, size, geometry, fill word, producer and reader
slots (R118); the regions of a window by offset (R119); the slot a reader ID matches, slot 0 first (R126). The class
of a producer's access to a capture window and of a valid reader's read of a presentation window by region, ACTIVE or
dormant, with the stream, the window offset, the reader slot and the entry's fill word (R32, R35 to R38, R86, R87,
R127, R128); the mark slot of an ACTIVE stream is stated by MarkSlotForms, who may access by ClassificationOrder. -/
def Obligations.WindowClasses : Prop :=
  (∀ (s : State) (a : Nat), s.inAperture a = true ↔ s.apsel.toNat * 2 ^ 28 ≤ a ∧ a < (s.apsel.toNat + 1) * 2 ^ 28) ∧
  (∀ (s : State) (t : Txn),
      s.matchOf t = if s.inAperture t.address.toNat then s.windowAt t.address.toNat else none) ∧
  (∀ (d : Descriptor) (w : Windows), w = windowsOf d →
      w.capture = BitVec.ofNat 40 (Decode.captureBase d) ∧ w.presentation = BitVec.ofNat 40 (Decode.presentationBase d) ∧
      w.size = 2 ^ Decode.sizeCode d ∧ w.lines = Decode.lines d ∧ w.lineBytes = Decode.lineBytes d ∧
      w.pitch = Decode.pitch d ∧ w.fill = Decode.fillWord d ∧ w.producer = Decode.producer d ∧
      w.reader0 = Decode.readerSlot d 0 ∧ w.reader1 = Decode.readerSlot d 1) ∧
  (∀ (m : Match) (t : Txn) (o last : Nat),
      o = t.address.toNat - (if m.kind = .capture then m.entry.capture.toNat else m.entry.presentation.toNat) →
      last = t.address.toNat + t.length - 1 -
        (if m.kind = .capture then m.entry.capture.toNat else m.entry.presentation.toNat) →
      m.offset t.address.toNat = o ∧
      (m.crossesRegion t = true ↔ m.entry.region o ≠ m.entry.region last)) ∧
  (∀ (w : Windows) (o : Nat),
      (w.region o = .line ↔ o < w.lines * w.pitch) ∧
      (w.region o = .excess ↔ w.lines * w.pitch ≤ o ∧ o < w.size - 64) ∧
      (w.region o = .mark ↔ w.lines * w.pitch ≤ o ∧ w.size - 64 ≤ o)) ∧
  (∀ (w : Windows) (i : Initiator),
      (w.slotOf i = some 0 ↔ w.reader0.valid = true ∧ w.reader0.id = i) ∧
      (w.slotOf i = some 1 ↔ ¬ (w.reader0.valid = true ∧ w.reader0.id = i) ∧ w.reader1.valid = true ∧ w.reader1.id = i) ∧
      (w.slotOf i = none ↔
        ¬ (w.reader0.valid = true ∧ w.reader0.id = i) ∧ ¬ (w.reader1.valid = true ∧ w.reader1.id = i))) ∧
  (∀ (s : State) (t : Txn) (m : Match) (o : Nat), m.offset t.address.toNat = o →
      let live : Prop := (s.stream m.stream).life = .active
      (m.kind = .capture → t.initiator = m.entry.producer →
        (∀ d, t.body = .write d →
          (m.entry.region o = .line →
            (live → s.classifyWindow t m = .lineWrite m.stream o) ∧
            (¬ live → s.classifyWindow t m = .dormantDrop m.stream)) ∧
          (m.entry.region o = .excess →
            (live → s.classifyWindow t m = .excessWrite m.stream) ∧
            (¬ live → s.classifyWindow t m = .dormantDrop m.stream)) ∧
          (∀ k, o = m.entry.size - 64 + k → m.entry.region o = .mark → ¬ live →
            (k = 0 ∧ d.length = 32 ∧ d.head? = some 0x43#8 → s.classifyWindow t m = .dormantDrop m.stream) ∧
            (¬ (k = 0 ∧ d.length = 32 ∧ d.head? = some 0x43#8) →
              s.classifyWindow t m = .refuse .markMisuse (some m.stream)))) ∧
        (∀ n, t.body = .read n →
          (m.entry.region o = .line →
            (live → s.classifyWindow t m = .captureLineRead m.stream o m.entry.fill) ∧
            (¬ live → s.classifyWindow t m = .dormantCaptureFill m.stream m.entry.fill)) ∧
          (m.entry.region o = .excess →
            (live → s.classifyWindow t m = .captureExcessRead m.stream m.entry.fill) ∧
            (¬ live → s.classifyWindow t m = .dormantCaptureFill m.stream m.entry.fill)) ∧
          (∀ k, o = m.entry.size - 64 + k → m.entry.region o = .mark → ¬ live →
            (k = 0 ∧ n = 32 → s.classifyWindow t m = .dormantStatus m.stream) ∧
            (¬ (k = 0 ∧ n = 32) → s.classifyWindow t m = .refuse .markMisuse (some m.stream))))) ∧
      (m.kind = .presentation → ∀ r n, m.entry.slotOf t.initiator = some r → t.body = .read n →
        (m.entry.region o = .line →
          (live → s.classifyWindow t m = .presentationLineRead m.stream r o m.entry.fill) ∧
          (¬ live → s.classifyWindow t m = .dormantPresentationFill m.stream r m.entry.fill)) ∧
        (m.entry.region o = .excess →
          (live → s.classifyWindow t m = .presentationExcessRead m.stream r m.entry.fill) ∧
          (¬ live → s.classifyWindow t m = .dormantPresentationFill m.stream r m.entry.fill)) ∧
        (∀ k, o = m.entry.size - 64 + k → m.entry.region o = .mark → ¬ live →
          ((k = 0 ∨ k = 32) ∧ n = 32 → s.classifyWindow t m = .dormantPresentationRecord m.stream r) ∧
          (¬ ((k = 0 ∨ k = 32) ∧ n = 32) → s.classifyWindow t m = .refuse .markMisuse (some m.stream)))))

/-- The guard refuses a write outside the aperture that meets the extent of a buffer of a guarded stream, FREE buffers
included, and a stream guards only while it is ACTIVE and its descriptor sets GUARD; the stream it names is one that the
write meets; a read is never refused (R123). That the lowest index is named where several guarded streams apply, which
R123 takes to be at most one, is log 36. -/
def Obligations.GuardHits : Prop :=
  ∀ (s : State) (t : Txn),
    (∀ n, t.body = .read n → s.guardHit t = none) ∧
    (∀ d, t.body = .write d → ∀ meets : StreamId → Prop,
      (∀ st, meets st ↔ (s.stream st).life = .active ∧ Decode.guards (s.stream st).desc = true ∧
        ∃ b ∈ (s.stream st).bufs, ∃ x, t.address.toNat ≤ x ∧ x < t.address.toNat + d.length ∧
          b.base.toNat * 4096 ≤ x ∧
          x < b.base.toNat * 4096 + Decode.lines (s.stream st).desc * Decode.pitch (s.stream st).desc) →
      ((s.guardHit t).isSome = true ↔ ∃ st, meets st) ∧
      (∀ st, s.guardHit t = some st ↔ meets st ∧ ∀ k, meets k → st.val ≤ k.val))

/-- The upstream port takes a transaction in none of the five waits of R140 and in no other: table full, a LOADER
request eligible, the relief due, the initiator's list at 64 entries, a soft reset's wait; nor while RESET_N is low
(R140, R182). In every one of these waits an offered transaction, whatever command brings it, changes nothing but the
output pins of the step (R140, R135; that it is offered again is log 3). -/
def Obligations.PortTakesAtPassGrant : Prop :=
  (∀ (s : State) (i : Initiator), s.mayTake i = true ↔
      s.resetN = true ∧ s.softResetPending = false ∧ s.table.length < 32 ∧ (s.order i).length < 64 ∧
      ¬ (s.loaderRequest.isSome = true ∧ s.table.length < 32 ∧ (s.entriesOf .loader).length < 3) ∧
      ¬ (s.starvation = 8 ∧ s.repairStands = true ∧ s.table.length < 32 ∧ (s.entriesOf .repair).length < 4)) ∧
  (∀ (s : State) (t : Txn), t.wf = true → s.mayTake t.initiator = false →
      ∀ c ∈ [Instr.passThrough t, .lineAreaWrite t, .excessWrite t, .captureRead t, .close t, .captureStatusRead t, .claim t,
             .peek t, .presentationLineRead t, .dormantCaptureAccess t, .dormantPresentationAccess t, .accessRefusal t],
        exec c s = .next { s with ports := Ports.quiet })

/-! ### Upstream commands -/

/-- A pass-through transaction is forwarded with its address, body, initiator ID and tag unchanged; its entry records
no stream and no buffer, and no stream slot changes (R122, R117). -/
def Obligations.PassThroughForwards : Prop :=
  ∀ (s : State) (t : Txn), Takes s t → s.classify t = .forward →
    ∃ u, exec (.passThrough t) s = .next u ∧ Forwarded s u t (.passThrough t.initiator t.tag) t.address ∧
      u.streams = s.streams

/-- A refused transaction is answered ERROR without data; the fault record holds its fields; the stream that applies
gets ACCESS_FAULT, and with none the device flag APERTURE_FAULT is set; nothing else changes (R120, R130, R131). -/
def Obligations.RefusalRecorded : Prop :=
  ∀ (s : State) (t : Txn) (cause : FaultCause) (st : Option StreamId), Takes s t → s.classify t = .refuse cause st →
    ∃ u, exec (.accessRefusal t) s = .next u ∧ Answered s u t .error [] ∧
      u.fault = { initiator := t.initiator, dir := Txn.dir t, address := t.address, cause := cause, stream := st } ∧
      u = { s with streams := u.streams, orders := u.orders, ports := u.ports, fault := u.fault,
                   deviceFlags := u.deviceFlags } ∧
      (st = none → u.deviceFlags = s.deviceFlags ||| 0x10#5 ∧ u.streams = s.streams) ∧
      (∀ k, st = some k → u.deviceFlags = s.deviceFlags ∧ OnlyStream s u k ∧
        u.stream k = { s.stream k with flags := (s.stream k).flags ||| 0x40#8 })

/-- A frame start takes the lowest-indexed FREE buffer; with none FREE it steals the oldest unpinned READY buffer
where the discipline and lock state allow it, which leaves the READY queue and counts in skipped; else the frame is a
SINK frame and OVERRUN is raised. The sequence rises by one and frames_started advances in every case (R8, R9, R10,
R29). -/
def Obligations.FrameStart : Prop :=
  ∀ (x : StreamState), x.mode = .none →
    let y : StreamState := { x with
      lastSeq := x.lastSeq + 1#32
      counters := { x.counters with framesStarted := advance16 x.counters.framesStarted } }
    let filled (b : Buf) : Buf := { Buf.fresh b.base with state := .filling, seq := x.lastSeq + 1#32 }
    let mayTakeReady : Prop := Decode.discipline x.desc = .latest ∨ x.lock = .search ∨ x.lock = .freerun
    (∀ i b, x.bufs[i]? = some b → b.state = .free → (∀ j c, j < i → x.bufs[j]? = some c → c.state ≠ .free) →
      x.beginFrame = { y with mode := .buffer i, bufs := x.bufs.set i (filled b) }) ∧
    ((∀ b ∈ x.bufs, b.state ≠ .free) → mayTakeReady →
      ∀ i b, x.bufs[i]? = some b → b.state = .ready → b.pins = 0 →
        (∀ j c, j ≠ i → x.bufs[j]? = some c → c.state = .ready → c.pins = 0 → b.seq < c.seq) →
        x.beginFrame = { y with
          mode := .buffer i
          bufs := x.bufs.set i (filled b)
          ready := x.ready.filter (· != i)
          counters := { y.counters with skipped := advance16 y.counters.skipped } }) ∧
    ((∀ b ∈ x.bufs, b.state ≠ .free) → (¬ mayTakeReady ∨ ∀ b ∈ x.bufs, b.state = .ready → b.pins ≠ 0) →
      x.beginFrame = { y with mode := .sink, flags := x.flags ||| 0x04#8 })

/-- A line area write: in mode NONE it starts a frame first; in mode BUFFER it is forwarded to the filling buffer's
base + o, marks each line whose last data byte it writes, and raises the in-flight count; in mode SINK it is
acknowledged and dropped; at the end of the sequence range it is dropped and counted (R29, R30, R31, R32, R33). -/
def Obligations.LineAreaWrite : Prop :=
  ∀ (s : State) (t : Txn) (st : StreamId) (o : Nat), Takes s t → s.classify t = .lineWrite st o →
    (((s.stream st).mode = .none ∧ (s.stream st).lastSeq = 0xFFFFFFFF#32) →
      ∃ u, exec (.lineAreaWrite t) s = .next u ∧ Answered s u t .okay [] ∧ PortAndStreams s u ∧ OnlyStream s u st ∧
        u.stream st = { s.stream st with
          counters := { (s.stream st).counters with excessWrites := advance16 (s.stream st).counters.excessWrites } }) ∧
    (¬ ((s.stream st).mode = .none ∧ (s.stream st).lastSeq = 0xFFFFFFFF#32) →
      ∀ x, x = (if (s.stream st).mode = .none then (s.stream st).beginFrame else s.stream st) →
        (x.mode = .sink →
          ∃ u, exec (.lineAreaWrite t) s = .next u ∧ Answered s u t .okay [] ∧ PortAndStreams s u ∧ OnlyStream s u st ∧
            u.stream st = x) ∧
        (∀ i b, x.mode = .buffer i → x.bufs[i]? = some b →
          ∃ u cov, exec (.lineAreaWrite t) s = .next u ∧
            Forwarded s u t (.captureWrite t.initiator t.tag st i) (BitVec.ofNat 40 (b.base.toNat * 4096 + o)) ∧
            OnlyStream s u st ∧
            u.stream st = { x with bufs := x.bufs.set i { b with coverage := cov, inFlight := b.inFlight + 1 } } ∧
            (∀ n, n ∈ cov ↔ n ∈ b.coverage ∨
              (n < Decode.lines x.desc ∧ o ≤ n * Decode.pitch x.desc + Decode.lineBytes x.desc - 1 ∧
                n * Decode.pitch x.desc + Decode.lineBytes x.desc - 1 < o + t.length)) ∧
            (b.coverage.Pairwise (· < ·) → cov.Pairwise (· < ·))))

/-- An excess write is acknowledged, dropped and counted once whatever its length, after a frame start in mode NONE,
and without one at the end of the sequence range (R35, R30). A capture read of the line area is forwarded to the
filling buffer in mode BUFFER, counted against no buffer, and is answered with fill in the other modes; in the excess
region it is answered with fill in every mode (R35 to R38). -/
def Obligations.ExcessWriteAndCaptureRead : Prop :=
  (∀ (s : State) (t : Txn) (st : StreamId), Takes s t → s.classify t = .excessWrite st →
      ∀ x, x = (if (s.stream st).mode = .none ∧ (s.stream st).lastSeq ≠ 0xFFFFFFFF#32 then (s.stream st).beginFrame
                else s.stream st) →
        ∃ u, exec (.excessWrite t) s = .next u ∧ Answered s u t .okay [] ∧ PortAndStreams s u ∧ OnlyStream s u st ∧
          u.stream st = { x with counters := { x.counters with excessWrites := advance16 x.counters.excessWrites } }) ∧
  (∀ (s : State) (t : Txn) (st : StreamId), Takes s t →
      (∀ o fill, s.classify t = .captureLineRead st o fill →
        (∀ i b, (s.stream st).mode = .buffer i → (s.stream st).bufs[i]? = some b →
          ∃ u, exec (.captureRead t) s = .next u ∧ u.streams = s.streams ∧
            Forwarded s u t (.captureRead t.initiator t.tag) (BitVec.ofNat 40 (b.base.toNat * 4096 + o))) ∧
        ((s.stream st).mode = .none ∨ (s.stream st).mode = .sink →
          ∃ u, exec (.captureRead t) s = .next u ∧ u.streams = s.streams ∧ PortAndStreams s u ∧
            Answered s u t .okay (fillData fill t.address.toNat t.length))) ∧
      (∀ fill, s.classify t = .captureExcessRead st fill →
        ∃ u, exec (.captureRead t) s = .next u ∧ u.streams = s.streams ∧ PortAndStreams s u ∧
          Answered s u t .okay (fillData fill t.address.toNat t.length)))

/-- A close is acknowledged OKAY in every frame mode, and its arrival is taken first (R41, R98). In BUFFER the filling
buffer goes to CLOSING with its close info and early flag, the mode becomes NONE, and the buffer drains where nothing
is in flight (R11). In NONE it counts in empty_closes and is a lock fault (R42). In SINK it gives DROPPED_OVERRUN with
the stream's lines missing, and the mode becomes NONE (R43). -/
def Obligations.CloseByMode : Prop :=
  ∀ (s : State) (t : Txn) (st : StreamId) (d : List Byte), Takes s t → s.classify t = .close st → t.body = .write d →
    ∀ x info, x = arrived (s.stream st) s.time.toNat →
      info = CloseInfo.mk (Decode.bitAt d 1 0) (Decode.bitAt d 1 1) (Decode.bitAt d 1 2)
        (BitVec.ofNat 16 (Decode.le16 d 2)) (BitVec.ofNat 32 (Decode.le32 d 4)) s.time.toNat →
      ∃ u, exec (.close t) s = .next u ∧ Answered s u t .okay [] ∧ OnlyStream s u st ∧
        u = { s with streams := u.streams, orders := u.orders, ports := u.ports, jobs := u.jobs } ∧
        ((s.stream st).mode = .none → u.jobs = s.jobs ∧
          u.stream st = ({ x with counters := { x.counters with
            emptyCloses := advance16 x.counters.emptyCloses } } : StreamState).lockInput .fault) ∧
        ((s.stream st).mode = .sink → u.jobs = s.jobs ∧
          u.stream st = { x with
            mode := .none
            previous := x.newest
            newest := { verdict := .droppedOverrun, seq := x.lastSeq, producerSeq := info.producerSeq,
                        missing := Decode.lines x.desc }
            counters := { x.counters with droppedOverrun := advance16 x.counters.droppedOverrun } }) ∧
        (∀ i b, (s.stream st).mode = .buffer i → (s.stream st).bufs[i]? = some b →
          ∃ e : Bool, (e = true ↔ Early (s.stream st) s.time.toNat) ∧
            ∃ v, v = s.setStream st { x with
                mode := .none, bufs := x.bufs.set i { b with state := .closing, close := info, early := e } } ∧
              u.streams = (v.drain st i).streams ∧ u.jobs = (v.drain st i).jobs ∧
              (b.inFlight ≠ 0 → u.streams = v.streams ∧ u.jobs = s.jobs))

/-- A capture status read of an ACTIVE stream is answered with the 32 bytes of Table 11-2 and changes no state of any
stream (R46, R199). -/
def Obligations.CaptureStatusRead : Prop :=
  ∀ (s : State) (t : Txn) (st : StreamId), Takes s t → s.classify t = .statusRead st →
    ∀ x, x = s.stream st →
      ∃ u, exec (.captureStatusRead t) s = .next u ∧ u.streams = s.streams ∧ PortAndStreams s u ∧
        Answered s u t .okay
          ([0x53#8, one x.lock.code, one x.mode.code, one ((x.bufs.filter (fun b => b.state = .free)).length)]
            ++ lsb32 x.lastSeq
            ++ lsb16 (BitVec.ofNat 16 (match x.mode with
                | .buffer i => (match x.bufs[i]? with | some b => b.coverage.length | none => 0)
                | .none => 0
                | .sink => 0))
            ++ [one ((x.bufs.filter (fun b => b.state = .closing ∨ b.state = .repairing)).length),
                one x.newest.verdict.code, one x.previous.verdict.code, 0#8]
            ++ lsb16 (BitVec.ofNat 16 x.newest.missing) ++ lsb32 x.newest.seq ++ lsb16 x.newest.producerSeq
            ++ lsb16 x.previous.producerSeq ++ lsb32 x.previous.seq ++ lsb16 (BitVec.ofNat 16 x.previous.missing)
            ++ [0#8, 0#8])

/-! ### Claims and reads of the presentation window -/

/-- A claim is taken whole: the pool and the reader entry change, and the answer is the presentation record of the
entry and buffer as they then stand; a peek is answered with the present entry's record and changes no slot (R73, R74,
R83, R84). What `StreamState.claim` does is stated by ClaimByDiscipline and ClaimOutOfLock. -/
def Obligations.ClaimAndPeekAnswer : Prop :=
  ∀ (s : State) (t : Txn) (st : StreamId) (k : ReaderSlot), Takes s t →
    (s.classify t = .claim st k →
      ∃ u, exec (.claim t) s = .next u ∧ PortAndStreams s u ∧ OnlyStream s u st ∧
        u.stream st = (s.stream st).claim s.time.toNat k ∧
        Answered s u t .okay (presentationBytes (u.stream st) s.time.toNat k ((u.stream st).reader k))) ∧
    (s.classify t = .peek st k →
      ∃ u, exec (.peek t) s = .next u ∧ PortAndStreams s u ∧ u.streams = s.streams ∧
        Answered s u t .okay (presentationBytes (s.stream st) s.time.toNat k ((s.stream st).reader k)))

/-- A claim decided by the discipline. Under LATEST the newest READY or SHOWN buffer is bound with source FRAME where
it is newer than the binding, kept with source REPEAT where it is the binding, and without one the reader becomes
SUBST; bind before unbind, then the skip that names the candidate's sequence, then entry and timer (R75, R78, R79,
R80, R90). Under QUEUE the READY head is bound with source FRAME whatever its sequence, unless an older CLOSING or
REPAIRING buffer raises the order barrier; then, or on an empty queue, a BOUND reader keeps its binding with source
REPEAT and any other becomes SUBST; no skip (R76, R17, R78, R80). -/
def Obligations.ClaimByDiscipline : Prop :=
  (∀ (x : StreamState) (now : Nat) (k : ReaderSlot) (r : Reader), ByDiscipline x → Decode.discipline x.desc = .latest →
      x.readers[k.val]? = some r →
      (∀ c b, Newest x [.ready, .shown] c b → r.boundSeq < b.seq →
        x.claim now k = { (unboundFrom (x.bind c) r).skip b.seq with
          readers := x.readers.set k.val (entryBound x now r c b.seq .frame) }) ∧
      (∀ c b, Newest x [.ready, .shown] c b → ¬ r.boundSeq < b.seq → r.state = .bound c →
        x.claim now k = { x.skip b.seq with readers := x.readers.set k.val (entryKept x now r .repeated) }) ∧
      ((∀ b ∈ x.bufs, b.state ≠ .ready ∧ b.state ≠ .shown) → (∀ i, r.state ≠ .bound i) →
        x.claim now k = { x with readers := x.readers.set k.val (entrySubst x now r) })) ∧
  (∀ (x : StreamState) (now : Nat) (k : ReaderSlot) (r : Reader), ByDiscipline x → Decode.discipline x.desc = .queue →
      x.readers[k.val]? = some r →
      (∀ h l b, x.ready = h :: l → x.bufs[h]? = some b →
        (∀ c ∈ x.bufs, c.state = .closing ∨ c.state = .repairing → ¬ c.seq < b.seq) →
        x.claim now k = { unboundFrom (x.bind h) r with
          readers := x.readers.set k.val (entryBound x now r h b.seq .frame) }) ∧
      ((x.ready = [] ∨ ∃ h l b, x.ready = h :: l ∧ x.bufs[h]? = some b ∧
          ∃ c ∈ x.bufs, (c.state = .closing ∨ c.state = .repairing) ∧ c.seq < b.seq) →
        (∀ i, r.state = .bound i →
          x.claim now k = { x with readers := x.readers.set k.val (entryKept x now r .repeated) }) ∧
        ((∀ i, r.state ≠ .bound i) →
          x.claim now k = { x with readers := x.readers.set k.val (entrySubst x now r) })))

/-- A claim in SEARCH or FREERUN under FILL or HOLD: in FREERUN under HOLD the marked buffer is kept where the reader
is bound to it and bound with source HOLD otherwise; in every other case the reader loses its binding and becomes
SUBST (R77, Table 4-4, R78). -/
def Obligations.ClaimOutOfLock : Prop :=
  ∀ (x : StreamState) (now : Nat) (k : ReaderSlot) (r : Reader), x.lock = .search ∨ x.lock = .freerun →
    Decode.unlock x.desc = some .fill ∨ Decode.unlock x.desc = some .hold → x.readers[k.val]? = some r →
    ((x.lock = .search ∨ Decode.unlock x.desc = some .fill ∨ ∀ b ∈ x.bufs, b.hold = false) →
      x.claim now k = { unboundFrom x r with readers := x.readers.set k.val (entrySubst x now r) }) ∧
    (x.lock = .freerun → Decode.unlock x.desc = some .hold → ∀ i b, x.bufs[i]? = some b → b.hold = true →
      (∀ j c, j ≠ i → x.bufs[j]? = some c → c.hold = false) →
      (r.state = .bound i →
        x.claim now k = { x with readers := x.readers.set k.val (entryKept x now r .hold) }) ∧
      (r.state ≠ .bound i →
        x.claim now k = { unboundFrom (x.bind i) r with
          readers := x.readers.set k.val (entryBound x now r i b.seq .hold) }))

/-- A presentation line read of a BOUND reader is forwarded to the bound buffer's base + o and raises that buffer's
in-flight count; of any other reader it is answered with fill; a read of the excess region is answered with fill in
every reader state (R86, R87). -/
def Obligations.PresentationRead : Prop :=
  ∀ (s : State) (t : Txn) (st : StreamId) (k : ReaderSlot), Takes s t →
    (∀ o fill, s.classify t = .presentationLineRead st k o fill →
      (∀ i b, ((s.stream st).reader k).state = .bound i → (s.stream st).bufs[i]? = some b →
        ∃ u, exec (.presentationLineRead t) s = .next u ∧ OnlyStream s u st ∧
          u.stream st = { s.stream st with bufs := (s.stream st).bufs.set i { b with inFlight := b.inFlight + 1 } } ∧
          Forwarded s u t (.presentationRead t.initiator t.tag st i) (BitVec.ofNat 40 (b.base.toNat * 4096 + o))) ∧
      ((∀ i, ((s.stream st).reader k).state ≠ .bound i) →
        ∃ u, exec (.presentationLineRead t) s = .next u ∧ u.streams = s.streams ∧ PortAndStreams s u ∧
          Answered s u t .okay (fillData fill t.address.toNat t.length))) ∧
    (∀ fill, s.classify t = .presentationExcessRead st k fill →
      ∃ u, exec (.presentationLineRead t) s = .next u ∧ u.streams = s.streams ∧ PortAndStreams s u ∧
        Answered s u t .okay (fillData fill t.address.toNat t.length))

/-- A producer's access to a dormant capture window: writes and closes are acknowledged and dropped, line area and
excess reads answered with fill, a status read with the dormant record that keeps the last sequence and verdict fields
(R127, R47). A valid reader's read of a dormant presentation window: fill outside the mark slot; a claim or a peek is
answered with the dormant record, which names the requesting slot and is otherwise 0 (R128, R85). No slot changes. -/
def Obligations.DormantAccess : Prop :=
  (∀ (s : State) (t : Txn) (st : StreamId), Takes s t →
      (s.classify t = .dormantDrop st →
        ∃ u, exec (.dormantCaptureAccess t) s = .next u ∧ u.streams = s.streams ∧ PortAndStreams s u ∧
          Answered s u t .okay []) ∧
      (∀ fill, s.classify t = .dormantCaptureFill st fill →
        ∃ u, exec (.dormantCaptureAccess t) s = .next u ∧ u.streams = s.streams ∧ PortAndStreams s u ∧
          Answered s u t .okay (fillData fill t.address.toNat t.length)) ∧
      (s.classify t = .dormantStatus st → ∀ x, x = s.stream st →
        ∃ u, exec (.dormantCaptureAccess t) s = .next u ∧ u.streams = s.streams ∧ PortAndStreams s u ∧
          Answered s u t .okay
            ([0x53#8, 0#8, 0#8, one ((x.bufs.filter (fun b => b.state = .free)).length)] ++ lsb32 x.lastSeq
              ++ [0#8, 0#8, 0#8, one x.newest.verdict.code, one x.previous.verdict.code, 0#8]
              ++ lsb16 (BitVec.ofNat 16 x.newest.missing) ++ lsb32 x.newest.seq ++ lsb16 x.newest.producerSeq
              ++ lsb16 x.previous.producerSeq ++ lsb32 x.previous.seq ++ lsb16 (BitVec.ofNat 16 x.previous.missing)
              ++ [0#8, 0#8]))) ∧
  (∀ (s : State) (t : Txn) (st : StreamId) (k : ReaderSlot), Takes s t →
      (∀ fill, s.classify t = .dormantPresentationFill st k fill →
        ∃ u, exec (.dormantPresentationAccess t) s = .next u ∧ u.streams = s.streams ∧ PortAndStreams s u ∧
          Answered s u t .okay (fillData fill t.address.toNat t.length)) ∧
      (s.classify t = .dormantPresentationRecord st k →
        ∃ u, exec (.dormantPresentationAccess t) s = .next u ∧ u.streams = s.streams ∧ PortAndStreams s u ∧
          Answered s u t .okay ([0x50#8, 0#8, one k.val] ++ List.replicate 29 0#8)))

/-- What an access to a mark slot is. In an ACTIVE stream a 32-byte write at mark offset 0 whose first byte is 43h is
a close, a 32-byte read there a status read or a claim, a 32-byte read at mark offset 32 of the presentation window a
peek; every other access to a mark slot is refused with MARK_MISUSE (R39, R72, R120). -/
def Obligations.MarkSlotForms : Prop :=
  ∀ (s : State) (t : Txn) (m : Match) (o : Nat), m.offset t.address.toNat = m.entry.size - 64 + o →
    m.entry.region (m.offset t.address.toNat) = .mark → (s.stream m.stream).life = .active →
    (m.kind = .capture → t.initiator = m.entry.producer →
      (∀ d, t.body = .write d →
        s.classifyWindow t m = if o = 0 ∧ d.length = 32 ∧ d.head? = some 0x43#8 then .close m.stream
          else .refuse .markMisuse (some m.stream)) ∧
      (∀ n, t.body = .read n →
        s.classifyWindow t m = if o = 0 ∧ n = 32 then .statusRead m.stream
          else .refuse .markMisuse (some m.stream))) ∧
    (m.kind = .presentation → ∀ k n, m.entry.slotOf t.initiator = some k → t.body = .read n →
      s.classifyWindow t m = if o = 0 ∧ n = 32 then .claim m.stream k
        else if o = 32 ∧ n = 32 then .peek m.stream k
        else .refuse .markMisuse (some m.stream))

/-! ### The pool -/

/-- A bind takes a READY buffer out of the queue to SHOWN with one reader, adds a reader to a SHOWN one, and makes a
KEPT one SHOWN with its hold mark; an unbind of a SHOWN buffer lowers the count, and the last one leaves KEPT with the
hold mark and releases without it (R4, R20, R21). The hold placement marks the newest SHOWN or READY buffer, a READY
one leaving the queue for KEPT, and marks none where there is none; the hold clearing releases the marked buffer in
KEPT and only clears the mark in SHOWN (R22, R23). -/
def Obligations.BindUnbindHold : Prop :=
  (∀ (x : StreamState) (i : Nat) (b : Buf), x.bufs[i]? = some b →
      (b.state = .ready → x.bind i = { x with
        bufs := x.bufs.set i { b with state := .shown, readers := 1 }, ready := x.ready.filter (· != i) }) ∧
      (b.state = .shown → x.bind i = { x with bufs := x.bufs.set i { b with readers := b.readers + 1 } }) ∧
      (b.state = .kept → x.bind i = { x with bufs := x.bufs.set i { b with state := .shown, readers := 1 } }) ∧
      (b.state = .shown → 1 < b.readers →
        x.unbind i = { x with bufs := x.bufs.set i { b with readers := b.readers - 1 } }) ∧
      (b.state = .shown → b.readers = 1 → b.hold = true →
        x.unbind i = { x with bufs := x.bufs.set i { b with state := .kept, readers := 0 } }) ∧
      (b.state = .shown → b.readers = 1 → b.hold = false → x.unbind i = releasedAt x i { b with readers := 0 })) ∧
  (∀ (x : StreamState),
      (∀ i b, Newest x [.shown, .ready] i b → b.state = .ready →
        x.placeHold = { x with
          bufs := x.bufs.set i { b with state := .kept, hold := true }, ready := x.ready.filter (· != i) }) ∧
      (∀ i b, Newest x [.shown, .ready] i b → b.state = .shown → i ∉ x.ready →
        x.placeHold = { x with bufs := x.bufs.set i { b with hold := true } }) ∧
      ((∀ b ∈ x.bufs, b.state ≠ .shown ∧ b.state ≠ .ready) → x.placeHold = x) ∧
      (∀ i b, x.bufs[i]? = some b → b.hold = true → (∀ j c, j ≠ i → x.bufs[j]? = some c → c.hold = false) →
        (b.state = .kept → x.clearHold = releasedAt x i { b with hold := false }) ∧
        (b.state = .shown → x.clearHold = { x with bufs := x.bufs.set i { b with hold := false } })) ∧
      ((∀ b ∈ x.bufs, b.hold = false) → x.clearHold = x))

/-- A skip naming a sequence releases exactly the READY buffers below it, and a trim every READY buffer but the
newest; each counts once in skipped and leaves the READY queue, and nothing else changes (R15, R16). -/
def Obligations.SkipAndTrimRelease : Prop :=
  ∀ (x : StreamState),
    (∀ seq, ReleasesReady x (x.skip seq) (fun _ b => b.seq < seq)) ∧
    (∀ n b, Newest x [.ready] n b → ReleasesReady x x.trim (fun j _ => j ≠ n))

/-- A join. Under LATEST a buffer older than a READY, SHOWN or KEPT one is superseded: released and counted in
skipped. Otherwise it becomes READY and stands behind every buffer of lower sequence and before every one of higher;
in SEARCH or FREERUN under HOLD or FILL the queue is then trimmed (R14, R16). -/
def Obligations.JoinReadyQueue : Prop :=
  ∀ (x : StreamState) (i : Nat) (b : Buf), x.bufs[i]? = some b → b.state = .closing ∨ b.state = .repairing →
    let superseded : Prop := Decode.discipline x.desc = .latest ∧
      ∃ c ∈ x.bufs, (c.state = .ready ∨ c.state = .shown ∨ c.state = .kept) ∧ b.seq < c.seq
    (superseded → x.join i = { releasedAt x i b with
      counters := { x.counters with skipped := advance16 x.counters.skipped } }) ∧
    (¬ superseded → x.ready.Pairwise (fun j k => x.seqOf j < x.seqOf k) → (∀ j ∈ x.ready, x.seqOf j ≠ b.seq.toNat) →
      ∃ older younger y, x.ready = older ++ younger ∧ (∀ j ∈ older, x.seqOf j < b.seq.toNat) ∧
        (∀ j ∈ younger, b.seq.toNat < x.seqOf j) ∧
        y = { x with bufs := x.bufs.set i { b with state := .ready }, ready := older ++ i :: younger } ∧
        (((x.lock = .search ∨ x.lock = .freerun) ∧
            (Decode.unlock x.desc = some .hold ∨ Decode.unlock x.desc = some .fill)) → x.join i = y.trim) ∧
        (¬ ((x.lock = .search ∨ x.lock = .freerun) ∧
            (Decode.unlock x.desc = some .hold ∨ Decode.unlock x.desc = some .fill)) → x.join i = y))

/-! ### Verdicts and lock -/

/-- The verdict at drain of a CLOSING buffer with nothing in flight, by the first check of R12 that applies: the four
rejecting or abandoning checks hand the verdict on and release the buffer, CLEAN hands it on and joins, and the last
queues a repair job, of which JobQueued says the rest (R12, R13). -/
def Obligations.VerdictAtDrain : Prop :=
  ∀ (s : State) (st : StreamId) (i : Nat) (b : Buf), (s.stream st).bufs[i]? = some b → b.state = .closing →
    b.inFlight = 0 →
    let x := s.stream st
    let missing := Decode.lines x.desc - b.coverage.length
    let rejects (v : Verdict) : Prop := s.drain st i = s.setStream st ((x.handOn v b).release i)
    (b.writeError = true → rejects .rejectedWriteError) ∧
    (b.writeError = false → b.close.abandon = true → rejects .abandoned) ∧
    (b.writeError = false → b.close.abandon = false →
      (missing = 0 → ∃ y, s.drain st i = s.setStream st (y.join i) ∧
        y = { x.handOn .clean b with
          bufs := (x.handOn .clean b).bufs.modify i (fun c => { c with verdict := .clean }) }) ∧
      (missing ≠ 0 →
        ((b.close.noRepair = true ∨ Decode.repairPolicy x.desc = some .reject ∨ Decode.repairLimit x.desc < missing) →
          rejects .rejectedShort) ∧
        (b.close.noRepair = false → Decode.repairPolicy x.desc ≠ some .reject → missing ≤ Decode.repairLimit x.desc →
          (8 ≤ s.jobs.length → rejects .rejectedBusy) ∧
          (s.jobs.length < 8 → s.drain st i = s.queueJob st i b))))

/-- The job a drain queues joins the tail of the repair queue, RUNNING at once on an empty queue, its walk at the
lowest line not covered; the target goes to REPAIRING; under COPY the newest READY, SHOWN or KEPT buffer older than
the target is the source and is pinned, and without one the method is PAD (R12, R51, R52, R54, R7). -/
def Obligations.JobQueued : Prop :=
  ∀ (s : State) (st : StreamId) (i : Nat) (b : Buf), (s.stream st).bufs[i]? = some b → b.state = .closing →
    ∃ j, (s.queueJob st i b).jobs = s.jobs ++ [j] ∧ j.stream = st ∧ j.target = i ∧ j.nextPos = 0 ∧ j.outstanding = 0 ∧
      j.state = (if s.jobs = [] then .running else .queued) ∧
      (∀ n, n < Decode.lines (s.stream st).desc → n ∉ b.coverage → j.nextLine ≤ n) ∧
      (j.nextLine < Decode.lines (s.stream st).desc → j.nextLine ∉ b.coverage) ∧
      OnlyStream s (s.queueJob st i b) st ∧
      s.queueJob st i b = { s with jobs := s.jobs ++ [j], streams := (s.queueJob st i b).streams } ∧
      (Decode.repairPolicy (s.stream st).desc ≠ some .copy ∨
          (∀ c ∈ (s.stream st).bufs, c.state = .ready ∨ c.state = .shown ∨ c.state = .kept → ¬ c.seq < b.seq) →
        j.method = .pad ∧ (s.queueJob st i b).stream st =
          { s.stream st with bufs := (s.stream st).bufs.set i { b with state := .repairing } }) ∧
      (Decode.repairPolicy (s.stream st).desc = some .copy →
        ∀ k c, k ≠ i → (s.stream st).bufs[k]? = some c → c.state = .ready ∨ c.state = .shown ∨ c.state = .kept →
          c.seq < b.seq →
          (∀ l d, l ≠ k → (s.stream st).bufs[l]? = some d → d.state = .ready ∨ d.state = .shown ∨ d.state = .kept →
            d.seq < b.seq → d.seq < c.seq) →
          j.method = .copy k ∧ (s.queueJob st i b).stream st = { s.stream st with
            bufs := ((s.stream st).bufs.set k { c with pins := c.pins + 1 }).set i { b with state := .repairing } })

/-- A final verdict is handed on: the lock input of Table 5-3, by the buffer's early flag for a good verdict; the
verdict entries shift; one counter advances, and a rejection raises FRAME_REJECTED (R13, R44, R102). -/
def Obligations.VerdictHandedOn : Prop :=
  ∀ (x : StreamState) (v : Verdict) (b : Buf),
    let y (input : LockInput) (c : Counters) (flags : BitVec 8) : StreamState :=
      { x.lockInput input with
        previous := x.newest
        newest := { verdict := v, seq := b.seq, producerSeq := b.close.producerSeq,
                    missing := Decode.lines x.desc - b.coverage.length }
        counters := c
        flags := (x.lockInput input).flags ||| flags }
    (v = .clean → x.handOn v b =
      y (if b.early then .fault else .good) { x.counters with clean := advance16 x.counters.clean } 0#8) ∧
    (v = .repairedPad ∨ v = .repairedCopy → x.handOn v b =
      y (if b.early then .fault else .good) { x.counters with repaired := advance16 x.counters.repaired } 0#8) ∧
    (v = .rejectedShort ∨ v = .rejectedBusy ∨ v = .rejectedRepairFail ∨ v = .rejectedWriteError → x.handOn v b =
      y .fault { x.counters with rejected := advance16 x.counters.rejected } 0x08#8) ∧
    (v = .abandoned → x.handOn v b =
      y .neutral { x.counters with abandoned := advance16 x.counters.abandoned } 0#8)

/-- The lock state machine (Table 5-4): what a good, a fault and a neutral input do in each lock state, with counts A,
Q and D of at least 1; LOCK_GAINED and LOCK_LOST at the changes that raise them, and under HOLD the placement or
clearing in the same taking (R103 to R110). -/
def Obligations.LockStateMachine : Prop :=
  ∀ (x : StreamState), countsPositive x.desc →
    let holds : Prop := Decode.unlock x.desc = some .hold
    let lost : StreamState := { x with lock := .freerun, loss := 0, flags := x.flags ||| 0x02#8 }
    let gained : StreamState := { x with lock := .locked, acquire := 0, flags := x.flags ||| 0x01#8 }
    (∀ i, x.lock = .down → x.lockInput i = x) ∧
    x.lockInput .neutral = x ∧
    (x.lock = .search →
      (x.acquire + 1 < Decode.acquireCount x.desc → x.lockInput .good = { x with acquire := x.acquire + 1 }) ∧
      (Decode.acquireCount x.desc ≤ x.acquire + 1 → x.lockInput .good = gained) ∧
      x.lockInput .fault = { x with acquire := 0 }) ∧
    (x.lock = .locked → x.lockInput .good = x ∧
      (1 < Decode.lossCount x.desc → x.lockInput .fault = { x with lock := .coast, loss := 1 }) ∧
      (Decode.lossCount x.desc = 1 → x.lockInput .fault = if holds then lost.placeHold else lost)) ∧
    (x.lock = .coast → x.lockInput .good = { x with lock := .locked, loss := 0 } ∧
      (x.loss + 1 < Decode.lossCount x.desc → x.lockInput .fault = { x with loss := x.loss + 1 }) ∧
      (Decode.lossCount x.desc ≤ x.loss + 1 → x.lockInput .fault = if holds then lost.placeHold else lost)) ∧
    (x.lock = .freerun →
      (x.acquire + 1 < Decode.reacquireCount x.desc → x.lockInput .good = { x with acquire := x.acquire + 1 }) ∧
      (Decode.reacquireCount x.desc ≤ x.acquire + 1 → x.lockInput .good = if holds then gained.clearHold else gained) ∧
      x.lockInput .fault = { x with acquire := 0 })

/-- A cadence timer whose expiry time is reached is taken as a miss: r becomes r + P, the timer runs from there,
misses advances, and the lock state machine takes a fault (R99). A scan timer whose expiry time is reached: the
reader's buffer is unbound where it is BOUND, the entry becomes STALE with its timer STOPPED, READER_STALE is raised
and stales advances; in DRAINING an unbind that leaves every buffer FREE reports the pool quiet (R91, R25). A timer
that is not due is left alone (log 4). -/
def Obligations.TimerExpiries : Prop :=
  (∀ (s : State) (st : StreamId),
      (∀ e, (s.stream st).timer = .running e → e ≤ s.time.toNat → ∀ x, x = s.stream st →
        exec (.miss st) s = .next ({ s with ports := Ports.quiet }.setStream st
          (({ x with
            ref := x.ref + Decode.period x.desc
            timer := if Decode.period x.desc = 0 then .stopped
              else .running (x.ref + Decode.period x.desc + Decode.period x.desc + Decode.tolerance x.desc)
            counters := { x.counters with misses := advance16 x.counters.misses } } : StreamState).lockInput .fault))) ∧
      ((s.stream st).timer = .stopped ∨ (∃ e, (s.stream st).timer = .running e ∧ s.time.toNat < e) →
        exec (.miss st) s = .next { s with ports := Ports.quiet })) ∧
  (∀ (s : State) (st : StreamId) (k : ReaderSlot) (r : Reader), (s.stream st).readers[k.val]? = some r →
      (∀ e, r.timer = .running e → e ≤ s.time.toNat → ∀ (x y : StreamState) (q : Bool), x = s.stream st →
        y = unboundFrom x r → (q = true ↔ x.poolQuiet = true ∨
          (x.life = .draining ∧ (∀ b ∈ y.bufs, b.state = .free) ∧ ∃ b ∈ x.bufs, b.state ≠ .free)) →
        exec (.scanTimerExpiry st k) s = .next ({ s with ports := Ports.quiet }.setStream st
          { y with
            readers := y.readers.set k.val { r with
              state := .stale, boundSeq := 0#32, lastSource := .fill, lastSkipped := 0#16, timer := .stopped }
            flags := y.flags ||| 0x20#8
            counters := { y.counters with stales := advance16 y.counters.stales }
            poolQuiet := q })) ∧
      (r.timer = .stopped ∨ (∃ e, r.timer = .running e ∧ s.time.toNat < e) →
        exec (.scanTimerExpiry st k) s = .next { s with ports := Ports.quiet }))

/-! ### Lifecycle -/

/-- Each of the five arm messages has its block's effect, and the taking of the last of them makes the stream ACTIVE;
a message that is not awaited changes nothing (R170, R26, R49, R70, R112; the last is log 4). It says so in a soft
reset's wait too: R180 starts no arm there, and that messages already sent are taken is log 28. -/
def Obligations.ArmMessageTaken : Prop :=
  ∀ (s : State) (st : StreamId) (b : ArmBlock) (x y : StreamState), x = s.stream st →
    y = (match b with
      | .poolManager => { x with
          bufs := (List.range (Decode.poolSize x.desc)).map (fun i => Buf.fresh (Decode.bufferBase x.desc i)), ready := [] }
      | .captureUnit => { x with
          mode := .none, lastSeq := 0#32, newest := VerdictEntry.zero, previous := VerdictEntry.zero }
      | .presentationUnit => { x with readers := [0, 1].map (fun k =>
          { valid := (Decode.readerSlot x.desc k).valid, id := (Decode.readerSlot x.desc k).id, state := .unbound,
            boundSeq := 0#32, lastSource := .fill, lastSkipped := 0#16, timer := .stopped }) }
      | .cadenceMonitor => { x with
          lock := .search, acquire := 0, loss := 0, ref := s.time.toNat
          timer := if Decode.period x.desc = 0 then .stopped
            else .running (s.time.toNat + Decode.period x.desc + Decode.tolerance x.desc) }
      | .eventUnit => { x with counters := Counters.zero }) →
    (b ∉ x.armAwaited → exec (.armMessage st b) s = .next { s with ports := Ports.quiet }) ∧
    (b ∈ x.armAwaited → (∃ c ∈ x.armAwaited, c ≠ b) →
      exec (.armMessage st b) s = .next ({ s with ports := Ports.quiet }.setStream st
        { y with armAwaited := x.armAwaited.filter (· != b) })) ∧
    (b ∈ x.armAwaited → (∀ c ∈ x.armAwaited, c = b) →
      exec (.armMessage st b) s = .next ({ s with ports := Ports.quiet }.setStream st
        { y with armAwaited := [], life := .active }))

/-- The teardown requests of a DRAINING stream are taken in the order Capture Unit, Cadence Monitor, Pool Manager,
Presentation Unit, Repair Engine, each raising the count by one and leaving every other slot; what each block changes
in the slot and that the first four change nothing else there, so that sequence, verdict entries, reference point,
event flags and counters stay; at which of the first four the pool is reported quiet; the fifth, whose effect on jobs RepairCancellation states,
ends the drain where the pool is quiet, as DrainEnd states; none is taken outside DRAINING (R173, R25, R48, R113, R24,
R93, R65; the last is log 4). -/
def Obligations.TeardownInOrder : Prop :=
  ∀ (s : State) (st : StreamId) (x : StreamState), x = s.stream st →
    (x.life ≠ .draining ∨ 5 ≤ x.drainTaken → exec (.teardownRequest st) s = .next { s with ports := Ports.quiet }) ∧
    (x.life = .draining → x.drainTaken < 5 →
      ∃ u y, exec (.teardownRequest st) s = .next u ∧ y = u.stream st ∧ OnlyStream s u st ∧
        (x.drainTaken < 4 → y.life = .draining ∧ y.drainTaken = x.drainTaken + 1 ∧
          u = { s with ports := Ports.quiet, streams := u.streams } ∧
          (y.poolQuiet = true ↔ x.poolQuiet = true ∨
            ((∀ b ∈ y.bufs, b.state = .free) ∧ (x.drainTaken = 2 ∨ ∃ b ∈ x.bufs, b.state ≠ .free)))) ∧
        (x.drainTaken = 0 →
          y = { x with mode := .none, bufs := y.bufs, ready := y.ready, drainTaken := 1, poolQuiet := y.poolQuiet } ∧
          (∀ i b, x.mode = .buffer i → x.bufs[i]? = some b → b.state = .filling →
            y.bufs = x.bufs.set i (releasedBuf b) ∧ y.ready = x.ready.filter (· != i)) ∧
          ((∀ i, x.mode ≠ .buffer i) → y.bufs = x.bufs ∧ y.ready = x.ready)) ∧
        (x.drainTaken = 1 →
          y = { x with lock := .down, acquire := 0, loss := 0, timer := .stopped, bufs := y.bufs, ready := y.ready,
                       drainTaken := 2, poolQuiet := y.poolQuiet } ∧
          (Decode.unlock x.desc ≠ some .hold → y.bufs = x.bufs ∧ y.ready = x.ready) ∧
          (Decode.unlock x.desc = some .hold → y.bufs = x.clearHold.bufs ∧ y.ready = x.clearHold.ready)) ∧
        (x.drainTaken = 2 →
          y = { x with bufs := y.bufs, ready := y.ready, drainTaken := 3, poolQuiet := y.poolQuiet } ∧
          y.bufs.length = x.bufs.length ∧
          (∀ i, i ∈ y.ready → i ∈ x.ready) ∧
          ∀ i b, x.bufs[i]? = some b →
            (b.state = .closing ∨ b.state = .ready → y.bufs[i]? = some (releasedBuf b) ∧ i ∉ y.ready) ∧
            (b.state ≠ .closing → b.state ≠ .ready → y.bufs[i]? = some b ∧ (i ∈ y.ready ↔ i ∈ x.ready))) ∧
        (x.drainTaken = 3 →
          y = { x with
            bufs := (x.readers.foldl unboundFrom x).bufs
            ready := (x.readers.foldl unboundFrom x).ready
            readers := x.readers.map (fun r => { r with
              state := .unbound, boundSeq := 0#32, lastSource := .fill, lastSkipped := 0#16, timer := .stopped })
            drainTaken := 4
            poolQuiet := y.poolQuiet }) ∧
        (x.drainTaken = 4 → s.softResetPending = false →
          (∀ j ∈ u.jobs.tail, j.stream ≠ st) ∧ (∀ j ∈ u.jobs.head?, j.stream = st → j.state = .cancelling)) ∧
        (x.drainTaken = 4 → (∀ j ∈ s.jobs, j.stream ≠ st) →
          u = ({ s with ports := Ports.quiet }.setStream st { x with drainTaken := 5 }).settleDrain st))

/-- The drain ends when the pool is quiet and the fifth request is taken: STREAM_DOWN is raised, a pending descriptor
and its windows come into force, the buffer records and the two reader entries are built for the descriptor in force,
and the slot goes on as its arm request and outcome say: armed, OFF or REFUSED; it leaves the wait set, and the
removal that empties the set ends the reload (R174, R165, R26, R70, R178). Where the slot is armed, that records and
entries stand from the arm's start is log 34. In a soft reset's wait the stream becomes OFF and nothing switches
(R180; log 24). -/
def Obligations.DrainEnd : Prop :=
  ∀ (s : State) (st : StreamId) (x : StreamState), x = s.stream st → x.life = .draining →
    (x.poolQuiet = false ∨ x.drainTaken ≠ 5 → s.settleDrain st = s) ∧
    (x.poolQuiet = true → x.drainTaken = 5 → s.softResetPending = true →
      ∃ u y, u = s.settleDrain st ∧ y = u.stream st ∧ OnlyStream s u st ∧ u = { s with streams := u.streams } ∧
        y.flags = x.flags ||| 0x80#8 ∧ y.life = .off ∧ y.armRequest = false ∧ y.armAwaited = [] ∧ y.current = x.current ∧
        y.pendingSlot = x.pendingSlot ∧ y.windows = x.windows) ∧
    (x.poolQuiet = true → x.drainTaken = 5 → s.softResetPending = false →
      ∃ u y, u = s.settleDrain st ∧ y = u.stream st ∧ OnlyStream s u st ∧ y.flags = x.flags ||| 0x80#8 ∧
        y.drainTaken = 0 ∧ y.poolQuiet = false ∧ y.counters = x.counters ∧ y.pendingSlot = none ∧
        (x.pendingSlot = none → y.current = x.current ∧ y.windows = x.windows) ∧
        (∀ i, x.pendingSlot = some i → y.current = some i ∧
          y.windows = (if i.mapped then some (windowsOf i.desc) else none)) ∧
        (∀ i, y.current = some i → BuiltFor y i) ∧
        (y.outcome = some .refused → y.life = .refused ∧ y.armRequest = false ∧ y.armAwaited = []) ∧
        (y.outcome = some .enabled → x.armRequest = true → y.life = .off ∧ y.armRequest = true ∧
          y.armAwaited = [.poolManager, .captureUnit, .presentationUnit, .cadenceMonitor, .eventUnit]) ∧
        (y.outcome = some .disabled ∨ (y.outcome = some .enabled ∧ x.armRequest = false) →
          y.life = .off ∧ y.armRequest = false ∧ y.armAwaited = []) ∧
        (st ∉ s.waitSet → u = { s with streams := u.streams }) ∧
        (st ∈ s.waitSet → (∃ k ∈ s.waitSet, k ≠ st) →
          u = { s with streams := u.streams, waitSet := s.waitSet.filter (· != st) }) ∧
        (st ∈ s.waitSet → (∀ k ∈ s.waitSet, k = st) →
          u = { s with streams := u.streams, waitSet := [], reloadInProgress := false, lastReload := .applied,
                       deviceFlags := s.deviceFlags ||| 0x04#5 }))

/-! ### Grants and returns -/

/-- A grant goes to an eligible LOADER request first: its entry, its address at the image base, copy and offset, and
the plan's next read behind it; where neither a LOADER nor a REPAIR request is to be granted, nothing happens (R138,
R141, R149, R150; the last is log 4). The OKAY bytes of an image read are stored in the copy's receive area at their
offset, and the third of them makes the copy RECEIVED; an ERROR makes it FAILED and drops its reads not yet presented;
the other copies stay. The return that ends the reads of the load brings its evaluation, which LoadEvaluation states
(R143, R151). In a soft reset's wait a response to an image read frees its entry and is discarded: no copy changes and
no evaluation is made (R146, R180). -/
def Obligations.LoaderReads : Prop :=
  (∀ (s : State) (offer : Option Initiator),
      (∀ l q rest, s.softResetPending = false → s.load = some l → l.plan = q :: rest → s.table.length < 32 →
        (s.entriesOf .loader).length < 3 →
        exec (.grant offer) s = .next { s with
          load := some { l with plan := rest }
          table := s.table ++ [{ index := s.freeIndex, kind := .loaderRead q }]
          ports := ownIssue s (BitVec.ofNat 40 (s.cfgsel.toNat * 65536 + q.copy.val * 1024 + q.offset)) (.read q.length) }) ∧
      ((s.loaderRequest = none ∨ 32 ≤ s.table.length ∨ 3 ≤ (s.entriesOf .loader).length) →
        (s.repairStands = false ∨ 32 ≤ s.table.length ∨ 4 ≤ (s.entriesOf .repair).length ∨
          (s.starvation ≠ 8 ∧ ∃ i, offer = some i ∧ s.passEligible i = true)) →
        exec (.grant offer) s = .next { s with ports := Ports.quiet })) ∧
  (∀ (s : State) (r : DsResponse) (e : Entry) (l : Load) (q : LoaderRead), r.wf = true → s.softResetPending = false →
      s.matched r = some e → e.kind = .loaderRead q → s.load = some l → q.copy ∈ [0, 1, 2] →
      ∃ (u : State) (m : Load) (c : CopyRx), exec (.returned r) s = .next u.settleLoad ∧ u.load = some m ∧ c = l.copies.get q.copy ∧ m.purpose = l.purpose ∧
        (∀ k, k ≠ q.copy → m.copies.get k = l.copies.get k) ∧
        u = { s with load := some m, table := u.table, ports := Ports.quiet } ∧
        (∀ f, f ∈ u.table ↔ f ∈ s.table ∧ f.index ≠ e.index) ∧
        (r.status = .error → (m.copies.get q.copy) = { c with state := .failed } ∧
          m.plan = l.plan.filter (fun p => p.copy ≠ q.copy)) ∧
        (r.status = .okay → m.plan = l.plan ∧
          (c.state = .failed → m.copies.get q.copy = c) ∧
          (c.state = .pending →
            (q.offset = 0 → m.copies.get q.copy = { c with
              first := some r.data
              state := if c.second.isSome ∧ c.third.isSome then .received else .pending }) ∧
            (q.offset = 256 → m.copies.get q.copy = { c with
              second := some r.data
              state := if c.first.isSome ∧ c.third.isSome then .received else .pending }) ∧
            (q.offset = 512 → m.copies.get q.copy = { c with
              third := some r.data
              state := if c.first.isSome ∧ c.second.isSome then .received else .pending })))) ∧
  (∀ (s : State) (r : DsResponse) (e : Entry) (q : LoaderRead), r.wf = true → s.softResetPending = true →
      s.matched r = some e → e.kind = .loaderRead q →
      exec (.returned r) s = .next { s with
        table := s.table.filter (fun f => f.index ≠ e.index), ports := Ports.quiet })

/-- A grant to a job by PAD: one write of fill into the target at the next line and position, of the length of R56,
its burst in a free slot, its entry counted in the target, the starvation counter at 0, and the walk moved on. A grant
to a job by COPY: the write of the oldest burst whose read has returned comes first, with the bytes read, at the same
offset of the target; without one the next burst's read is issued at that offset of the source (R55 to R59, R138,
R139, R141). -/
def Obligations.RepairGrants : Prop :=
  (∀ (s : State) (offer : Option Initiator) (j : Job) (rest : List Job) (b : Buf) (d : Descriptor), RepairTurn s offer →
      s.jobs = j :: rest → NextBurstDue s j → j.method = .pad → (s.stream j.stream).bufs[j.target]? = some b →
      d = (s.stream j.stream).desc →
      ∃ u k a slot, exec (.grant offer) s = .next u ∧
        a = BitVec.ofNat 40 (b.base.toNat * 4096 + (j.nextLine * Decode.pitch d + j.nextPos)) ∧
        slot < 4 ∧ (∀ c ∈ s.bursts, c.slot ≠ slot) ∧ Walked d b.coverage j k ∧
        u = { s with streams := u.streams, jobs := k :: rest, bursts := u.bursts, table := u.table, starvation := 0,
                     ports := ownIssue s a (.write (fillData (Decode.fillWord d) a.toNat (nextLength d j))) } ∧
        u.table = s.table ++ [{ index := s.freeIndex, kind := .repairWrite j.stream j.target slot }] ∧
        u.bursts = s.bursts ++ [{ slot := slot, offset := j.nextLine * Decode.pitch d + j.nextPos,
                                  length := nextLength d j, phase := .writing }] ∧
        OnlyStream s u j.stream ∧
        u.stream j.stream = { s.stream j.stream with
          bufs := (s.stream j.stream).bufs.set j.target { b with inFlight := b.inFlight + 1 } }) ∧
  (∀ (s : State) (offer : Option Initiator) (j : Job) (rest : List Job) (source : Nat) (b c : Buf) (d : Descriptor),
      RepairTurn s offer → s.jobs = j :: rest → j.state = .running → j.method = .copy source →
      (s.stream j.stream).bufs[j.target]? = some b → (s.stream j.stream).bufs[source]? = some c →
      d = (s.stream j.stream).desc →
      (∀ l m burst data, s.bursts = l ++ burst :: m → burst.phase = .held data → (∀ x ∈ l, ∀ e, x.phase ≠ .held e) →
        (s.bursts.map (·.slot)).Nodup →
        exec (.grant offer) s = .next { s.setStream j.stream { s.stream j.stream with
              bufs := (s.stream j.stream).bufs.set j.target { b with inFlight := b.inFlight + 1 } } with
          jobs := { j with outstanding := j.outstanding + 1 } :: rest
          bursts := l ++ { burst with phase := .writing } :: m
          table := s.table ++ [{ index := s.freeIndex, kind := .repairWrite j.stream j.target burst.slot }]
          starvation := 0
          ports := ownIssue s (BitVec.ofNat 40 (b.base.toNat * 4096 + burst.offset)) (.write data) }) ∧
      (NextBurstDue s j →
        ∃ u k slot, exec (.grant offer) s = .next u ∧ slot < 4 ∧ (∀ x ∈ s.bursts, x.slot ≠ slot) ∧ Walked d b.coverage j k ∧
          u = { s with streams := u.streams, jobs := k :: rest, bursts := u.bursts, table := u.table, starvation := 0,
                       ports := ownIssue s
                         (BitVec.ofNat 40 (c.base.toNat * 4096 + (j.nextLine * Decode.pitch d + j.nextPos)))
                         (.read (nextLength d j)) } ∧
          u.table = s.table ++ [{ index := s.freeIndex, kind := .repairRead j.stream source slot }] ∧
          u.bursts = s.bursts ++ [{ slot := slot, offset := j.nextLine * Decode.pitch d + j.nextPos,
                                    length := nextLength d j, phase := .reading }] ∧
          OnlyStream s u j.stream ∧
          u.stream j.stream = { s.stream j.stream with
            bufs := (s.stream j.stream).bufs.set source { c with inFlight := c.inFlight + 1 } }))

/-- A response matches the oldest entry of requester PASS with its initiator ID and tag, and frees it; one that
matches no entry changes nothing. It makes the initiator's waiting order list entry ready, unchanged, and the list
sends what has become ready at its head (R132, R142 to R144). What a response to one of the part's own transactions
does, and the decrement of a counted buffer, are stated by LoaderReads, RepairReturnTaken, RepairJobEnds and
ReturnDecrements. -/
def Obligations.ReturnToInitiator : Prop :=
  ∀ (s : State) (r : DsResponse), r.wf = true →
    (r.origin = false → (∀ e ∈ s.table, e.kind.passKey ≠ some (r.initiator, r.tag)) →
      exec (.returned r) s = .next { s with ports := Ports.quiet }) ∧
    (r.origin = true → (∀ e ∈ s.table, e.kind.requester = .pass ∨ e.index ≠ r.tag.toNat) →
      exec (.returned r) s = .next { s with ports := Ports.quiet }) ∧
    (∀ l e m, r.origin = false → s.table = l ++ e :: m → e.kind.passKey = some (r.initiator, r.tag) →
      (∀ f ∈ l, f.kind.passKey ≠ some (r.initiator, r.tag)) → (s.table.map (·.index)).Nodup →
      ∀ pre w post, s.order r.initiator = pre ++ w :: post → w.state = .waits e.index →
        (∀ o ∈ pre ++ post, o.state ≠ .waits e.index) →
        ∃ u, exec (.returned r) s = .next u ∧ u.table = l ++ m ∧ (∀ i, i ≠ r.initiator → u.order i = s.order i) ∧
          u.ports.issued = none ∧ u.ports.accepted = false ∧
          (e.kind.counted = none → u = { s with table := u.table, orders := u.orders, ports := u.ports }) ∧
          (∀ p q n, pre = p :: q → p.state = .waits n →
            u.order r.initiator = pre ++ { w with state := .ready { status := r.status, data := r.data } } :: post ∧
              u.ports.responses = []) ∧
          (pre = [] → ∃ (run : List (OrderEntry × Response)) (left : List OrderEntry), post = run.map Prod.fst ++ left ∧ (∀ x ∈ run, x.1.state = .ready x.2) ∧
            (∀ y z, left = y :: z → ∀ x, y.state ≠ .ready x) ∧ u.order r.initiator = left ∧
            u.ports.responses = sentFor r.initiator w { status := r.status, data := r.data }
              :: run.map (fun x => sentFor r.initiator x.1 x.2)))

/-- The return of a counted PASS transaction lowers the in-flight count of the buffer its entry records, in any
lifecycle state: an ERROR to a capture write marks a FILLING or CLOSING buffer, a RELEASING buffer left with counts of 0
goes to FREE, a CLOSING one left with 0 is judged, as VerdictAtDrain states, and any other only counts down. In DRAINING
the return that leaves every buffer FREE reports the pool quiet, any other does not, and the drain may end, as DrainEnd
states; outside DRAINING nothing follows. What the response itself does is stated by ReturnToInitiator (R4, R5, R6, R12,
R24, R25, R144). -/
def Obligations.ReturnDecrements : Prop :=
  ∀ (s : State) (r : DsResponse) (e : Entry) (st : StreamId) (i : Nat) (b : Buf) (failed : Bool), r.wf = true →
    r.origin = false → s.matched r = some e → e.kind.counted = some (st, i) → (s.stream st).bufs[i]? = some b →
    (failed = true ↔ r.status = .error ∧ e.kind = .captureWrite r.initiator r.tag st i) →
    ∃ u v : State, exec (.returned r) s = .next u ∧
      u = (v.setStream st (quietAfter (s.stream st) (v.stream st))).settleDrain st ∧
      ((s.stream st).life ≠ .draining → u = v) ∧
      v = { s with streams := v.streams, jobs := v.jobs, orders := v.orders, ports := v.ports,
                   table := s.table.filter (fun f => f.index ≠ e.index) } ∧
      OnlyStream s v st ∧
      (b.state ≠ .closing → v.jobs = s.jobs) ∧
      (b.state ≠ .closing → b.state ≠ .releasing → v.stream st = { s.stream st with
        bufs := (s.stream st).bufs.set i { b with
          inFlight := b.inFlight - 1
          writeError := b.writeError || (failed && decide (b.state = .filling)) } }) ∧
      (b.state = .releasing → v.stream st = { s.stream st with
        bufs := (s.stream st).bufs.set i
          (if b.inFlight ≤ 1 ∧ b.pins = 0 then Buf.fresh b.base else { b with inFlight := b.inFlight - 1 }) }) ∧
      (b.state = .closing → ∃ w, w = s.setStream st { s.stream st with
          bufs := (s.stream st).bufs.set i { b with inFlight := b.inFlight - 1, writeError := b.writeError || failed } } ∧
        (1 < b.inFlight → v.streams = w.streams ∧ v.jobs = s.jobs) ∧
        (b.inFlight ≤ 1 → v.streams = (w.drain st i).streams ∧ v.jobs = (w.drain st i).jobs))

/-- The response to a transaction of the head job frees its entry, lowers the job's outstanding count and the buffer's
in-flight count, a RELEASING buffer left with counts of 0 going to FREE. Of a RUNNING job, OKAY to a read keeps the
bytes for the burst's write, OKAY to a write frees the slot; an ERROR fails the job: FAILING, held data abandoned,
REPAIR_FAULT raised, the slot freed, the starvation counter at 0 where a request stood. Of a FAILING or CANCELLING
job, and in a soft reset's wait, the slot is freed whatever the status and no event is raised. The job then ends where
it is over, as RepairJobEnds states, and in a wait no job ends; a DRAINING slot's quiet report and drain end follow
(R4, R25, R58, R59, R63, R64, R66, R68, R139, R144). -/
def Obligations.RepairReturnTaken : Prop :=
  ∀ (s : State) (r : DsResponse) (e : Entry) (j : Job) (rest : List Job) (i slot : Nat) (b : Buf), r.wf = true →
    s.matched r = some e → e.kind = .repairWrite j.stream i slot ∨ e.kind = .repairRead j.stream i slot →
    s.jobs = j :: rest → (s.stream j.stream).bufs[i]? = some b → b.state ≠ .closing →
    ∀ c : Buf, c = (if b.state = .releasing ∧ b.inFlight ≤ 1 ∧ b.pins = 0 then Buf.fresh b.base
      else { b with inFlight := b.inFlight - 1 }) →
    ∃ u v, v = u.settleJob ∧
      exec (.returned r) s = .next ((v.setStream j.stream
        (quietAfter (s.stream j.stream) (v.stream j.stream))).settleDrain j.stream) ∧
      u = { s with streams := u.streams, jobs := u.jobs, bursts := u.bursts, starvation := u.starvation,
                   table := s.table.filter (fun f => f.index ≠ e.index), ports := Ports.quiet } ∧
      OnlyStream s u j.stream ∧
      (j.state = .running → s.softResetPending = false → r.status = .okay →
        u.jobs = { j with outstanding := j.outstanding - 1 } :: rest ∧ u.starvation = s.starvation ∧
        u.stream j.stream = { s.stream j.stream with bufs := (s.stream j.stream).bufs.set i c } ∧
        (e.kind = .repairWrite j.stream i slot → u.bursts = s.bursts.filter (fun x => x.slot ≠ slot)) ∧
        (e.kind = .repairRead j.stream i slot →
          u.bursts = s.bursts.map (fun x => if x.slot = slot then { x with phase := .held r.data } else x))) ∧
      (j.state = .running → s.softResetPending = false → r.status = .error →
        u.jobs = { j with state := .failing, outstanding := j.outstanding - 1 } :: rest ∧
        u.repairStands = false ∧ u.starvation = (if s.repairStands then 0 else s.starvation) ∧
        (∀ x, x ∈ u.bursts ↔ x ∈ s.bursts ∧ x.slot ≠ slot ∧ ∀ d, x.phase ≠ .held d) ∧
        u.stream j.stream = { s.stream j.stream with
          flags := (s.stream j.stream).flags ||| 0x10#8, bufs := (s.stream j.stream).bufs.set i c }) ∧
      (j.state ≠ .running ∨ s.softResetPending = true →
        u.jobs = { j with outstanding := j.outstanding - 1 } :: rest ∧ u.starvation = s.starvation ∧
        u.bursts = s.bursts.filter (fun x => x.slot ≠ slot) ∧
        u.stream j.stream = { s.stream j.stream with bufs := (s.stream j.stream).bufs.set i c }) ∧
      (s.softResetPending = true → v = u)

/-- A RUNNING head job whose walk is finished and whose transactions have all returned, and a FAILING or CANCELLING
one with nothing outstanding, ends outside a soft reset's wait, and no other job ends. The source of a COPY job is
unpinned, a RELEASING source left with counts of 0 going to FREE; the next job becomes RUNNING. The report: the
verdict of the method, REJECTED_REPAIR_FAIL after an error, and after a cancellation or the Pool Manager's teardown
request no verdict at all, the target released (R4, R7, R18, R19, R54, R60, R64, R66 to R68). -/
def Obligations.RepairJobEnds : Prop :=
  ∀ (s : State) (j : Job) (rest : List Job) (x : StreamState) (b : Buf), s.jobs = j :: rest →
    x = sourceLeft (s.stream j.stream) j.method → x.bufs[j.target]? = some b →
    ∀ ends asCancelled : Prop,
      (ends ↔ s.softResetPending = false ∧ j.outstanding = 0 ∧
        ((j.state = .running ∧ Decode.lines x.desc ≤ j.nextLine ∧ s.bursts = []) ∨ j.state = .failing ∨
          j.state = .cancelling)) →
      (asCancelled ↔ j.state = .cancelling ∨ (x.life = .draining ∧ 3 ≤ x.drainTaken)) →
      (¬ ends → s.settleJob = s) ∧
      (ends → ∃ u y, u = s.settleJob ∧ y = u.stream j.stream ∧ OnlyStream s u j.stream ∧
        u = { s with streams := u.streams, jobs := u.jobs, bursts := [] } ∧
        (rest = [] → u.jobs = []) ∧
        (∀ k l, rest = k :: l → u.jobs = (if k.state = .queued then { k with state := .running } else k) :: l) ∧
        (asCancelled → y = targetReleased x j.target) ∧
        (¬ asCancelled → j.state = .failing → y = (x.handOn .rejectedRepairFail b).release j.target) ∧
        (¬ asCancelled → j.state = .running →
          ∀ v, v = (match j.method with | .pad => Verdict.repairedPad | .copy _ => Verdict.repairedCopy) →
            y = { x.handOn v b with
              bufs := (x.handOn v b).bufs.modify j.target (fun c => { c with verdict := v }) }.join j.target))

/-- The fifth teardown request, the Repair Engine's. Every job of the stream behind the head leaves the queue in queue
order, its source unpinned and its target released without a verdict; a head job of the stream becomes CANCELLING, its
request withdrawn, its held data discarded, and it ends at once where nothing is outstanding, as RepairJobEnds states;
jobs of other streams stay. In a soft reset's wait no job changes. The count becomes five, the pool is reported quiet
where that leaves every buffer FREE, and the drain may end, as DrainEnd states (R4, R7, R25, R65, R66, R68, R139,
R173). -/
def Obligations.RepairCancellation : Prop :=
  ∀ (s : State) (st : StreamId) (x : StreamState), x = s.stream st → x.life = .draining → x.drainTaken = 4 →
    ∃ u : State,
      exec (.teardownRequest st) s = .next ((u.setStream st
        (quietAfter x { u.stream st with drainTaken := 5 })).settleDrain st) ∧
      (s.softResetPending = true ∨ s.jobs = [] → u = { s with ports := Ports.quiet }) ∧
      (∀ j rest others y, s.softResetPending = false → s.jobs = j :: rest →
        others = rest.filter (fun k => k.stream ≠ st) → y = cancelled x (rest.filter (fun k => k.stream = st)) →
        (j.stream ≠ st → u = { s with ports := Ports.quiet, jobs := j :: others }.setStream st y) ∧
        (j.stream = st → ∃ v : State, u = v.settleJob ∧
          v = { s with
            ports := Ports.quiet
            jobs := { j with state := .cancelling } :: others
            starvation := if s.repairStands then 0 else s.starvation
            bursts := v.bursts }.setStream st y ∧
          (∀ c, c ∈ v.bursts ↔ c ∈ s.bursts ∧ ∀ d, c.phase ≠ .held d)))

/-! ### The configuration image -/

/-- A received copy is valid when it holds the signature, format version 1 and the CRC over its bytes 0 to 575 (R152,
R200). None is selected exactly when no copy is valid (R154); with the generations of the valid copies within 2³¹ of
one another the newest generation is selected, and among equal ones the lowest copy index. The walk in copy order,
whatever the generations: the first valid copy becomes the candidate, and each later valid one replaces it exactly
when (G − H) mod 2³² lies in 1 to 2³¹ − 1 (R153). -/
def Obligations.CopyValidityAndSelection : Prop :=
  (∀ (c : CopyRx), c.valid = true ↔ c.state = .received ∧ c.bytes.take 4 = [0x5A#8, 0x43#8, 0x46#8, 0x47#8] ∧
      c.bytes.getD 4 0#8 = 0x01#8 ∧ c.bytes.getD 5 0#8 = 0x00#8 ∧
      lsb16 (Decode.crc (c.bytes.take 576)) = [c.bytes.getD 576 0#8, c.bytes.getD 577 0#8]) ∧
  (∀ (l : Load),
      (l.selected = none ↔ ∀ c, (l.copies.get c).valid = false) ∧
      (∀ c, l.selected = some c → (l.copies.get c).valid = true) ∧
      (∀ g : BitVec 32, (∀ c, (l.copies.get c).valid = true →
          (Decode.imageGeneration (l.copies.get c).bytes - g).toNat < 2 ^ 31) →
        ∀ c, l.selected = some c → ∀ k, (l.copies.get k).valid = true →
          (Decode.imageGeneration (l.copies.get k).bytes - g).toNat
              ≤ (Decode.imageGeneration (l.copies.get c).bytes - g).toNat ∧
            (k < c → (Decode.imageGeneration (l.copies.get k).bytes - g).toNat
              < (Decode.imageGeneration (l.copies.get c).bytes - g).toNat))) ∧
  (∀ (l : Load) (g : CopyIndex → BitVec 32), (∀ c, g c = Decode.imageGeneration (l.copies.get c).bytes) →
      ∀ c0 c1 c2 : Option CopyIndex,
        c0 = (if (l.copies.get 0).valid then some 0 else none) →
        (∀ k before after, (k, before, after) ∈ [(1, c0, c1), (2, c1, c2)] →
          ((l.copies.get k).valid = false → after = before) ∧
          ((l.copies.get k).valid = true → before = none → after = some k) ∧
          ((l.copies.get k).valid = true → ∀ h, before = some h →
            (1 ≤ (g k - g h).toNat ∧ (g k - g h).toNat ≤ 2 ^ 31 - 1 → after = some k) ∧
            (¬ (1 ≤ (g k - g h).toNat ∧ (g k - g h).toNat ≤ 2 ^ 31 - 1) → after = some h))) →
        l.selected = c2)

/-- The evaluation when the reads of a load have ended. START: with no valid copy CONFIG_FAULT and TABLE_FAULT; else
RUNNING with TABLE_LOADED, the copy's generation and index, and each slot's descriptor, windows, buffer records,
reader entries and lifecycle by its outcome. RELOAD: FAILED without a valid copy, NO_CHANGE for the current copy at
the current generation, both leaving the slots; any other copy is handed off in RUNNING as ReloadHandOff states, and
in CONFIG_FAULT as by a START load, the reload ending APPLIED with TABLE_LOADED and RELOAD_DONE (R26, R70, R154, R155,
R163, R168, R176, R177, R179). There is no evaluation while reads are left to present or outstanding, and none
in a soft reset's wait (R146, R151). That an ENABLED slot has records and entries before its arm messages is log 34. -/
def Obligations.LoadEvaluation : Prop :=
  (∀ (s : State) (l : Load), s.load = some l → l.plan = [] → s.entriesOf .loader = [] → s.softResetPending = false →
      (l.purpose = .start → l.selected = none →
        s.settleLoad = { s with load := none, device := .configFault, deviceFlags := s.deviceFlags ||| 0x02#5 }) ∧
      (l.purpose = .start → ∀ c, l.selected = some c → ∀ slot, slot = (l.copies.get c).bytes →
        ∃ u, u = s.settleLoad ∧
          u = { s with load := none, device := .running, deviceFlags := s.deviceFlags ||| 0x01#5, streams := u.streams,
                       generation := Decode.imageGeneration slot, copyIndex := some c } ∧
          ∀ st i, i = installedOf s.place (imageDescriptors slot) st.val →
            (u.stream st).current = some i ∧ (u.stream st).pendingSlot = none ∧
            (u.stream st).windows = (if i.mapped then some (windowsOf i.desc) else none) ∧
            (u.stream st).flags = (s.stream st).flags ∧ BuiltFor (u.stream st) i ∧
            (i.outcome = .enabled → (u.stream st).life = .off ∧ (u.stream st).armRequest = true ∧
              (u.stream st).armAwaited = [.poolManager, .captureUnit, .presentationUnit, .cadenceMonitor, .eventUnit]) ∧
            (i.outcome = .disabled → (u.stream st).life = .off ∧ (u.stream st).armRequest = false ∧
              (u.stream st).armAwaited = []) ∧
            (i.outcome = .refused → (u.stream st).life = .refused ∧ (u.stream st).armRequest = false)) ∧
      (l.purpose = .reload → l.selected = none →
        s.settleLoad = { s with load := none, reloadInProgress := false, lastReload := .failed,
                                deviceFlags := s.deviceFlags ||| 0x08#5 }) ∧
      (l.purpose = .reload → ∀ c, l.selected = some c → s.copyIndex = some c →
        s.generation = Decode.imageGeneration (l.copies.get c).bytes →
        s.settleLoad = { s with load := none, reloadInProgress := false, lastReload := .noChange,
                                deviceFlags := s.deviceFlags ||| 0x04#5 }) ∧
      (l.purpose = .reload → ∀ c slot, l.selected = some c → slot = (l.copies.get c).bytes →
        ¬ (s.copyIndex = some c ∧ s.generation = Decode.imageGeneration slot) →
        (s.device ≠ .configFault → s.settleLoad = { s with load := none }.handOffReload c slot) ∧
        (s.device = .configFault → ∃ u : State, u = { s with load := some { l with purpose := .start } }.settleLoad ∧
          s.settleLoad = { u with reloadInProgress := false, lastReload := .applied,
                                  deviceFlags := s.deviceFlags ||| 0x05#5 }))) ∧
  (∀ s : State, (s.softResetPending = true ∨ s.load = none ∨ (∃ l, s.load = some l ∧ l.plan ≠ []) ∨
      s.entriesOf .loader ≠ []) → s.settleLoad = s)

/-- A reload hand-off in RUNNING, slot by slot: one whose 64 bytes equal its descriptor in force is not touched; a
changed ACTIVE one keeps its descriptor, holds the new one pending and starts its teardown; a changed DRAINING one
holds the new one; both join the wait set; a changed OFF or REFUSED one takes the new descriptor at once, with buffer
records and reader entries built for it (R26, R70, R164, R177, R178). A changed OFF slot whose arm is in progress
drops that arm and, where ENABLED, awaits five new messages, which is log 13; that an ENABLED slot has records and
entries before its messages is log 34. -/
def Obligations.ReloadHandOff : Prop :=
  ∀ (s : State) (c : CopyIndex) (slot : List Byte), s.waitSet = [] →
    ∃ u, u = s.handOffReload c slot ∧ u.generation = Decode.imageGeneration slot ∧ u.copyIndex = some c ∧
      u.device = s.device ∧
      (u.waitSet = [] → u.reloadInProgress = false ∧ u.lastReload = .applied ∧
        u.deviceFlags = s.deviceFlags ||| 0x04#5) ∧
      (u.waitSet ≠ [] → u.reloadInProgress = s.reloadInProgress ∧ u.lastReload = s.lastReload ∧
        u.deviceFlags = s.deviceFlags) ∧
      ∀ st i x, x = s.stream st → i = installedOf s.place (imageDescriptors slot) st.val →
        ∀ changed : Prop, (changed ↔ x.current.map (·.desc) ≠ some (Decode.imageDescriptor slot st.val)) →
        (st ∈ u.waitSet ↔ changed ∧ (x.life = .active ∨ x.life = .draining)) ∧
        (¬ changed → u.stream st = x) ∧
        (changed → x.life = .active → u.stream st = { x with
          pendingSlot := some i, armRequest := decide (i.outcome = .enabled), life := .draining, drainTaken := 0,
          poolQuiet := false }) ∧
        (changed → x.life = .draining → u.stream st = { x with
          pendingSlot := some i, armRequest := decide (i.outcome = .enabled) }) ∧
        (changed → x.life = .off ∨ x.life = .refused →
          (u.stream st).current = some i ∧ BuiltFor (u.stream st) i ∧ (u.stream st).pendingSlot = x.pendingSlot ∧
          (u.stream st).flags = x.flags ∧ (u.stream st).counters = x.counters ∧
          (x.armAwaited = [] → (u.stream st).lock = x.lock ∧ (u.stream st).timer = x.timer) ∧
          (x.life = .off → x.armAwaited ≠ [] → (u.stream st).lock = .down ∧ (u.stream st).timer = .stopped) ∧
          (u.stream st).windows = (if i.mapped then some (windowsOf i.desc) else none) ∧
          (u.stream st).armRequest = decide (i.outcome = .enabled) ∧
          (u.stream st).life = (if i.outcome = .refused then .refused else .off) ∧
          (u.stream st).armAwaited = (if i.outcome = .enabled then
            [.poolManager, .captureUnit, .presentationUnit, .cadenceMonitor, .eventUnit] else []))

/-- Validation of a descriptor: DISABLED with cause NONE where ENABLE is clear; else ENABLED with cause NONE where no
check fails, and REFUSED with the cause of the first of the nine that fails, each check giving its own cause exactly
when all before it pass (R157, Table 8-4); its windows are mapped exactly where checks 1 to 3 pass. -/
def Obligations.ValidationOutcome : Prop :=
  ∀ (p : Place) (ds : List Descriptor) (k : Nat) (d : Descriptor) (i : Installed), i = validate p ds k d →
    ∀ checks : List (Bool × RefusalCause), checks =
      [(geometryOk d, .badGeometry), (windowsInside p d, .windowOutsideAperture), (windowsApart p ds k d, .windowOverlap),
       (poolOk d, .badPool), (buffersApart p ds k d, .bufferOverlap), (readersOk d, .badReaders),
       (holdPoolOk d, .holdNeedsThree), (countsOk d, .badCounts), (timingOk d, .badTiming)] →
    i.desc = d ∧
    (i.mapped = true ↔ geometryOk d = true ∧ windowsInside p d = true ∧ windowsApart p ds k d = true) ∧
    (Decode.enable d = false → i.outcome = .disabled ∧ i.cause = .none) ∧
    (Decode.enable d = true →
      ((∀ c ∈ checks, c.1 = true) → i.outcome = .enabled ∧ i.cause = .none) ∧
      (∀ before cause after, checks = before ++ (false, cause) :: after → (∀ c ∈ before, c.1 = true) →
        i.outcome = .refused ∧ i.cause = cause))

/-- The nine checks of a descriptor, as their rules give their bounds; checks 3 and 5 compare against the enabled
descriptors of the same copy that pass the checks before them (R158 to R162). -/
def Obligations.DescriptorChecks : Prop :=
  ∀ (p : Place) (ds : List Descriptor) (k : Nat) (d : Descriptor),
    let base (f : Descriptor) (i : Nat) : Nat := (Decode.bufferBase f i).toNat * 4096
    let extent (f : Descriptor) : Nat := Decode.lines f * Decode.pitch f
    (geometryOk d = true ↔
      64 ≤ Decode.lineBytes d ∧ Decode.lineBytes d ≤ 16384 ∧ 64 ∣ Decode.lineBytes d ∧
      Decode.lineBytes d ≤ Decode.pitch d ∧ Decode.pitch d ≤ 32768 ∧ 64 ∣ Decode.pitch d ∧
      Decode.lines d ≠ 0 ∧ Decode.lines d ≤ 2048 ∧ 16 ≤ Decode.sizeCode d ∧ Decode.sizeCode d ≤ 26 ∧
      Decode.lines d * Decode.pitch d + 64 ≤ 2 ^ Decode.sizeCode d) ∧
    (windowsInside p d = true ↔ ∀ base ∈ [Decode.captureBase d, Decode.presentationBase d],
      ∀ a, base ≤ a → a < base + 2 ^ Decode.sizeCode d → p.aperture ≤ a ∧ a < p.aperture + 2 ^ 28) ∧
    (windowsApart p ds k d = true ↔
      (∀ a, Decode.captureBase d ≤ a → a < Decode.captureBase d + 2 ^ Decode.sizeCode d →
        ¬ (Decode.presentationBase d ≤ a ∧ a < Decode.presentationBase d + 2 ^ Decode.sizeCode d)) ∧
      ∀ j e, j ≠ k → ds[j]? = some e → Decode.enable e = true → geometryOk e = true → windowsInside p e = true →
        ∀ b ∈ [Decode.captureBase d, Decode.presentationBase d],
          ∀ c ∈ [Decode.captureBase e, Decode.presentationBase e],
            ∀ a, b ≤ a → a < b + 2 ^ Decode.sizeCode d → ¬ (c ≤ a ∧ a < c + 2 ^ Decode.sizeCode e)) ∧
    (poolOk d = true ↔ 2 ≤ Decode.poolSize d ∧ Decode.poolSize d ≤ 6 ∧
      ∀ i, i < Decode.poolSize d → base d i + extent d ≤ 2 ^ 40) ∧
    (buffersApart p ds k d = true ↔
      ∀ i, i < Decode.poolSize d → ∀ a, base d i ≤ a → a < base d i + extent d →
        (∀ l, l < Decode.poolSize d → l ≠ i → ¬ (base d l ≤ a ∧ a < base d l + extent d)) ∧
        (∀ j e, j ≠ k → ds[j]? = some e → Decode.enable e = true → geometryOk e = true → windowsInside p e = true →
          windowsApart p ds j e = true → poolOk e = true →
          ∀ l, l < Decode.poolSize e → ¬ (base e l ≤ a ∧ a < base e l + extent e)) ∧
        ¬ (p.aperture ≤ a ∧ a < p.aperture + 2 ^ 28) ∧ ¬ (p.image ≤ a ∧ a < p.image + 3 * 1024)) ∧
    (readersOk d = true ↔
      ((Decode.readerSlot d 0).valid = true ∨ (Decode.readerSlot d 1).valid = true) ∧
      ((Decode.readerSlot d 0).valid = true → (Decode.readerSlot d 1).valid = true →
        (Decode.readerSlot d 0).id ≠ (Decode.readerSlot d 1).id ∧ Decode.discipline d ≠ .queue)) ∧
    (holdPoolOk d = true ↔ ¬ (Decode.unlock d = some .hold ∧ Decode.poolSize d = 2)) ∧
    (countsOk d = true ↔ countsPositive d ∧ Decode.unlock d ≠ none ∧ Decode.repairPolicy d ≠ none ∧
      (Decode.repairPolicy d = some .reject ∨ (1 ≤ Decode.repairLimit d ∧ Decode.repairLimit d ≤ 2048))) ∧
    (timingOk d = true ↔
      (Decode.period d = 0 ∨ (500 ≤ Decode.period d ∧ Decode.period d ≤ 1000000)) ∧
      (Decode.period d = 0 → Decode.tolerance d = 0) ∧ (Decode.period d ≠ 0 → 2 * Decode.tolerance d < Decode.period d) ∧
      (Decode.scanTimeout d = 0 ∨ (1000 ≤ Decode.scanTimeout d ∧ Decode.scanTimeout d ≤ 4000000)))

/-! ### Invariants -/

/-- The state after power-on reset meets the four invariants below. That the device is TRANSPARENT while RESET_N is
low, a clause of LockStates, is log 7. -/
def Obligations.ResetMeetsInvariants : Prop :=
  Capacity State.reset ∧ OrderLinks State.reset ∧ LockStates State.reset ∧ PoolsOk State.reset

/-- Every step keeps the sizes of the tables and queues: 32 entries with distinct indices, 4 of the Repair Engine, 3
of the Loader, 8 jobs, 4 transaction slots, 64 entries of an order list, the starvation counter 0 to 8 (R50, R59,
R132, R136, R139). -/
def Obligations.StepKeepsCapacity : Prop := ∀ (s u : State), Capacity s → step s = .next u → Capacity u

/-- Every step keeps the links of the order lists: no list keeps a ready entry at its head, and every entry that waits
waits for an entry in use of its own initiator (R132, R136). That an order list entry names its transaction by the
entry index is log 21. -/
def Obligations.StepKeepsOrderLinks : Prop := ∀ (s u : State), OrderLinks s → step s = .next u → OrderLinks u

/-- Every step keeps the lock states and their counters as Chapters 5 and 9 give them (R105, R113, R169, R170, R173),
a START load in LOADING and a RELOAD load in RUNNING or CONFIG_FAULT (R167, R175). The clause that the device is
TRANSPARENT while RESET_N is low is log 7: no rule names a device state before the first release. -/
def Obligations.StepKeepsLockStates : Prop := ∀ (s u : State), LockStates s → step s = .next u → LockStates u

/-- Every step keeps the pools and reader tables of all slots, in states that meet LockStates: FREE records are
cleared (R3); the READY queue holds exactly the READY buffers in rising sequence (R14); a record's reader count is the
number of entries bound to it, and is above 0 exactly in SHOWN (R20); at most one hold mark, only in SHOWN or KEPT, in
FREERUN under HOLD (R22); FILLING is the current frame's buffer (R8); pins and targets are those of the queued jobs
(R7, R51); sequences differ and were assigned (R8, R29, R30); the records have the bases of the descriptor in force (R1,
R26); a slot has two reader entries with its descriptor's IDs exactly where it has a descriptor (R69; for an arm in
progress log 34), and an ACTIVE or DRAINING one has a descriptor (R169); a resting slot and a quiet pool hold only FREE
buffers (R25, R26); the first teardown request ends the current frame (R48). -/
def Obligations.StepKeepsPools : Prop :=
  ∀ s u : State, LockStates s → PoolsOk s → step s = .next u → PoolsOk u
end

