-- ==== Sys2Proof/Laws/State.lean ====
section
/-! SUPPORT. What each named operation leaves alone: one lemma per field per update, and for each pool and lock operation one
frame lemma that says all the fields it can change. -/
namespace Sys2Proof.Machine

open Sys2Proof

/-! ### Slots and lists read back -/

@[simp] theorem State.stream_setStream (s : State) (i : StreamId) (x : StreamState) : (s.setStream i x).stream i = x := by
  exact Vector.getElem_set_self i.isLt

theorem State.stream_setStream_ne (s : State) (i j : StreamId) (x : StreamState) (h : j ≠ i) :
    (s.setStream i x).stream j = s.stream j := by
  exact Vector.getElem_set_ne i.isLt j.isLt (fun e => h (Fin.ext e.symm))

@[simp] theorem State.stream_onStream (s : State) (i : StreamId) (f : StreamState → StreamState) :
    (s.onStream i f).stream i = f (s.stream i) := by simp [State.onStream]

theorem State.stream_onStream_ne (s : State) (i j : StreamId) (f : StreamState → StreamState) (h : j ≠ i) :
    (s.onStream i f).stream j = s.stream j := by simp [State.onStream, State.stream_setStream_ne s i j _ h]

@[simp] theorem State.order_setOrder (s : State) (i : Initiator) (l : List OrderEntry) : (s.setOrder i l).order i = l := by
  exact Vector.getElem_set_self i.isLt

theorem State.order_setOrder_ne (s : State) (i j : Initiator) (l : List OrderEntry) (h : j ≠ i) :
    (s.setOrder i l).order j = s.order j := by
  exact Vector.getElem_set_ne i.isLt j.isLt (fun e => h (Fin.ext e.symm))

/-! ### The state under the named operations -/

@[simp] theorem State.setStream_time (s : State) (i : StreamId) (x : StreamState) : (s.setStream i x).time = s.time := rfl
@[simp] theorem State.setStream_resetN (s : State) (i : StreamId) (x : StreamState) : (s.setStream i x).resetN = s.resetN := rfl
@[simp] theorem State.setStream_mcsN (s : State) (i : StreamId) (x : StreamState) : (s.setStream i x).mcsN = s.mcsN := rfl
@[simp] theorem State.setStream_apsel (s : State) (i : StreamId) (x : StreamState) : (s.setStream i x).apsel = s.apsel := rfl
@[simp] theorem State.setStream_cfgsel (s : State) (i : StreamId) (x : StreamState) : (s.setStream i x).cfgsel = s.cfgsel := rfl
@[simp] theorem State.setStream_device (s : State) (i : StreamId) (x : StreamState) : (s.setStream i x).device = s.device := rfl
@[simp] theorem State.setStream_reloadInProgress (s : State) (i : StreamId) (x : StreamState) : (s.setStream i x).reloadInProgress = s.reloadInProgress := rfl
@[simp] theorem State.setStream_softResetPending (s : State) (i : StreamId) (x : StreamState) : (s.setStream i x).softResetPending = s.softResetPending := rfl
@[simp] theorem State.setStream_lastReload (s : State) (i : StreamId) (x : StreamState) : (s.setStream i x).lastReload = s.lastReload := rfl
@[simp] theorem State.setStream_waitSet (s : State) (i : StreamId) (x : StreamState) : (s.setStream i x).waitSet = s.waitSet := rfl
@[simp] theorem State.setStream_jobs (s : State) (i : StreamId) (x : StreamState) : (s.setStream i x).jobs = s.jobs := rfl
@[simp] theorem State.setStream_bursts (s : State) (i : StreamId) (x : StreamState) : (s.setStream i x).bursts = s.bursts := rfl
@[simp] theorem State.setStream_table (s : State) (i : StreamId) (x : StreamState) : (s.setStream i x).table = s.table := rfl
@[simp] theorem State.setStream_starvation (s : State) (i : StreamId) (x : StreamState) : (s.setStream i x).starvation = s.starvation := rfl
@[simp] theorem State.setStream_load (s : State) (i : StreamId) (x : StreamState) : (s.setStream i x).load = s.load := rfl
@[simp] theorem State.setStream_generation (s : State) (i : StreamId) (x : StreamState) : (s.setStream i x).generation = s.generation := rfl
@[simp] theorem State.setStream_copyIndex (s : State) (i : StreamId) (x : StreamState) : (s.setStream i x).copyIndex = s.copyIndex := rfl
@[simp] theorem State.setStream_fault (s : State) (i : StreamId) (x : StreamState) : (s.setStream i x).fault = s.fault := rfl
@[simp] theorem State.setStream_orders (s : State) (i : StreamId) (x : StreamState) : (s.setStream i x).orders = s.orders := rfl
@[simp] theorem State.setStream_deviceFlags (s : State) (i : StreamId) (x : StreamState) : (s.setStream i x).deviceFlags = s.deviceFlags := rfl
@[simp] theorem State.setStream_link (s : State) (i : StreamId) (x : StreamState) : (s.setStream i x).link = s.link := rfl
@[simp] theorem State.setStream_ports (s : State) (i : StreamId) (x : StreamState) : (s.setStream i x).ports = s.ports := rfl
@[simp] theorem State.setStream_choice (s : State) (i : StreamId) (x : StreamState) : (s.setStream i x).choice = s.choice := rfl
@[simp] theorem State.setStream_pending (s : State) (i : StreamId) (x : StreamState) : (s.setStream i x).pending = s.pending := rfl
@[simp] theorem State.setStream_order (s : State) (i : StreamId) (x : StreamState) (id : Initiator) : (s.setStream i x).order id = s.order id := rfl

@[simp] theorem State.onStream_time (s : State) (i : StreamId) (f : StreamState → StreamState) : (s.onStream i f).time = s.time := rfl
@[simp] theorem State.onStream_resetN (s : State) (i : StreamId) (f : StreamState → StreamState) : (s.onStream i f).resetN = s.resetN := rfl
@[simp] theorem State.onStream_mcsN (s : State) (i : StreamId) (f : StreamState → StreamState) : (s.onStream i f).mcsN = s.mcsN := rfl
@[simp] theorem State.onStream_apsel (s : State) (i : StreamId) (f : StreamState → StreamState) : (s.onStream i f).apsel = s.apsel := rfl
@[simp] theorem State.onStream_cfgsel (s : State) (i : StreamId) (f : StreamState → StreamState) : (s.onStream i f).cfgsel = s.cfgsel := rfl
@[simp] theorem State.onStream_device (s : State) (i : StreamId) (f : StreamState → StreamState) : (s.onStream i f).device = s.device := rfl
@[simp] theorem State.onStream_reloadInProgress (s : State) (i : StreamId) (f : StreamState → StreamState) : (s.onStream i f).reloadInProgress = s.reloadInProgress := rfl
@[simp] theorem State.onStream_softResetPending (s : State) (i : StreamId) (f : StreamState → StreamState) : (s.onStream i f).softResetPending = s.softResetPending := rfl
@[simp] theorem State.onStream_lastReload (s : State) (i : StreamId) (f : StreamState → StreamState) : (s.onStream i f).lastReload = s.lastReload := rfl
@[simp] theorem State.onStream_waitSet (s : State) (i : StreamId) (f : StreamState → StreamState) : (s.onStream i f).waitSet = s.waitSet := rfl
@[simp] theorem State.onStream_jobs (s : State) (i : StreamId) (f : StreamState → StreamState) : (s.onStream i f).jobs = s.jobs := rfl
@[simp] theorem State.onStream_bursts (s : State) (i : StreamId) (f : StreamState → StreamState) : (s.onStream i f).bursts = s.bursts := rfl
@[simp] theorem State.onStream_table (s : State) (i : StreamId) (f : StreamState → StreamState) : (s.onStream i f).table = s.table := rfl
@[simp] theorem State.onStream_starvation (s : State) (i : StreamId) (f : StreamState → StreamState) : (s.onStream i f).starvation = s.starvation := rfl
@[simp] theorem State.onStream_load (s : State) (i : StreamId) (f : StreamState → StreamState) : (s.onStream i f).load = s.load := rfl
@[simp] theorem State.onStream_generation (s : State) (i : StreamId) (f : StreamState → StreamState) : (s.onStream i f).generation = s.generation := rfl
@[simp] theorem State.onStream_copyIndex (s : State) (i : StreamId) (f : StreamState → StreamState) : (s.onStream i f).copyIndex = s.copyIndex := rfl
@[simp] theorem State.onStream_fault (s : State) (i : StreamId) (f : StreamState → StreamState) : (s.onStream i f).fault = s.fault := rfl
@[simp] theorem State.onStream_orders (s : State) (i : StreamId) (f : StreamState → StreamState) : (s.onStream i f).orders = s.orders := rfl
@[simp] theorem State.onStream_deviceFlags (s : State) (i : StreamId) (f : StreamState → StreamState) : (s.onStream i f).deviceFlags = s.deviceFlags := rfl
@[simp] theorem State.onStream_link (s : State) (i : StreamId) (f : StreamState → StreamState) : (s.onStream i f).link = s.link := rfl
@[simp] theorem State.onStream_ports (s : State) (i : StreamId) (f : StreamState → StreamState) : (s.onStream i f).ports = s.ports := rfl
@[simp] theorem State.onStream_choice (s : State) (i : StreamId) (f : StreamState → StreamState) : (s.onStream i f).choice = s.choice := rfl
@[simp] theorem State.onStream_pending (s : State) (i : StreamId) (f : StreamState → StreamState) : (s.onStream i f).pending = s.pending := rfl
@[simp] theorem State.onStream_order (s : State) (i : StreamId) (f : StreamState → StreamState) (id : Initiator) : (s.onStream i f).order id = s.order id := rfl

@[simp] theorem State.raiseDevice_time (s : State) (e : DeviceEvent) : (s.raiseDevice e).time = s.time := rfl
@[simp] theorem State.raiseDevice_resetN (s : State) (e : DeviceEvent) : (s.raiseDevice e).resetN = s.resetN := rfl
@[simp] theorem State.raiseDevice_mcsN (s : State) (e : DeviceEvent) : (s.raiseDevice e).mcsN = s.mcsN := rfl
@[simp] theorem State.raiseDevice_apsel (s : State) (e : DeviceEvent) : (s.raiseDevice e).apsel = s.apsel := rfl
@[simp] theorem State.raiseDevice_cfgsel (s : State) (e : DeviceEvent) : (s.raiseDevice e).cfgsel = s.cfgsel := rfl
@[simp] theorem State.raiseDevice_device (s : State) (e : DeviceEvent) : (s.raiseDevice e).device = s.device := rfl
@[simp] theorem State.raiseDevice_reloadInProgress (s : State) (e : DeviceEvent) : (s.raiseDevice e).reloadInProgress = s.reloadInProgress := rfl
@[simp] theorem State.raiseDevice_softResetPending (s : State) (e : DeviceEvent) : (s.raiseDevice e).softResetPending = s.softResetPending := rfl
@[simp] theorem State.raiseDevice_lastReload (s : State) (e : DeviceEvent) : (s.raiseDevice e).lastReload = s.lastReload := rfl
@[simp] theorem State.raiseDevice_waitSet (s : State) (e : DeviceEvent) : (s.raiseDevice e).waitSet = s.waitSet := rfl
@[simp] theorem State.raiseDevice_streams (s : State) (e : DeviceEvent) : (s.raiseDevice e).streams = s.streams := rfl
@[simp] theorem State.raiseDevice_jobs (s : State) (e : DeviceEvent) : (s.raiseDevice e).jobs = s.jobs := rfl
@[simp] theorem State.raiseDevice_bursts (s : State) (e : DeviceEvent) : (s.raiseDevice e).bursts = s.bursts := rfl
@[simp] theorem State.raiseDevice_table (s : State) (e : DeviceEvent) : (s.raiseDevice e).table = s.table := rfl
@[simp] theorem State.raiseDevice_starvation (s : State) (e : DeviceEvent) : (s.raiseDevice e).starvation = s.starvation := rfl
@[simp] theorem State.raiseDevice_load (s : State) (e : DeviceEvent) : (s.raiseDevice e).load = s.load := rfl
@[simp] theorem State.raiseDevice_generation (s : State) (e : DeviceEvent) : (s.raiseDevice e).generation = s.generation := rfl
@[simp] theorem State.raiseDevice_copyIndex (s : State) (e : DeviceEvent) : (s.raiseDevice e).copyIndex = s.copyIndex := rfl
@[simp] theorem State.raiseDevice_fault (s : State) (e : DeviceEvent) : (s.raiseDevice e).fault = s.fault := rfl
@[simp] theorem State.raiseDevice_orders (s : State) (e : DeviceEvent) : (s.raiseDevice e).orders = s.orders := rfl
@[simp] theorem State.raiseDevice_link (s : State) (e : DeviceEvent) : (s.raiseDevice e).link = s.link := rfl
@[simp] theorem State.raiseDevice_ports (s : State) (e : DeviceEvent) : (s.raiseDevice e).ports = s.ports := rfl
@[simp] theorem State.raiseDevice_choice (s : State) (e : DeviceEvent) : (s.raiseDevice e).choice = s.choice := rfl
@[simp] theorem State.raiseDevice_pending (s : State) (e : DeviceEvent) : (s.raiseDevice e).pending = s.pending := rfl
@[simp] theorem State.raiseDevice_stream (s : State) (e : DeviceEvent) (slot : StreamId) : (s.raiseDevice e).stream slot = s.stream slot := rfl
@[simp] theorem State.raiseDevice_order (s : State) (e : DeviceEvent) (id : Initiator) : (s.raiseDevice e).order id = s.order id := rfl

@[simp] theorem State.quietPorts_time (s : State)  : (s.quietPorts).time = s.time := rfl
@[simp] theorem State.quietPorts_resetN (s : State)  : (s.quietPorts).resetN = s.resetN := rfl
@[simp] theorem State.quietPorts_mcsN (s : State)  : (s.quietPorts).mcsN = s.mcsN := rfl
@[simp] theorem State.quietPorts_apsel (s : State)  : (s.quietPorts).apsel = s.apsel := rfl
@[simp] theorem State.quietPorts_cfgsel (s : State)  : (s.quietPorts).cfgsel = s.cfgsel := rfl
@[simp] theorem State.quietPorts_device (s : State)  : (s.quietPorts).device = s.device := rfl
@[simp] theorem State.quietPorts_reloadInProgress (s : State)  : (s.quietPorts).reloadInProgress = s.reloadInProgress := rfl
@[simp] theorem State.quietPorts_softResetPending (s : State)  : (s.quietPorts).softResetPending = s.softResetPending := rfl
@[simp] theorem State.quietPorts_lastReload (s : State)  : (s.quietPorts).lastReload = s.lastReload := rfl
@[simp] theorem State.quietPorts_waitSet (s : State)  : (s.quietPorts).waitSet = s.waitSet := rfl
@[simp] theorem State.quietPorts_streams (s : State)  : (s.quietPorts).streams = s.streams := rfl
@[simp] theorem State.quietPorts_jobs (s : State)  : (s.quietPorts).jobs = s.jobs := rfl
@[simp] theorem State.quietPorts_bursts (s : State)  : (s.quietPorts).bursts = s.bursts := rfl
@[simp] theorem State.quietPorts_table (s : State)  : (s.quietPorts).table = s.table := rfl
@[simp] theorem State.quietPorts_starvation (s : State)  : (s.quietPorts).starvation = s.starvation := rfl
@[simp] theorem State.quietPorts_load (s : State)  : (s.quietPorts).load = s.load := rfl
@[simp] theorem State.quietPorts_generation (s : State)  : (s.quietPorts).generation = s.generation := rfl
@[simp] theorem State.quietPorts_copyIndex (s : State)  : (s.quietPorts).copyIndex = s.copyIndex := rfl
@[simp] theorem State.quietPorts_fault (s : State)  : (s.quietPorts).fault = s.fault := rfl
@[simp] theorem State.quietPorts_orders (s : State)  : (s.quietPorts).orders = s.orders := rfl
@[simp] theorem State.quietPorts_deviceFlags (s : State)  : (s.quietPorts).deviceFlags = s.deviceFlags := rfl
@[simp] theorem State.quietPorts_link (s : State)  : (s.quietPorts).link = s.link := rfl
@[simp] theorem State.quietPorts_choice (s : State)  : (s.quietPorts).choice = s.choice := rfl
@[simp] theorem State.quietPorts_pending (s : State)  : (s.quietPorts).pending = s.pending := rfl
@[simp] theorem State.quietPorts_stream (s : State)  (slot : StreamId) : (s.quietPorts).stream slot = s.stream slot := rfl
@[simp] theorem State.quietPorts_order (s : State)  (id : Initiator) : (s.quietPorts).order id = s.order id := rfl

@[simp] theorem State.setOrder_time (s : State) (i : Initiator) (l : List OrderEntry) : (s.setOrder i l).time = s.time := rfl
@[simp] theorem State.setOrder_resetN (s : State) (i : Initiator) (l : List OrderEntry) : (s.setOrder i l).resetN = s.resetN := rfl
@[simp] theorem State.setOrder_mcsN (s : State) (i : Initiator) (l : List OrderEntry) : (s.setOrder i l).mcsN = s.mcsN := rfl
@[simp] theorem State.setOrder_apsel (s : State) (i : Initiator) (l : List OrderEntry) : (s.setOrder i l).apsel = s.apsel := rfl
@[simp] theorem State.setOrder_cfgsel (s : State) (i : Initiator) (l : List OrderEntry) : (s.setOrder i l).cfgsel = s.cfgsel := rfl
@[simp] theorem State.setOrder_device (s : State) (i : Initiator) (l : List OrderEntry) : (s.setOrder i l).device = s.device := rfl
@[simp] theorem State.setOrder_reloadInProgress (s : State) (i : Initiator) (l : List OrderEntry) : (s.setOrder i l).reloadInProgress = s.reloadInProgress := rfl
@[simp] theorem State.setOrder_softResetPending (s : State) (i : Initiator) (l : List OrderEntry) : (s.setOrder i l).softResetPending = s.softResetPending := rfl
@[simp] theorem State.setOrder_lastReload (s : State) (i : Initiator) (l : List OrderEntry) : (s.setOrder i l).lastReload = s.lastReload := rfl
@[simp] theorem State.setOrder_waitSet (s : State) (i : Initiator) (l : List OrderEntry) : (s.setOrder i l).waitSet = s.waitSet := rfl
@[simp] theorem State.setOrder_streams (s : State) (i : Initiator) (l : List OrderEntry) : (s.setOrder i l).streams = s.streams := rfl
@[simp] theorem State.setOrder_jobs (s : State) (i : Initiator) (l : List OrderEntry) : (s.setOrder i l).jobs = s.jobs := rfl
@[simp] theorem State.setOrder_bursts (s : State) (i : Initiator) (l : List OrderEntry) : (s.setOrder i l).bursts = s.bursts := rfl
@[simp] theorem State.setOrder_table (s : State) (i : Initiator) (l : List OrderEntry) : (s.setOrder i l).table = s.table := rfl
@[simp] theorem State.setOrder_starvation (s : State) (i : Initiator) (l : List OrderEntry) : (s.setOrder i l).starvation = s.starvation := rfl
@[simp] theorem State.setOrder_load (s : State) (i : Initiator) (l : List OrderEntry) : (s.setOrder i l).load = s.load := rfl
@[simp] theorem State.setOrder_generation (s : State) (i : Initiator) (l : List OrderEntry) : (s.setOrder i l).generation = s.generation := rfl
@[simp] theorem State.setOrder_copyIndex (s : State) (i : Initiator) (l : List OrderEntry) : (s.setOrder i l).copyIndex = s.copyIndex := rfl
@[simp] theorem State.setOrder_fault (s : State) (i : Initiator) (l : List OrderEntry) : (s.setOrder i l).fault = s.fault := rfl
@[simp] theorem State.setOrder_deviceFlags (s : State) (i : Initiator) (l : List OrderEntry) : (s.setOrder i l).deviceFlags = s.deviceFlags := rfl
@[simp] theorem State.setOrder_link (s : State) (i : Initiator) (l : List OrderEntry) : (s.setOrder i l).link = s.link := rfl
@[simp] theorem State.setOrder_ports (s : State) (i : Initiator) (l : List OrderEntry) : (s.setOrder i l).ports = s.ports := rfl
@[simp] theorem State.setOrder_choice (s : State) (i : Initiator) (l : List OrderEntry) : (s.setOrder i l).choice = s.choice := rfl
@[simp] theorem State.setOrder_pending (s : State) (i : Initiator) (l : List OrderEntry) : (s.setOrder i l).pending = s.pending := rfl
@[simp] theorem State.setOrder_stream (s : State) (i : Initiator) (l : List OrderEntry) (slot : StreamId) : (s.setOrder i l).stream slot = s.stream slot := rfl

@[simp] theorem State.joinOrder_time (s : State) (t : Txn) (o : OrderState) : (s.joinOrder t o).time = s.time := rfl
@[simp] theorem State.joinOrder_resetN (s : State) (t : Txn) (o : OrderState) : (s.joinOrder t o).resetN = s.resetN := rfl
@[simp] theorem State.joinOrder_mcsN (s : State) (t : Txn) (o : OrderState) : (s.joinOrder t o).mcsN = s.mcsN := rfl
@[simp] theorem State.joinOrder_apsel (s : State) (t : Txn) (o : OrderState) : (s.joinOrder t o).apsel = s.apsel := rfl
@[simp] theorem State.joinOrder_cfgsel (s : State) (t : Txn) (o : OrderState) : (s.joinOrder t o).cfgsel = s.cfgsel := rfl
@[simp] theorem State.joinOrder_device (s : State) (t : Txn) (o : OrderState) : (s.joinOrder t o).device = s.device := rfl
@[simp] theorem State.joinOrder_reloadInProgress (s : State) (t : Txn) (o : OrderState) : (s.joinOrder t o).reloadInProgress = s.reloadInProgress := rfl
@[simp] theorem State.joinOrder_softResetPending (s : State) (t : Txn) (o : OrderState) : (s.joinOrder t o).softResetPending = s.softResetPending := rfl
@[simp] theorem State.joinOrder_lastReload (s : State) (t : Txn) (o : OrderState) : (s.joinOrder t o).lastReload = s.lastReload := rfl
@[simp] theorem State.joinOrder_waitSet (s : State) (t : Txn) (o : OrderState) : (s.joinOrder t o).waitSet = s.waitSet := rfl
@[simp] theorem State.joinOrder_streams (s : State) (t : Txn) (o : OrderState) : (s.joinOrder t o).streams = s.streams := rfl
@[simp] theorem State.joinOrder_jobs (s : State) (t : Txn) (o : OrderState) : (s.joinOrder t o).jobs = s.jobs := rfl
@[simp] theorem State.joinOrder_bursts (s : State) (t : Txn) (o : OrderState) : (s.joinOrder t o).bursts = s.bursts := rfl
@[simp] theorem State.joinOrder_table (s : State) (t : Txn) (o : OrderState) : (s.joinOrder t o).table = s.table := rfl
@[simp] theorem State.joinOrder_starvation (s : State) (t : Txn) (o : OrderState) : (s.joinOrder t o).starvation = s.starvation := rfl
@[simp] theorem State.joinOrder_load (s : State) (t : Txn) (o : OrderState) : (s.joinOrder t o).load = s.load := rfl
@[simp] theorem State.joinOrder_generation (s : State) (t : Txn) (o : OrderState) : (s.joinOrder t o).generation = s.generation := rfl
@[simp] theorem State.joinOrder_copyIndex (s : State) (t : Txn) (o : OrderState) : (s.joinOrder t o).copyIndex = s.copyIndex := rfl
@[simp] theorem State.joinOrder_fault (s : State) (t : Txn) (o : OrderState) : (s.joinOrder t o).fault = s.fault := rfl
@[simp] theorem State.joinOrder_deviceFlags (s : State) (t : Txn) (o : OrderState) : (s.joinOrder t o).deviceFlags = s.deviceFlags := rfl
@[simp] theorem State.joinOrder_link (s : State) (t : Txn) (o : OrderState) : (s.joinOrder t o).link = s.link := rfl
@[simp] theorem State.joinOrder_ports (s : State) (t : Txn) (o : OrderState) : (s.joinOrder t o).ports = s.ports := rfl
@[simp] theorem State.joinOrder_choice (s : State) (t : Txn) (o : OrderState) : (s.joinOrder t o).choice = s.choice := rfl
@[simp] theorem State.joinOrder_pending (s : State) (t : Txn) (o : OrderState) : (s.joinOrder t o).pending = s.pending := rfl
@[simp] theorem State.joinOrder_stream (s : State) (t : Txn) (o : OrderState) (slot : StreamId) : (s.joinOrder t o).stream slot = s.stream slot := rfl

@[simp] theorem State.leaveReady_time (s : State) (i : Initiator) : (s.leaveReady i).time = s.time := rfl
@[simp] theorem State.leaveReady_resetN (s : State) (i : Initiator) : (s.leaveReady i).resetN = s.resetN := rfl
@[simp] theorem State.leaveReady_mcsN (s : State) (i : Initiator) : (s.leaveReady i).mcsN = s.mcsN := rfl
@[simp] theorem State.leaveReady_apsel (s : State) (i : Initiator) : (s.leaveReady i).apsel = s.apsel := rfl
@[simp] theorem State.leaveReady_cfgsel (s : State) (i : Initiator) : (s.leaveReady i).cfgsel = s.cfgsel := rfl
@[simp] theorem State.leaveReady_device (s : State) (i : Initiator) : (s.leaveReady i).device = s.device := rfl
@[simp] theorem State.leaveReady_reloadInProgress (s : State) (i : Initiator) : (s.leaveReady i).reloadInProgress = s.reloadInProgress := rfl
@[simp] theorem State.leaveReady_softResetPending (s : State) (i : Initiator) : (s.leaveReady i).softResetPending = s.softResetPending := rfl
@[simp] theorem State.leaveReady_lastReload (s : State) (i : Initiator) : (s.leaveReady i).lastReload = s.lastReload := rfl
@[simp] theorem State.leaveReady_waitSet (s : State) (i : Initiator) : (s.leaveReady i).waitSet = s.waitSet := rfl
@[simp] theorem State.leaveReady_streams (s : State) (i : Initiator) : (s.leaveReady i).streams = s.streams := rfl
@[simp] theorem State.leaveReady_jobs (s : State) (i : Initiator) : (s.leaveReady i).jobs = s.jobs := rfl
@[simp] theorem State.leaveReady_bursts (s : State) (i : Initiator) : (s.leaveReady i).bursts = s.bursts := rfl
@[simp] theorem State.leaveReady_table (s : State) (i : Initiator) : (s.leaveReady i).table = s.table := rfl
@[simp] theorem State.leaveReady_starvation (s : State) (i : Initiator) : (s.leaveReady i).starvation = s.starvation := rfl
@[simp] theorem State.leaveReady_load (s : State) (i : Initiator) : (s.leaveReady i).load = s.load := rfl
@[simp] theorem State.leaveReady_generation (s : State) (i : Initiator) : (s.leaveReady i).generation = s.generation := rfl
@[simp] theorem State.leaveReady_copyIndex (s : State) (i : Initiator) : (s.leaveReady i).copyIndex = s.copyIndex := rfl
@[simp] theorem State.leaveReady_fault (s : State) (i : Initiator) : (s.leaveReady i).fault = s.fault := rfl
@[simp] theorem State.leaveReady_deviceFlags (s : State) (i : Initiator) : (s.leaveReady i).deviceFlags = s.deviceFlags := rfl
@[simp] theorem State.leaveReady_link (s : State) (i : Initiator) : (s.leaveReady i).link = s.link := rfl
@[simp] theorem State.leaveReady_choice (s : State) (i : Initiator) : (s.leaveReady i).choice = s.choice := rfl
@[simp] theorem State.leaveReady_pending (s : State) (i : Initiator) : (s.leaveReady i).pending = s.pending := rfl
@[simp] theorem State.leaveReady_stream (s : State) (i : Initiator) (slot : StreamId) : (s.leaveReady i).stream slot = s.stream slot := rfl

@[simp] theorem State.answer_time (s : State) (t : Txn) (status : Status) (data : List Byte) : (s.answer t status data).time = s.time := rfl
@[simp] theorem State.answer_resetN (s : State) (t : Txn) (status : Status) (data : List Byte) : (s.answer t status data).resetN = s.resetN := rfl
@[simp] theorem State.answer_mcsN (s : State) (t : Txn) (status : Status) (data : List Byte) : (s.answer t status data).mcsN = s.mcsN := rfl
@[simp] theorem State.answer_apsel (s : State) (t : Txn) (status : Status) (data : List Byte) : (s.answer t status data).apsel = s.apsel := rfl
@[simp] theorem State.answer_cfgsel (s : State) (t : Txn) (status : Status) (data : List Byte) : (s.answer t status data).cfgsel = s.cfgsel := rfl
@[simp] theorem State.answer_device (s : State) (t : Txn) (status : Status) (data : List Byte) : (s.answer t status data).device = s.device := rfl
@[simp] theorem State.answer_reloadInProgress (s : State) (t : Txn) (status : Status) (data : List Byte) : (s.answer t status data).reloadInProgress = s.reloadInProgress := rfl
@[simp] theorem State.answer_softResetPending (s : State) (t : Txn) (status : Status) (data : List Byte) : (s.answer t status data).softResetPending = s.softResetPending := rfl
@[simp] theorem State.answer_lastReload (s : State) (t : Txn) (status : Status) (data : List Byte) : (s.answer t status data).lastReload = s.lastReload := rfl
@[simp] theorem State.answer_waitSet (s : State) (t : Txn) (status : Status) (data : List Byte) : (s.answer t status data).waitSet = s.waitSet := rfl
@[simp] theorem State.answer_streams (s : State) (t : Txn) (status : Status) (data : List Byte) : (s.answer t status data).streams = s.streams := rfl
@[simp] theorem State.answer_jobs (s : State) (t : Txn) (status : Status) (data : List Byte) : (s.answer t status data).jobs = s.jobs := rfl
@[simp] theorem State.answer_bursts (s : State) (t : Txn) (status : Status) (data : List Byte) : (s.answer t status data).bursts = s.bursts := rfl
@[simp] theorem State.answer_table (s : State) (t : Txn) (status : Status) (data : List Byte) : (s.answer t status data).table = s.table := rfl
@[simp] theorem State.answer_starvation (s : State) (t : Txn) (status : Status) (data : List Byte) : (s.answer t status data).starvation = s.starvation := rfl
@[simp] theorem State.answer_load (s : State) (t : Txn) (status : Status) (data : List Byte) : (s.answer t status data).load = s.load := rfl
@[simp] theorem State.answer_generation (s : State) (t : Txn) (status : Status) (data : List Byte) : (s.answer t status data).generation = s.generation := rfl
@[simp] theorem State.answer_copyIndex (s : State) (t : Txn) (status : Status) (data : List Byte) : (s.answer t status data).copyIndex = s.copyIndex := rfl
@[simp] theorem State.answer_fault (s : State) (t : Txn) (status : Status) (data : List Byte) : (s.answer t status data).fault = s.fault := rfl
@[simp] theorem State.answer_deviceFlags (s : State) (t : Txn) (status : Status) (data : List Byte) : (s.answer t status data).deviceFlags = s.deviceFlags := rfl
@[simp] theorem State.answer_link (s : State) (t : Txn) (status : Status) (data : List Byte) : (s.answer t status data).link = s.link := rfl
@[simp] theorem State.answer_choice (s : State) (t : Txn) (status : Status) (data : List Byte) : (s.answer t status data).choice = s.choice := rfl
@[simp] theorem State.answer_pending (s : State) (t : Txn) (status : Status) (data : List Byte) : (s.answer t status data).pending = s.pending := rfl
@[simp] theorem State.answer_stream (s : State) (t : Txn) (status : Status) (data : List Byte) (slot : StreamId) : (s.answer t status data).stream slot = s.stream slot := rfl

@[simp] theorem State.acknowledge_time (s : State) (t : Txn) : (s.acknowledge t).time = s.time := rfl
@[simp] theorem State.acknowledge_resetN (s : State) (t : Txn) : (s.acknowledge t).resetN = s.resetN := rfl
@[simp] theorem State.acknowledge_mcsN (s : State) (t : Txn) : (s.acknowledge t).mcsN = s.mcsN := rfl
@[simp] theorem State.acknowledge_apsel (s : State) (t : Txn) : (s.acknowledge t).apsel = s.apsel := rfl
@[simp] theorem State.acknowledge_cfgsel (s : State) (t : Txn) : (s.acknowledge t).cfgsel = s.cfgsel := rfl
@[simp] theorem State.acknowledge_device (s : State) (t : Txn) : (s.acknowledge t).device = s.device := rfl
@[simp] theorem State.acknowledge_reloadInProgress (s : State) (t : Txn) : (s.acknowledge t).reloadInProgress = s.reloadInProgress := rfl
@[simp] theorem State.acknowledge_softResetPending (s : State) (t : Txn) : (s.acknowledge t).softResetPending = s.softResetPending := rfl
@[simp] theorem State.acknowledge_lastReload (s : State) (t : Txn) : (s.acknowledge t).lastReload = s.lastReload := rfl
@[simp] theorem State.acknowledge_waitSet (s : State) (t : Txn) : (s.acknowledge t).waitSet = s.waitSet := rfl
@[simp] theorem State.acknowledge_streams (s : State) (t : Txn) : (s.acknowledge t).streams = s.streams := rfl
@[simp] theorem State.acknowledge_jobs (s : State) (t : Txn) : (s.acknowledge t).jobs = s.jobs := rfl
@[simp] theorem State.acknowledge_bursts (s : State) (t : Txn) : (s.acknowledge t).bursts = s.bursts := rfl
@[simp] theorem State.acknowledge_table (s : State) (t : Txn) : (s.acknowledge t).table = s.table := rfl
@[simp] theorem State.acknowledge_starvation (s : State) (t : Txn) : (s.acknowledge t).starvation = s.starvation := rfl
@[simp] theorem State.acknowledge_load (s : State) (t : Txn) : (s.acknowledge t).load = s.load := rfl
@[simp] theorem State.acknowledge_generation (s : State) (t : Txn) : (s.acknowledge t).generation = s.generation := rfl
@[simp] theorem State.acknowledge_copyIndex (s : State) (t : Txn) : (s.acknowledge t).copyIndex = s.copyIndex := rfl
@[simp] theorem State.acknowledge_fault (s : State) (t : Txn) : (s.acknowledge t).fault = s.fault := rfl
@[simp] theorem State.acknowledge_deviceFlags (s : State) (t : Txn) : (s.acknowledge t).deviceFlags = s.deviceFlags := rfl
@[simp] theorem State.acknowledge_link (s : State) (t : Txn) : (s.acknowledge t).link = s.link := rfl
@[simp] theorem State.acknowledge_choice (s : State) (t : Txn) : (s.acknowledge t).choice = s.choice := rfl
@[simp] theorem State.acknowledge_pending (s : State) (t : Txn) : (s.acknowledge t).pending = s.pending := rfl
@[simp] theorem State.acknowledge_stream (s : State) (t : Txn) (slot : StreamId) : (s.acknowledge t).stream slot = s.stream slot := rfl

@[simp] theorem State.answerFill_time (s : State) (t : Txn) (w : BitVec 32) : (s.answerFill t w).time = s.time := rfl
@[simp] theorem State.answerFill_resetN (s : State) (t : Txn) (w : BitVec 32) : (s.answerFill t w).resetN = s.resetN := rfl
@[simp] theorem State.answerFill_mcsN (s : State) (t : Txn) (w : BitVec 32) : (s.answerFill t w).mcsN = s.mcsN := rfl
@[simp] theorem State.answerFill_apsel (s : State) (t : Txn) (w : BitVec 32) : (s.answerFill t w).apsel = s.apsel := rfl
@[simp] theorem State.answerFill_cfgsel (s : State) (t : Txn) (w : BitVec 32) : (s.answerFill t w).cfgsel = s.cfgsel := rfl
@[simp] theorem State.answerFill_device (s : State) (t : Txn) (w : BitVec 32) : (s.answerFill t w).device = s.device := rfl
@[simp] theorem State.answerFill_reloadInProgress (s : State) (t : Txn) (w : BitVec 32) : (s.answerFill t w).reloadInProgress = s.reloadInProgress := rfl
@[simp] theorem State.answerFill_softResetPending (s : State) (t : Txn) (w : BitVec 32) : (s.answerFill t w).softResetPending = s.softResetPending := rfl
@[simp] theorem State.answerFill_lastReload (s : State) (t : Txn) (w : BitVec 32) : (s.answerFill t w).lastReload = s.lastReload := rfl
@[simp] theorem State.answerFill_waitSet (s : State) (t : Txn) (w : BitVec 32) : (s.answerFill t w).waitSet = s.waitSet := rfl
@[simp] theorem State.answerFill_streams (s : State) (t : Txn) (w : BitVec 32) : (s.answerFill t w).streams = s.streams := rfl
@[simp] theorem State.answerFill_jobs (s : State) (t : Txn) (w : BitVec 32) : (s.answerFill t w).jobs = s.jobs := rfl
@[simp] theorem State.answerFill_bursts (s : State) (t : Txn) (w : BitVec 32) : (s.answerFill t w).bursts = s.bursts := rfl
@[simp] theorem State.answerFill_table (s : State) (t : Txn) (w : BitVec 32) : (s.answerFill t w).table = s.table := rfl
@[simp] theorem State.answerFill_starvation (s : State) (t : Txn) (w : BitVec 32) : (s.answerFill t w).starvation = s.starvation := rfl
@[simp] theorem State.answerFill_load (s : State) (t : Txn) (w : BitVec 32) : (s.answerFill t w).load = s.load := rfl
@[simp] theorem State.answerFill_generation (s : State) (t : Txn) (w : BitVec 32) : (s.answerFill t w).generation = s.generation := rfl
@[simp] theorem State.answerFill_copyIndex (s : State) (t : Txn) (w : BitVec 32) : (s.answerFill t w).copyIndex = s.copyIndex := rfl
@[simp] theorem State.answerFill_fault (s : State) (t : Txn) (w : BitVec 32) : (s.answerFill t w).fault = s.fault := rfl
@[simp] theorem State.answerFill_deviceFlags (s : State) (t : Txn) (w : BitVec 32) : (s.answerFill t w).deviceFlags = s.deviceFlags := rfl
@[simp] theorem State.answerFill_link (s : State) (t : Txn) (w : BitVec 32) : (s.answerFill t w).link = s.link := rfl
@[simp] theorem State.answerFill_choice (s : State) (t : Txn) (w : BitVec 32) : (s.answerFill t w).choice = s.choice := rfl
@[simp] theorem State.answerFill_pending (s : State) (t : Txn) (w : BitVec 32) : (s.answerFill t w).pending = s.pending := rfl
@[simp] theorem State.answerFill_stream (s : State) (t : Txn) (w : BitVec 32) (slot : StreamId) : (s.answerFill t w).stream slot = s.stream slot := rfl

@[simp] theorem State.forward_time (s : State) (t : Txn) (k : EntryKind) (a : Address) : (s.forward t k a).time = s.time := rfl
@[simp] theorem State.forward_resetN (s : State) (t : Txn) (k : EntryKind) (a : Address) : (s.forward t k a).resetN = s.resetN := rfl
@[simp] theorem State.forward_mcsN (s : State) (t : Txn) (k : EntryKind) (a : Address) : (s.forward t k a).mcsN = s.mcsN := rfl
@[simp] theorem State.forward_apsel (s : State) (t : Txn) (k : EntryKind) (a : Address) : (s.forward t k a).apsel = s.apsel := rfl
@[simp] theorem State.forward_cfgsel (s : State) (t : Txn) (k : EntryKind) (a : Address) : (s.forward t k a).cfgsel = s.cfgsel := rfl
@[simp] theorem State.forward_device (s : State) (t : Txn) (k : EntryKind) (a : Address) : (s.forward t k a).device = s.device := rfl
@[simp] theorem State.forward_reloadInProgress (s : State) (t : Txn) (k : EntryKind) (a : Address) : (s.forward t k a).reloadInProgress = s.reloadInProgress := rfl
@[simp] theorem State.forward_softResetPending (s : State) (t : Txn) (k : EntryKind) (a : Address) : (s.forward t k a).softResetPending = s.softResetPending := rfl
@[simp] theorem State.forward_lastReload (s : State) (t : Txn) (k : EntryKind) (a : Address) : (s.forward t k a).lastReload = s.lastReload := rfl
@[simp] theorem State.forward_waitSet (s : State) (t : Txn) (k : EntryKind) (a : Address) : (s.forward t k a).waitSet = s.waitSet := rfl
@[simp] theorem State.forward_streams (s : State) (t : Txn) (k : EntryKind) (a : Address) : (s.forward t k a).streams = s.streams := rfl
@[simp] theorem State.forward_jobs (s : State) (t : Txn) (k : EntryKind) (a : Address) : (s.forward t k a).jobs = s.jobs := rfl
@[simp] theorem State.forward_bursts (s : State) (t : Txn) (k : EntryKind) (a : Address) : (s.forward t k a).bursts = s.bursts := rfl
@[simp] theorem State.forward_load (s : State) (t : Txn) (k : EntryKind) (a : Address) : (s.forward t k a).load = s.load := rfl
@[simp] theorem State.forward_generation (s : State) (t : Txn) (k : EntryKind) (a : Address) : (s.forward t k a).generation = s.generation := rfl
@[simp] theorem State.forward_copyIndex (s : State) (t : Txn) (k : EntryKind) (a : Address) : (s.forward t k a).copyIndex = s.copyIndex := rfl
@[simp] theorem State.forward_fault (s : State) (t : Txn) (k : EntryKind) (a : Address) : (s.forward t k a).fault = s.fault := rfl
@[simp] theorem State.forward_deviceFlags (s : State) (t : Txn) (k : EntryKind) (a : Address) : (s.forward t k a).deviceFlags = s.deviceFlags := rfl
@[simp] theorem State.forward_link (s : State) (t : Txn) (k : EntryKind) (a : Address) : (s.forward t k a).link = s.link := rfl
@[simp] theorem State.forward_choice (s : State) (t : Txn) (k : EntryKind) (a : Address) : (s.forward t k a).choice = s.choice := rfl
@[simp] theorem State.forward_pending (s : State) (t : Txn) (k : EntryKind) (a : Address) : (s.forward t k a).pending = s.pending := rfl
@[simp] theorem State.forward_stream (s : State) (t : Txn) (k : EntryKind) (a : Address) (slot : StreamId) : (s.forward t k a).stream slot = s.stream slot := rfl

@[simp] theorem State.fulfil_time (s : State) (i : Initiator) (n : Nat) (r : Response) : (s.fulfil i n r).time = s.time := rfl
@[simp] theorem State.fulfil_resetN (s : State) (i : Initiator) (n : Nat) (r : Response) : (s.fulfil i n r).resetN = s.resetN := rfl
@[simp] theorem State.fulfil_mcsN (s : State) (i : Initiator) (n : Nat) (r : Response) : (s.fulfil i n r).mcsN = s.mcsN := rfl
@[simp] theorem State.fulfil_apsel (s : State) (i : Initiator) (n : Nat) (r : Response) : (s.fulfil i n r).apsel = s.apsel := rfl
@[simp] theorem State.fulfil_cfgsel (s : State) (i : Initiator) (n : Nat) (r : Response) : (s.fulfil i n r).cfgsel = s.cfgsel := rfl
@[simp] theorem State.fulfil_device (s : State) (i : Initiator) (n : Nat) (r : Response) : (s.fulfil i n r).device = s.device := rfl
@[simp] theorem State.fulfil_reloadInProgress (s : State) (i : Initiator) (n : Nat) (r : Response) : (s.fulfil i n r).reloadInProgress = s.reloadInProgress := rfl
@[simp] theorem State.fulfil_softResetPending (s : State) (i : Initiator) (n : Nat) (r : Response) : (s.fulfil i n r).softResetPending = s.softResetPending := rfl
@[simp] theorem State.fulfil_lastReload (s : State) (i : Initiator) (n : Nat) (r : Response) : (s.fulfil i n r).lastReload = s.lastReload := rfl
@[simp] theorem State.fulfil_waitSet (s : State) (i : Initiator) (n : Nat) (r : Response) : (s.fulfil i n r).waitSet = s.waitSet := rfl
@[simp] theorem State.fulfil_streams (s : State) (i : Initiator) (n : Nat) (r : Response) : (s.fulfil i n r).streams = s.streams := rfl
@[simp] theorem State.fulfil_jobs (s : State) (i : Initiator) (n : Nat) (r : Response) : (s.fulfil i n r).jobs = s.jobs := rfl
@[simp] theorem State.fulfil_bursts (s : State) (i : Initiator) (n : Nat) (r : Response) : (s.fulfil i n r).bursts = s.bursts := rfl
@[simp] theorem State.fulfil_table (s : State) (i : Initiator) (n : Nat) (r : Response) : (s.fulfil i n r).table = s.table := rfl
@[simp] theorem State.fulfil_starvation (s : State) (i : Initiator) (n : Nat) (r : Response) : (s.fulfil i n r).starvation = s.starvation := rfl
@[simp] theorem State.fulfil_load (s : State) (i : Initiator) (n : Nat) (r : Response) : (s.fulfil i n r).load = s.load := rfl
@[simp] theorem State.fulfil_generation (s : State) (i : Initiator) (n : Nat) (r : Response) : (s.fulfil i n r).generation = s.generation := rfl
@[simp] theorem State.fulfil_copyIndex (s : State) (i : Initiator) (n : Nat) (r : Response) : (s.fulfil i n r).copyIndex = s.copyIndex := rfl
@[simp] theorem State.fulfil_fault (s : State) (i : Initiator) (n : Nat) (r : Response) : (s.fulfil i n r).fault = s.fault := rfl
@[simp] theorem State.fulfil_deviceFlags (s : State) (i : Initiator) (n : Nat) (r : Response) : (s.fulfil i n r).deviceFlags = s.deviceFlags := rfl
@[simp] theorem State.fulfil_link (s : State) (i : Initiator) (n : Nat) (r : Response) : (s.fulfil i n r).link = s.link := rfl
@[simp] theorem State.fulfil_choice (s : State) (i : Initiator) (n : Nat) (r : Response) : (s.fulfil i n r).choice = s.choice := rfl
@[simp] theorem State.fulfil_pending (s : State) (i : Initiator) (n : Nat) (r : Response) : (s.fulfil i n r).pending = s.pending := rfl
@[simp] theorem State.fulfil_stream (s : State) (i : Initiator) (n : Nat) (r : Response) (slot : StreamId) : (s.fulfil i n r).stream slot = s.stream slot := rfl

@[simp] theorem State.issue_time (s : State) (k : EntryKind) (t : DsTxn) : (s.issue k t).time = s.time := rfl
@[simp] theorem State.issue_resetN (s : State) (k : EntryKind) (t : DsTxn) : (s.issue k t).resetN = s.resetN := rfl
@[simp] theorem State.issue_mcsN (s : State) (k : EntryKind) (t : DsTxn) : (s.issue k t).mcsN = s.mcsN := rfl
@[simp] theorem State.issue_apsel (s : State) (k : EntryKind) (t : DsTxn) : (s.issue k t).apsel = s.apsel := rfl
@[simp] theorem State.issue_cfgsel (s : State) (k : EntryKind) (t : DsTxn) : (s.issue k t).cfgsel = s.cfgsel := rfl
@[simp] theorem State.issue_device (s : State) (k : EntryKind) (t : DsTxn) : (s.issue k t).device = s.device := rfl
@[simp] theorem State.issue_reloadInProgress (s : State) (k : EntryKind) (t : DsTxn) : (s.issue k t).reloadInProgress = s.reloadInProgress := rfl
@[simp] theorem State.issue_softResetPending (s : State) (k : EntryKind) (t : DsTxn) : (s.issue k t).softResetPending = s.softResetPending := rfl
@[simp] theorem State.issue_lastReload (s : State) (k : EntryKind) (t : DsTxn) : (s.issue k t).lastReload = s.lastReload := rfl
@[simp] theorem State.issue_waitSet (s : State) (k : EntryKind) (t : DsTxn) : (s.issue k t).waitSet = s.waitSet := rfl
@[simp] theorem State.issue_streams (s : State) (k : EntryKind) (t : DsTxn) : (s.issue k t).streams = s.streams := rfl
@[simp] theorem State.issue_jobs (s : State) (k : EntryKind) (t : DsTxn) : (s.issue k t).jobs = s.jobs := rfl
@[simp] theorem State.issue_bursts (s : State) (k : EntryKind) (t : DsTxn) : (s.issue k t).bursts = s.bursts := rfl
@[simp] theorem State.issue_starvation (s : State) (k : EntryKind) (t : DsTxn) : (s.issue k t).starvation = s.starvation := rfl
@[simp] theorem State.issue_load (s : State) (k : EntryKind) (t : DsTxn) : (s.issue k t).load = s.load := rfl
@[simp] theorem State.issue_generation (s : State) (k : EntryKind) (t : DsTxn) : (s.issue k t).generation = s.generation := rfl
@[simp] theorem State.issue_copyIndex (s : State) (k : EntryKind) (t : DsTxn) : (s.issue k t).copyIndex = s.copyIndex := rfl
@[simp] theorem State.issue_fault (s : State) (k : EntryKind) (t : DsTxn) : (s.issue k t).fault = s.fault := rfl
@[simp] theorem State.issue_orders (s : State) (k : EntryKind) (t : DsTxn) : (s.issue k t).orders = s.orders := rfl
@[simp] theorem State.issue_deviceFlags (s : State) (k : EntryKind) (t : DsTxn) : (s.issue k t).deviceFlags = s.deviceFlags := rfl
@[simp] theorem State.issue_link (s : State) (k : EntryKind) (t : DsTxn) : (s.issue k t).link = s.link := rfl
@[simp] theorem State.issue_choice (s : State) (k : EntryKind) (t : DsTxn) : (s.issue k t).choice = s.choice := rfl
@[simp] theorem State.issue_pending (s : State) (k : EntryKind) (t : DsTxn) : (s.issue k t).pending = s.pending := rfl
@[simp] theorem State.issue_stream (s : State) (k : EntryKind) (t : DsTxn) (slot : StreamId) : (s.issue k t).stream slot = s.stream slot := rfl
@[simp] theorem State.issue_order (s : State) (k : EntryKind) (t : DsTxn) (id : Initiator) : (s.issue k t).order id = s.order id := rfl

@[simp] theorem State.freeEntry_time (s : State) (e : Entry) : (s.freeEntry e).time = s.time := rfl
@[simp] theorem State.freeEntry_resetN (s : State) (e : Entry) : (s.freeEntry e).resetN = s.resetN := rfl
@[simp] theorem State.freeEntry_mcsN (s : State) (e : Entry) : (s.freeEntry e).mcsN = s.mcsN := rfl
@[simp] theorem State.freeEntry_apsel (s : State) (e : Entry) : (s.freeEntry e).apsel = s.apsel := rfl
@[simp] theorem State.freeEntry_cfgsel (s : State) (e : Entry) : (s.freeEntry e).cfgsel = s.cfgsel := rfl
@[simp] theorem State.freeEntry_device (s : State) (e : Entry) : (s.freeEntry e).device = s.device := rfl
@[simp] theorem State.freeEntry_reloadInProgress (s : State) (e : Entry) : (s.freeEntry e).reloadInProgress = s.reloadInProgress := rfl
@[simp] theorem State.freeEntry_softResetPending (s : State) (e : Entry) : (s.freeEntry e).softResetPending = s.softResetPending := rfl
@[simp] theorem State.freeEntry_lastReload (s : State) (e : Entry) : (s.freeEntry e).lastReload = s.lastReload := rfl
@[simp] theorem State.freeEntry_waitSet (s : State) (e : Entry) : (s.freeEntry e).waitSet = s.waitSet := rfl
@[simp] theorem State.freeEntry_streams (s : State) (e : Entry) : (s.freeEntry e).streams = s.streams := rfl
@[simp] theorem State.freeEntry_jobs (s : State) (e : Entry) : (s.freeEntry e).jobs = s.jobs := rfl
@[simp] theorem State.freeEntry_bursts (s : State) (e : Entry) : (s.freeEntry e).bursts = s.bursts := rfl
@[simp] theorem State.freeEntry_starvation (s : State) (e : Entry) : (s.freeEntry e).starvation = s.starvation := rfl
@[simp] theorem State.freeEntry_load (s : State) (e : Entry) : (s.freeEntry e).load = s.load := rfl
@[simp] theorem State.freeEntry_generation (s : State) (e : Entry) : (s.freeEntry e).generation = s.generation := rfl
@[simp] theorem State.freeEntry_copyIndex (s : State) (e : Entry) : (s.freeEntry e).copyIndex = s.copyIndex := rfl
@[simp] theorem State.freeEntry_fault (s : State) (e : Entry) : (s.freeEntry e).fault = s.fault := rfl
@[simp] theorem State.freeEntry_orders (s : State) (e : Entry) : (s.freeEntry e).orders = s.orders := rfl
@[simp] theorem State.freeEntry_deviceFlags (s : State) (e : Entry) : (s.freeEntry e).deviceFlags = s.deviceFlags := rfl
@[simp] theorem State.freeEntry_link (s : State) (e : Entry) : (s.freeEntry e).link = s.link := rfl
@[simp] theorem State.freeEntry_ports (s : State) (e : Entry) : (s.freeEntry e).ports = s.ports := rfl
@[simp] theorem State.freeEntry_choice (s : State) (e : Entry) : (s.freeEntry e).choice = s.choice := rfl
@[simp] theorem State.freeEntry_pending (s : State) (e : Entry) : (s.freeEntry e).pending = s.pending := rfl
@[simp] theorem State.freeEntry_stream (s : State) (e : Entry) (slot : StreamId) : (s.freeEntry e).stream slot = s.stream slot := rfl
@[simp] theorem State.freeEntry_order (s : State) (e : Entry) (id : Initiator) : (s.freeEntry e).order id = s.order id := rfl

@[simp] theorem State.respond_time (s : State) (status : LinkStatus) (data : List Byte) : (s.respond status data).time = s.time := rfl
@[simp] theorem State.respond_resetN (s : State) (status : LinkStatus) (data : List Byte) : (s.respond status data).resetN = s.resetN := rfl
@[simp] theorem State.respond_mcsN (s : State) (status : LinkStatus) (data : List Byte) : (s.respond status data).mcsN = s.mcsN := rfl
@[simp] theorem State.respond_apsel (s : State) (status : LinkStatus) (data : List Byte) : (s.respond status data).apsel = s.apsel := rfl
@[simp] theorem State.respond_cfgsel (s : State) (status : LinkStatus) (data : List Byte) : (s.respond status data).cfgsel = s.cfgsel := rfl
@[simp] theorem State.respond_device (s : State) (status : LinkStatus) (data : List Byte) : (s.respond status data).device = s.device := rfl
@[simp] theorem State.respond_reloadInProgress (s : State) (status : LinkStatus) (data : List Byte) : (s.respond status data).reloadInProgress = s.reloadInProgress := rfl
@[simp] theorem State.respond_softResetPending (s : State) (status : LinkStatus) (data : List Byte) : (s.respond status data).softResetPending = s.softResetPending := rfl
@[simp] theorem State.respond_lastReload (s : State) (status : LinkStatus) (data : List Byte) : (s.respond status data).lastReload = s.lastReload := rfl
@[simp] theorem State.respond_waitSet (s : State) (status : LinkStatus) (data : List Byte) : (s.respond status data).waitSet = s.waitSet := rfl
@[simp] theorem State.respond_streams (s : State) (status : LinkStatus) (data : List Byte) : (s.respond status data).streams = s.streams := rfl
@[simp] theorem State.respond_jobs (s : State) (status : LinkStatus) (data : List Byte) : (s.respond status data).jobs = s.jobs := rfl
@[simp] theorem State.respond_bursts (s : State) (status : LinkStatus) (data : List Byte) : (s.respond status data).bursts = s.bursts := rfl
@[simp] theorem State.respond_table (s : State) (status : LinkStatus) (data : List Byte) : (s.respond status data).table = s.table := rfl
@[simp] theorem State.respond_starvation (s : State) (status : LinkStatus) (data : List Byte) : (s.respond status data).starvation = s.starvation := rfl
@[simp] theorem State.respond_load (s : State) (status : LinkStatus) (data : List Byte) : (s.respond status data).load = s.load := rfl
@[simp] theorem State.respond_generation (s : State) (status : LinkStatus) (data : List Byte) : (s.respond status data).generation = s.generation := rfl
@[simp] theorem State.respond_copyIndex (s : State) (status : LinkStatus) (data : List Byte) : (s.respond status data).copyIndex = s.copyIndex := rfl
@[simp] theorem State.respond_fault (s : State) (status : LinkStatus) (data : List Byte) : (s.respond status data).fault = s.fault := rfl
@[simp] theorem State.respond_orders (s : State) (status : LinkStatus) (data : List Byte) : (s.respond status data).orders = s.orders := rfl
@[simp] theorem State.respond_deviceFlags (s : State) (status : LinkStatus) (data : List Byte) : (s.respond status data).deviceFlags = s.deviceFlags := rfl
@[simp] theorem State.respond_choice (s : State) (status : LinkStatus) (data : List Byte) : (s.respond status data).choice = s.choice := rfl
@[simp] theorem State.respond_pending (s : State) (status : LinkStatus) (data : List Byte) : (s.respond status data).pending = s.pending := rfl
@[simp] theorem State.respond_stream (s : State) (status : LinkStatus) (data : List Byte) (slot : StreamId) : (s.respond status data).stream slot = s.stream slot := rfl
@[simp] theorem State.respond_order (s : State) (status : LinkStatus) (data : List Byte) (id : Initiator) : (s.respond status data).order id = s.order id := rfl

@[simp] theorem State.startLoad_time (s : State) (p : Purpose) : (s.startLoad p).time = s.time := rfl
@[simp] theorem State.startLoad_resetN (s : State) (p : Purpose) : (s.startLoad p).resetN = s.resetN := rfl
@[simp] theorem State.startLoad_mcsN (s : State) (p : Purpose) : (s.startLoad p).mcsN = s.mcsN := rfl
@[simp] theorem State.startLoad_apsel (s : State) (p : Purpose) : (s.startLoad p).apsel = s.apsel := rfl
@[simp] theorem State.startLoad_cfgsel (s : State) (p : Purpose) : (s.startLoad p).cfgsel = s.cfgsel := rfl
@[simp] theorem State.startLoad_device (s : State) (p : Purpose) : (s.startLoad p).device = s.device := rfl
@[simp] theorem State.startLoad_reloadInProgress (s : State) (p : Purpose) : (s.startLoad p).reloadInProgress = s.reloadInProgress := rfl
@[simp] theorem State.startLoad_softResetPending (s : State) (p : Purpose) : (s.startLoad p).softResetPending = s.softResetPending := rfl
@[simp] theorem State.startLoad_lastReload (s : State) (p : Purpose) : (s.startLoad p).lastReload = s.lastReload := rfl
@[simp] theorem State.startLoad_waitSet (s : State) (p : Purpose) : (s.startLoad p).waitSet = s.waitSet := rfl
@[simp] theorem State.startLoad_streams (s : State) (p : Purpose) : (s.startLoad p).streams = s.streams := rfl
@[simp] theorem State.startLoad_jobs (s : State) (p : Purpose) : (s.startLoad p).jobs = s.jobs := rfl
@[simp] theorem State.startLoad_bursts (s : State) (p : Purpose) : (s.startLoad p).bursts = s.bursts := rfl
@[simp] theorem State.startLoad_table (s : State) (p : Purpose) : (s.startLoad p).table = s.table := rfl
@[simp] theorem State.startLoad_starvation (s : State) (p : Purpose) : (s.startLoad p).starvation = s.starvation := rfl
@[simp] theorem State.startLoad_generation (s : State) (p : Purpose) : (s.startLoad p).generation = s.generation := rfl
@[simp] theorem State.startLoad_copyIndex (s : State) (p : Purpose) : (s.startLoad p).copyIndex = s.copyIndex := rfl
@[simp] theorem State.startLoad_fault (s : State) (p : Purpose) : (s.startLoad p).fault = s.fault := rfl
@[simp] theorem State.startLoad_orders (s : State) (p : Purpose) : (s.startLoad p).orders = s.orders := rfl
@[simp] theorem State.startLoad_deviceFlags (s : State) (p : Purpose) : (s.startLoad p).deviceFlags = s.deviceFlags := rfl
@[simp] theorem State.startLoad_link (s : State) (p : Purpose) : (s.startLoad p).link = s.link := rfl
@[simp] theorem State.startLoad_ports (s : State) (p : Purpose) : (s.startLoad p).ports = s.ports := rfl
@[simp] theorem State.startLoad_choice (s : State) (p : Purpose) : (s.startLoad p).choice = s.choice := rfl
@[simp] theorem State.startLoad_pending (s : State) (p : Purpose) : (s.startLoad p).pending = s.pending := rfl
@[simp] theorem State.startLoad_stream (s : State) (p : Purpose) (slot : StreamId) : (s.startLoad p).stream slot = s.stream slot := rfl
@[simp] theorem State.startLoad_order (s : State) (p : Purpose) (id : Initiator) : (s.startLoad p).order id = s.order id := rfl

/-! ### A stream slot under the named operations -/

@[simp] theorem StreamState.raise_current (x : StreamState) (e : StreamEvent) : (x.raise e).current = x.current := rfl
@[simp] theorem StreamState.raise_pendingSlot (x : StreamState) (e : StreamEvent) : (x.raise e).pendingSlot = x.pendingSlot := rfl
@[simp] theorem StreamState.raise_windows (x : StreamState) (e : StreamEvent) : (x.raise e).windows = x.windows := rfl
@[simp] theorem StreamState.raise_life (x : StreamState) (e : StreamEvent) : (x.raise e).life = x.life := rfl
@[simp] theorem StreamState.raise_armRequest (x : StreamState) (e : StreamEvent) : (x.raise e).armRequest = x.armRequest := rfl
@[simp] theorem StreamState.raise_armAwaited (x : StreamState) (e : StreamEvent) : (x.raise e).armAwaited = x.armAwaited := rfl
@[simp] theorem StreamState.raise_drainTaken (x : StreamState) (e : StreamEvent) : (x.raise e).drainTaken = x.drainTaken := rfl
@[simp] theorem StreamState.raise_poolQuiet (x : StreamState) (e : StreamEvent) : (x.raise e).poolQuiet = x.poolQuiet := rfl
@[simp] theorem StreamState.raise_bufs (x : StreamState) (e : StreamEvent) : (x.raise e).bufs = x.bufs := rfl
@[simp] theorem StreamState.raise_ready (x : StreamState) (e : StreamEvent) : (x.raise e).ready = x.ready := rfl
@[simp] theorem StreamState.raise_mode (x : StreamState) (e : StreamEvent) : (x.raise e).mode = x.mode := rfl
@[simp] theorem StreamState.raise_lastSeq (x : StreamState) (e : StreamEvent) : (x.raise e).lastSeq = x.lastSeq := rfl
@[simp] theorem StreamState.raise_newest (x : StreamState) (e : StreamEvent) : (x.raise e).newest = x.newest := rfl
@[simp] theorem StreamState.raise_previous (x : StreamState) (e : StreamEvent) : (x.raise e).previous = x.previous := rfl
@[simp] theorem StreamState.raise_readers (x : StreamState) (e : StreamEvent) : (x.raise e).readers = x.readers := rfl
@[simp] theorem StreamState.raise_ref (x : StreamState) (e : StreamEvent) : (x.raise e).ref = x.ref := rfl
@[simp] theorem StreamState.raise_timer (x : StreamState) (e : StreamEvent) : (x.raise e).timer = x.timer := rfl
@[simp] theorem StreamState.raise_lock (x : StreamState) (e : StreamEvent) : (x.raise e).lock = x.lock := rfl
@[simp] theorem StreamState.raise_acquire (x : StreamState) (e : StreamEvent) : (x.raise e).acquire = x.acquire := rfl
@[simp] theorem StreamState.raise_loss (x : StreamState) (e : StreamEvent) : (x.raise e).loss = x.loss := rfl
@[simp] theorem StreamState.raise_counters (x : StreamState) (e : StreamEvent) : (x.raise e).counters = x.counters := rfl

@[simp] theorem StreamState.count_current (x : StreamState) (c : Counter) : (x.count c).current = x.current := rfl
@[simp] theorem StreamState.count_pendingSlot (x : StreamState) (c : Counter) : (x.count c).pendingSlot = x.pendingSlot := rfl
@[simp] theorem StreamState.count_windows (x : StreamState) (c : Counter) : (x.count c).windows = x.windows := rfl
@[simp] theorem StreamState.count_life (x : StreamState) (c : Counter) : (x.count c).life = x.life := rfl
@[simp] theorem StreamState.count_armRequest (x : StreamState) (c : Counter) : (x.count c).armRequest = x.armRequest := rfl
@[simp] theorem StreamState.count_armAwaited (x : StreamState) (c : Counter) : (x.count c).armAwaited = x.armAwaited := rfl
@[simp] theorem StreamState.count_drainTaken (x : StreamState) (c : Counter) : (x.count c).drainTaken = x.drainTaken := rfl
@[simp] theorem StreamState.count_poolQuiet (x : StreamState) (c : Counter) : (x.count c).poolQuiet = x.poolQuiet := rfl
@[simp] theorem StreamState.count_bufs (x : StreamState) (c : Counter) : (x.count c).bufs = x.bufs := rfl
@[simp] theorem StreamState.count_ready (x : StreamState) (c : Counter) : (x.count c).ready = x.ready := rfl
@[simp] theorem StreamState.count_mode (x : StreamState) (c : Counter) : (x.count c).mode = x.mode := rfl
@[simp] theorem StreamState.count_lastSeq (x : StreamState) (c : Counter) : (x.count c).lastSeq = x.lastSeq := rfl
@[simp] theorem StreamState.count_newest (x : StreamState) (c : Counter) : (x.count c).newest = x.newest := rfl
@[simp] theorem StreamState.count_previous (x : StreamState) (c : Counter) : (x.count c).previous = x.previous := rfl
@[simp] theorem StreamState.count_readers (x : StreamState) (c : Counter) : (x.count c).readers = x.readers := rfl
@[simp] theorem StreamState.count_ref (x : StreamState) (c : Counter) : (x.count c).ref = x.ref := rfl
@[simp] theorem StreamState.count_timer (x : StreamState) (c : Counter) : (x.count c).timer = x.timer := rfl
@[simp] theorem StreamState.count_lock (x : StreamState) (c : Counter) : (x.count c).lock = x.lock := rfl
@[simp] theorem StreamState.count_acquire (x : StreamState) (c : Counter) : (x.count c).acquire = x.acquire := rfl
@[simp] theorem StreamState.count_loss (x : StreamState) (c : Counter) : (x.count c).loss = x.loss := rfl
@[simp] theorem StreamState.count_flags (x : StreamState) (c : Counter) : (x.count c).flags = x.flags := rfl

@[simp] theorem StreamState.onBuf_current (x : StreamState) (i : Nat) (f : Buf → Buf) : (x.onBuf i f).current = x.current := rfl
@[simp] theorem StreamState.onBuf_pendingSlot (x : StreamState) (i : Nat) (f : Buf → Buf) : (x.onBuf i f).pendingSlot = x.pendingSlot := rfl
@[simp] theorem StreamState.onBuf_windows (x : StreamState) (i : Nat) (f : Buf → Buf) : (x.onBuf i f).windows = x.windows := rfl
@[simp] theorem StreamState.onBuf_life (x : StreamState) (i : Nat) (f : Buf → Buf) : (x.onBuf i f).life = x.life := rfl
@[simp] theorem StreamState.onBuf_armRequest (x : StreamState) (i : Nat) (f : Buf → Buf) : (x.onBuf i f).armRequest = x.armRequest := rfl
@[simp] theorem StreamState.onBuf_armAwaited (x : StreamState) (i : Nat) (f : Buf → Buf) : (x.onBuf i f).armAwaited = x.armAwaited := rfl
@[simp] theorem StreamState.onBuf_drainTaken (x : StreamState) (i : Nat) (f : Buf → Buf) : (x.onBuf i f).drainTaken = x.drainTaken := rfl
@[simp] theorem StreamState.onBuf_poolQuiet (x : StreamState) (i : Nat) (f : Buf → Buf) : (x.onBuf i f).poolQuiet = x.poolQuiet := rfl
@[simp] theorem StreamState.onBuf_ready (x : StreamState) (i : Nat) (f : Buf → Buf) : (x.onBuf i f).ready = x.ready := rfl
@[simp] theorem StreamState.onBuf_mode (x : StreamState) (i : Nat) (f : Buf → Buf) : (x.onBuf i f).mode = x.mode := rfl
@[simp] theorem StreamState.onBuf_lastSeq (x : StreamState) (i : Nat) (f : Buf → Buf) : (x.onBuf i f).lastSeq = x.lastSeq := rfl
@[simp] theorem StreamState.onBuf_newest (x : StreamState) (i : Nat) (f : Buf → Buf) : (x.onBuf i f).newest = x.newest := rfl
@[simp] theorem StreamState.onBuf_previous (x : StreamState) (i : Nat) (f : Buf → Buf) : (x.onBuf i f).previous = x.previous := rfl
@[simp] theorem StreamState.onBuf_readers (x : StreamState) (i : Nat) (f : Buf → Buf) : (x.onBuf i f).readers = x.readers := rfl
@[simp] theorem StreamState.onBuf_ref (x : StreamState) (i : Nat) (f : Buf → Buf) : (x.onBuf i f).ref = x.ref := rfl
@[simp] theorem StreamState.onBuf_timer (x : StreamState) (i : Nat) (f : Buf → Buf) : (x.onBuf i f).timer = x.timer := rfl
@[simp] theorem StreamState.onBuf_lock (x : StreamState) (i : Nat) (f : Buf → Buf) : (x.onBuf i f).lock = x.lock := rfl
@[simp] theorem StreamState.onBuf_acquire (x : StreamState) (i : Nat) (f : Buf → Buf) : (x.onBuf i f).acquire = x.acquire := rfl
@[simp] theorem StreamState.onBuf_loss (x : StreamState) (i : Nat) (f : Buf → Buf) : (x.onBuf i f).loss = x.loss := rfl
@[simp] theorem StreamState.onBuf_flags (x : StreamState) (i : Nat) (f : Buf → Buf) : (x.onBuf i f).flags = x.flags := rfl
@[simp] theorem StreamState.onBuf_counters (x : StreamState) (i : Nat) (f : Buf → Buf) : (x.onBuf i f).counters = x.counters := rfl

@[simp] theorem StreamState.dequeue_current (x : StreamState) (i : Nat) : (x.dequeue i).current = x.current := rfl
@[simp] theorem StreamState.dequeue_pendingSlot (x : StreamState) (i : Nat) : (x.dequeue i).pendingSlot = x.pendingSlot := rfl
@[simp] theorem StreamState.dequeue_windows (x : StreamState) (i : Nat) : (x.dequeue i).windows = x.windows := rfl
@[simp] theorem StreamState.dequeue_life (x : StreamState) (i : Nat) : (x.dequeue i).life = x.life := rfl
@[simp] theorem StreamState.dequeue_armRequest (x : StreamState) (i : Nat) : (x.dequeue i).armRequest = x.armRequest := rfl
@[simp] theorem StreamState.dequeue_armAwaited (x : StreamState) (i : Nat) : (x.dequeue i).armAwaited = x.armAwaited := rfl
@[simp] theorem StreamState.dequeue_drainTaken (x : StreamState) (i : Nat) : (x.dequeue i).drainTaken = x.drainTaken := rfl
@[simp] theorem StreamState.dequeue_poolQuiet (x : StreamState) (i : Nat) : (x.dequeue i).poolQuiet = x.poolQuiet := rfl
@[simp] theorem StreamState.dequeue_bufs (x : StreamState) (i : Nat) : (x.dequeue i).bufs = x.bufs := rfl
@[simp] theorem StreamState.dequeue_mode (x : StreamState) (i : Nat) : (x.dequeue i).mode = x.mode := rfl
@[simp] theorem StreamState.dequeue_lastSeq (x : StreamState) (i : Nat) : (x.dequeue i).lastSeq = x.lastSeq := rfl
@[simp] theorem StreamState.dequeue_newest (x : StreamState) (i : Nat) : (x.dequeue i).newest = x.newest := rfl
@[simp] theorem StreamState.dequeue_previous (x : StreamState) (i : Nat) : (x.dequeue i).previous = x.previous := rfl
@[simp] theorem StreamState.dequeue_readers (x : StreamState) (i : Nat) : (x.dequeue i).readers = x.readers := rfl
@[simp] theorem StreamState.dequeue_ref (x : StreamState) (i : Nat) : (x.dequeue i).ref = x.ref := rfl
@[simp] theorem StreamState.dequeue_timer (x : StreamState) (i : Nat) : (x.dequeue i).timer = x.timer := rfl
@[simp] theorem StreamState.dequeue_lock (x : StreamState) (i : Nat) : (x.dequeue i).lock = x.lock := rfl
@[simp] theorem StreamState.dequeue_acquire (x : StreamState) (i : Nat) : (x.dequeue i).acquire = x.acquire := rfl
@[simp] theorem StreamState.dequeue_loss (x : StreamState) (i : Nat) : (x.dequeue i).loss = x.loss := rfl
@[simp] theorem StreamState.dequeue_flags (x : StreamState) (i : Nat) : (x.dequeue i).flags = x.flags := rfl
@[simp] theorem StreamState.dequeue_counters (x : StreamState) (i : Nat) : (x.dequeue i).counters = x.counters := rfl

@[simp] theorem StreamState.release_current (x : StreamState) (i : Nat) : (x.release i).current = x.current := rfl
@[simp] theorem StreamState.release_pendingSlot (x : StreamState) (i : Nat) : (x.release i).pendingSlot = x.pendingSlot := rfl
@[simp] theorem StreamState.release_windows (x : StreamState) (i : Nat) : (x.release i).windows = x.windows := rfl
@[simp] theorem StreamState.release_life (x : StreamState) (i : Nat) : (x.release i).life = x.life := rfl
@[simp] theorem StreamState.release_armRequest (x : StreamState) (i : Nat) : (x.release i).armRequest = x.armRequest := rfl
@[simp] theorem StreamState.release_armAwaited (x : StreamState) (i : Nat) : (x.release i).armAwaited = x.armAwaited := rfl
@[simp] theorem StreamState.release_drainTaken (x : StreamState) (i : Nat) : (x.release i).drainTaken = x.drainTaken := rfl
@[simp] theorem StreamState.release_poolQuiet (x : StreamState) (i : Nat) : (x.release i).poolQuiet = x.poolQuiet := rfl
@[simp] theorem StreamState.release_mode (x : StreamState) (i : Nat) : (x.release i).mode = x.mode := rfl
@[simp] theorem StreamState.release_lastSeq (x : StreamState) (i : Nat) : (x.release i).lastSeq = x.lastSeq := rfl
@[simp] theorem StreamState.release_newest (x : StreamState) (i : Nat) : (x.release i).newest = x.newest := rfl
@[simp] theorem StreamState.release_previous (x : StreamState) (i : Nat) : (x.release i).previous = x.previous := rfl
@[simp] theorem StreamState.release_readers (x : StreamState) (i : Nat) : (x.release i).readers = x.readers := rfl
@[simp] theorem StreamState.release_ref (x : StreamState) (i : Nat) : (x.release i).ref = x.ref := rfl
@[simp] theorem StreamState.release_timer (x : StreamState) (i : Nat) : (x.release i).timer = x.timer := rfl
@[simp] theorem StreamState.release_lock (x : StreamState) (i : Nat) : (x.release i).lock = x.lock := rfl
@[simp] theorem StreamState.release_acquire (x : StreamState) (i : Nat) : (x.release i).acquire = x.acquire := rfl
@[simp] theorem StreamState.release_loss (x : StreamState) (i : Nat) : (x.release i).loss = x.loss := rfl
@[simp] theorem StreamState.release_flags (x : StreamState) (i : Nat) : (x.release i).flags = x.flags := rfl
@[simp] theorem StreamState.release_counters (x : StreamState) (i : Nat) : (x.release i).counters = x.counters := rfl

@[simp] theorem StreamState.releaseSkipped_current (x : StreamState) (i : Nat) : (x.releaseSkipped i).current = x.current := rfl
@[simp] theorem StreamState.releaseSkipped_pendingSlot (x : StreamState) (i : Nat) : (x.releaseSkipped i).pendingSlot = x.pendingSlot := rfl
@[simp] theorem StreamState.releaseSkipped_windows (x : StreamState) (i : Nat) : (x.releaseSkipped i).windows = x.windows := rfl
@[simp] theorem StreamState.releaseSkipped_life (x : StreamState) (i : Nat) : (x.releaseSkipped i).life = x.life := rfl
@[simp] theorem StreamState.releaseSkipped_armRequest (x : StreamState) (i : Nat) : (x.releaseSkipped i).armRequest = x.armRequest := rfl
@[simp] theorem StreamState.releaseSkipped_armAwaited (x : StreamState) (i : Nat) : (x.releaseSkipped i).armAwaited = x.armAwaited := rfl
@[simp] theorem StreamState.releaseSkipped_drainTaken (x : StreamState) (i : Nat) : (x.releaseSkipped i).drainTaken = x.drainTaken := rfl
@[simp] theorem StreamState.releaseSkipped_poolQuiet (x : StreamState) (i : Nat) : (x.releaseSkipped i).poolQuiet = x.poolQuiet := rfl
@[simp] theorem StreamState.releaseSkipped_mode (x : StreamState) (i : Nat) : (x.releaseSkipped i).mode = x.mode := rfl
@[simp] theorem StreamState.releaseSkipped_lastSeq (x : StreamState) (i : Nat) : (x.releaseSkipped i).lastSeq = x.lastSeq := rfl
@[simp] theorem StreamState.releaseSkipped_newest (x : StreamState) (i : Nat) : (x.releaseSkipped i).newest = x.newest := rfl
@[simp] theorem StreamState.releaseSkipped_previous (x : StreamState) (i : Nat) : (x.releaseSkipped i).previous = x.previous := rfl
@[simp] theorem StreamState.releaseSkipped_readers (x : StreamState) (i : Nat) : (x.releaseSkipped i).readers = x.readers := rfl
@[simp] theorem StreamState.releaseSkipped_ref (x : StreamState) (i : Nat) : (x.releaseSkipped i).ref = x.ref := rfl
@[simp] theorem StreamState.releaseSkipped_timer (x : StreamState) (i : Nat) : (x.releaseSkipped i).timer = x.timer := rfl
@[simp] theorem StreamState.releaseSkipped_lock (x : StreamState) (i : Nat) : (x.releaseSkipped i).lock = x.lock := rfl
@[simp] theorem StreamState.releaseSkipped_acquire (x : StreamState) (i : Nat) : (x.releaseSkipped i).acquire = x.acquire := rfl
@[simp] theorem StreamState.releaseSkipped_loss (x : StreamState) (i : Nat) : (x.releaseSkipped i).loss = x.loss := rfl
@[simp] theorem StreamState.releaseSkipped_flags (x : StreamState) (i : Nat) : (x.releaseSkipped i).flags = x.flags := rfl

@[simp] theorem StreamState.increment_current (x : StreamState) (i : Nat) : (x.increment i).current = x.current := rfl
@[simp] theorem StreamState.increment_pendingSlot (x : StreamState) (i : Nat) : (x.increment i).pendingSlot = x.pendingSlot := rfl
@[simp] theorem StreamState.increment_windows (x : StreamState) (i : Nat) : (x.increment i).windows = x.windows := rfl
@[simp] theorem StreamState.increment_life (x : StreamState) (i : Nat) : (x.increment i).life = x.life := rfl
@[simp] theorem StreamState.increment_armRequest (x : StreamState) (i : Nat) : (x.increment i).armRequest = x.armRequest := rfl
@[simp] theorem StreamState.increment_armAwaited (x : StreamState) (i : Nat) : (x.increment i).armAwaited = x.armAwaited := rfl
@[simp] theorem StreamState.increment_drainTaken (x : StreamState) (i : Nat) : (x.increment i).drainTaken = x.drainTaken := rfl
@[simp] theorem StreamState.increment_poolQuiet (x : StreamState) (i : Nat) : (x.increment i).poolQuiet = x.poolQuiet := rfl
@[simp] theorem StreamState.increment_ready (x : StreamState) (i : Nat) : (x.increment i).ready = x.ready := rfl
@[simp] theorem StreamState.increment_mode (x : StreamState) (i : Nat) : (x.increment i).mode = x.mode := rfl
@[simp] theorem StreamState.increment_lastSeq (x : StreamState) (i : Nat) : (x.increment i).lastSeq = x.lastSeq := rfl
@[simp] theorem StreamState.increment_newest (x : StreamState) (i : Nat) : (x.increment i).newest = x.newest := rfl
@[simp] theorem StreamState.increment_previous (x : StreamState) (i : Nat) : (x.increment i).previous = x.previous := rfl
@[simp] theorem StreamState.increment_readers (x : StreamState) (i : Nat) : (x.increment i).readers = x.readers := rfl
@[simp] theorem StreamState.increment_ref (x : StreamState) (i : Nat) : (x.increment i).ref = x.ref := rfl
@[simp] theorem StreamState.increment_timer (x : StreamState) (i : Nat) : (x.increment i).timer = x.timer := rfl
@[simp] theorem StreamState.increment_lock (x : StreamState) (i : Nat) : (x.increment i).lock = x.lock := rfl
@[simp] theorem StreamState.increment_acquire (x : StreamState) (i : Nat) : (x.increment i).acquire = x.acquire := rfl
@[simp] theorem StreamState.increment_loss (x : StreamState) (i : Nat) : (x.increment i).loss = x.loss := rfl
@[simp] theorem StreamState.increment_flags (x : StreamState) (i : Nat) : (x.increment i).flags = x.flags := rfl
@[simp] theorem StreamState.increment_counters (x : StreamState) (i : Nat) : (x.increment i).counters = x.counters := rfl

@[simp] theorem StreamState.pin_current (x : StreamState) (i : Nat) : (x.pin i).current = x.current := rfl
@[simp] theorem StreamState.pin_pendingSlot (x : StreamState) (i : Nat) : (x.pin i).pendingSlot = x.pendingSlot := rfl
@[simp] theorem StreamState.pin_windows (x : StreamState) (i : Nat) : (x.pin i).windows = x.windows := rfl
@[simp] theorem StreamState.pin_life (x : StreamState) (i : Nat) : (x.pin i).life = x.life := rfl
@[simp] theorem StreamState.pin_armRequest (x : StreamState) (i : Nat) : (x.pin i).armRequest = x.armRequest := rfl
@[simp] theorem StreamState.pin_armAwaited (x : StreamState) (i : Nat) : (x.pin i).armAwaited = x.armAwaited := rfl
@[simp] theorem StreamState.pin_drainTaken (x : StreamState) (i : Nat) : (x.pin i).drainTaken = x.drainTaken := rfl
@[simp] theorem StreamState.pin_poolQuiet (x : StreamState) (i : Nat) : (x.pin i).poolQuiet = x.poolQuiet := rfl
@[simp] theorem StreamState.pin_ready (x : StreamState) (i : Nat) : (x.pin i).ready = x.ready := rfl
@[simp] theorem StreamState.pin_mode (x : StreamState) (i : Nat) : (x.pin i).mode = x.mode := rfl
@[simp] theorem StreamState.pin_lastSeq (x : StreamState) (i : Nat) : (x.pin i).lastSeq = x.lastSeq := rfl
@[simp] theorem StreamState.pin_newest (x : StreamState) (i : Nat) : (x.pin i).newest = x.newest := rfl
@[simp] theorem StreamState.pin_previous (x : StreamState) (i : Nat) : (x.pin i).previous = x.previous := rfl
@[simp] theorem StreamState.pin_readers (x : StreamState) (i : Nat) : (x.pin i).readers = x.readers := rfl
@[simp] theorem StreamState.pin_ref (x : StreamState) (i : Nat) : (x.pin i).ref = x.ref := rfl
@[simp] theorem StreamState.pin_timer (x : StreamState) (i : Nat) : (x.pin i).timer = x.timer := rfl
@[simp] theorem StreamState.pin_lock (x : StreamState) (i : Nat) : (x.pin i).lock = x.lock := rfl
@[simp] theorem StreamState.pin_acquire (x : StreamState) (i : Nat) : (x.pin i).acquire = x.acquire := rfl
@[simp] theorem StreamState.pin_loss (x : StreamState) (i : Nat) : (x.pin i).loss = x.loss := rfl
@[simp] theorem StreamState.pin_flags (x : StreamState) (i : Nat) : (x.pin i).flags = x.flags := rfl
@[simp] theorem StreamState.pin_counters (x : StreamState) (i : Nat) : (x.pin i).counters = x.counters := rfl

@[simp] theorem StreamState.unpin_current (x : StreamState) (i : Nat) : (x.unpin i).current = x.current := rfl
@[simp] theorem StreamState.unpin_pendingSlot (x : StreamState) (i : Nat) : (x.unpin i).pendingSlot = x.pendingSlot := rfl
@[simp] theorem StreamState.unpin_windows (x : StreamState) (i : Nat) : (x.unpin i).windows = x.windows := rfl
@[simp] theorem StreamState.unpin_life (x : StreamState) (i : Nat) : (x.unpin i).life = x.life := rfl
@[simp] theorem StreamState.unpin_armRequest (x : StreamState) (i : Nat) : (x.unpin i).armRequest = x.armRequest := rfl
@[simp] theorem StreamState.unpin_armAwaited (x : StreamState) (i : Nat) : (x.unpin i).armAwaited = x.armAwaited := rfl
@[simp] theorem StreamState.unpin_drainTaken (x : StreamState) (i : Nat) : (x.unpin i).drainTaken = x.drainTaken := rfl
@[simp] theorem StreamState.unpin_poolQuiet (x : StreamState) (i : Nat) : (x.unpin i).poolQuiet = x.poolQuiet := rfl
@[simp] theorem StreamState.unpin_ready (x : StreamState) (i : Nat) : (x.unpin i).ready = x.ready := rfl
@[simp] theorem StreamState.unpin_mode (x : StreamState) (i : Nat) : (x.unpin i).mode = x.mode := rfl
@[simp] theorem StreamState.unpin_lastSeq (x : StreamState) (i : Nat) : (x.unpin i).lastSeq = x.lastSeq := rfl
@[simp] theorem StreamState.unpin_newest (x : StreamState) (i : Nat) : (x.unpin i).newest = x.newest := rfl
@[simp] theorem StreamState.unpin_previous (x : StreamState) (i : Nat) : (x.unpin i).previous = x.previous := rfl
@[simp] theorem StreamState.unpin_readers (x : StreamState) (i : Nat) : (x.unpin i).readers = x.readers := rfl
@[simp] theorem StreamState.unpin_ref (x : StreamState) (i : Nat) : (x.unpin i).ref = x.ref := rfl
@[simp] theorem StreamState.unpin_timer (x : StreamState) (i : Nat) : (x.unpin i).timer = x.timer := rfl
@[simp] theorem StreamState.unpin_lock (x : StreamState) (i : Nat) : (x.unpin i).lock = x.lock := rfl
@[simp] theorem StreamState.unpin_acquire (x : StreamState) (i : Nat) : (x.unpin i).acquire = x.acquire := rfl
@[simp] theorem StreamState.unpin_loss (x : StreamState) (i : Nat) : (x.unpin i).loss = x.loss := rfl
@[simp] theorem StreamState.unpin_flags (x : StreamState) (i : Nat) : (x.unpin i).flags = x.flags := rfl
@[simp] theorem StreamState.unpin_counters (x : StreamState) (i : Nat) : (x.unpin i).counters = x.counters := rfl

@[simp] theorem StreamState.report_current (x : StreamState) (e : VerdictEntry) : (x.report e).current = x.current := rfl
@[simp] theorem StreamState.report_pendingSlot (x : StreamState) (e : VerdictEntry) : (x.report e).pendingSlot = x.pendingSlot := rfl
@[simp] theorem StreamState.report_windows (x : StreamState) (e : VerdictEntry) : (x.report e).windows = x.windows := rfl
@[simp] theorem StreamState.report_life (x : StreamState) (e : VerdictEntry) : (x.report e).life = x.life := rfl
@[simp] theorem StreamState.report_armRequest (x : StreamState) (e : VerdictEntry) : (x.report e).armRequest = x.armRequest := rfl
@[simp] theorem StreamState.report_armAwaited (x : StreamState) (e : VerdictEntry) : (x.report e).armAwaited = x.armAwaited := rfl
@[simp] theorem StreamState.report_drainTaken (x : StreamState) (e : VerdictEntry) : (x.report e).drainTaken = x.drainTaken := rfl
@[simp] theorem StreamState.report_poolQuiet (x : StreamState) (e : VerdictEntry) : (x.report e).poolQuiet = x.poolQuiet := rfl
@[simp] theorem StreamState.report_bufs (x : StreamState) (e : VerdictEntry) : (x.report e).bufs = x.bufs := rfl
@[simp] theorem StreamState.report_ready (x : StreamState) (e : VerdictEntry) : (x.report e).ready = x.ready := rfl
@[simp] theorem StreamState.report_mode (x : StreamState) (e : VerdictEntry) : (x.report e).mode = x.mode := rfl
@[simp] theorem StreamState.report_lastSeq (x : StreamState) (e : VerdictEntry) : (x.report e).lastSeq = x.lastSeq := rfl
@[simp] theorem StreamState.report_readers (x : StreamState) (e : VerdictEntry) : (x.report e).readers = x.readers := rfl
@[simp] theorem StreamState.report_ref (x : StreamState) (e : VerdictEntry) : (x.report e).ref = x.ref := rfl
@[simp] theorem StreamState.report_timer (x : StreamState) (e : VerdictEntry) : (x.report e).timer = x.timer := rfl
@[simp] theorem StreamState.report_lock (x : StreamState) (e : VerdictEntry) : (x.report e).lock = x.lock := rfl
@[simp] theorem StreamState.report_acquire (x : StreamState) (e : VerdictEntry) : (x.report e).acquire = x.acquire := rfl
@[simp] theorem StreamState.report_loss (x : StreamState) (e : VerdictEntry) : (x.report e).loss = x.loss := rfl
@[simp] theorem StreamState.report_flags (x : StreamState) (e : VerdictEntry) : (x.report e).flags = x.flags := rfl
@[simp] theorem StreamState.report_counters (x : StreamState) (e : VerdictEntry) : (x.report e).counters = x.counters := rfl

@[simp] theorem StreamState.arrive_current (x : StreamState) (t : Micros) : (x.arrive t).current = x.current := by unfold StreamState.arrive; split <;> rfl
@[simp] theorem StreamState.arrive_pendingSlot (x : StreamState) (t : Micros) : (x.arrive t).pendingSlot = x.pendingSlot := by unfold StreamState.arrive; split <;> rfl
@[simp] theorem StreamState.arrive_windows (x : StreamState) (t : Micros) : (x.arrive t).windows = x.windows := by unfold StreamState.arrive; split <;> rfl
@[simp] theorem StreamState.arrive_life (x : StreamState) (t : Micros) : (x.arrive t).life = x.life := by unfold StreamState.arrive; split <;> rfl
@[simp] theorem StreamState.arrive_armRequest (x : StreamState) (t : Micros) : (x.arrive t).armRequest = x.armRequest := by unfold StreamState.arrive; split <;> rfl
@[simp] theorem StreamState.arrive_armAwaited (x : StreamState) (t : Micros) : (x.arrive t).armAwaited = x.armAwaited := by unfold StreamState.arrive; split <;> rfl
@[simp] theorem StreamState.arrive_drainTaken (x : StreamState) (t : Micros) : (x.arrive t).drainTaken = x.drainTaken := by unfold StreamState.arrive; split <;> rfl
@[simp] theorem StreamState.arrive_poolQuiet (x : StreamState) (t : Micros) : (x.arrive t).poolQuiet = x.poolQuiet := by unfold StreamState.arrive; split <;> rfl
@[simp] theorem StreamState.arrive_bufs (x : StreamState) (t : Micros) : (x.arrive t).bufs = x.bufs := by unfold StreamState.arrive; split <;> rfl
@[simp] theorem StreamState.arrive_ready (x : StreamState) (t : Micros) : (x.arrive t).ready = x.ready := by unfold StreamState.arrive; split <;> rfl
@[simp] theorem StreamState.arrive_mode (x : StreamState) (t : Micros) : (x.arrive t).mode = x.mode := by unfold StreamState.arrive; split <;> rfl
@[simp] theorem StreamState.arrive_lastSeq (x : StreamState) (t : Micros) : (x.arrive t).lastSeq = x.lastSeq := by unfold StreamState.arrive; split <;> rfl
@[simp] theorem StreamState.arrive_newest (x : StreamState) (t : Micros) : (x.arrive t).newest = x.newest := by unfold StreamState.arrive; split <;> rfl
@[simp] theorem StreamState.arrive_previous (x : StreamState) (t : Micros) : (x.arrive t).previous = x.previous := by unfold StreamState.arrive; split <;> rfl
@[simp] theorem StreamState.arrive_readers (x : StreamState) (t : Micros) : (x.arrive t).readers = x.readers := by unfold StreamState.arrive; split <;> rfl
@[simp] theorem StreamState.arrive_lock (x : StreamState) (t : Micros) : (x.arrive t).lock = x.lock := by unfold StreamState.arrive; split <;> rfl
@[simp] theorem StreamState.arrive_acquire (x : StreamState) (t : Micros) : (x.arrive t).acquire = x.acquire := by unfold StreamState.arrive; split <;> rfl
@[simp] theorem StreamState.arrive_loss (x : StreamState) (t : Micros) : (x.arrive t).loss = x.loss := by unfold StreamState.arrive; split <;> rfl
@[simp] theorem StreamState.arrive_flags (x : StreamState) (t : Micros) : (x.arrive t).flags = x.flags := by unfold StreamState.arrive; split <;> rfl

@[simp] theorem StreamState.buildPool_current (x : StreamState)  : (x.buildPool).current = x.current := rfl
@[simp] theorem StreamState.buildPool_pendingSlot (x : StreamState)  : (x.buildPool).pendingSlot = x.pendingSlot := rfl
@[simp] theorem StreamState.buildPool_windows (x : StreamState)  : (x.buildPool).windows = x.windows := rfl
@[simp] theorem StreamState.buildPool_life (x : StreamState)  : (x.buildPool).life = x.life := rfl
@[simp] theorem StreamState.buildPool_armRequest (x : StreamState)  : (x.buildPool).armRequest = x.armRequest := rfl
@[simp] theorem StreamState.buildPool_armAwaited (x : StreamState)  : (x.buildPool).armAwaited = x.armAwaited := rfl
@[simp] theorem StreamState.buildPool_drainTaken (x : StreamState)  : (x.buildPool).drainTaken = x.drainTaken := rfl
@[simp] theorem StreamState.buildPool_poolQuiet (x : StreamState)  : (x.buildPool).poolQuiet = x.poolQuiet := rfl
@[simp] theorem StreamState.buildPool_mode (x : StreamState)  : (x.buildPool).mode = x.mode := rfl
@[simp] theorem StreamState.buildPool_lastSeq (x : StreamState)  : (x.buildPool).lastSeq = x.lastSeq := rfl
@[simp] theorem StreamState.buildPool_newest (x : StreamState)  : (x.buildPool).newest = x.newest := rfl
@[simp] theorem StreamState.buildPool_previous (x : StreamState)  : (x.buildPool).previous = x.previous := rfl
@[simp] theorem StreamState.buildPool_readers (x : StreamState)  : (x.buildPool).readers = x.readers := rfl
@[simp] theorem StreamState.buildPool_ref (x : StreamState)  : (x.buildPool).ref = x.ref := rfl
@[simp] theorem StreamState.buildPool_timer (x : StreamState)  : (x.buildPool).timer = x.timer := rfl
@[simp] theorem StreamState.buildPool_lock (x : StreamState)  : (x.buildPool).lock = x.lock := rfl
@[simp] theorem StreamState.buildPool_acquire (x : StreamState)  : (x.buildPool).acquire = x.acquire := rfl
@[simp] theorem StreamState.buildPool_loss (x : StreamState)  : (x.buildPool).loss = x.loss := rfl
@[simp] theorem StreamState.buildPool_flags (x : StreamState)  : (x.buildPool).flags = x.flags := rfl
@[simp] theorem StreamState.buildPool_counters (x : StreamState)  : (x.buildPool).counters = x.counters := rfl

@[simp] theorem StreamState.buildReaders_current (x : StreamState)  : (x.buildReaders).current = x.current := rfl
@[simp] theorem StreamState.buildReaders_pendingSlot (x : StreamState)  : (x.buildReaders).pendingSlot = x.pendingSlot := rfl
@[simp] theorem StreamState.buildReaders_windows (x : StreamState)  : (x.buildReaders).windows = x.windows := rfl
@[simp] theorem StreamState.buildReaders_life (x : StreamState)  : (x.buildReaders).life = x.life := rfl
@[simp] theorem StreamState.buildReaders_armRequest (x : StreamState)  : (x.buildReaders).armRequest = x.armRequest := rfl
@[simp] theorem StreamState.buildReaders_armAwaited (x : StreamState)  : (x.buildReaders).armAwaited = x.armAwaited := rfl
@[simp] theorem StreamState.buildReaders_drainTaken (x : StreamState)  : (x.buildReaders).drainTaken = x.drainTaken := rfl
@[simp] theorem StreamState.buildReaders_poolQuiet (x : StreamState)  : (x.buildReaders).poolQuiet = x.poolQuiet := rfl
@[simp] theorem StreamState.buildReaders_bufs (x : StreamState)  : (x.buildReaders).bufs = x.bufs := rfl
@[simp] theorem StreamState.buildReaders_ready (x : StreamState)  : (x.buildReaders).ready = x.ready := rfl
@[simp] theorem StreamState.buildReaders_mode (x : StreamState)  : (x.buildReaders).mode = x.mode := rfl
@[simp] theorem StreamState.buildReaders_lastSeq (x : StreamState)  : (x.buildReaders).lastSeq = x.lastSeq := rfl
@[simp] theorem StreamState.buildReaders_newest (x : StreamState)  : (x.buildReaders).newest = x.newest := rfl
@[simp] theorem StreamState.buildReaders_previous (x : StreamState)  : (x.buildReaders).previous = x.previous := rfl
@[simp] theorem StreamState.buildReaders_ref (x : StreamState)  : (x.buildReaders).ref = x.ref := rfl
@[simp] theorem StreamState.buildReaders_timer (x : StreamState)  : (x.buildReaders).timer = x.timer := rfl
@[simp] theorem StreamState.buildReaders_lock (x : StreamState)  : (x.buildReaders).lock = x.lock := rfl
@[simp] theorem StreamState.buildReaders_acquire (x : StreamState)  : (x.buildReaders).acquire = x.acquire := rfl
@[simp] theorem StreamState.buildReaders_loss (x : StreamState)  : (x.buildReaders).loss = x.loss := rfl
@[simp] theorem StreamState.buildReaders_flags (x : StreamState)  : (x.buildReaders).flags = x.flags := rfl
@[simp] theorem StreamState.buildReaders_counters (x : StreamState)  : (x.buildReaders).counters = x.counters := rfl

@[simp] theorem StreamState.setReader_current (x : StreamState) (k : ReaderSlot) (r : Reader) : (x.setReader k r).current = x.current := rfl
@[simp] theorem StreamState.setReader_pendingSlot (x : StreamState) (k : ReaderSlot) (r : Reader) : (x.setReader k r).pendingSlot = x.pendingSlot := rfl
@[simp] theorem StreamState.setReader_windows (x : StreamState) (k : ReaderSlot) (r : Reader) : (x.setReader k r).windows = x.windows := rfl
@[simp] theorem StreamState.setReader_life (x : StreamState) (k : ReaderSlot) (r : Reader) : (x.setReader k r).life = x.life := rfl
@[simp] theorem StreamState.setReader_armRequest (x : StreamState) (k : ReaderSlot) (r : Reader) : (x.setReader k r).armRequest = x.armRequest := rfl
@[simp] theorem StreamState.setReader_armAwaited (x : StreamState) (k : ReaderSlot) (r : Reader) : (x.setReader k r).armAwaited = x.armAwaited := rfl
@[simp] theorem StreamState.setReader_drainTaken (x : StreamState) (k : ReaderSlot) (r : Reader) : (x.setReader k r).drainTaken = x.drainTaken := rfl
@[simp] theorem StreamState.setReader_poolQuiet (x : StreamState) (k : ReaderSlot) (r : Reader) : (x.setReader k r).poolQuiet = x.poolQuiet := rfl
@[simp] theorem StreamState.setReader_bufs (x : StreamState) (k : ReaderSlot) (r : Reader) : (x.setReader k r).bufs = x.bufs := rfl
@[simp] theorem StreamState.setReader_ready (x : StreamState) (k : ReaderSlot) (r : Reader) : (x.setReader k r).ready = x.ready := rfl
@[simp] theorem StreamState.setReader_mode (x : StreamState) (k : ReaderSlot) (r : Reader) : (x.setReader k r).mode = x.mode := rfl
@[simp] theorem StreamState.setReader_lastSeq (x : StreamState) (k : ReaderSlot) (r : Reader) : (x.setReader k r).lastSeq = x.lastSeq := rfl
@[simp] theorem StreamState.setReader_newest (x : StreamState) (k : ReaderSlot) (r : Reader) : (x.setReader k r).newest = x.newest := rfl
@[simp] theorem StreamState.setReader_previous (x : StreamState) (k : ReaderSlot) (r : Reader) : (x.setReader k r).previous = x.previous := rfl
@[simp] theorem StreamState.setReader_ref (x : StreamState) (k : ReaderSlot) (r : Reader) : (x.setReader k r).ref = x.ref := rfl
@[simp] theorem StreamState.setReader_timer (x : StreamState) (k : ReaderSlot) (r : Reader) : (x.setReader k r).timer = x.timer := rfl
@[simp] theorem StreamState.setReader_lock (x : StreamState) (k : ReaderSlot) (r : Reader) : (x.setReader k r).lock = x.lock := rfl
@[simp] theorem StreamState.setReader_acquire (x : StreamState) (k : ReaderSlot) (r : Reader) : (x.setReader k r).acquire = x.acquire := rfl
@[simp] theorem StreamState.setReader_loss (x : StreamState) (k : ReaderSlot) (r : Reader) : (x.setReader k r).loss = x.loss := rfl
@[simp] theorem StreamState.setReader_flags (x : StreamState) (k : ReaderSlot) (r : Reader) : (x.setReader k r).flags = x.flags := rfl
@[simp] theorem StreamState.setReader_counters (x : StreamState) (k : ReaderSlot) (r : Reader) : (x.setReader k r).counters = x.counters := rfl

@[simp] theorem StreamState.install_pendingSlot (x : StreamState) (i : Installed) : (x.install i).pendingSlot = x.pendingSlot := rfl
@[simp] theorem StreamState.install_life (x : StreamState) (i : Installed) : (x.install i).life = x.life := rfl
@[simp] theorem StreamState.install_armRequest (x : StreamState) (i : Installed) : (x.install i).armRequest = x.armRequest := rfl
@[simp] theorem StreamState.install_armAwaited (x : StreamState) (i : Installed) : (x.install i).armAwaited = x.armAwaited := rfl
@[simp] theorem StreamState.install_drainTaken (x : StreamState) (i : Installed) : (x.install i).drainTaken = x.drainTaken := rfl
@[simp] theorem StreamState.install_poolQuiet (x : StreamState) (i : Installed) : (x.install i).poolQuiet = x.poolQuiet := rfl
@[simp] theorem StreamState.install_bufs (x : StreamState) (i : Installed) : (x.install i).bufs = x.bufs := rfl
@[simp] theorem StreamState.install_ready (x : StreamState) (i : Installed) : (x.install i).ready = x.ready := rfl
@[simp] theorem StreamState.install_mode (x : StreamState) (i : Installed) : (x.install i).mode = x.mode := rfl
@[simp] theorem StreamState.install_lastSeq (x : StreamState) (i : Installed) : (x.install i).lastSeq = x.lastSeq := rfl
@[simp] theorem StreamState.install_newest (x : StreamState) (i : Installed) : (x.install i).newest = x.newest := rfl
@[simp] theorem StreamState.install_previous (x : StreamState) (i : Installed) : (x.install i).previous = x.previous := rfl
@[simp] theorem StreamState.install_readers (x : StreamState) (i : Installed) : (x.install i).readers = x.readers := rfl
@[simp] theorem StreamState.install_ref (x : StreamState) (i : Installed) : (x.install i).ref = x.ref := rfl
@[simp] theorem StreamState.install_timer (x : StreamState) (i : Installed) : (x.install i).timer = x.timer := rfl
@[simp] theorem StreamState.install_lock (x : StreamState) (i : Installed) : (x.install i).lock = x.lock := rfl
@[simp] theorem StreamState.install_acquire (x : StreamState) (i : Installed) : (x.install i).acquire = x.acquire := rfl
@[simp] theorem StreamState.install_loss (x : StreamState) (i : Installed) : (x.install i).loss = x.loss := rfl
@[simp] theorem StreamState.install_flags (x : StreamState) (i : Installed) : (x.install i).flags = x.flags := rfl
@[simp] theorem StreamState.install_counters (x : StreamState) (i : Installed) : (x.install i).counters = x.counters := rfl

@[simp] theorem StreamState.beginTeardown_current (x : StreamState)  : (x.beginTeardown).current = x.current := rfl
@[simp] theorem StreamState.beginTeardown_pendingSlot (x : StreamState)  : (x.beginTeardown).pendingSlot = x.pendingSlot := rfl
@[simp] theorem StreamState.beginTeardown_windows (x : StreamState)  : (x.beginTeardown).windows = x.windows := rfl
@[simp] theorem StreamState.beginTeardown_armRequest (x : StreamState)  : (x.beginTeardown).armRequest = x.armRequest := rfl
@[simp] theorem StreamState.beginTeardown_armAwaited (x : StreamState)  : (x.beginTeardown).armAwaited = x.armAwaited := rfl
@[simp] theorem StreamState.beginTeardown_bufs (x : StreamState)  : (x.beginTeardown).bufs = x.bufs := rfl
@[simp] theorem StreamState.beginTeardown_ready (x : StreamState)  : (x.beginTeardown).ready = x.ready := rfl
@[simp] theorem StreamState.beginTeardown_mode (x : StreamState)  : (x.beginTeardown).mode = x.mode := rfl
@[simp] theorem StreamState.beginTeardown_lastSeq (x : StreamState)  : (x.beginTeardown).lastSeq = x.lastSeq := rfl
@[simp] theorem StreamState.beginTeardown_newest (x : StreamState)  : (x.beginTeardown).newest = x.newest := rfl
@[simp] theorem StreamState.beginTeardown_previous (x : StreamState)  : (x.beginTeardown).previous = x.previous := rfl
@[simp] theorem StreamState.beginTeardown_readers (x : StreamState)  : (x.beginTeardown).readers = x.readers := rfl
@[simp] theorem StreamState.beginTeardown_ref (x : StreamState)  : (x.beginTeardown).ref = x.ref := rfl
@[simp] theorem StreamState.beginTeardown_timer (x : StreamState)  : (x.beginTeardown).timer = x.timer := rfl
@[simp] theorem StreamState.beginTeardown_lock (x : StreamState)  : (x.beginTeardown).lock = x.lock := rfl
@[simp] theorem StreamState.beginTeardown_acquire (x : StreamState)  : (x.beginTeardown).acquire = x.acquire := rfl
@[simp] theorem StreamState.beginTeardown_loss (x : StreamState)  : (x.beginTeardown).loss = x.loss := rfl
@[simp] theorem StreamState.beginTeardown_flags (x : StreamState)  : (x.beginTeardown).flags = x.flags := rfl
@[simp] theorem StreamState.beginTeardown_counters (x : StreamState)  : (x.beginTeardown).counters = x.counters := rfl

@[simp] theorem StreamState.beginArm_current (x : StreamState)  : (x.beginArm).current = x.current := rfl
@[simp] theorem StreamState.beginArm_pendingSlot (x : StreamState)  : (x.beginArm).pendingSlot = x.pendingSlot := rfl
@[simp] theorem StreamState.beginArm_windows (x : StreamState)  : (x.beginArm).windows = x.windows := rfl
@[simp] theorem StreamState.beginArm_drainTaken (x : StreamState)  : (x.beginArm).drainTaken = x.drainTaken := rfl
@[simp] theorem StreamState.beginArm_poolQuiet (x : StreamState)  : (x.beginArm).poolQuiet = x.poolQuiet := rfl
@[simp] theorem StreamState.beginArm_bufs (x : StreamState)  : (x.beginArm).bufs = x.bufs := rfl
@[simp] theorem StreamState.beginArm_ready (x : StreamState)  : (x.beginArm).ready = x.ready := rfl
@[simp] theorem StreamState.beginArm_mode (x : StreamState)  : (x.beginArm).mode = x.mode := rfl
@[simp] theorem StreamState.beginArm_lastSeq (x : StreamState)  : (x.beginArm).lastSeq = x.lastSeq := rfl
@[simp] theorem StreamState.beginArm_newest (x : StreamState)  : (x.beginArm).newest = x.newest := rfl
@[simp] theorem StreamState.beginArm_previous (x : StreamState)  : (x.beginArm).previous = x.previous := rfl
@[simp] theorem StreamState.beginArm_readers (x : StreamState)  : (x.beginArm).readers = x.readers := rfl
@[simp] theorem StreamState.beginArm_ref (x : StreamState)  : (x.beginArm).ref = x.ref := rfl
@[simp] theorem StreamState.beginArm_timer (x : StreamState)  : (x.beginArm).timer = x.timer := rfl
@[simp] theorem StreamState.beginArm_lock (x : StreamState)  : (x.beginArm).lock = x.lock := rfl
@[simp] theorem StreamState.beginArm_acquire (x : StreamState)  : (x.beginArm).acquire = x.acquire := rfl
@[simp] theorem StreamState.beginArm_loss (x : StreamState)  : (x.beginArm).loss = x.loss := rfl
@[simp] theorem StreamState.beginArm_flags (x : StreamState)  : (x.beginArm).flags = x.flags := rfl
@[simp] theorem StreamState.beginArm_counters (x : StreamState)  : (x.beginArm).counters = x.counters := rfl

/-- Repeated releases change buffer records and the READY queue alone (R4). -/
theorem StreamState.foldl_release_frame (l : List Nat) (x : StreamState) :
    l.foldl StreamState.release x
      = { x with bufs := (l.foldl StreamState.release x).bufs, ready := (l.foldl StreamState.release x).ready } := by
  induction l generalizing x with
  | nil => rfl
  | cons i l ih => simp only [List.foldl_cons]; rw [ih (x.release i)]; rfl

/-- Repeated counted releases change buffer records, the READY queue and the counters alone (R4). -/
theorem StreamState.foldl_releaseSkipped_frame (l : List Nat) (x : StreamState) :
    l.foldl StreamState.releaseSkipped x
      = { x with bufs := (l.foldl StreamState.releaseSkipped x).bufs, ready := (l.foldl StreamState.releaseSkipped x).ready,
                 counters := (l.foldl StreamState.releaseSkipped x).counters } := by
  induction l generalizing x with
  | nil => rfl
  | cons i l ih => simp only [List.foldl_cons]; rw [ih (x.releaseSkipped i)]; rfl

/-- A bind changes buffer records and the READY queue alone (R20). -/
theorem StreamState.bind_frame (x : StreamState) (i : Nat) :
    x.bind i = { x with bufs := (x.bind i).bufs, ready := (x.bind i).ready } := by
  unfold StreamState.bind; split <;> rfl

@[simp] theorem StreamState.bind_current (x : StreamState) (i : Nat) : (x.bind i).current = x.current := by rw [StreamState.bind_frame]
@[simp] theorem StreamState.bind_pendingSlot (x : StreamState) (i : Nat) : (x.bind i).pendingSlot = x.pendingSlot := by rw [StreamState.bind_frame]
@[simp] theorem StreamState.bind_windows (x : StreamState) (i : Nat) : (x.bind i).windows = x.windows := by rw [StreamState.bind_frame]
@[simp] theorem StreamState.bind_life (x : StreamState) (i : Nat) : (x.bind i).life = x.life := by rw [StreamState.bind_frame]
@[simp] theorem StreamState.bind_armRequest (x : StreamState) (i : Nat) : (x.bind i).armRequest = x.armRequest := by rw [StreamState.bind_frame]
@[simp] theorem StreamState.bind_armAwaited (x : StreamState) (i : Nat) : (x.bind i).armAwaited = x.armAwaited := by rw [StreamState.bind_frame]
@[simp] theorem StreamState.bind_drainTaken (x : StreamState) (i : Nat) : (x.bind i).drainTaken = x.drainTaken := by rw [StreamState.bind_frame]
@[simp] theorem StreamState.bind_poolQuiet (x : StreamState) (i : Nat) : (x.bind i).poolQuiet = x.poolQuiet := by rw [StreamState.bind_frame]
@[simp] theorem StreamState.bind_mode (x : StreamState) (i : Nat) : (x.bind i).mode = x.mode := by rw [StreamState.bind_frame]
@[simp] theorem StreamState.bind_lastSeq (x : StreamState) (i : Nat) : (x.bind i).lastSeq = x.lastSeq := by rw [StreamState.bind_frame]
@[simp] theorem StreamState.bind_newest (x : StreamState) (i : Nat) : (x.bind i).newest = x.newest := by rw [StreamState.bind_frame]
@[simp] theorem StreamState.bind_previous (x : StreamState) (i : Nat) : (x.bind i).previous = x.previous := by rw [StreamState.bind_frame]
@[simp] theorem StreamState.bind_readers (x : StreamState) (i : Nat) : (x.bind i).readers = x.readers := by rw [StreamState.bind_frame]
@[simp] theorem StreamState.bind_ref (x : StreamState) (i : Nat) : (x.bind i).ref = x.ref := by rw [StreamState.bind_frame]
@[simp] theorem StreamState.bind_timer (x : StreamState) (i : Nat) : (x.bind i).timer = x.timer := by rw [StreamState.bind_frame]
@[simp] theorem StreamState.bind_lock (x : StreamState) (i : Nat) : (x.bind i).lock = x.lock := by rw [StreamState.bind_frame]
@[simp] theorem StreamState.bind_acquire (x : StreamState) (i : Nat) : (x.bind i).acquire = x.acquire := by rw [StreamState.bind_frame]
@[simp] theorem StreamState.bind_loss (x : StreamState) (i : Nat) : (x.bind i).loss = x.loss := by rw [StreamState.bind_frame]
@[simp] theorem StreamState.bind_flags (x : StreamState) (i : Nat) : (x.bind i).flags = x.flags := by rw [StreamState.bind_frame]
@[simp] theorem StreamState.bind_counters (x : StreamState) (i : Nat) : (x.bind i).counters = x.counters := by rw [StreamState.bind_frame]

/-- An unbind changes buffer records and the READY queue alone (R21). -/
theorem StreamState.unbind_frame (x : StreamState) (i : Nat) :
    x.unbind i = { x with bufs := (x.unbind i).bufs, ready := (x.unbind i).ready } := by
  unfold StreamState.unbind; dsimp only; repeat' split
  all_goals rfl

@[simp] theorem StreamState.unbind_current (x : StreamState) (i : Nat) : (x.unbind i).current = x.current := by rw [StreamState.unbind_frame]
@[simp] theorem StreamState.unbind_pendingSlot (x : StreamState) (i : Nat) : (x.unbind i).pendingSlot = x.pendingSlot := by rw [StreamState.unbind_frame]
@[simp] theorem StreamState.unbind_windows (x : StreamState) (i : Nat) : (x.unbind i).windows = x.windows := by rw [StreamState.unbind_frame]
@[simp] theorem StreamState.unbind_life (x : StreamState) (i : Nat) : (x.unbind i).life = x.life := by rw [StreamState.unbind_frame]
@[simp] theorem StreamState.unbind_armRequest (x : StreamState) (i : Nat) : (x.unbind i).armRequest = x.armRequest := by rw [StreamState.unbind_frame]
@[simp] theorem StreamState.unbind_armAwaited (x : StreamState) (i : Nat) : (x.unbind i).armAwaited = x.armAwaited := by rw [StreamState.unbind_frame]
@[simp] theorem StreamState.unbind_drainTaken (x : StreamState) (i : Nat) : (x.unbind i).drainTaken = x.drainTaken := by rw [StreamState.unbind_frame]
@[simp] theorem StreamState.unbind_poolQuiet (x : StreamState) (i : Nat) : (x.unbind i).poolQuiet = x.poolQuiet := by rw [StreamState.unbind_frame]
@[simp] theorem StreamState.unbind_mode (x : StreamState) (i : Nat) : (x.unbind i).mode = x.mode := by rw [StreamState.unbind_frame]
@[simp] theorem StreamState.unbind_lastSeq (x : StreamState) (i : Nat) : (x.unbind i).lastSeq = x.lastSeq := by rw [StreamState.unbind_frame]
@[simp] theorem StreamState.unbind_newest (x : StreamState) (i : Nat) : (x.unbind i).newest = x.newest := by rw [StreamState.unbind_frame]
@[simp] theorem StreamState.unbind_previous (x : StreamState) (i : Nat) : (x.unbind i).previous = x.previous := by rw [StreamState.unbind_frame]
@[simp] theorem StreamState.unbind_readers (x : StreamState) (i : Nat) : (x.unbind i).readers = x.readers := by rw [StreamState.unbind_frame]
@[simp] theorem StreamState.unbind_ref (x : StreamState) (i : Nat) : (x.unbind i).ref = x.ref := by rw [StreamState.unbind_frame]
@[simp] theorem StreamState.unbind_timer (x : StreamState) (i : Nat) : (x.unbind i).timer = x.timer := by rw [StreamState.unbind_frame]
@[simp] theorem StreamState.unbind_lock (x : StreamState) (i : Nat) : (x.unbind i).lock = x.lock := by rw [StreamState.unbind_frame]
@[simp] theorem StreamState.unbind_acquire (x : StreamState) (i : Nat) : (x.unbind i).acquire = x.acquire := by rw [StreamState.unbind_frame]
@[simp] theorem StreamState.unbind_loss (x : StreamState) (i : Nat) : (x.unbind i).loss = x.loss := by rw [StreamState.unbind_frame]
@[simp] theorem StreamState.unbind_flags (x : StreamState) (i : Nat) : (x.unbind i).flags = x.flags := by rw [StreamState.unbind_frame]
@[simp] theorem StreamState.unbind_counters (x : StreamState) (i : Nat) : (x.unbind i).counters = x.counters := by rw [StreamState.unbind_frame]

/-- The hold placement changes buffer records and the READY queue alone (R22). -/
theorem StreamState.placeHold_frame (x : StreamState)  :
    x.placeHold = { x with bufs := (x.placeHold).bufs, ready := (x.placeHold).ready } := by
  unfold StreamState.placeHold; split <;> rfl

@[simp] theorem StreamState.placeHold_current (x : StreamState)  : (x.placeHold).current = x.current := by rw [StreamState.placeHold_frame]
@[simp] theorem StreamState.placeHold_pendingSlot (x : StreamState)  : (x.placeHold).pendingSlot = x.pendingSlot := by rw [StreamState.placeHold_frame]
@[simp] theorem StreamState.placeHold_windows (x : StreamState)  : (x.placeHold).windows = x.windows := by rw [StreamState.placeHold_frame]
@[simp] theorem StreamState.placeHold_life (x : StreamState)  : (x.placeHold).life = x.life := by rw [StreamState.placeHold_frame]
@[simp] theorem StreamState.placeHold_armRequest (x : StreamState)  : (x.placeHold).armRequest = x.armRequest := by rw [StreamState.placeHold_frame]
@[simp] theorem StreamState.placeHold_armAwaited (x : StreamState)  : (x.placeHold).armAwaited = x.armAwaited := by rw [StreamState.placeHold_frame]
@[simp] theorem StreamState.placeHold_drainTaken (x : StreamState)  : (x.placeHold).drainTaken = x.drainTaken := by rw [StreamState.placeHold_frame]
@[simp] theorem StreamState.placeHold_poolQuiet (x : StreamState)  : (x.placeHold).poolQuiet = x.poolQuiet := by rw [StreamState.placeHold_frame]
@[simp] theorem StreamState.placeHold_mode (x : StreamState)  : (x.placeHold).mode = x.mode := by rw [StreamState.placeHold_frame]
@[simp] theorem StreamState.placeHold_lastSeq (x : StreamState)  : (x.placeHold).lastSeq = x.lastSeq := by rw [StreamState.placeHold_frame]
@[simp] theorem StreamState.placeHold_newest (x : StreamState)  : (x.placeHold).newest = x.newest := by rw [StreamState.placeHold_frame]
@[simp] theorem StreamState.placeHold_previous (x : StreamState)  : (x.placeHold).previous = x.previous := by rw [StreamState.placeHold_frame]
@[simp] theorem StreamState.placeHold_readers (x : StreamState)  : (x.placeHold).readers = x.readers := by rw [StreamState.placeHold_frame]
@[simp] theorem StreamState.placeHold_ref (x : StreamState)  : (x.placeHold).ref = x.ref := by rw [StreamState.placeHold_frame]
@[simp] theorem StreamState.placeHold_timer (x : StreamState)  : (x.placeHold).timer = x.timer := by rw [StreamState.placeHold_frame]
@[simp] theorem StreamState.placeHold_lock (x : StreamState)  : (x.placeHold).lock = x.lock := by rw [StreamState.placeHold_frame]
@[simp] theorem StreamState.placeHold_acquire (x : StreamState)  : (x.placeHold).acquire = x.acquire := by rw [StreamState.placeHold_frame]
@[simp] theorem StreamState.placeHold_loss (x : StreamState)  : (x.placeHold).loss = x.loss := by rw [StreamState.placeHold_frame]
@[simp] theorem StreamState.placeHold_flags (x : StreamState)  : (x.placeHold).flags = x.flags := by rw [StreamState.placeHold_frame]
@[simp] theorem StreamState.placeHold_counters (x : StreamState)  : (x.placeHold).counters = x.counters := by rw [StreamState.placeHold_frame]

/-- The hold clearing changes buffer records and the READY queue alone (R23). -/
theorem StreamState.clearHold_frame (x : StreamState)  :
    x.clearHold = { x with bufs := (x.clearHold).bufs, ready := (x.clearHold).ready } := by
  unfold StreamState.clearHold; dsimp only; repeat' split
  all_goals rfl

@[simp] theorem StreamState.clearHold_current (x : StreamState)  : (x.clearHold).current = x.current := by rw [StreamState.clearHold_frame]
@[simp] theorem StreamState.clearHold_pendingSlot (x : StreamState)  : (x.clearHold).pendingSlot = x.pendingSlot := by rw [StreamState.clearHold_frame]
@[simp] theorem StreamState.clearHold_windows (x : StreamState)  : (x.clearHold).windows = x.windows := by rw [StreamState.clearHold_frame]
@[simp] theorem StreamState.clearHold_life (x : StreamState)  : (x.clearHold).life = x.life := by rw [StreamState.clearHold_frame]
@[simp] theorem StreamState.clearHold_armRequest (x : StreamState)  : (x.clearHold).armRequest = x.armRequest := by rw [StreamState.clearHold_frame]
@[simp] theorem StreamState.clearHold_armAwaited (x : StreamState)  : (x.clearHold).armAwaited = x.armAwaited := by rw [StreamState.clearHold_frame]
@[simp] theorem StreamState.clearHold_drainTaken (x : StreamState)  : (x.clearHold).drainTaken = x.drainTaken := by rw [StreamState.clearHold_frame]
@[simp] theorem StreamState.clearHold_poolQuiet (x : StreamState)  : (x.clearHold).poolQuiet = x.poolQuiet := by rw [StreamState.clearHold_frame]
@[simp] theorem StreamState.clearHold_mode (x : StreamState)  : (x.clearHold).mode = x.mode := by rw [StreamState.clearHold_frame]
@[simp] theorem StreamState.clearHold_lastSeq (x : StreamState)  : (x.clearHold).lastSeq = x.lastSeq := by rw [StreamState.clearHold_frame]
@[simp] theorem StreamState.clearHold_newest (x : StreamState)  : (x.clearHold).newest = x.newest := by rw [StreamState.clearHold_frame]
@[simp] theorem StreamState.clearHold_previous (x : StreamState)  : (x.clearHold).previous = x.previous := by rw [StreamState.clearHold_frame]
@[simp] theorem StreamState.clearHold_readers (x : StreamState)  : (x.clearHold).readers = x.readers := by rw [StreamState.clearHold_frame]
@[simp] theorem StreamState.clearHold_ref (x : StreamState)  : (x.clearHold).ref = x.ref := by rw [StreamState.clearHold_frame]
@[simp] theorem StreamState.clearHold_timer (x : StreamState)  : (x.clearHold).timer = x.timer := by rw [StreamState.clearHold_frame]
@[simp] theorem StreamState.clearHold_lock (x : StreamState)  : (x.clearHold).lock = x.lock := by rw [StreamState.clearHold_frame]
@[simp] theorem StreamState.clearHold_acquire (x : StreamState)  : (x.clearHold).acquire = x.acquire := by rw [StreamState.clearHold_frame]
@[simp] theorem StreamState.clearHold_loss (x : StreamState)  : (x.clearHold).loss = x.loss := by rw [StreamState.clearHold_frame]
@[simp] theorem StreamState.clearHold_flags (x : StreamState)  : (x.clearHold).flags = x.flags := by rw [StreamState.clearHold_frame]
@[simp] theorem StreamState.clearHold_counters (x : StreamState)  : (x.clearHold).counters = x.counters := by rw [StreamState.clearHold_frame]

/-- A skip changes buffer records, the READY queue and the skipped counter alone (R15). -/
theorem StreamState.skip_frame (x : StreamState) (q : BitVec 32) :
    x.skip q = { x with bufs := (x.skip q).bufs, ready := (x.skip q).ready, counters := (x.skip q).counters } := by
  exact StreamState.foldl_releaseSkipped_frame _ x

@[simp] theorem StreamState.skip_current (x : StreamState) (q : BitVec 32) : (x.skip q).current = x.current := by rw [StreamState.skip_frame]
@[simp] theorem StreamState.skip_pendingSlot (x : StreamState) (q : BitVec 32) : (x.skip q).pendingSlot = x.pendingSlot := by rw [StreamState.skip_frame]
@[simp] theorem StreamState.skip_windows (x : StreamState) (q : BitVec 32) : (x.skip q).windows = x.windows := by rw [StreamState.skip_frame]
@[simp] theorem StreamState.skip_life (x : StreamState) (q : BitVec 32) : (x.skip q).life = x.life := by rw [StreamState.skip_frame]
@[simp] theorem StreamState.skip_armRequest (x : StreamState) (q : BitVec 32) : (x.skip q).armRequest = x.armRequest := by rw [StreamState.skip_frame]
@[simp] theorem StreamState.skip_armAwaited (x : StreamState) (q : BitVec 32) : (x.skip q).armAwaited = x.armAwaited := by rw [StreamState.skip_frame]
@[simp] theorem StreamState.skip_drainTaken (x : StreamState) (q : BitVec 32) : (x.skip q).drainTaken = x.drainTaken := by rw [StreamState.skip_frame]
@[simp] theorem StreamState.skip_poolQuiet (x : StreamState) (q : BitVec 32) : (x.skip q).poolQuiet = x.poolQuiet := by rw [StreamState.skip_frame]
@[simp] theorem StreamState.skip_mode (x : StreamState) (q : BitVec 32) : (x.skip q).mode = x.mode := by rw [StreamState.skip_frame]
@[simp] theorem StreamState.skip_lastSeq (x : StreamState) (q : BitVec 32) : (x.skip q).lastSeq = x.lastSeq := by rw [StreamState.skip_frame]
@[simp] theorem StreamState.skip_newest (x : StreamState) (q : BitVec 32) : (x.skip q).newest = x.newest := by rw [StreamState.skip_frame]
@[simp] theorem StreamState.skip_previous (x : StreamState) (q : BitVec 32) : (x.skip q).previous = x.previous := by rw [StreamState.skip_frame]
@[simp] theorem StreamState.skip_readers (x : StreamState) (q : BitVec 32) : (x.skip q).readers = x.readers := by rw [StreamState.skip_frame]
@[simp] theorem StreamState.skip_ref (x : StreamState) (q : BitVec 32) : (x.skip q).ref = x.ref := by rw [StreamState.skip_frame]
@[simp] theorem StreamState.skip_timer (x : StreamState) (q : BitVec 32) : (x.skip q).timer = x.timer := by rw [StreamState.skip_frame]
@[simp] theorem StreamState.skip_lock (x : StreamState) (q : BitVec 32) : (x.skip q).lock = x.lock := by rw [StreamState.skip_frame]
@[simp] theorem StreamState.skip_acquire (x : StreamState) (q : BitVec 32) : (x.skip q).acquire = x.acquire := by rw [StreamState.skip_frame]
@[simp] theorem StreamState.skip_loss (x : StreamState) (q : BitVec 32) : (x.skip q).loss = x.loss := by rw [StreamState.skip_frame]
@[simp] theorem StreamState.skip_flags (x : StreamState) (q : BitVec 32) : (x.skip q).flags = x.flags := by rw [StreamState.skip_frame]

/-- The trim changes buffer records, the READY queue and the skipped counter alone (R16). -/
theorem StreamState.trim_frame (x : StreamState)  :
    x.trim = { x with bufs := (x.trim).bufs, ready := (x.trim).ready, counters := (x.trim).counters } := by
  unfold StreamState.trim; split
  · exact StreamState.foldl_releaseSkipped_frame _ x
  · rfl

@[simp] theorem StreamState.trim_current (x : StreamState)  : (x.trim).current = x.current := by rw [StreamState.trim_frame]
@[simp] theorem StreamState.trim_pendingSlot (x : StreamState)  : (x.trim).pendingSlot = x.pendingSlot := by rw [StreamState.trim_frame]
@[simp] theorem StreamState.trim_windows (x : StreamState)  : (x.trim).windows = x.windows := by rw [StreamState.trim_frame]
@[simp] theorem StreamState.trim_life (x : StreamState)  : (x.trim).life = x.life := by rw [StreamState.trim_frame]
@[simp] theorem StreamState.trim_armRequest (x : StreamState)  : (x.trim).armRequest = x.armRequest := by rw [StreamState.trim_frame]
@[simp] theorem StreamState.trim_armAwaited (x : StreamState)  : (x.trim).armAwaited = x.armAwaited := by rw [StreamState.trim_frame]
@[simp] theorem StreamState.trim_drainTaken (x : StreamState)  : (x.trim).drainTaken = x.drainTaken := by rw [StreamState.trim_frame]
@[simp] theorem StreamState.trim_poolQuiet (x : StreamState)  : (x.trim).poolQuiet = x.poolQuiet := by rw [StreamState.trim_frame]
@[simp] theorem StreamState.trim_mode (x : StreamState)  : (x.trim).mode = x.mode := by rw [StreamState.trim_frame]
@[simp] theorem StreamState.trim_lastSeq (x : StreamState)  : (x.trim).lastSeq = x.lastSeq := by rw [StreamState.trim_frame]
@[simp] theorem StreamState.trim_newest (x : StreamState)  : (x.trim).newest = x.newest := by rw [StreamState.trim_frame]
@[simp] theorem StreamState.trim_previous (x : StreamState)  : (x.trim).previous = x.previous := by rw [StreamState.trim_frame]
@[simp] theorem StreamState.trim_readers (x : StreamState)  : (x.trim).readers = x.readers := by rw [StreamState.trim_frame]
@[simp] theorem StreamState.trim_ref (x : StreamState)  : (x.trim).ref = x.ref := by rw [StreamState.trim_frame]
@[simp] theorem StreamState.trim_timer (x : StreamState)  : (x.trim).timer = x.timer := by rw [StreamState.trim_frame]
@[simp] theorem StreamState.trim_lock (x : StreamState)  : (x.trim).lock = x.lock := by rw [StreamState.trim_frame]
@[simp] theorem StreamState.trim_acquire (x : StreamState)  : (x.trim).acquire = x.acquire := by rw [StreamState.trim_frame]
@[simp] theorem StreamState.trim_loss (x : StreamState)  : (x.trim).loss = x.loss := by rw [StreamState.trim_frame]
@[simp] theorem StreamState.trim_flags (x : StreamState)  : (x.trim).flags = x.flags := by rw [StreamState.trim_frame]

/-- A join changes buffer records, the READY queue and the skipped counter alone (R14). -/
theorem StreamState.join_frame (x : StreamState) (i : Nat) :
    x.join i = { x with bufs := (x.join i).bufs, ready := (x.join i).ready, counters := (x.join i).counters } := by
  unfold StreamState.join; dsimp only; split
  · rfl
  · split
    · rw [StreamState.trim_frame]; rfl
    · rfl

@[simp] theorem StreamState.join_current (x : StreamState) (i : Nat) : (x.join i).current = x.current := by rw [StreamState.join_frame]
@[simp] theorem StreamState.join_pendingSlot (x : StreamState) (i : Nat) : (x.join i).pendingSlot = x.pendingSlot := by rw [StreamState.join_frame]
@[simp] theorem StreamState.join_windows (x : StreamState) (i : Nat) : (x.join i).windows = x.windows := by rw [StreamState.join_frame]
@[simp] theorem StreamState.join_life (x : StreamState) (i : Nat) : (x.join i).life = x.life := by rw [StreamState.join_frame]
@[simp] theorem StreamState.join_armRequest (x : StreamState) (i : Nat) : (x.join i).armRequest = x.armRequest := by rw [StreamState.join_frame]
@[simp] theorem StreamState.join_armAwaited (x : StreamState) (i : Nat) : (x.join i).armAwaited = x.armAwaited := by rw [StreamState.join_frame]
@[simp] theorem StreamState.join_drainTaken (x : StreamState) (i : Nat) : (x.join i).drainTaken = x.drainTaken := by rw [StreamState.join_frame]
@[simp] theorem StreamState.join_poolQuiet (x : StreamState) (i : Nat) : (x.join i).poolQuiet = x.poolQuiet := by rw [StreamState.join_frame]
@[simp] theorem StreamState.join_mode (x : StreamState) (i : Nat) : (x.join i).mode = x.mode := by rw [StreamState.join_frame]
@[simp] theorem StreamState.join_lastSeq (x : StreamState) (i : Nat) : (x.join i).lastSeq = x.lastSeq := by rw [StreamState.join_frame]
@[simp] theorem StreamState.join_newest (x : StreamState) (i : Nat) : (x.join i).newest = x.newest := by rw [StreamState.join_frame]
@[simp] theorem StreamState.join_previous (x : StreamState) (i : Nat) : (x.join i).previous = x.previous := by rw [StreamState.join_frame]
@[simp] theorem StreamState.join_readers (x : StreamState) (i : Nat) : (x.join i).readers = x.readers := by rw [StreamState.join_frame]
@[simp] theorem StreamState.join_ref (x : StreamState) (i : Nat) : (x.join i).ref = x.ref := by rw [StreamState.join_frame]
@[simp] theorem StreamState.join_timer (x : StreamState) (i : Nat) : (x.join i).timer = x.timer := by rw [StreamState.join_frame]
@[simp] theorem StreamState.join_lock (x : StreamState) (i : Nat) : (x.join i).lock = x.lock := by rw [StreamState.join_frame]
@[simp] theorem StreamState.join_acquire (x : StreamState) (i : Nat) : (x.join i).acquire = x.acquire := by rw [StreamState.join_frame]
@[simp] theorem StreamState.join_loss (x : StreamState) (i : Nat) : (x.join i).loss = x.loss := by rw [StreamState.join_frame]
@[simp] theorem StreamState.join_flags (x : StreamState) (i : Nat) : (x.join i).flags = x.flags := by rw [StreamState.join_frame]

/-- The change into FREERUN changes the lock, its counters, the flags and the pool alone (R109). -/
theorem StreamState.loseLock_frame (x : StreamState)  :
    x.loseLock = { x with lock := (x.loseLock).lock, loss := (x.loseLock).loss, flags := (x.loseLock).flags, bufs := (x.loseLock).bufs, ready := (x.loseLock).ready } := by
  unfold StreamState.loseLock; dsimp only; split
  · rw [StreamState.placeHold_frame]; rfl
  · rfl

@[simp] theorem StreamState.loseLock_current (x : StreamState)  : (x.loseLock).current = x.current := by rw [StreamState.loseLock_frame]
@[simp] theorem StreamState.loseLock_pendingSlot (x : StreamState)  : (x.loseLock).pendingSlot = x.pendingSlot := by rw [StreamState.loseLock_frame]
@[simp] theorem StreamState.loseLock_windows (x : StreamState)  : (x.loseLock).windows = x.windows := by rw [StreamState.loseLock_frame]
@[simp] theorem StreamState.loseLock_life (x : StreamState)  : (x.loseLock).life = x.life := by rw [StreamState.loseLock_frame]
@[simp] theorem StreamState.loseLock_armRequest (x : StreamState)  : (x.loseLock).armRequest = x.armRequest := by rw [StreamState.loseLock_frame]
@[simp] theorem StreamState.loseLock_armAwaited (x : StreamState)  : (x.loseLock).armAwaited = x.armAwaited := by rw [StreamState.loseLock_frame]
@[simp] theorem StreamState.loseLock_drainTaken (x : StreamState)  : (x.loseLock).drainTaken = x.drainTaken := by rw [StreamState.loseLock_frame]
@[simp] theorem StreamState.loseLock_poolQuiet (x : StreamState)  : (x.loseLock).poolQuiet = x.poolQuiet := by rw [StreamState.loseLock_frame]
@[simp] theorem StreamState.loseLock_mode (x : StreamState)  : (x.loseLock).mode = x.mode := by rw [StreamState.loseLock_frame]
@[simp] theorem StreamState.loseLock_lastSeq (x : StreamState)  : (x.loseLock).lastSeq = x.lastSeq := by rw [StreamState.loseLock_frame]
@[simp] theorem StreamState.loseLock_newest (x : StreamState)  : (x.loseLock).newest = x.newest := by rw [StreamState.loseLock_frame]
@[simp] theorem StreamState.loseLock_previous (x : StreamState)  : (x.loseLock).previous = x.previous := by rw [StreamState.loseLock_frame]
@[simp] theorem StreamState.loseLock_readers (x : StreamState)  : (x.loseLock).readers = x.readers := by rw [StreamState.loseLock_frame]
@[simp] theorem StreamState.loseLock_ref (x : StreamState)  : (x.loseLock).ref = x.ref := by rw [StreamState.loseLock_frame]
@[simp] theorem StreamState.loseLock_timer (x : StreamState)  : (x.loseLock).timer = x.timer := by rw [StreamState.loseLock_frame]
@[simp] theorem StreamState.loseLock_acquire (x : StreamState)  : (x.loseLock).acquire = x.acquire := by rw [StreamState.loseLock_frame]
@[simp] theorem StreamState.loseLock_counters (x : StreamState)  : (x.loseLock).counters = x.counters := by rw [StreamState.loseLock_frame]

/-- The relock changes the lock, its counters, the flags and the pool alone (R110). -/
theorem StreamState.relock_frame (x : StreamState)  :
    x.relock = { x with lock := (x.relock).lock, acquire := (x.relock).acquire, flags := (x.relock).flags, bufs := (x.relock).bufs, ready := (x.relock).ready } := by
  unfold StreamState.relock; dsimp only; split
  · rw [StreamState.clearHold_frame]; rfl
  · rfl

@[simp] theorem StreamState.relock_current (x : StreamState)  : (x.relock).current = x.current := by rw [StreamState.relock_frame]
@[simp] theorem StreamState.relock_pendingSlot (x : StreamState)  : (x.relock).pendingSlot = x.pendingSlot := by rw [StreamState.relock_frame]
@[simp] theorem StreamState.relock_windows (x : StreamState)  : (x.relock).windows = x.windows := by rw [StreamState.relock_frame]
@[simp] theorem StreamState.relock_life (x : StreamState)  : (x.relock).life = x.life := by rw [StreamState.relock_frame]
@[simp] theorem StreamState.relock_armRequest (x : StreamState)  : (x.relock).armRequest = x.armRequest := by rw [StreamState.relock_frame]
@[simp] theorem StreamState.relock_armAwaited (x : StreamState)  : (x.relock).armAwaited = x.armAwaited := by rw [StreamState.relock_frame]
@[simp] theorem StreamState.relock_drainTaken (x : StreamState)  : (x.relock).drainTaken = x.drainTaken := by rw [StreamState.relock_frame]
@[simp] theorem StreamState.relock_poolQuiet (x : StreamState)  : (x.relock).poolQuiet = x.poolQuiet := by rw [StreamState.relock_frame]
@[simp] theorem StreamState.relock_mode (x : StreamState)  : (x.relock).mode = x.mode := by rw [StreamState.relock_frame]
@[simp] theorem StreamState.relock_lastSeq (x : StreamState)  : (x.relock).lastSeq = x.lastSeq := by rw [StreamState.relock_frame]
@[simp] theorem StreamState.relock_newest (x : StreamState)  : (x.relock).newest = x.newest := by rw [StreamState.relock_frame]
@[simp] theorem StreamState.relock_previous (x : StreamState)  : (x.relock).previous = x.previous := by rw [StreamState.relock_frame]
@[simp] theorem StreamState.relock_readers (x : StreamState)  : (x.relock).readers = x.readers := by rw [StreamState.relock_frame]
@[simp] theorem StreamState.relock_ref (x : StreamState)  : (x.relock).ref = x.ref := by rw [StreamState.relock_frame]
@[simp] theorem StreamState.relock_timer (x : StreamState)  : (x.relock).timer = x.timer := by rw [StreamState.relock_frame]
@[simp] theorem StreamState.relock_loss (x : StreamState)  : (x.relock).loss = x.loss := by rw [StreamState.relock_frame]
@[simp] theorem StreamState.relock_counters (x : StreamState)  : (x.relock).counters = x.counters := by rw [StreamState.relock_frame]

/-- A lock input changes the lock, its counters, the flags and the pool alone (R104 to R110). -/
theorem StreamState.lockInput_frame (x : StreamState) (c : LockInput) :
    x.lockInput c = { x with lock := (x.lockInput c).lock, acquire := (x.lockInput c).acquire, loss := (x.lockInput c).loss, flags := (x.lockInput c).flags, bufs := (x.lockInput c).bufs, ready := (x.lockInput c).ready } := by
  unfold StreamState.lockInput; repeat' split
  all_goals first | rfl | (rw [StreamState.loseLock_frame]) | (rw [StreamState.relock_frame])

@[simp] theorem StreamState.lockInput_current (x : StreamState) (c : LockInput) : (x.lockInput c).current = x.current := by rw [StreamState.lockInput_frame]
@[simp] theorem StreamState.lockInput_pendingSlot (x : StreamState) (c : LockInput) : (x.lockInput c).pendingSlot = x.pendingSlot := by rw [StreamState.lockInput_frame]
@[simp] theorem StreamState.lockInput_windows (x : StreamState) (c : LockInput) : (x.lockInput c).windows = x.windows := by rw [StreamState.lockInput_frame]
@[simp] theorem StreamState.lockInput_life (x : StreamState) (c : LockInput) : (x.lockInput c).life = x.life := by rw [StreamState.lockInput_frame]
@[simp] theorem StreamState.lockInput_armRequest (x : StreamState) (c : LockInput) : (x.lockInput c).armRequest = x.armRequest := by rw [StreamState.lockInput_frame]
@[simp] theorem StreamState.lockInput_armAwaited (x : StreamState) (c : LockInput) : (x.lockInput c).armAwaited = x.armAwaited := by rw [StreamState.lockInput_frame]
@[simp] theorem StreamState.lockInput_drainTaken (x : StreamState) (c : LockInput) : (x.lockInput c).drainTaken = x.drainTaken := by rw [StreamState.lockInput_frame]
@[simp] theorem StreamState.lockInput_poolQuiet (x : StreamState) (c : LockInput) : (x.lockInput c).poolQuiet = x.poolQuiet := by rw [StreamState.lockInput_frame]
@[simp] theorem StreamState.lockInput_mode (x : StreamState) (c : LockInput) : (x.lockInput c).mode = x.mode := by rw [StreamState.lockInput_frame]
@[simp] theorem StreamState.lockInput_lastSeq (x : StreamState) (c : LockInput) : (x.lockInput c).lastSeq = x.lastSeq := by rw [StreamState.lockInput_frame]
@[simp] theorem StreamState.lockInput_newest (x : StreamState) (c : LockInput) : (x.lockInput c).newest = x.newest := by rw [StreamState.lockInput_frame]
@[simp] theorem StreamState.lockInput_previous (x : StreamState) (c : LockInput) : (x.lockInput c).previous = x.previous := by rw [StreamState.lockInput_frame]
@[simp] theorem StreamState.lockInput_readers (x : StreamState) (c : LockInput) : (x.lockInput c).readers = x.readers := by rw [StreamState.lockInput_frame]
@[simp] theorem StreamState.lockInput_ref (x : StreamState) (c : LockInput) : (x.lockInput c).ref = x.ref := by rw [StreamState.lockInput_frame]
@[simp] theorem StreamState.lockInput_timer (x : StreamState) (c : LockInput) : (x.lockInput c).timer = x.timer := by rw [StreamState.lockInput_frame]
@[simp] theorem StreamState.lockInput_counters (x : StreamState) (c : LockInput) : (x.lockInput c).counters = x.counters := by rw [StreamState.lockInput_frame]

/-- A verdict counted changes counters and flags alone (R13). -/
theorem StreamState.countVerdict_frame (x : StreamState) (v : Verdict) :
    x.countVerdict v = { x with counters := (x.countVerdict v).counters, flags := (x.countVerdict v).flags } := by
  cases v <;> rfl

@[simp] theorem StreamState.countVerdict_current (x : StreamState) (v : Verdict) : (x.countVerdict v).current = x.current := by rw [StreamState.countVerdict_frame]
@[simp] theorem StreamState.countVerdict_pendingSlot (x : StreamState) (v : Verdict) : (x.countVerdict v).pendingSlot = x.pendingSlot := by rw [StreamState.countVerdict_frame]
@[simp] theorem StreamState.countVerdict_windows (x : StreamState) (v : Verdict) : (x.countVerdict v).windows = x.windows := by rw [StreamState.countVerdict_frame]
@[simp] theorem StreamState.countVerdict_life (x : StreamState) (v : Verdict) : (x.countVerdict v).life = x.life := by rw [StreamState.countVerdict_frame]
@[simp] theorem StreamState.countVerdict_armRequest (x : StreamState) (v : Verdict) : (x.countVerdict v).armRequest = x.armRequest := by rw [StreamState.countVerdict_frame]
@[simp] theorem StreamState.countVerdict_armAwaited (x : StreamState) (v : Verdict) : (x.countVerdict v).armAwaited = x.armAwaited := by rw [StreamState.countVerdict_frame]
@[simp] theorem StreamState.countVerdict_drainTaken (x : StreamState) (v : Verdict) : (x.countVerdict v).drainTaken = x.drainTaken := by rw [StreamState.countVerdict_frame]
@[simp] theorem StreamState.countVerdict_poolQuiet (x : StreamState) (v : Verdict) : (x.countVerdict v).poolQuiet = x.poolQuiet := by rw [StreamState.countVerdict_frame]
@[simp] theorem StreamState.countVerdict_bufs (x : StreamState) (v : Verdict) : (x.countVerdict v).bufs = x.bufs := by rw [StreamState.countVerdict_frame]
@[simp] theorem StreamState.countVerdict_ready (x : StreamState) (v : Verdict) : (x.countVerdict v).ready = x.ready := by rw [StreamState.countVerdict_frame]
@[simp] theorem StreamState.countVerdict_mode (x : StreamState) (v : Verdict) : (x.countVerdict v).mode = x.mode := by rw [StreamState.countVerdict_frame]
@[simp] theorem StreamState.countVerdict_lastSeq (x : StreamState) (v : Verdict) : (x.countVerdict v).lastSeq = x.lastSeq := by rw [StreamState.countVerdict_frame]
@[simp] theorem StreamState.countVerdict_newest (x : StreamState) (v : Verdict) : (x.countVerdict v).newest = x.newest := by rw [StreamState.countVerdict_frame]
@[simp] theorem StreamState.countVerdict_previous (x : StreamState) (v : Verdict) : (x.countVerdict v).previous = x.previous := by rw [StreamState.countVerdict_frame]
@[simp] theorem StreamState.countVerdict_readers (x : StreamState) (v : Verdict) : (x.countVerdict v).readers = x.readers := by rw [StreamState.countVerdict_frame]
@[simp] theorem StreamState.countVerdict_ref (x : StreamState) (v : Verdict) : (x.countVerdict v).ref = x.ref := by rw [StreamState.countVerdict_frame]
@[simp] theorem StreamState.countVerdict_timer (x : StreamState) (v : Verdict) : (x.countVerdict v).timer = x.timer := by rw [StreamState.countVerdict_frame]
@[simp] theorem StreamState.countVerdict_lock (x : StreamState) (v : Verdict) : (x.countVerdict v).lock = x.lock := by rw [StreamState.countVerdict_frame]
@[simp] theorem StreamState.countVerdict_acquire (x : StreamState) (v : Verdict) : (x.countVerdict v).acquire = x.acquire := by rw [StreamState.countVerdict_frame]
@[simp] theorem StreamState.countVerdict_loss (x : StreamState) (v : Verdict) : (x.countVerdict v).loss = x.loss := by rw [StreamState.countVerdict_frame]

/-- A verdict handed on changes the lock, the verdict entries, counters, flags and the pool alone (R13). -/
theorem StreamState.handOn_frame (x : StreamState) (v : Verdict) (b : Buf) :
    x.handOn v b = { x with lock := (x.handOn v b).lock, acquire := (x.handOn v b).acquire, loss := (x.handOn v b).loss, flags := (x.handOn v b).flags, bufs := (x.handOn v b).bufs, ready := (x.handOn v b).ready, newest := (x.handOn v b).newest, previous := (x.handOn v b).previous, counters := (x.handOn v b).counters } := by
  unfold StreamState.handOn; rw [StreamState.countVerdict_frame]; unfold StreamState.report; dsimp only
  rw [StreamState.lockInput_frame]

@[simp] theorem StreamState.handOn_current (x : StreamState) (v : Verdict) (b : Buf) : (x.handOn v b).current = x.current := by rw [StreamState.handOn_frame]
@[simp] theorem StreamState.handOn_pendingSlot (x : StreamState) (v : Verdict) (b : Buf) : (x.handOn v b).pendingSlot = x.pendingSlot := by rw [StreamState.handOn_frame]
@[simp] theorem StreamState.handOn_windows (x : StreamState) (v : Verdict) (b : Buf) : (x.handOn v b).windows = x.windows := by rw [StreamState.handOn_frame]
@[simp] theorem StreamState.handOn_life (x : StreamState) (v : Verdict) (b : Buf) : (x.handOn v b).life = x.life := by rw [StreamState.handOn_frame]
@[simp] theorem StreamState.handOn_armRequest (x : StreamState) (v : Verdict) (b : Buf) : (x.handOn v b).armRequest = x.armRequest := by rw [StreamState.handOn_frame]
@[simp] theorem StreamState.handOn_armAwaited (x : StreamState) (v : Verdict) (b : Buf) : (x.handOn v b).armAwaited = x.armAwaited := by rw [StreamState.handOn_frame]
@[simp] theorem StreamState.handOn_drainTaken (x : StreamState) (v : Verdict) (b : Buf) : (x.handOn v b).drainTaken = x.drainTaken := by rw [StreamState.handOn_frame]
@[simp] theorem StreamState.handOn_poolQuiet (x : StreamState) (v : Verdict) (b : Buf) : (x.handOn v b).poolQuiet = x.poolQuiet := by rw [StreamState.handOn_frame]
@[simp] theorem StreamState.handOn_mode (x : StreamState) (v : Verdict) (b : Buf) : (x.handOn v b).mode = x.mode := by rw [StreamState.handOn_frame]
@[simp] theorem StreamState.handOn_lastSeq (x : StreamState) (v : Verdict) (b : Buf) : (x.handOn v b).lastSeq = x.lastSeq := by rw [StreamState.handOn_frame]
@[simp] theorem StreamState.handOn_readers (x : StreamState) (v : Verdict) (b : Buf) : (x.handOn v b).readers = x.readers := by rw [StreamState.handOn_frame]
@[simp] theorem StreamState.handOn_ref (x : StreamState) (v : Verdict) (b : Buf) : (x.handOn v b).ref = x.ref := by rw [StreamState.handOn_frame]
@[simp] theorem StreamState.handOn_timer (x : StreamState) (v : Verdict) (b : Buf) : (x.handOn v b).timer = x.timer := by rw [StreamState.handOn_frame]

/-- A good verdict changes what its hand-on and join change (R12). -/
theorem StreamState.finishGood_frame (x : StreamState) (v : Verdict) (i : Nat) (b : Buf) :
    x.finishGood v i b = { x with lock := (x.finishGood v i b).lock, acquire := (x.finishGood v i b).acquire, loss := (x.finishGood v i b).loss, flags := (x.finishGood v i b).flags, bufs := (x.finishGood v i b).bufs, ready := (x.finishGood v i b).ready, newest := (x.finishGood v i b).newest, previous := (x.finishGood v i b).previous, counters := (x.finishGood v i b).counters } := by
  unfold StreamState.finishGood; rw [StreamState.join_frame]; unfold StreamState.onBuf; dsimp only
  rw [StreamState.handOn_frame]

@[simp] theorem StreamState.finishGood_current (x : StreamState) (v : Verdict) (i : Nat) (b : Buf) : (x.finishGood v i b).current = x.current := by rw [StreamState.finishGood_frame]
@[simp] theorem StreamState.finishGood_pendingSlot (x : StreamState) (v : Verdict) (i : Nat) (b : Buf) : (x.finishGood v i b).pendingSlot = x.pendingSlot := by rw [StreamState.finishGood_frame]
@[simp] theorem StreamState.finishGood_windows (x : StreamState) (v : Verdict) (i : Nat) (b : Buf) : (x.finishGood v i b).windows = x.windows := by rw [StreamState.finishGood_frame]
@[simp] theorem StreamState.finishGood_life (x : StreamState) (v : Verdict) (i : Nat) (b : Buf) : (x.finishGood v i b).life = x.life := by rw [StreamState.finishGood_frame]
@[simp] theorem StreamState.finishGood_armRequest (x : StreamState) (v : Verdict) (i : Nat) (b : Buf) : (x.finishGood v i b).armRequest = x.armRequest := by rw [StreamState.finishGood_frame]
@[simp] theorem StreamState.finishGood_armAwaited (x : StreamState) (v : Verdict) (i : Nat) (b : Buf) : (x.finishGood v i b).armAwaited = x.armAwaited := by rw [StreamState.finishGood_frame]
@[simp] theorem StreamState.finishGood_drainTaken (x : StreamState) (v : Verdict) (i : Nat) (b : Buf) : (x.finishGood v i b).drainTaken = x.drainTaken := by rw [StreamState.finishGood_frame]
@[simp] theorem StreamState.finishGood_poolQuiet (x : StreamState) (v : Verdict) (i : Nat) (b : Buf) : (x.finishGood v i b).poolQuiet = x.poolQuiet := by rw [StreamState.finishGood_frame]
@[simp] theorem StreamState.finishGood_mode (x : StreamState) (v : Verdict) (i : Nat) (b : Buf) : (x.finishGood v i b).mode = x.mode := by rw [StreamState.finishGood_frame]
@[simp] theorem StreamState.finishGood_lastSeq (x : StreamState) (v : Verdict) (i : Nat) (b : Buf) : (x.finishGood v i b).lastSeq = x.lastSeq := by rw [StreamState.finishGood_frame]
@[simp] theorem StreamState.finishGood_readers (x : StreamState) (v : Verdict) (i : Nat) (b : Buf) : (x.finishGood v i b).readers = x.readers := by rw [StreamState.finishGood_frame]
@[simp] theorem StreamState.finishGood_ref (x : StreamState) (v : Verdict) (i : Nat) (b : Buf) : (x.finishGood v i b).ref = x.ref := by rw [StreamState.finishGood_frame]
@[simp] theorem StreamState.finishGood_timer (x : StreamState) (v : Verdict) (i : Nat) (b : Buf) : (x.finishGood v i b).timer = x.timer := by rw [StreamState.finishGood_frame]

/-- A bad verdict changes what its hand-on and release change (R12). -/
theorem StreamState.finishBad_frame (x : StreamState) (v : Verdict) (i : Nat) (b : Buf) :
    x.finishBad v i b = { x with lock := (x.finishBad v i b).lock, acquire := (x.finishBad v i b).acquire, loss := (x.finishBad v i b).loss, flags := (x.finishBad v i b).flags, bufs := (x.finishBad v i b).bufs, ready := (x.finishBad v i b).ready, newest := (x.finishBad v i b).newest, previous := (x.finishBad v i b).previous, counters := (x.finishBad v i b).counters } := by
  unfold StreamState.finishBad StreamState.release StreamState.onBuf StreamState.dequeue; dsimp only
  rw [StreamState.handOn_frame]

@[simp] theorem StreamState.finishBad_current (x : StreamState) (v : Verdict) (i : Nat) (b : Buf) : (x.finishBad v i b).current = x.current := by rw [StreamState.finishBad_frame]
@[simp] theorem StreamState.finishBad_pendingSlot (x : StreamState) (v : Verdict) (i : Nat) (b : Buf) : (x.finishBad v i b).pendingSlot = x.pendingSlot := by rw [StreamState.finishBad_frame]
@[simp] theorem StreamState.finishBad_windows (x : StreamState) (v : Verdict) (i : Nat) (b : Buf) : (x.finishBad v i b).windows = x.windows := by rw [StreamState.finishBad_frame]
@[simp] theorem StreamState.finishBad_life (x : StreamState) (v : Verdict) (i : Nat) (b : Buf) : (x.finishBad v i b).life = x.life := by rw [StreamState.finishBad_frame]
@[simp] theorem StreamState.finishBad_armRequest (x : StreamState) (v : Verdict) (i : Nat) (b : Buf) : (x.finishBad v i b).armRequest = x.armRequest := by rw [StreamState.finishBad_frame]
@[simp] theorem StreamState.finishBad_armAwaited (x : StreamState) (v : Verdict) (i : Nat) (b : Buf) : (x.finishBad v i b).armAwaited = x.armAwaited := by rw [StreamState.finishBad_frame]
@[simp] theorem StreamState.finishBad_drainTaken (x : StreamState) (v : Verdict) (i : Nat) (b : Buf) : (x.finishBad v i b).drainTaken = x.drainTaken := by rw [StreamState.finishBad_frame]
@[simp] theorem StreamState.finishBad_poolQuiet (x : StreamState) (v : Verdict) (i : Nat) (b : Buf) : (x.finishBad v i b).poolQuiet = x.poolQuiet := by rw [StreamState.finishBad_frame]
@[simp] theorem StreamState.finishBad_mode (x : StreamState) (v : Verdict) (i : Nat) (b : Buf) : (x.finishBad v i b).mode = x.mode := by rw [StreamState.finishBad_frame]
@[simp] theorem StreamState.finishBad_lastSeq (x : StreamState) (v : Verdict) (i : Nat) (b : Buf) : (x.finishBad v i b).lastSeq = x.lastSeq := by rw [StreamState.finishBad_frame]
@[simp] theorem StreamState.finishBad_readers (x : StreamState) (v : Verdict) (i : Nat) (b : Buf) : (x.finishBad v i b).readers = x.readers := by rw [StreamState.finishBad_frame]
@[simp] theorem StreamState.finishBad_ref (x : StreamState) (v : Verdict) (i : Nat) (b : Buf) : (x.finishBad v i b).ref = x.ref := by rw [StreamState.finishBad_frame]
@[simp] theorem StreamState.finishBad_timer (x : StreamState) (v : Verdict) (i : Nat) (b : Buf) : (x.finishBad v i b).timer = x.timer := by rw [StreamState.finishBad_frame]

/-- Unbinding a reader changes buffer records and the READY queue alone (R21). -/
theorem StreamState.unbindOld_frame (x : StreamState) (r : Reader) :
    x.unbindOld r = { x with bufs := (x.unbindOld r).bufs, ready := (x.unbindOld r).ready } := by
  unfold StreamState.unbindOld; split
  · exact StreamState.unbind_frame x _
  all_goals rfl

@[simp] theorem StreamState.unbindOld_current (x : StreamState) (r : Reader) : (x.unbindOld r).current = x.current := by rw [StreamState.unbindOld_frame]
@[simp] theorem StreamState.unbindOld_pendingSlot (x : StreamState) (r : Reader) : (x.unbindOld r).pendingSlot = x.pendingSlot := by rw [StreamState.unbindOld_frame]
@[simp] theorem StreamState.unbindOld_windows (x : StreamState) (r : Reader) : (x.unbindOld r).windows = x.windows := by rw [StreamState.unbindOld_frame]
@[simp] theorem StreamState.unbindOld_life (x : StreamState) (r : Reader) : (x.unbindOld r).life = x.life := by rw [StreamState.unbindOld_frame]
@[simp] theorem StreamState.unbindOld_armRequest (x : StreamState) (r : Reader) : (x.unbindOld r).armRequest = x.armRequest := by rw [StreamState.unbindOld_frame]
@[simp] theorem StreamState.unbindOld_armAwaited (x : StreamState) (r : Reader) : (x.unbindOld r).armAwaited = x.armAwaited := by rw [StreamState.unbindOld_frame]
@[simp] theorem StreamState.unbindOld_drainTaken (x : StreamState) (r : Reader) : (x.unbindOld r).drainTaken = x.drainTaken := by rw [StreamState.unbindOld_frame]
@[simp] theorem StreamState.unbindOld_poolQuiet (x : StreamState) (r : Reader) : (x.unbindOld r).poolQuiet = x.poolQuiet := by rw [StreamState.unbindOld_frame]
@[simp] theorem StreamState.unbindOld_mode (x : StreamState) (r : Reader) : (x.unbindOld r).mode = x.mode := by rw [StreamState.unbindOld_frame]
@[simp] theorem StreamState.unbindOld_lastSeq (x : StreamState) (r : Reader) : (x.unbindOld r).lastSeq = x.lastSeq := by rw [StreamState.unbindOld_frame]
@[simp] theorem StreamState.unbindOld_newest (x : StreamState) (r : Reader) : (x.unbindOld r).newest = x.newest := by rw [StreamState.unbindOld_frame]
@[simp] theorem StreamState.unbindOld_previous (x : StreamState) (r : Reader) : (x.unbindOld r).previous = x.previous := by rw [StreamState.unbindOld_frame]
@[simp] theorem StreamState.unbindOld_readers (x : StreamState) (r : Reader) : (x.unbindOld r).readers = x.readers := by rw [StreamState.unbindOld_frame]
@[simp] theorem StreamState.unbindOld_ref (x : StreamState) (r : Reader) : (x.unbindOld r).ref = x.ref := by rw [StreamState.unbindOld_frame]
@[simp] theorem StreamState.unbindOld_timer (x : StreamState) (r : Reader) : (x.unbindOld r).timer = x.timer := by rw [StreamState.unbindOld_frame]
@[simp] theorem StreamState.unbindOld_lock (x : StreamState) (r : Reader) : (x.unbindOld r).lock = x.lock := by rw [StreamState.unbindOld_frame]
@[simp] theorem StreamState.unbindOld_acquire (x : StreamState) (r : Reader) : (x.unbindOld r).acquire = x.acquire := by rw [StreamState.unbindOld_frame]
@[simp] theorem StreamState.unbindOld_loss (x : StreamState) (r : Reader) : (x.unbindOld r).loss = x.loss := by rw [StreamState.unbindOld_frame]
@[simp] theorem StreamState.unbindOld_flags (x : StreamState) (r : Reader) : (x.unbindOld r).flags = x.flags := by rw [StreamState.unbindOld_frame]
@[simp] theorem StreamState.unbindOld_counters (x : StreamState) (r : Reader) : (x.unbindOld r).counters = x.counters := by rw [StreamState.unbindOld_frame]

/-- A claim's binding changes buffer records and the READY queue alone (R78). -/
theorem StreamState.rebind_frame (x : StreamState) (r : Reader) (g : Target) :
    x.rebind r g = { x with bufs := (x.rebind r g).bufs, ready := (x.rebind r g).ready } := by
  cases g with
  | bind i c => unfold StreamState.rebind; dsimp only; rw [StreamState.unbindOld_frame, StreamState.bind_frame]
  | keep c => rfl
  | fill => exact StreamState.unbindOld_frame x r

@[simp] theorem StreamState.rebind_current (x : StreamState) (r : Reader) (g : Target) : (x.rebind r g).current = x.current := by rw [StreamState.rebind_frame]
@[simp] theorem StreamState.rebind_pendingSlot (x : StreamState) (r : Reader) (g : Target) : (x.rebind r g).pendingSlot = x.pendingSlot := by rw [StreamState.rebind_frame]
@[simp] theorem StreamState.rebind_windows (x : StreamState) (r : Reader) (g : Target) : (x.rebind r g).windows = x.windows := by rw [StreamState.rebind_frame]
@[simp] theorem StreamState.rebind_life (x : StreamState) (r : Reader) (g : Target) : (x.rebind r g).life = x.life := by rw [StreamState.rebind_frame]
@[simp] theorem StreamState.rebind_armRequest (x : StreamState) (r : Reader) (g : Target) : (x.rebind r g).armRequest = x.armRequest := by rw [StreamState.rebind_frame]
@[simp] theorem StreamState.rebind_armAwaited (x : StreamState) (r : Reader) (g : Target) : (x.rebind r g).armAwaited = x.armAwaited := by rw [StreamState.rebind_frame]
@[simp] theorem StreamState.rebind_drainTaken (x : StreamState) (r : Reader) (g : Target) : (x.rebind r g).drainTaken = x.drainTaken := by rw [StreamState.rebind_frame]
@[simp] theorem StreamState.rebind_poolQuiet (x : StreamState) (r : Reader) (g : Target) : (x.rebind r g).poolQuiet = x.poolQuiet := by rw [StreamState.rebind_frame]
@[simp] theorem StreamState.rebind_mode (x : StreamState) (r : Reader) (g : Target) : (x.rebind r g).mode = x.mode := by rw [StreamState.rebind_frame]
@[simp] theorem StreamState.rebind_lastSeq (x : StreamState) (r : Reader) (g : Target) : (x.rebind r g).lastSeq = x.lastSeq := by rw [StreamState.rebind_frame]
@[simp] theorem StreamState.rebind_newest (x : StreamState) (r : Reader) (g : Target) : (x.rebind r g).newest = x.newest := by rw [StreamState.rebind_frame]
@[simp] theorem StreamState.rebind_previous (x : StreamState) (r : Reader) (g : Target) : (x.rebind r g).previous = x.previous := by rw [StreamState.rebind_frame]
@[simp] theorem StreamState.rebind_readers (x : StreamState) (r : Reader) (g : Target) : (x.rebind r g).readers = x.readers := by rw [StreamState.rebind_frame]
@[simp] theorem StreamState.rebind_ref (x : StreamState) (r : Reader) (g : Target) : (x.rebind r g).ref = x.ref := by rw [StreamState.rebind_frame]
@[simp] theorem StreamState.rebind_timer (x : StreamState) (r : Reader) (g : Target) : (x.rebind r g).timer = x.timer := by rw [StreamState.rebind_frame]
@[simp] theorem StreamState.rebind_lock (x : StreamState) (r : Reader) (g : Target) : (x.rebind r g).lock = x.lock := by rw [StreamState.rebind_frame]
@[simp] theorem StreamState.rebind_acquire (x : StreamState) (r : Reader) (g : Target) : (x.rebind r g).acquire = x.acquire := by rw [StreamState.rebind_frame]
@[simp] theorem StreamState.rebind_loss (x : StreamState) (r : Reader) (g : Target) : (x.rebind r g).loss = x.loss := by rw [StreamState.rebind_frame]
@[simp] theorem StreamState.rebind_flags (x : StreamState) (r : Reader) (g : Target) : (x.rebind r g).flags = x.flags := by rw [StreamState.rebind_frame]
@[simp] theorem StreamState.rebind_counters (x : StreamState) (r : Reader) (g : Target) : (x.rebind r g).counters = x.counters := by rw [StreamState.rebind_frame]

/-- A claim's skip changes buffer records, the READY queue and the skipped counter alone (R79). -/
theorem StreamState.claimSkip_frame (x : StreamState) (c : Option Nat) :
    x.claimSkip c = { x with bufs := (x.claimSkip c).bufs, ready := (x.claimSkip c).ready, counters := (x.claimSkip c).counters } := by
  unfold StreamState.claimSkip; split
  · exact StreamState.skip_frame x _
  · rfl

@[simp] theorem StreamState.claimSkip_current (x : StreamState) (c : Option Nat) : (x.claimSkip c).current = x.current := by rw [StreamState.claimSkip_frame]
@[simp] theorem StreamState.claimSkip_pendingSlot (x : StreamState) (c : Option Nat) : (x.claimSkip c).pendingSlot = x.pendingSlot := by rw [StreamState.claimSkip_frame]
@[simp] theorem StreamState.claimSkip_windows (x : StreamState) (c : Option Nat) : (x.claimSkip c).windows = x.windows := by rw [StreamState.claimSkip_frame]
@[simp] theorem StreamState.claimSkip_life (x : StreamState) (c : Option Nat) : (x.claimSkip c).life = x.life := by rw [StreamState.claimSkip_frame]
@[simp] theorem StreamState.claimSkip_armRequest (x : StreamState) (c : Option Nat) : (x.claimSkip c).armRequest = x.armRequest := by rw [StreamState.claimSkip_frame]
@[simp] theorem StreamState.claimSkip_armAwaited (x : StreamState) (c : Option Nat) : (x.claimSkip c).armAwaited = x.armAwaited := by rw [StreamState.claimSkip_frame]
@[simp] theorem StreamState.claimSkip_drainTaken (x : StreamState) (c : Option Nat) : (x.claimSkip c).drainTaken = x.drainTaken := by rw [StreamState.claimSkip_frame]
@[simp] theorem StreamState.claimSkip_poolQuiet (x : StreamState) (c : Option Nat) : (x.claimSkip c).poolQuiet = x.poolQuiet := by rw [StreamState.claimSkip_frame]
@[simp] theorem StreamState.claimSkip_mode (x : StreamState) (c : Option Nat) : (x.claimSkip c).mode = x.mode := by rw [StreamState.claimSkip_frame]
@[simp] theorem StreamState.claimSkip_lastSeq (x : StreamState) (c : Option Nat) : (x.claimSkip c).lastSeq = x.lastSeq := by rw [StreamState.claimSkip_frame]
@[simp] theorem StreamState.claimSkip_newest (x : StreamState) (c : Option Nat) : (x.claimSkip c).newest = x.newest := by rw [StreamState.claimSkip_frame]
@[simp] theorem StreamState.claimSkip_previous (x : StreamState) (c : Option Nat) : (x.claimSkip c).previous = x.previous := by rw [StreamState.claimSkip_frame]
@[simp] theorem StreamState.claimSkip_readers (x : StreamState) (c : Option Nat) : (x.claimSkip c).readers = x.readers := by rw [StreamState.claimSkip_frame]
@[simp] theorem StreamState.claimSkip_ref (x : StreamState) (c : Option Nat) : (x.claimSkip c).ref = x.ref := by rw [StreamState.claimSkip_frame]
@[simp] theorem StreamState.claimSkip_timer (x : StreamState) (c : Option Nat) : (x.claimSkip c).timer = x.timer := by rw [StreamState.claimSkip_frame]
@[simp] theorem StreamState.claimSkip_lock (x : StreamState) (c : Option Nat) : (x.claimSkip c).lock = x.lock := by rw [StreamState.claimSkip_frame]
@[simp] theorem StreamState.claimSkip_acquire (x : StreamState) (c : Option Nat) : (x.claimSkip c).acquire = x.acquire := by rw [StreamState.claimSkip_frame]
@[simp] theorem StreamState.claimSkip_loss (x : StreamState) (c : Option Nat) : (x.claimSkip c).loss = x.loss := by rw [StreamState.claimSkip_frame]
@[simp] theorem StreamState.claimSkip_flags (x : StreamState) (c : Option Nat) : (x.claimSkip c).flags = x.flags := by rw [StreamState.claimSkip_frame]

/-- A claim changes buffer records, the READY queue and the skipped counter alone (R78, R79). -/
theorem StreamState.claimPool_frame (x : StreamState) (r : Reader) :
    x.claimPool r = { x with bufs := (x.claimPool r).bufs, ready := (x.claimPool r).ready, counters := (x.claimPool r).counters } := by
  unfold StreamState.claimPool; dsimp only; split
  · rw [StreamState.claimSkip_frame, StreamState.rebind_frame]
  · rw [StreamState.rebind_frame]

@[simp] theorem StreamState.claimPool_current (x : StreamState) (r : Reader) : (x.claimPool r).current = x.current := by rw [StreamState.claimPool_frame]
@[simp] theorem StreamState.claimPool_pendingSlot (x : StreamState) (r : Reader) : (x.claimPool r).pendingSlot = x.pendingSlot := by rw [StreamState.claimPool_frame]
@[simp] theorem StreamState.claimPool_windows (x : StreamState) (r : Reader) : (x.claimPool r).windows = x.windows := by rw [StreamState.claimPool_frame]
@[simp] theorem StreamState.claimPool_life (x : StreamState) (r : Reader) : (x.claimPool r).life = x.life := by rw [StreamState.claimPool_frame]
@[simp] theorem StreamState.claimPool_armRequest (x : StreamState) (r : Reader) : (x.claimPool r).armRequest = x.armRequest := by rw [StreamState.claimPool_frame]
@[simp] theorem StreamState.claimPool_armAwaited (x : StreamState) (r : Reader) : (x.claimPool r).armAwaited = x.armAwaited := by rw [StreamState.claimPool_frame]
@[simp] theorem StreamState.claimPool_drainTaken (x : StreamState) (r : Reader) : (x.claimPool r).drainTaken = x.drainTaken := by rw [StreamState.claimPool_frame]
@[simp] theorem StreamState.claimPool_poolQuiet (x : StreamState) (r : Reader) : (x.claimPool r).poolQuiet = x.poolQuiet := by rw [StreamState.claimPool_frame]
@[simp] theorem StreamState.claimPool_mode (x : StreamState) (r : Reader) : (x.claimPool r).mode = x.mode := by rw [StreamState.claimPool_frame]
@[simp] theorem StreamState.claimPool_lastSeq (x : StreamState) (r : Reader) : (x.claimPool r).lastSeq = x.lastSeq := by rw [StreamState.claimPool_frame]
@[simp] theorem StreamState.claimPool_newest (x : StreamState) (r : Reader) : (x.claimPool r).newest = x.newest := by rw [StreamState.claimPool_frame]
@[simp] theorem StreamState.claimPool_previous (x : StreamState) (r : Reader) : (x.claimPool r).previous = x.previous := by rw [StreamState.claimPool_frame]
@[simp] theorem StreamState.claimPool_readers (x : StreamState) (r : Reader) : (x.claimPool r).readers = x.readers := by rw [StreamState.claimPool_frame]
@[simp] theorem StreamState.claimPool_ref (x : StreamState) (r : Reader) : (x.claimPool r).ref = x.ref := by rw [StreamState.claimPool_frame]
@[simp] theorem StreamState.claimPool_timer (x : StreamState) (r : Reader) : (x.claimPool r).timer = x.timer := by rw [StreamState.claimPool_frame]
@[simp] theorem StreamState.claimPool_lock (x : StreamState) (r : Reader) : (x.claimPool r).lock = x.lock := by rw [StreamState.claimPool_frame]
@[simp] theorem StreamState.claimPool_acquire (x : StreamState) (r : Reader) : (x.claimPool r).acquire = x.acquire := by rw [StreamState.claimPool_frame]
@[simp] theorem StreamState.claimPool_loss (x : StreamState) (r : Reader) : (x.claimPool r).loss = x.loss := by rw [StreamState.claimPool_frame]
@[simp] theorem StreamState.claimPool_flags (x : StreamState) (r : Reader) : (x.claimPool r).flags = x.flags := by rw [StreamState.claimPool_frame]

/-- The Pool Manager's teardown changes buffer records and the READY queue alone (R24). -/
theorem StreamState.poolTeardown_frame (x : StreamState)  :
    x.poolTeardown = { x with bufs := (x.poolTeardown).bufs, ready := (x.poolTeardown).ready } := by
  exact StreamState.foldl_release_frame _ x

@[simp] theorem StreamState.poolTeardown_current (x : StreamState)  : (x.poolTeardown).current = x.current := by rw [StreamState.poolTeardown_frame]
@[simp] theorem StreamState.poolTeardown_pendingSlot (x : StreamState)  : (x.poolTeardown).pendingSlot = x.pendingSlot := by rw [StreamState.poolTeardown_frame]
@[simp] theorem StreamState.poolTeardown_windows (x : StreamState)  : (x.poolTeardown).windows = x.windows := by rw [StreamState.poolTeardown_frame]
@[simp] theorem StreamState.poolTeardown_life (x : StreamState)  : (x.poolTeardown).life = x.life := by rw [StreamState.poolTeardown_frame]
@[simp] theorem StreamState.poolTeardown_armRequest (x : StreamState)  : (x.poolTeardown).armRequest = x.armRequest := by rw [StreamState.poolTeardown_frame]
@[simp] theorem StreamState.poolTeardown_armAwaited (x : StreamState)  : (x.poolTeardown).armAwaited = x.armAwaited := by rw [StreamState.poolTeardown_frame]
@[simp] theorem StreamState.poolTeardown_drainTaken (x : StreamState)  : (x.poolTeardown).drainTaken = x.drainTaken := by rw [StreamState.poolTeardown_frame]
@[simp] theorem StreamState.poolTeardown_poolQuiet (x : StreamState)  : (x.poolTeardown).poolQuiet = x.poolQuiet := by rw [StreamState.poolTeardown_frame]
@[simp] theorem StreamState.poolTeardown_mode (x : StreamState)  : (x.poolTeardown).mode = x.mode := by rw [StreamState.poolTeardown_frame]
@[simp] theorem StreamState.poolTeardown_lastSeq (x : StreamState)  : (x.poolTeardown).lastSeq = x.lastSeq := by rw [StreamState.poolTeardown_frame]
@[simp] theorem StreamState.poolTeardown_newest (x : StreamState)  : (x.poolTeardown).newest = x.newest := by rw [StreamState.poolTeardown_frame]
@[simp] theorem StreamState.poolTeardown_previous (x : StreamState)  : (x.poolTeardown).previous = x.previous := by rw [StreamState.poolTeardown_frame]
@[simp] theorem StreamState.poolTeardown_readers (x : StreamState)  : (x.poolTeardown).readers = x.readers := by rw [StreamState.poolTeardown_frame]
@[simp] theorem StreamState.poolTeardown_ref (x : StreamState)  : (x.poolTeardown).ref = x.ref := by rw [StreamState.poolTeardown_frame]
@[simp] theorem StreamState.poolTeardown_timer (x : StreamState)  : (x.poolTeardown).timer = x.timer := by rw [StreamState.poolTeardown_frame]
@[simp] theorem StreamState.poolTeardown_lock (x : StreamState)  : (x.poolTeardown).lock = x.lock := by rw [StreamState.poolTeardown_frame]
@[simp] theorem StreamState.poolTeardown_acquire (x : StreamState)  : (x.poolTeardown).acquire = x.acquire := by rw [StreamState.poolTeardown_frame]
@[simp] theorem StreamState.poolTeardown_loss (x : StreamState)  : (x.poolTeardown).loss = x.loss := by rw [StreamState.poolTeardown_frame]
@[simp] theorem StreamState.poolTeardown_flags (x : StreamState)  : (x.poolTeardown).flags = x.flags := by rw [StreamState.poolTeardown_frame]
@[simp] theorem StreamState.poolTeardown_counters (x : StreamState)  : (x.poolTeardown).counters = x.counters := by rw [StreamState.poolTeardown_frame]

end Sys2Proof.Machine
end

