-- ==== Sys2Proof/Laws/Frames.lean ====
section
/-! SUPPORT. For each operation on the whole state that several commands share, the fields it can change: a lemma that writes its
result as the state before with those fields alone replaced. -/
namespace Sys2Proof.Machine

open Sys2Proof

/-- Raising a refusal's event changes slots and device flags alone (R131). -/
theorem State.raiseRefusal_frame (s : State) (st : Option StreamId) : s.raiseRefusal st = { s with
      streams := (s.raiseRefusal st).streams, deviceFlags := (s.raiseRefusal st).deviceFlags } := by
  cases st <;> rfl

/-- A change of the head job changes the jobs alone. -/
theorem State.onHead_frame (s : State) (f : Job → Job) : s.onHead f = { s with
      jobs := (s.onHead f).jobs } := by
  unfold State.onHead; split <;> rfl

/-- A withdrawal changes the starvation counter alone (R139). -/
theorem State.withdrawRepair_frame (s : State)  : s.withdrawRepair = { s with
      starvation := (s.withdrawRepair).starvation } := by
  unfold State.withdrawRepair; split <;> rfl

/-- Queueing a job changes slots and jobs alone (R51). -/
theorem State.queueJob_frame (s : State) (st : StreamId) (i : Nat) (b : Buf) : s.queueJob st i b = { s with
      streams := (s.queueJob st i b).streams, jobs := (s.queueJob st i b).jobs } := by
  rfl

/-- A drain changes slots and jobs alone (R12). -/
theorem State.drain_frame (s : State) (st : StreamId) (i : Nat) : s.drain st i = { s with
      streams := (s.drain st i).streams, jobs := (s.drain st i).jobs } := by
  unfold State.drain; repeat' split
  all_goals rfl

/-- A decrement changes slots and jobs alone (R5). -/
theorem State.decrement_frame (s : State) (st : StreamId) (i : Nat) (w : Bool) : s.decrement st i w = { s with
      streams := (s.decrement st i w).streams, jobs := (s.decrement st i w).jobs } := by
  unfold State.decrement; rw [State.drain_frame]; rfl

/-- A job end changes slots, jobs and bursts alone (R60). -/
theorem State.endJob_frame (s : State) (j : Job) : s.endJob j = { s with
      streams := (s.endJob j).streams, jobs := (s.endJob j).jobs, bursts := (s.endJob j).bursts } := by
  rfl

/-- Ending the head job changes slots, jobs and bursts alone (R60, R64, R66). -/
theorem State.settleJob_frame (s : State)  : s.settleJob = { s with
      streams := (s.settleJob).streams, jobs := (s.settleJob).jobs, bursts := (s.settleJob).bursts } := by
  unfold State.settleJob; split
  · rfl
  · split <;> rfl

/-- The Repair Engine's taking of a response changes slots, jobs, bursts and the starvation counter alone (R58, R63). -/
theorem State.routeRepair_frame (s : State) (r : Bool) (n : Nat) (st : Status) (d : List Byte) : s.routeRepair r n st d = { s with
      streams := (s.routeRepair r n st d).streams, jobs := (s.routeRepair r n st d).jobs, bursts := (s.routeRepair r
      n st d).bursts, starvation := (s.routeRepair r n st d).starvation } := by
  unfold State.routeRepair State.withdrawRepair State.onHead; dsimp only; repeat' split
  all_goals rfl

/-- The repair accounting changes slots, jobs and bursts alone (R144). -/
theorem State.accountRepair_frame (s : State)  : s.accountRepair = { s with
      streams := (s.accountRepair).streams, jobs := (s.accountRepair).jobs, bursts := (s.accountRepair).bursts } := by
  unfold State.accountRepair; rw [State.settleJob_frame, State.onHead_frame]

/-- The removal of queued jobs changes slots and jobs alone (R65). -/
theorem State.cancelQueued_frame (s : State) (st : StreamId) : s.cancelQueued st = { s with
      streams := (s.cancelQueued st).streams, jobs := (s.cancelQueued st).jobs } := by
  unfold State.cancelQueued; split <;> rfl

/-- The cancellation of the head job changes slots, jobs, bursts and the starvation counter alone (R66). -/
theorem State.cancelHead_frame (s : State) (st : StreamId) : s.cancelHead st = { s with
      streams := (s.cancelHead st).streams, jobs := (s.cancelHead st).jobs, bursts := (s.cancelHead st).bursts,
      starvation := (s.cancelHead st).starvation } := by
  unfold State.cancelHead; split
  · rfl
  · split
    · rw [State.settleJob_frame, State.onHead_frame, State.withdrawRepair_frame]
    · rfl

/-- A cancellation changes slots, jobs, bursts and the starvation counter alone (R65, R66). -/
theorem State.cancelRepair_frame (s : State) (st : StreamId) : s.cancelRepair st = { s with
      streams := (s.cancelRepair st).streams, jobs := (s.cancelRepair st).jobs, bursts := (s.cancelRepair
      st).bursts, starvation := (s.cancelRepair st).starvation } := by
  unfold State.cancelRepair; split
  · rfl
  · rw [State.cancelHead_frame, State.cancelQueued_frame]

/-- A close's handling changes slots and jobs alone (R41 to R43). -/
theorem State.handleClose_frame (s : State) (st : StreamId) (c : Decode.CloseRecord) (n : Micros) (e : Bool) : s.handleClose st c n e = { s with
      streams := (s.handleClose st c n e).streams, jobs := (s.handleClose st c n e).jobs } := by
  unfold State.handleClose; split
  · rw [State.drain_frame]; rfl
  · rfl
  · rfl

/-- A quiet report changes slots alone (R25). -/
theorem State.reportQuiet_frame (s : State) (st : StreamId) (b : StreamState) (r : Bool) : s.reportQuiet st b r = { s with
      streams := (s.reportQuiet st b r).streams } := by
  unfold State.reportQuiet; dsimp only; split <;> rfl

/-- The end of a reload changes its flag, its result and the device flags alone (R178). -/
theorem State.endReload_frame (s : State) (r : ReloadResult) (e : DeviceEvent) : s.endReload r e = { s with
      reloadInProgress := (s.endReload r e).reloadInProgress, lastReload := (s.endReload r e).lastReload,
      deviceFlags := (s.endReload r e).deviceFlags } := by
  rfl

/-- Leaving the wait set changes it and what the end of a reload changes (R174). -/
theorem State.leaveWaitSet_frame (s : State) (st : StreamId) : s.leaveWaitSet st = { s with
      waitSet := (s.leaveWaitSet st).waitSet, reloadInProgress := (s.leaveWaitSet st).reloadInProgress, lastReload
      := (s.leaveWaitSet st).lastReload, deviceFlags := (s.leaveWaitSet st).deviceFlags } := by
  unfold State.leaveWaitSet; split
  · dsimp only; split <;> rfl
  · rfl

/-- A drain end changes slots, the wait set and what the end of a reload changes (R174). -/
theorem State.endDrain_frame (s : State) (st : StreamId) : s.endDrain st = { s with
      streams := (s.endDrain st).streams, waitSet := (s.endDrain st).waitSet, reloadInProgress := (s.endDrain
      st).reloadInProgress, lastReload := (s.endDrain st).lastReload, deviceFlags := (s.endDrain st).deviceFlags } := by
  unfold State.endDrain; split
  · rfl
  · rw [State.leaveWaitSet_frame]; rfl

/-- A drain end that is due or not changes what a drain end changes (R174). -/
theorem State.settleDrain_frame (s : State) (st : StreamId) : s.settleDrain st = { s with
      streams := (s.settleDrain st).streams, waitSet := (s.settleDrain st).waitSet, reloadInProgress :=
      (s.settleDrain st).reloadInProgress, lastReload := (s.settleDrain st).lastReload, deviceFlags :=
      (s.settleDrain st).deviceFlags } := by
  unfold State.settleDrain; dsimp only; split
  · rw [State.endDrain_frame]
  · rfl

/-- A block's taking of a teardown request changes slots, jobs, bursts and the starvation counter alone (R173). -/
theorem State.teardownTaking_frame (s : State) (st : StreamId) : s.teardownTaking st = { s with
      streams := (s.teardownTaking st).streams, jobs := (s.teardownTaking st).jobs, bursts := (s.teardownTaking
      st).bursts, starvation := (s.teardownTaking st).starvation } := by
  unfold State.teardownTaking; split <;> first | rfl | rw [State.cancelRepair_frame]

/-- What a teardown request changes (R173, R174). -/
theorem State.takeTeardown_frame (s : State) (st : StreamId) : s.takeTeardown st = { s with
      streams := (s.takeTeardown st).streams, jobs := (s.takeTeardown st).jobs, bursts := (s.takeTeardown
      st).bursts, starvation := (s.takeTeardown st).starvation, waitSet := (s.takeTeardown st).waitSet,
      reloadInProgress := (s.takeTeardown st).reloadInProgress, lastReload := (s.takeTeardown st).lastReload,
      deviceFlags := (s.takeTeardown st).deviceFlags } := by
  unfold State.takeTeardown; dsimp only
  rw [State.settleDrain_frame, State.reportQuiet_frame]; unfold State.onStream State.setStream; dsimp only
  rw [State.teardownTaking_frame]

/-! ### Hand-offs and returns -/

/-- Changes of slots one after the other change slots alone. -/
theorem State.foldl_onStream_frame (l : List StreamId) (f : StreamId → StreamState → StreamState) (s : State) :
    l.foldl (fun u st => u.onStream st (f st)) s
      = { s with streams := (l.foldl (fun u st => u.onStream st (f st)) s).streams } := by
  induction l generalizing s with
  | nil => rfl
  | cons a l ih => rw [List.foldl_cons, ih]; rfl

/-- Changes of distinct slots one after the other: each slot named is changed once. -/
theorem State.foldl_onStream_stream (l : List StreamId) (hl : l.Nodup) (f : StreamId → StreamState → StreamState) (s : State)
    (k : StreamId) : (l.foldl (fun u st => u.onStream st (f st)) s).stream k
      = if k ∈ l then f k (s.stream k) else s.stream k := by
  induction l generalizing s with
  | nil => rfl
  | cons a l ih =>
    obtain ⟨hn, hl⟩ := List.nodup_cons.1 hl
    rw [List.foldl_cons, ih hl]
    by_cases h : k = a
    · subst h; simp [hn]
    · simp [h, State.stream_onStream_ne _ _ _ _ h]

theorem State.reloadOne_frame (p : Place) (ds : List Descriptor) (s : State) (st : StreamId) : State.reloadOne p ds s st
    = { s with streams := (State.reloadOne p ds s st).streams, waitSet := (State.reloadOne p ds s st).waitSet } := by
  unfold State.reloadOne State.joinWaitSet; dsimp only; repeat' split
  all_goals rfl

theorem State.foldl_reloadOne_frame (p : Place) (ds : List Descriptor) (l : List StreamId) (s : State) :
    l.foldl (State.reloadOne p ds) s = { s with
      streams := (l.foldl (State.reloadOne p ds) s).streams, waitSet := (l.foldl (State.reloadOne p ds) s).waitSet } := by
  induction l generalizing s with
  | nil => rfl
  | cons a l ih => rw [List.foldl_cons, ih, State.reloadOne_frame]

/-- A start-up hand-off changes slots, the table's generation and copy index, the device state and the device flags alone (R163, R168). -/
theorem State.handOffStart_frame (s : State) (c : CopyIndex) (b : List Byte) : s.handOffStart c b = { s with
      streams := (s.handOffStart c b).streams, generation := (s.handOffStart c b).generation, copyIndex :=
      (s.handOffStart c b).copyIndex, device := (s.handOffStart c b).device, deviceFlags := (s.handOffStart c
      b).deviceFlags } := by
  unfold State.handOffStart; dsimp only; rw [State.foldl_onStream_frame]; rfl

/-- A reload hand-off changes slots, the wait set, the table's generation and copy index and what a reload's end changes (R164, R177). -/
theorem State.handOffReload_frame (s : State) (c : CopyIndex) (b : List Byte) : s.handOffReload c b = { s with
      streams := (s.handOffReload c b).streams, waitSet := (s.handOffReload c b).waitSet, generation :=
      (s.handOffReload c b).generation, copyIndex := (s.handOffReload c b).copyIndex, reloadInProgress :=
      (s.handOffReload c b).reloadInProgress, lastReload := (s.handOffReload c b).lastReload, deviceFlags :=
      (s.handOffReload c b).deviceFlags } := by
  unfold State.handOffReload; dsimp only; split
  · rw [State.endReload_frame, State.foldl_reloadOne_frame]
  · rw [State.foldl_reloadOne_frame]

/-- What the evaluation of a START load changes (R154, R163). -/
theorem State.evaluateStart_frame (s : State) (l : Load) : s.evaluateStart l = { s with
      streams := (s.evaluateStart l).streams, generation := (s.evaluateStart l).generation, copyIndex :=
      (s.evaluateStart l).copyIndex, device := (s.evaluateStart l).device, deviceFlags := (s.evaluateStart
      l).deviceFlags } := by
  unfold State.evaluateStart; split
  · rw [State.handOffStart_frame]
  · rfl

/-- What the evaluation of a RELOAD load changes (R154, R155, R164). -/
theorem State.evaluateReload_frame (s : State) (l : Load) : s.evaluateReload l = { s with
      streams := (s.evaluateReload l).streams, waitSet := (s.evaluateReload l).waitSet, generation :=
      (s.evaluateReload l).generation, copyIndex := (s.evaluateReload l).copyIndex, device := (s.evaluateReload
      l).device, reloadInProgress := (s.evaluateReload l).reloadInProgress, lastReload := (s.evaluateReload
      l).lastReload, deviceFlags := (s.evaluateReload l).deviceFlags } := by
  unfold State.evaluateReload; split
  · rfl
  · split
    · rfl
    · split
      · rw [State.endReload_frame, State.handOffStart_frame]
      · rw [State.handOffReload_frame]

/-- What the end of a load's reads changes (R151). -/
theorem State.settleLoad_frame (s : State)  : s.settleLoad = { s with
      load := (s.settleLoad).load, streams := (s.settleLoad).streams, waitSet := (s.settleLoad).waitSet, generation
      := (s.settleLoad).generation, copyIndex := (s.settleLoad).copyIndex, device := (s.settleLoad).device,
      reloadInProgress := (s.settleLoad).reloadInProgress, lastReload := (s.settleLoad).lastReload, deviceFlags :=
      (s.settleLoad).deviceFlags } := by
  unfold State.settleLoad; split
  · rfl
  · split
    · rfl
    · split
      · rw [State.evaluateStart_frame]
      · rw [State.evaluateReload_frame]

/-- What the routing of a response changes (R143). -/
theorem State.route_frame (s : State) (e : Entry) (r : DsResponse) : s.route e r = { s with
      orders := (s.route e r).orders, ports := (s.route e r).ports, streams := (s.route e r).streams, jobs :=
      (s.route e r).jobs, bursts := (s.route e r).bursts, starvation := (s.route e r).starvation, load := (s.route e
      r).load } := by
  unfold State.route; split
  · rfl
  · rfl
  · rfl
  · rfl
  · rw [State.routeRepair_frame]
  · rw [State.routeRepair_frame]
  · split <;> rfl

/-- The decrement of a return changes slots and jobs alone (R144). -/
theorem State.settleCount_frame (s : State) (k : EntryKind) (st : Status) : s.settleCount k st = { s with
      streams := (s.settleCount k st).streams, jobs := (s.settleCount k st).jobs } := by
  unfold State.settleCount; split
  · rw [State.decrement_frame]
  · rfl

/-- What the accounting of a return changes (R144). -/
theorem State.settleRequester_frame (s : State) (k : EntryKind) : s.settleRequester k = { s with
      jobs := (s.settleRequester k).jobs, bursts := (s.settleRequester k).bursts, load := (s.settleRequester
      k).load, streams := (s.settleRequester k).streams, waitSet := (s.settleRequester k).waitSet, generation :=
      (s.settleRequester k).generation, copyIndex := (s.settleRequester k).copyIndex, device := (s.settleRequester
      k).device, reloadInProgress := (s.settleRequester k).reloadInProgress, lastReload := (s.settleRequester
      k).lastReload, deviceFlags := (s.settleRequester k).deviceFlags } := by
  unfold State.settleRequester; split
  · rfl
  · rw [State.accountRepair_frame]
  · rw [State.settleLoad_frame]

/-- What a return's quiet report and drain end change (R25, R174). -/
theorem State.settleStream_frame (s : State) (k : EntryKind) (b : State) : s.settleStream k b = { s with
      streams := (s.settleStream k b).streams, waitSet := (s.settleStream k b).waitSet, reloadInProgress :=
      (s.settleStream k b).reloadInProgress, lastReload := (s.settleStream k b).lastReload, deviceFlags :=
      (s.settleStream k b).deviceFlags } := by
  unfold State.settleStream; split
  · rw [State.settleDrain_frame, State.reportQuiet_frame]
  · rfl

/-- A return leaves time, pins of reset and link, straps, the fault record, the link and the queue (R142 to R144). -/
theorem State.takeReturn_frame (s : State) (r : DsResponse) : s.takeReturn r = { s with
      orders := (s.takeReturn r).orders, ports := (s.takeReturn r).ports, starvation := (s.takeReturn r).starvation,
      table := (s.takeReturn r).table, jobs := (s.takeReturn r).jobs, bursts := (s.takeReturn r).bursts, load :=
      (s.takeReturn r).load, streams := (s.takeReturn r).streams, waitSet := (s.takeReturn r).waitSet, generation :=
      (s.takeReturn r).generation, copyIndex := (s.takeReturn r).copyIndex, device := (s.takeReturn r).device,
      reloadInProgress := (s.takeReturn r).reloadInProgress, lastReload := (s.takeReturn r).lastReload, deviceFlags
      := (s.takeReturn r).deviceFlags } := by
  unfold State.takeReturn; split
  · rfl
  · rw [State.settleStream_frame, State.settleRequester_frame]; unfold State.freeEntry; dsimp only
    rw [State.settleCount_frame, State.route_frame]

end Sys2Proof.Machine
end

