-- ==== Sys2Proof/Laws/Ops.lean ====
section
/-! SUPPORT. What the named operations of Machine/Ops.lean, Operands.lean and Capture.lean can do, one lemma each in the terms of
Safety.lean: little-endian fields, fill, byte ranges, answering, forwarding, refusing, the order lists, free indices. -/
namespace Sys2Proof.Machine

open Sys2Proof Sys2Proof.Safety

/-! ### Fields and fill -/

theorem byteOf_extract {w : Nat} (v : BitVec w) (k : Nat) : Decode.byteOf v.toNat k = v.extractLsb' (8 * k) 8 := by
  apply BitVec.eq_of_toNat_eq
  simp [Decode.byteOf, BitVec.extractLsb'_toNat, Nat.shiftRight_eq_div_pow, Nat.pow_mul]

theorem byteOf_mod (m n k : Nat) (h : 8 * (k + 1) ≤ m) : Decode.byteOf n k = Decode.byteOf (n % 2 ^ m) k := by
  apply BitVec.eq_of_toNat_eq
  simp only [Decode.byteOf, BitVec.toNat_ofNat]
  have h1 : (256 : Nat) ^ k = 2 ^ (8 * k) := by rw [Nat.pow_mul]
  rw [h1, ← Nat.shiftRight_eq_div_pow, ← Nat.shiftRight_eq_div_pow]
  apply Nat.eq_of_testBit_eq; intro i
  simp only [Nat.testBit_mod_two_pow, Nat.testBit_shiftRight]
  by_cases hi : i < 8
  · have : 8 * k + i < m := by omega
    simp [hi, this]
  · simp [hi]

theorem byte_one (n : Nat) : byte n = [one n] := by
  simp [byte, Decode.leBytes, one, List.range, List.range.loop, Decode.byteOf]

theorem leBytes_two (v : BitVec 16) : Decode.leBytes 2 v.toNat = lsb16 v := by
  simp [Decode.leBytes, lsb16, List.range, List.range.loop, byteOf_extract]

theorem leBytes_four (v : BitVec 32) : Decode.leBytes 4 v.toNat = lsb32 v := by
  simp [Decode.leBytes, lsb32, List.range, List.range.loop, byteOf_extract]

theorem leBytes_five (v : BitVec 40) : Decode.leBytes 5 v.toNat = lsb40 v := by
  simp [Decode.leBytes, lsb40, List.range, List.range.loop, byteOf_extract]

theorem leBytes_two_nat (n : Nat) : Decode.leBytes 2 n = lsb16 (BitVec.ofNat 16 n) := by
  rw [← leBytes_two, BitVec.toNat_ofNat]
  exact List.map_congr_left (fun k hk => byteOf_mod 16 n k (by simp at hk; omega))

theorem leBytes_four_nat (n : Nat) : Decode.leBytes 4 n = lsb32 (BitVec.ofNat 32 n) := by
  rw [← leBytes_four, BitVec.toNat_ofNat]
  exact List.map_congr_left (fun k hk => byteOf_mod 32 n k (by simp at hk; omega))

theorem flagByte_two (a b : Bool) : Decode.flagByte [a, b] = bit a 0 ||| bit b 1 := by cases a <;> cases b <;> decide

theorem flagByte_six (a b c d e f : Bool) :
    Decode.flagByte [a, b, c, d, e, f] = bit a 0 ||| bit b 1 ||| bit c 2 ||| bit d 3 ||| bit e 4 ||| bit f 5 := by
  revert a b c d e f; decide

theorem fillBytes_fillData (w : BitVec 32) (a n : Nat) : fillBytes w a n = fillData w a n := by
  unfold fillBytes fillData
  apply List.map_congr_left; intro k _
  apply BitVec.eq_of_toNat_eq
  simp [fillLane, Decode.byteOf, BitVec.extractLsb'_toNat, Nat.shiftRight_eq_div_pow, Nat.pow_mul]

/-- Two ranges overlap exactly where they share a byte. -/
theorem overlap_iff (a n b m : Nat) :
    overlap a n b m = true ↔ ∃ x, a ≤ x ∧ x < a + n ∧ b ≤ x ∧ x < b + m := by
  simp only [overlap, Bool.and_eq_true, decide_eq_true_eq]
  constructor
  · rintro ⟨⟨⟨h1, h2⟩, h3⟩, h4⟩; exact ⟨max a b, by omega⟩
  · rintro ⟨x, h1, h2, h3, h4⟩; omega

/-! ### The stream a byte names -/

theorem streamOfByte_some (b : Byte) (st : StreamId) (h : b.toNat = st.val) : streamOfByte b = some st := by
  have : b.toNat < 8 := by omega
  simp [streamOfByte, this]; exact Fin.ext h

theorem streamOfByte_none (b : Byte) (h : 7 < b.toNat) : streamOfByte b = none := by
  simp [streamOfByte]; omega

theorem mem_allStreams (st : StreamId) : st ∈ allStreams := by revert st; decide

/-! ### Free indices -/

/-- A free number below the size that is not in use, where fewer are in use than there are. -/
theorem lowestFree_spec (size : Nat) (used : List Nat) (h : used.length < size) :
    lowestFree size used < size ∧ lowestFree size used ∉ used := by
  unfold lowestFree
  cases hf : (List.range size).find? (fun n => !used.contains n) with
  | some n =>
    have h1 := List.mem_of_find?_eq_some hf
    have h2 := List.find?_some hf
    simp only [Option.getD_some]
    exact ⟨by simpa using h1, by simpa using h2⟩
  | none =>
    exfalso
    rw [List.find?_eq_none] at hf
    have hs : List.range size ⊆ used := fun x hx => by have := hf x hx; simpa using this
    have := (List.nodup_range (n := size)).subperm hs |>.length_le
    simp at this; omega

/-! ### Order lists -/

/-- The split of a list: the ready run at its head, then nothing or an entry that waits. -/
theorem splitReady_spec (l : List OrderEntry) :
    l = (splitReady l).1 ++ (splitReady l).2 ∧ (∀ e ∈ (splitReady l).1, ∃ r, e.state = .ready r) ∧
      ∀ e m, (splitReady l).2 = e :: m → ∃ n, e.state = .waits n := by
  induction l with
  | nil => simp [splitReady]
  | cons a l ih =>
    cases h : a.state with
    | ready r =>
      simp only [splitReady, h]
      refine ⟨by rw [List.cons_append, ← ih.1], ?_, ih.2.2⟩
      intro e he
      rcases List.mem_cons.1 he with rfl | he
      · exact ⟨r, h⟩
      · exact ih.2.1 e he
    | waits n =>
      simp only [splitReady, h]
      exact ⟨rfl, by simp, fun e m he => by cases he; exact ⟨n, h⟩⟩

/-- An order list does not keep a ready entry at its head once it has sent what it can. -/
theorem State.leaveReady_order (s : State) (i : Initiator) : (s.leaveReady i).order i = (splitReady (s.order i)).2 :=
  State.order_setOrder _ _ _

theorem State.leaveReady_order_ne (s : State) (i j : Initiator) (h : j ≠ i) : (s.leaveReady i).order j = s.order j :=
  State.order_setOrder_ne _ _ _ _ h

theorem State.leaveReady_ports (s : State) (i : Initiator) :
    (s.leaveReady i).ports = { s.ports with
      responses := s.ports.responses ++ (splitReady (s.order i)).1.flatMap (OrderEntry.sent i) } := rfl

/-- Leaving changes the initiator's list and the responses alone. -/
theorem State.leaveReady_frame (s : State) (i : Initiator) :
    s.leaveReady i = { s with orders := (s.leaveReady i).orders, ports := (s.leaveReady i).ports } := rfl

/-! ### Eligibility (R137, R138) -/

theorem State.tableHasRoom_iff (s : State) : s.tableHasRoom = true ↔ s.table.length < 32 := decide_eq_true_iff

theorem State.loaderEligible_iff (s : State) : s.loaderEligible = true ↔
    s.loaderRequest.isSome = true ∧ s.table.length < 32 ∧ (s.entriesOf .loader).length < 3 := by
  unfold State.loaderEligible
  rw [Bool.and_eq_true, Bool.and_eq_true, State.tableHasRoom_iff, decide_eq_true_iff, and_assoc]
  exact Iff.rfl

theorem State.repairEligible_iff (s : State) : s.repairEligible = true ↔
    s.repairStands = true ∧ s.table.length < 32 ∧ (s.entriesOf .repair).length < 4 := by
  unfold State.repairEligible
  rw [Bool.and_eq_true, Bool.and_eq_true, State.tableHasRoom_iff, decide_eq_true_iff, and_assoc]
  exact Iff.rfl

theorem State.reliefDue_iff (s : State) : s.reliefDue = true ↔ s.starvation = 8 ∧ s.repairEligible = true := by
  unfold State.reliefDue
  rw [Bool.and_eq_true, beq_iff_eq]
  exact Iff.rfl

theorem State.passEligible_iff (s : State) (i : Initiator) : s.passEligible i = true ↔
    s.resetN = true ∧ s.softResetPending = false ∧ s.table.length < 32 ∧ (s.order i).length < 64 := by
  unfold State.passEligible
  rw [Bool.and_eq_true, Bool.and_eq_true, Bool.and_eq_true, State.tableHasRoom_iff, decide_eq_true_iff, Bool.not_eq_true',
    and_assoc, and_assoc]
  exact Iff.rfl

theorem State.mayTake_iff (s : State) (i : Initiator) : s.mayTake i = true ↔
    s.passEligible i = true ∧ s.loaderEligible = false ∧ s.reliefDue = false := by
  simp [State.mayTake, and_assoc]

/-! ### Taking -/

/-- A transaction that the port takes runs its taking with the acceptance driven. -/
theorem State.offered_taken (s : State) (t : Txn) (h : Takes s t) (f : State → Result) :
    s.offered t f = f { s with ports := { Ports.quiet with accepted := true } } := by
  simp [State.offered, h.1, h.2]

/-- A transaction that the port does not take leaves all but the pins. -/
theorem State.offered_waiting (s : State) (t : Txn) (f : State → Result) (hw : t.wf = true)
    (h : s.mayTake t.initiator = false) : s.offered t f = .next s.quietPorts := by
  simp [State.offered, hw, h]

theorem State.inAperture_ports (s : State) (p : Ports) (a : Nat) :
    State.inAperture { s with ports := p } a = s.inAperture a := rfl

theorem State.windowAt_ports (s : State) (p : Ports) (a : Nat) :
    State.windowAt { s with ports := p } a = s.windowAt a := rfl

theorem State.guardHit_ports (s : State) (p : Ports) (t : Txn) :
    State.guardHit { s with ports := p } t = s.guardHit t := rfl

theorem State.matchOf_ports (s : State) (p : Ports) (t : Txn) :
    State.matchOf { s with ports := p } t = s.matchOf t := by
  unfold State.matchOf; rw [State.inAperture_ports s p, State.windowAt_ports s p]

/-- Classification does not look at the pins. (A bare rfl here costs the elaborator all its memory: cite this lemma.) -/
theorem State.classify_ports (s : State) (p : Ports) (t : Txn) :
    State.classify { s with ports := p } t = s.classify t := by
  unfold State.classify
  rw [State.inAperture_ports s p, State.matchOf_ports s p, State.guardHit_ports s p]
  generalize s.matchOf t = m
  cases m <;> rfl

/-- What answering a transaction does, from a state that differs from the one before the taking in neither order lists nor
the pins beyond the acceptance. -/
theorem State.answer_spec (s v : State) (t : Txn) (status : Status) (d : List Byte) (ho : v.orders = s.orders)
    (hp : v.ports = { Ports.quiet with accepted := true }) : Answered s (v.answer t status d) t status d := by
  have hv : ∀ i, v.order i = s.order i := fun i => by simp [State.order, ho]
  have hw : (v.answer t status d).order t.initiator
      = (splitReady (v.order t.initiator ++ [orderEntry t (.ready ⟨status, d⟩)])).2 := by
    unfold State.answer State.joinOrder
    rw [State.leaveReady_order, State.order_setOrder]; rfl
  have hq : (v.answer t status d).ports = { v.ports with responses := v.ports.responses ++
      ((splitReady (v.order t.initiator ++ [orderEntry t (.ready ⟨status, d⟩)])).1.flatMap (OrderEntry.sent t.initiator)) } := by
    unfold State.answer State.joinOrder
    rw [State.leaveReady_ports, State.order_setOrder]; rfl
  refine ⟨by rw [hq, hp], by rw [hq, hp]; exact ⟨rfl, rfl⟩, fun h0 => ?_, fun e l n h0 he => ?_, fun i hi => ?_⟩
  · rw [hq, hw, hv, h0]
    simp [splitReady, orderEntry, OrderEntry.sent, hp, Ports.quiet]
  · rw [hq, hw, hv, h0]
    simp [splitReady, he, hp, Ports.quiet]
  · unfold State.answer State.joinOrder
    rw [State.leaveReady_order_ne _ _ _ hi, State.order_setOrder_ne _ _ _ _ hi, hv]

/-- What forwarding a transaction does, from a state that differs from the one before the taking in the slots alone, with
the repair request standing as before. -/
theorem State.forward_spec (s v : State) (t : Txn) (k : EntryKind) (a : Address)
    (hv : v = { s with streams := v.streams, ports := { Ports.quiet with accepted := true } })
    (hr : v.repairStands = s.repairStands) : Forwarded s (v.forward t k a) t k a := by
  have h2 : v.table = s.table := by rw [hv]
  have h5 : v.freeIndex = s.freeIndex := by unfold State.freeIndex; rw [h2]
  have ho : ∀ i, v.order i = s.order i := fun i => by rw [hv]; rfl
  refine ⟨?_, ?_, fun i hi => ?_, ?_, ?_, ?_⟩
  · show v.table ++ [{ index := v.freeIndex, kind := k }] = _
    rw [h2, h5]
  · show (v.joinOrder t (.waits v.freeIndex)).order t.initiator = _
    rw [State.joinOrder, State.order_setOrder, ho, h5]; rfl
  · show (v.joinOrder t (.waits v.freeIndex)).order i = _
    rw [State.joinOrder, State.order_setOrder_ne _ _ _ _ hi, ho]
  · rw [hv]; rfl
  · show (if v.repairStands = true then min (v.starvation + 1) Config.reliefAt else v.starvation) = _
    rw [hr, hv]; rfl
  · rw [hv]; rfl

/-- The presented repair request does not look at what a taking of a transaction changes in the slots: buffer records,
frame mode, counters, flags and queue. -/
theorem State.repairStands_congr (s v : State) (hs : v.softResetPending = s.softResetPending) (hj : v.jobs = s.jobs)
    (hb : v.bursts = s.bursts) (hc : ∀ st, (v.stream st).current = (s.stream st).current) :
    v.repairStands = s.repairStands := by
  have hd : ∀ st, (v.stream st).desc = (s.stream st).desc := fun st => by unfold StreamState.desc; rw [hc]
  simp only [State.repairStands, State.repairRequest, hs, hj, hb, hd]

/-- A refusal: the fault record, the event of the stream that applies or the device event, the ERROR answer. -/
theorem State.refuse_spec (s : State) (t : Txn) (cause : FaultCause) (st : Option StreamId) :
    s.refuse t cause st = (State.raiseRefusal { s with fault :=
      { initiator := t.initiator, dir := Txn.dir t, address := t.address, cause := cause, stream := st } } st).answer
        t .error [] := rfl

/-- The first part of R121: another 4 KiB block, or past the top of the address space. -/
theorem Txn.crossesPage_iff (t : Txn) : Txn.crossesPage t = true ↔
    t.address.toNat / 4096 ≠ (t.address.toNat + t.length - 1) / 4096 ∨ 2 ^ 40 < t.address.toNat + t.length := by
  unfold Txn.crossesPage
  rw [Bool.or_eq_true, decide_eq_true_iff, decide_eq_true_iff]
  exact Iff.rfl

/-- A window match names the stream whose entry it is. -/
theorem State.matchIn_stream (s : State) (a : Nat) (st : StreamId) (m : Match) (h : s.matchIn a st = some m) :
    m.stream = st := by
  unfold State.matchIn at h; split at h
  · cases h
  · split at h
    · cases h; rfl
    · split at h <;> cases h; rfl

end Sys2Proof.Machine
end

