-- ==== Sys2Proof/Laws/Pool.lean ====
section
/-! SUPPORT. What the pool's operations can do, one lemma each in the terms of Safety.lean: one record changed, releases, the newest
and oldest buffer, the READY queue, coverage marks. -/
namespace Sys2Proof.Machine

open Sys2Proof Sys2Proof.Safety

/-! ### One record -/

theorem StreamState.onBuf_at (x : StreamState) (i : Nat) (b : Buf) (f : Buf → Buf) (h : x.bufs[i]? = some b) :
    x.onBuf i f = { x with bufs := x.bufs.set i (f b) } := by
  have hl : i < x.bufs.length := (List.getElem?_eq_some_iff.1 h).1
  have hb : x.bufs[i] = b := (List.getElem?_eq_some_iff.1 h).2
  have : x.bufs.modify i f = x.bufs.set i (f b) := by
    apply List.ext_getElem?
    intro j
    rw [List.getElem?_modify, List.getElem?_set]
    by_cases hj : i = j
    · subst hj; simp [hl, hb]
    · simp [hj]
  unfold StreamState.onBuf; rw [this]

theorem StreamState.onBuf_none (x : StreamState) (i : Nat) (f : Buf → Buf) (h : x.bufs[i]? = none) : x.onBuf i f = x := by
  have : x.bufs.modify i f = x.bufs := by
    apply List.ext_getElem?
    intro j
    rw [List.getElem?_modify]
    by_cases hj : i = j
    · subst hj; simp [h]
    · simp [hj]
  unfold StreamState.onBuf; rw [this]

theorem StreamState.onBuf_getElem (x : StreamState) (i j : Nat) (f : Buf → Buf) :
    (x.onBuf i f).bufs[j]? = if i = j then (x.bufs[j]?).map f else x.bufs[j]? := by
  unfold StreamState.onBuf
  simp only [List.getElem?_modify]
  by_cases h : i = j <;> simp [h]

theorem Buf.release_eq (b : Buf) (h1 : b.state ≠ .free) (h2 : b.state ≠ .releasing) : b.release = releasedBuf b := by
  unfold Buf.release releasedBuf Buf.cleared
  rw [if_neg (by tauto)]

/-- A release of a buffer in a state other than FREE and RELEASING (R4). -/
theorem StreamState.release_at (x : StreamState) (i : Nat) (b : Buf) (h : x.bufs[i]? = some b) (h1 : b.state ≠ .free)
    (h2 : b.state ≠ .releasing) : x.release i = releasedAt x i b := by
  unfold StreamState.release
  rw [StreamState.onBuf_at (x.dequeue i) i b _ h, Buf.release_eq b h1 h2]; rfl

/-! ### Newest and oldest -/

theorem StreamState.mem_indices (x : StreamState) (p : Buf → Bool) (i : Nat) :
    i ∈ x.indices p ↔ ∃ b, x.bufs[i]? = some b ∧ p b = true := by
  unfold StreamState.indices
  rw [List.mem_filter, List.mem_range]
  constructor
  · rintro ⟨h, hp⟩
    rw [List.getElem?_eq_getElem h] at hp ⊢
    exact ⟨_, rfl, by simpa using hp⟩
  · rintro ⟨b, h, hp⟩
    exact ⟨(List.getElem?_eq_some_iff.1 h).1, by rw [h]; simpa using hp⟩

theorem StreamState.indices_nodup (x : StreamState) (p : Buf → Bool) : (x.indices p).Nodup :=
  List.Nodup.filter _ List.nodup_range

theorem StreamState.seqOf_at (x : StreamState) (i : Nat) (b : Buf) (h : x.bufs[i]? = some b) : x.seqOf i = b.seq.toNat := by
  unfold StreamState.seqOf; rw [h]

theorem highest_none (key : Nat → Nat) (l : List Nat) : highest key l = none ↔ l = [] := by
  cases l with
  | nil => simp [highest]
  | cons a l => simp only [highest]; split <;> (try split) <;> simp

theorem highest_mem (key : Nat → Nat) (l : List Nat) (i : Nat) (h : highest key l = some i) :
    i ∈ l ∧ ∀ j ∈ l, key j ≤ key i := by
  induction l generalizing i with
  | nil => simp [highest] at h
  | cons a l ih =>
    simp only [highest] at h
    split at h
    · rename_i hn
      rw [highest_none] at hn; subst hn; cases h
      simp
    · rename_i j hj
      obtain ⟨h1, h2⟩ := ih j hj
      split at h
      · cases h
        refine ⟨List.mem_cons_of_mem _ h1, fun k hk => ?_⟩
        rcases List.mem_cons.1 hk with rfl | hk
        · omega
        · exact h2 k hk
      · cases h
        refine ⟨by simp, fun k hk => ?_⟩
        rcases List.mem_cons.1 hk with rfl | hk
        · omega
        · have := h2 k hk; omega

/-- The one index with the highest key is the highest. -/
theorem highest_unique (key : Nat → Nat) (l : List Nat) (i : Nat) (h : i ∈ l) (hm : ∀ j ∈ l, j ≠ i → key j < key i) :
    highest key l = some i := by
  cases hh : highest key l with
  | none => rw [highest_none] at hh; subst hh; cases h
  | some j =>
    obtain ⟨h1, h2⟩ := highest_mem key l j hh
    by_cases hj : j = i
    · rw [hj]
    · have := hm j h1 hj; have := h2 i h; omega

theorem lowest_none (key : Nat → Nat) (l : List Nat) : lowest key l = none ↔ l = [] := by
  cases l with
  | nil => simp [lowest]
  | cons a l => simp only [lowest]; split <;> (try split) <;> simp

theorem lowest_mem (key : Nat → Nat) (l : List Nat) (i : Nat) (h : lowest key l = some i) :
    i ∈ l ∧ ∀ j ∈ l, key i ≤ key j := by
  induction l generalizing i with
  | nil => simp [lowest] at h
  | cons a l ih =>
    simp only [lowest] at h
    split at h
    · rename_i hn
      rw [lowest_none] at hn; subst hn; cases h
      simp
    · rename_i j hj
      obtain ⟨h1, h2⟩ := ih j hj
      split at h
      · cases h
        refine ⟨List.mem_cons_of_mem _ h1, fun k hk => ?_⟩
        rcases List.mem_cons.1 hk with rfl | hk
        · omega
        · exact h2 k hk
      · cases h
        refine ⟨by simp, fun k hk => ?_⟩
        rcases List.mem_cons.1 hk with rfl | hk
        · omega
        · have := h2 k hk; omega

/-- The one index with the lowest key is the lowest. -/
theorem lowest_unique (key : Nat → Nat) (l : List Nat) (i : Nat) (h : i ∈ l) (hm : ∀ j ∈ l, j ≠ i → key i < key j) :
    lowest key l = some i := by
  cases hh : lowest key l with
  | none => rw [lowest_none] at hh; subst hh; cases h
  | some j =>
    obtain ⟨h1, h2⟩ := lowest_mem key l j hh
    by_cases hj : j = i
    · rw [hj]
    · have := hm j h1 hj; have := h2 i h; omega

theorem StreamState.newestBuf_none (x : StreamState) (p : Buf → Bool) (h : ∀ b ∈ x.bufs, p b = false) :
    x.newestBuf p = none := by
  unfold StreamState.newestBuf
  rw [highest_none, List.eq_nil_iff_forall_not_mem]
  intro i hi
  obtain ⟨b, hb, hp⟩ := (x.mem_indices p i).1 hi
  rw [h b (List.mem_of_getElem? hb)] at hp; cases hp

theorem StreamState.newestBuf_of (x : StreamState) (p : Buf → Bool) (i : Nat) (b : Buf) (h : x.bufs[i]? = some b)
    (hp : p b = true) (hm : ∀ j c, j ≠ i → x.bufs[j]? = some c → p c = true → c.seq < b.seq) :
    x.newestBuf p = some i := by
  refine highest_unique _ _ i ((x.mem_indices p i).2 ⟨b, h, hp⟩) (fun j hj hne => ?_)
  obtain ⟨c, hc, hpc⟩ := (x.mem_indices p j).1 hj
  rw [x.seqOf_at j c hc, x.seqOf_at i b h]
  exact hm j c hne hc hpc

theorem StreamState.oldestBuf_none (x : StreamState) (p : Buf → Bool) (h : ∀ b ∈ x.bufs, p b = false) :
    x.oldestBuf p = none := by
  unfold StreamState.oldestBuf
  rw [lowest_none, List.eq_nil_iff_forall_not_mem]
  intro i hi
  obtain ⟨b, hb, hp⟩ := (x.mem_indices p i).1 hi
  rw [h b (List.mem_of_getElem? hb)] at hp; cases hp

theorem StreamState.oldestBuf_of (x : StreamState) (p : Buf → Bool) (i : Nat) (b : Buf) (h : x.bufs[i]? = some b)
    (hp : p b = true) (hm : ∀ j c, j ≠ i → x.bufs[j]? = some c → p c = true → b.seq < c.seq) :
    x.oldestBuf p = some i := by
  refine lowest_unique _ _ i ((x.mem_indices p i).2 ⟨b, h, hp⟩) (fun j hj hne => ?_)
  obtain ⟨c, hc, hpc⟩ := (x.mem_indices p j).1 hj
  rw [x.seqOf_at j c hc, x.seqOf_at i b h]
  exact hm j c hne hc hpc

/-- The first record for which p holds. -/
theorem findIdx_of {α : Type} (l : List α) (p : α → Bool) (i : Nat) (b : α) (h : l[i]? = some b) (hp : p b = true)
    (hf : ∀ j c, j < i → l[j]? = some c → p c = false) : l.findIdx? p = some i := by
  rw [List.findIdx?_eq_some_iff_getElem]
  obtain ⟨hl, hb⟩ := List.getElem?_eq_some_iff.1 h
  exact ⟨hl, by rw [hb]; exact hp, fun j hj => by simpa using hf j l[j] hj (List.getElem?_eq_getElem (by omega))⟩

theorem findIdx_none {α : Type} (l : List α) (p : α → Bool) (h : ∀ b ∈ l, p b = false) : l.findIdx? p = none := by
  rw [List.findIdx?_eq_none_iff]; exact h

/-! ### Coverage marks (R33) -/

theorem mem_markLine (n : Nat) (l : List Nat) (m : Nat) : m ∈ markLine n l ↔ m = n ∨ m ∈ l := by
  induction l with
  | nil => simp [markLine]
  | cons a l ih =>
    simp only [markLine]; split
    · simp
    · split
      · rename_i h; subst h; simp
      · simp [ih]; tauto

theorem markLine_sorted (n : Nat) (l : List Nat) (h : l.Pairwise (· < ·)) : (markLine n l).Pairwise (· < ·) := by
  induction l with
  | nil => simp [markLine]
  | cons a l ih =>
    simp only [List.pairwise_cons] at h
    simp only [markLine]; split
    · rename_i hn
      simp only [List.pairwise_cons, List.mem_cons]
      exact ⟨fun b hb => hb.elim (fun e => e ▸ hn) (fun hb => lt_trans hn (h.1 b hb)), h⟩
    · split
      · simpa using h
      · simp only [List.pairwise_cons]
        refine ⟨fun b hb => ?_, ih h.2⟩
        rcases (mem_markLine n l b).1 hb with rfl | hb
        · omega
        · exact h.1 b hb

theorem mem_foldl_markLine (ls l : List Nat) (m : Nat) :
    m ∈ ls.foldl (fun c n => markLine n c) l ↔ m ∈ ls ∨ m ∈ l := by
  induction ls generalizing l with
  | nil => simp
  | cons a ls ih => simp [ih, mem_markLine]; tauto

theorem foldl_markLine_sorted (ls l : List Nat) (h : l.Pairwise (· < ·)) :
    (ls.foldl (fun c n => markLine n c) l).Pairwise (· < ·) := by
  induction ls generalizing l with
  | nil => exact h
  | cons a ls ih => exact ih _ (markLine_sorted a l h)

theorem mem_linesMarked (d : Descriptor) (o length n : Nat) : n ∈ linesMarked d o length ↔
    n < Decode.lines d ∧ o ≤ n * Decode.pitch d + Decode.lineBytes d - 1 ∧
      n * Decode.pitch d + Decode.lineBytes d - 1 < o + length := by
  simp [linesMarked]

/-! ### The READY queue (R14) -/

/-- An insertion into a queue in rising order stands behind every lower key and before every higher. -/
theorem insertBySeq_spec (key : Nat → Nat) (i : Nat) (l : List Nat) (hs : l.Pairwise (fun j k => key j < key k))
    (hne : ∀ j ∈ l, key j ≠ key i) : ∃ older younger, l = older ++ younger ∧
      insertBySeq key i l = older ++ i :: younger ∧ (∀ j ∈ older, key j < key i) ∧ ∀ j ∈ younger, key i < key j := by
  induction l with
  | nil => exact ⟨[], [], rfl, rfl, by simp, by simp⟩
  | cons a l ih =>
    simp only [List.pairwise_cons] at hs
    by_cases h : key i < key a
    · refine ⟨[], a :: l, rfl, by simp [insertBySeq, h], by simp, fun j hj => ?_⟩
      rcases List.mem_cons.1 hj with rfl | hj
      · exact h
      · exact lt_trans h (hs.1 j hj)
    · obtain ⟨o, y, h1, h2, h3, h4⟩ := ih hs.2 (fun j hj => hne j (List.mem_cons_of_mem _ hj))
      refine ⟨a :: o, y, by rw [h1]; rfl, by simp only [insertBySeq]; rw [if_neg h, h2]; rfl, fun j hj => ?_, h4⟩
      rcases List.mem_cons.1 hj with rfl | hj
      · have := hne j (by simp); omega
      · exact h3 j hj

/-! ### Releases of several buffers (R15, R16, R24) -/

theorem StreamState.release_getElem (x : StreamState) (i j : Nat) :
    (x.release i).bufs[j]? = if i = j then (x.bufs[j]?).map Buf.release else x.bufs[j]? :=
  StreamState.onBuf_getElem _ _ _ _

theorem StreamState.mem_release_ready (x : StreamState) (i j : Nat) : j ∈ (x.release i).ready ↔ j ∈ x.ready ∧ j ≠ i := by
  show j ∈ x.ready.filter (· != i) ↔ _
  simp

/-- A fold of releases over distinct indices: each record named is released once. -/
theorem StreamState.foldl_release_spec (l : List Nat) (hl : l.Nodup) (x : StreamState) :
    (∀ j, (l.foldl StreamState.release x).bufs[j]? = if j ∈ l then (x.bufs[j]?).map Buf.release else x.bufs[j]?) ∧
      (∀ j, j ∈ (l.foldl StreamState.release x).ready ↔ j ∈ x.ready ∧ j ∉ l) ∧
      (l.foldl StreamState.release x).ready.Sublist x.ready := by
  induction l generalizing x with
  | nil => simp
  | cons a l ih =>
    obtain ⟨hn, hl⟩ := List.nodup_cons.1 hl
    obtain ⟨h1, h2, h3⟩ := ih hl (x.release a)
    rw [List.foldl_cons]
    refine ⟨fun j => ?_, fun j => ?_, h3.trans List.filter_sublist⟩
    · rw [h1, StreamState.release_getElem]
      by_cases ha : a = j
      · subst ha; simp [hn]
      · simp [ha, Ne.symm ha]
    · rw [h2, StreamState.mem_release_ready, List.mem_cons]; tauto

theorem StreamState.releaseSkipped_split (x : StreamState) (i : Nat) :
    x.releaseSkipped i = { x.release i with counters :=
      { x.counters with skipped := advance16 x.counters.skipped } } := rfl

/-- Releases counted in skipped differ from plain ones in that counter alone. -/
theorem StreamState.foldl_releaseSkipped_spec (l : List Nat) (x : StreamState) :
    l.foldl StreamState.releaseSkipped x = { l.foldl StreamState.release x with
      counters := { x.counters with skipped := (advance16^[l.length]) x.counters.skipped } } := by
  induction l generalizing x with
  | nil => rfl
  | cons a l ih =>
    rw [List.foldl_cons, List.foldl_cons, ih]
    have hc : ∀ (c : Counters) (z : StreamState),
        l.foldl StreamState.release { z with counters := c } = { l.foldl StreamState.release z with counters := c } := by
      intro c z
      clear ih
      induction l generalizing z with
      | nil => rfl
      | cons b l ih => rw [List.foldl_cons, List.foldl_cons, ← ih]; rfl
    rw [StreamState.releaseSkipped_split, hc]
    simp [Function.iterate_succ_apply]

end Sys2Proof.Machine
end

