-- ==== Sys2Proof/Laws/Steps.lean ====
section
/-! SUPPORT. What a step can be: every command by its kind, a taking as an answer or a forwarded transaction, a grant, a byte, a
return, and the bounds on tables and queues that each operation keeps. -/
namespace Sys2Proof.Machine

open Sys2Proof Sys2Proof.Safety

/-! ### Every upstream command is the taking of its transaction, whatever its class (log 5) -/

theorem execPassThrough_any (t : Txn) (s : State) : execPassThrough t s = s.offered t (State.takeAny t) := by
  unfold execPassThrough; congr 1; funext u; unfold State.takeAny; cases u.classify t <;> rfl

theorem execLineAreaWrite_any (t : Txn) (s : State) : execLineAreaWrite t s = s.offered t (State.takeAny t) := by
  unfold execLineAreaWrite; congr 1; funext u; unfold State.takeAny; cases u.classify t <;> rfl

theorem execExcessWrite_any (t : Txn) (s : State) : execExcessWrite t s = s.offered t (State.takeAny t) := by
  unfold execExcessWrite; congr 1; funext u; unfold State.takeAny; cases u.classify t <;> rfl

theorem execCaptureRead_any (t : Txn) (s : State) : execCaptureRead t s = s.offered t (State.takeAny t) := by
  unfold execCaptureRead; congr 1; funext u; unfold State.takeAny; cases u.classify t <;> rfl

theorem execClose_any (t : Txn) (s : State) : execClose t s = s.offered t (State.takeAny t) := by
  unfold execClose; congr 1; funext u; unfold State.takeAny; cases u.classify t <;> rfl

theorem execCaptureStatusRead_any (t : Txn) (s : State) : execCaptureStatusRead t s = s.offered t (State.takeAny t) := by
  unfold execCaptureStatusRead; congr 1; funext u; unfold State.takeAny; cases u.classify t <;> rfl

theorem execClaim_any (t : Txn) (s : State) : execClaim t s = s.offered t (State.takeAny t) := by
  unfold execClaim; congr 1; funext u; unfold State.takeAny; cases u.classify t <;> rfl

theorem execPeek_any (t : Txn) (s : State) : execPeek t s = s.offered t (State.takeAny t) := by
  unfold execPeek; congr 1; funext u; unfold State.takeAny; cases u.classify t <;> rfl

theorem execPresentationLineRead_any (t : Txn) (s : State) : execPresentationLineRead t s = s.offered t (State.takeAny t) := by
  unfold execPresentationLineRead; congr 1; funext u; unfold State.takeAny; cases u.classify t <;> rfl

theorem execDormantCaptureAccess_any (t : Txn) (s : State) : execDormantCaptureAccess t s = s.offered t (State.takeAny t) := by
  unfold execDormantCaptureAccess; congr 1; funext u; unfold State.takeAny; cases u.classify t <;> rfl

theorem execDormantPresentationAccess_any (t : Txn) (s : State) : execDormantPresentationAccess t s = s.offered t (State.takeAny t) := by
  unfold execDormantPresentationAccess; congr 1; funext u; unfold State.takeAny; cases u.classify t <;> rfl

theorem execAccessRefusal_any (t : Txn) (s : State) : execAccessRefusal t s = s.offered t (State.takeAny t) := by
  unfold execAccessRefusal; congr 1; funext u; unfold State.takeAny; cases u.classify t <;> rfl

/-! ### Every link command is the byte that completes (log 6) -/

theorem State.takesAtStream_link (s : State) (k : Decode.LinkCommand) (h : s.takesAtStream k = true) : ∃ c, s.link = .stream c ∧ Decode.linkCommand c = some k := by
  unfold State.takesAtStream at h; split at h <;> simp_all

theorem State.takesAtArgument_link (s : State) (k : Decode.LinkCommand) (sb) (h : s.takesAtArgument k = some sb) : ∃ c, s.link = .arguments c sb ∧ Decode.linkCommand c = some k := by
  unfold State.takesAtArgument at h; split at h <;> simp_all

theorem State.takesUnlisted_link (s : State) (h : s.takesUnlisted = true) : ∃ c, s.link = .stream c ∧ Decode.linkCommand c = none := by
  unfold State.takesUnlisted at h; split at h <;> simp_all

theorem State.byteCompletes_stream (s : State) (k : Decode.LinkCommand) (b : Byte) (hk : Decode.hasArgument k = false) (h : s.takesAtStream k = true) :
   s.quietPorts.byteCompletes b = s.quietPorts.takeAtStream k b := by
  obtain ⟨c, h1, h2⟩ := State.takesAtStream_link s k h
  unfold State.byteCompletes; rw [show s.quietPorts.link = s.link from rfl, h1]; dsimp only; rw [h2]; dsimp only; rw [hk]; rfl

theorem State.byteCompletes_argument (s : State) (k : Decode.LinkCommand) (b sb : Byte) (h : s.takesAtArgument k = some sb) :
   s.quietPorts.byteCompletes b = s.quietPorts.takeAtArgument k sb b := by
  obtain ⟨c, h1, h2⟩ := State.takesAtArgument_link s k sb h
  unfold State.byteCompletes; rw [show s.quietPorts.link = s.link from rfl, h1]; dsimp only; rw [h2]

theorem State.byteCompletes_unlisted (s : State) (b : Byte) (h : s.takesUnlisted = true) :
   s.quietPorts.byteCompletes b = s.quietPorts.takeUnlisted := by
  obtain ⟨c, h1, h2⟩ := State.takesUnlisted_link s h
  unfold State.byteCompletes; rw [show s.quietPorts.link = s.link from rfl, h1]; dsimp only; rw [h2]

theorem exec_byte (i : Instr) (b : Byte) (s : State) (h : i ∈ [Instr.softReset b, .getDevice b, .getStream b, .getPool b, .getReaders b, .getCoverage b, .getCounters b, .ackEvents b, .arm b, .disarm b, .reload b, .unlistedCommand b, .byteComplete b]) :
    exec i s = .next (s.quietPorts.byteCompletes b) := by
  simp only [List.mem_cons, List.not_mem_nil, or_false] at h
  rcases h with rfl | rfl | rfl | rfl | rfl | rfl | rfl | rfl | rfl | rfl | rfl | rfl | rfl <;>
    simp only [exec, execSoftReset, execGetDevice, execGetStream, execGetPool, execGetReaders, execGetCoverage, execGetCounters, execAckEvents, execArm, execDisarm, execReload, execUnlistedCommand, execByteComplete, State.takeByte]
  all_goals try split
  all_goals try rfl
  all_goals rename_i hh
  all_goals first
    | rw [State.byteCompletes_stream s _ b rfl hh]; rfl
    | rw [State.byteCompletes_argument s _ b _ hh]; rfl
    | rw [State.byteCompletes_unlisted s b hh]

/-! ### What a taking can do -/

structure Prepared (s w : State) : Prop where
  table : w.table = s.table
  orders : w.orders = s.orders
  bursts : w.bursts = s.bursts
  starvation : w.starvation = s.starvation
  jobs : w.jobs.length ≤ max s.jobs.length 8
  ports : w.ports = s.ports

theorem State.drain_jobs (s : State) (st i) : (s.drain st i).jobs.length ≤ max s.jobs.length 8 := by
  unfold State.drain; split
  · omega
  · split
    · split
      · rename_i b _ _ hv
        have : s.jobs.length < 8 := by
          unfold drainVerdict at hv
          split at hv; · cases hv
          split at hv; · cases hv
          split at hv; · cases hv
          split at hv; · cases hv
          split at hv; · cases hv
          rename_i hn
          have : Config.jobLimit = 8 := rfl
          omega
        show (s.jobs ++ [_]).length ≤ _
        rw [List.length_append]; simp; omega
      · show s.jobs.length ≤ _; omega
      · show s.jobs.length ≤ _; omega
    · omega

theorem State.takeAs_cases (s v : State) (t : Txn) (c : Class) (h : s.takeAs t c = .next v) :
    (∃ w st d, Prepared s w ∧ v = w.answer t st d) ∨
    (∃ w k a, Prepared s w ∧ v = w.forward t k a ∧ k.passKey = some (t.initiator, t.tag)) := by
  have same : Prepared s s := ⟨rfl, rfl, rfl, rfl, by omega, rfl⟩
  have on : ∀ st f, Prepared s (s.onStream st f) := fun st f => ⟨rfl, rfl, rfl, rfl, by show s.jobs.length ≤ _; omega, rfl⟩
  cases c with
  | forward => cases h; exact .inr ⟨s, _, _, same, rfl, rfl⟩
  | refuse cause st =>
    cases h
    refine .inl ⟨_, _, _, ?_, rfl⟩
    cases st
    all_goals exact ⟨rfl, rfl, rfl, rfl, by show s.jobs.length ≤ _; omega, rfl⟩
  | lineWrite st o =>
    change s.takeLineWrite t st o = _ at h
    unfold State.takeLineWrite at h; split at h
    · cases h; exact .inl ⟨_, _, _, on _ _, rfl⟩
    · dsimp only at h; split at h
      · unfold State.forwardWrite at h; split at h
        · cases h
        · cases h
          refine .inr ⟨_, _, _, ?_, rfl, rfl⟩
          exact ⟨rfl, rfl, rfl, rfl, by show s.jobs.length ≤ _; omega, rfl⟩
      · cases h; exact .inl ⟨_, _, _, on _ _, rfl⟩
      · cases h; exact .inl ⟨_, _, _, on _ _, rfl⟩
  | excessWrite st => cases h; exact .inl ⟨_, _, _, on _ _, rfl⟩
  | captureLineRead st o fill =>
    change s.takeCaptureRead t st o fill = _ at h
    unfold State.takeCaptureRead at h; split at h
    · split at h <;> cases h; exact .inr ⟨_, _, _, same, rfl, rfl⟩
    · cases h; exact .inl ⟨_, _, _, same, rfl⟩
    · cases h; exact .inl ⟨_, _, _, same, rfl⟩
  | captureExcessRead st fill => cases h; exact .inl ⟨_, _, _, same, rfl⟩
  | close st =>
    cases h
    refine .inl ⟨_, _, _, ?_, rfl⟩
    unfold State.handleClose; split
    · rw [State.drain_frame]
      refine ⟨rfl, rfl, rfl, rfl, ?_, rfl⟩
      exact State.drain_jobs _ _ _
    all_goals exact ⟨rfl, rfl, rfl, rfl, by show s.jobs.length ≤ _; omega, rfl⟩
  | statusRead st => cases h; exact .inl ⟨_, _, _, same, rfl⟩
  | claim st k => cases h; exact .inl ⟨_, _, _, on _ _, rfl⟩
  | peek st k => cases h; exact .inl ⟨_, _, _, same, rfl⟩
  | presentationLineRead st k o fill =>
    change s.takePresentationRead t st k o fill = _ at h
    unfold State.takePresentationRead at h; split at h
    · split at h
      · cases h; exact .inr ⟨_, _, _, on _ _, rfl, rfl⟩
      · cases h
    all_goals cases h; exact .inl ⟨_, _, _, same, rfl⟩
  | presentationExcessRead _ _ _ | dormantDrop _ | dormantCaptureFill _ _ | dormantStatus _ | dormantPresentationFill _ _ _
  | dormantPresentationRecord _ _ => cases h; exact .inl ⟨_, _, _, same, rfl⟩

/-! ### The head of an order list -/

theorem splitReady_length (l : List OrderEntry) : (splitReady l).2.length ≤ l.length := by
  conv_rhs => rw [(splitReady_spec l).1]
  simp

theorem splitReady_subset (l : List OrderEntry) (e) (h : e ∈ (splitReady l).2) : e ∈ l := by
  rw [(splitReady_spec l).1]; simp [h]

theorem splitReady_head (l : List OrderEntry) (e m r) (h : (splitReady l).2 = e :: m) : e.state ≠ .ready r := by
  obtain ⟨n, hn⟩ := (splitReady_spec l).2.2 e m h; rw [hn]; intro e; cases e

theorem EntryKind.requester_of_passKey (k : EntryKind) (p) (h : k.passKey = some p) : k.requester = .pass := by
  cases k <;> simp_all [EntryKind.passKey, EntryKind.requester]

/-! ### Operations that put nothing into the outstanding table and no more than eight jobs into the queue -/

structure Within (s u : State) : Prop where
  table : u.table.Sublist s.table
  jobs : u.jobs.length ≤ max s.jobs.length 8
  bursts : (u.bursts.map (·.slot)).Sublist (s.bursts.map (·.slot))
  starvation : u.starvation ≤ s.starvation
  orders : ∀ i, (u.order i).length ≤ (s.order i).length

theorem Within.trans {s u v : State} (a : Within s u) (b : Within u v) : Within s v :=
  ⟨b.table.trans a.table, by have := a.jobs; have := b.jobs; omega, b.bursts.trans a.bursts, b.starvation.trans a.starvation, fun i => (b.orders i).trans (a.orders i)⟩

theorem Within.of (s u : State) (ht : u.table = s.table) (hj : u.jobs.length ≤ max s.jobs.length 8) (hb : (u.bursts.map (·.slot)).Sublist (s.bursts.map (·.slot)))
   (hs : u.starvation ≤ s.starvation) (ho : u.orders = s.orders) : Within s u :=
  ⟨by rw [ht], hj, hb, hs, fun i => by unfold State.order; rw [ho]⟩

theorem Within.same (s u : State) (ht : u.table = s.table) (hj : u.jobs = s.jobs) (hb : u.bursts = s.bursts)
   (hs : u.starvation = s.starvation) (ho : u.orders = s.orders) : Within s u :=
  Within.of s u ht (by rw [hj]; omega) (by rw [hb]) (by rw [hs]) ho

theorem within_drain (s : State) (st i) : Within s (s.drain st i) := by
  rw [State.drain_frame]
  exact Within.of _ _ rfl (State.drain_jobs s st i) (List.Sublist.refl _) le_rfl rfl

theorem within_onStream (s : State) (st f) : Within s (s.onStream st f) := Within.same _ _ rfl rfl rfl rfl rfl

theorem within_decrement (s : State) (st i w) : Within s (s.decrement st i w) :=
  (within_onStream _ _ _).trans (within_drain _ _ _)

theorem within_onHead (s : State) (f) : Within s (s.onHead f) := by
  rw [State.onHead_frame]
  refine Within.of _ _ rfl ?_ (List.Sublist.refl _) le_rfl rfl
  unfold State.onHead; dsimp only; split
  · omega
  · rename_i j l h; rw [h]; simp

theorem within_withdraw (s : State) : Within s s.withdrawRepair := by
  unfold State.withdrawRepair; split
  · exact Within.of _ _ rfl (by dsimp only; omega) (List.Sublist.refl _) (Nat.zero_le _) rfl
  · exact Within.same _ _ rfl rfl rfl rfl rfl

theorem promote_length (l : List Job) : (promote l).length = l.length := by cases l <;> rfl

theorem within_endJob (s : State) (j) : Within s (s.endJob j) := by
  refine Within.of _ _ rfl ?_ (List.nil_sublist _) le_rfl rfl
  show (promote s.jobs.tail).length ≤ _
  rw [promote_length, List.length_tail]; omega

theorem within_settleJob (s : State) : Within s s.settleJob := by
  unfold State.settleJob; split
  · exact Within.same _ _ rfl rfl rfl rfl rfl
  · split
    · exact within_endJob _ _
    · exact Within.same _ _ rfl rfl rfl rfl rfl

theorem slots_filter (l : List Burst) (p) : ((l.filter p).map (·.slot)).Sublist (l.map (·.slot)) := (List.filter_sublist).map _

theorem slots_hold (n d) (l : List Burst) : (holdData n d l).map (·.slot) = l.map (·.slot) := by
  unfold holdData; rw [List.map_map]; apply List.map_congr_left; intro b _
  simp only [Function.comp]; split <;> rfl

theorem within_bursts (s : State) (l : List Burst) (h : (l.map (·.slot)).Sublist (s.bursts.map (·.slot))) : Within s { s with bursts := l } :=
  Within.of _ _ rfl (by dsimp only; omega) h le_rfl rfl

theorem within_routeRepair (s : State) (r n st d) : Within s (s.routeRepair r n st d) := by
  unfold State.routeRepair; split
  · split
    · split
      · exact within_bursts _ _ (by rw [slots_hold])
      · exact within_bursts _ _ (slots_filter _ _)
    · dsimp only; split
      · refine Within.trans ?_ (within_onStream _ _ _)
        refine Within.trans ((within_withdraw s).trans (within_onHead _ _)) (within_bursts _ _ ?_)
        unfold dropHeld freeSlot; exact (slots_filter _ _).trans (slots_filter _ _)
      · exact (within_withdraw s).trans (within_onHead _ _)
  · exact within_bursts _ _ (slots_filter _ _)

theorem within_account (s : State) : Within s s.accountRepair := (within_onHead _ _).trans (within_settleJob _)

theorem within_cancelQueued (s : State) (st) : Within s (s.cancelQueued st) := by
  unfold State.cancelQueued; split
  · exact Within.same _ _ rfl rfl rfl rfl rfl
  · rename_i j l h
    refine Within.of _ _ rfl ?_ (List.Sublist.refl _) le_rfl rfl
    show (j :: l.filter _).length ≤ _
    rw [h]; simp only [List.length_cons]
    have := List.length_filter_le (fun k : Job => k.stream != st) l; omega

theorem within_cancelHead (s : State) (st) : Within s (s.cancelHead st) := by
  unfold State.cancelHead; split
  · exact Within.same _ _ rfl rfl rfl rfl rfl
  · split
    · refine Within.trans ?_ (within_settleJob _)
      refine Within.trans ((within_withdraw s).trans (within_onHead _ _)) (within_bursts _ _ ?_)
      have : ((s.withdrawRepair).onHead (fun k => { k with state := .cancelling })).bursts = s.bursts := by
        rw [State.onHead_frame, State.withdrawRepair_frame]
      rw [this]; unfold dropHeld; exact slots_filter _ _
    · exact Within.same _ _ rfl rfl rfl rfl rfl

theorem within_cancel (s : State) (st) : Within s (s.cancelRepair st) := by
  unfold State.cancelRepair; split
  · exact Within.same _ _ rfl rfl rfl rfl rfl
  · exact (within_cancelQueued _ _).trans (within_cancelHead _ _)

theorem within_reportQuiet (s : State) (st b r) : Within s (s.reportQuiet st b r) := by
  rw [State.reportQuiet_frame]; exact Within.same _ _ rfl rfl rfl rfl rfl

theorem within_settleDrain (s : State) (st) : Within s (s.settleDrain st) := by
  rw [State.settleDrain_frame]; exact Within.same _ _ rfl rfl rfl rfl rfl

theorem within_teardown (s : State) (st) : Within s (s.takeTeardown st) := by
  unfold State.takeTeardown; dsimp only
  refine Within.trans ?_ (within_settleDrain _ _)
  refine Within.trans ?_ (within_reportQuiet _ _ _ _)
  refine Within.trans ?_ (within_onStream _ _ _)
  unfold State.teardownTaking; split
  · exact within_onStream _ _ _
  · exact within_onStream _ _ _
  · exact within_onStream _ _ _
  · exact within_onStream _ _ _
  · exact within_cancel _ _

theorem State.fulfil_order (s : State) (i n r j) : (s.fulfil i n r).order j = if j = i then (splitReady ((s.order i).map (OrderEntry.fulfil n r))).2 else s.order j := by
  unfold State.fulfil; split
  · rename_i h; subst h; rw [State.leaveReady_order, State.order_setOrder]
  · rename_i h; rw [State.leaveReady_order_ne _ _ _ h, State.order_setOrder_ne _ _ _ _ h]

theorem within_fulfil (s : State) (i n r) : Within s (s.fulfil i n r) := by
  refine ⟨List.Sublist.refl _, by show s.jobs.length ≤ _; omega, List.Sublist.refl _, le_rfl, fun j => ?_⟩
  rw [State.fulfil_order]; split
  · rename_i h; subst h; exact (splitReady_length _).trans (by simp)
  · exact le_rfl

theorem within_route (s : State) (e r) : Within s (s.route e r) := by
  unfold State.route; split
  · exact within_fulfil _ _ _ _
  · exact within_fulfil _ _ _ _
  · exact within_fulfil _ _ _ _
  · exact within_fulfil _ _ _ _
  · exact within_routeRepair _ _ _ _ _
  · exact within_routeRepair _ _ _ _ _
  · split <;> exact Within.same _ _ rfl rfl rfl rfl rfl

theorem within_return (s : State) (r) : Within s (s.takeReturn r) := by
  unfold State.takeReturn; split
  · exact Within.same _ _ rfl rfl rfl rfl rfl
  · rename_i e _
    have h1 : Within s ((s.route e r).settleCount e.kind r.status) := by
      refine (within_route s e r).trans ?_
      unfold State.settleCount; split
      · exact within_decrement _ _ _ _
      · exact Within.same _ _ rfl rfl rfl rfl rfl
    generalize (s.route e r).settleCount e.kind r.status = u at *
    have h2 : Within u (u.freeEntry e) :=
      ⟨List.filter_sublist, by show u.jobs.length ≤ _; omega, List.Sublist.refl _, le_rfl, fun _ => le_rfl⟩
    refine (h1.trans h2).trans ?_
    generalize u.freeEntry e = v at *
    have h3 : Within v (v.settleRequester e.kind) := by
      unfold State.settleRequester; split
      · exact Within.same _ _ rfl rfl rfl rfl rfl
      · exact within_account _
      · rw [State.settleLoad_frame]; exact Within.same _ _ rfl rfl rfl rfl rfl
    refine h3.trans ?_
    unfold State.settleStream; split
    · exact (within_reportQuiet _ _ _ _).trans (within_settleDrain _ _)
    · exact Within.same _ _ rfl rfl rfl rfl rfl

theorem State.byteCompletes_frame (s : State) (b : Byte) : ∃ S n R, (n = s.starvation ∨ n = 0) ∧ s.byteCompletes b = { s with
    streams := S, starvation := n, link := (s.byteCompletes b).link, ports := (s.byteCompletes b).ports, load := (s.byteCompletes b).load, reloadInProgress := R,
    softResetPending := (s.byteCompletes b).softResetPending, deviceFlags := (s.byteCompletes b).deviceFlags } := by
  unfold State.byteCompletes State.takeAtStream State.takeAtArgument State.takeGetStream State.takeGetPool State.takeGetReaders
    State.takeArm State.takeDisarm State.takeReload State.takeSoftReset State.takeGetCoverage State.takeGetCounters
    State.takeAckEvents
  dsimp only
  repeat' split
  all_goals first | exact ⟨_, _, _, .inl rfl, rfl⟩ | exact ⟨_, _, _, .inr rfl, rfl⟩

/-! ### What an offered transaction and a grant can do -/

theorem State.offered_cases (s v : State) (t : Txn) (h : s.offered t (State.takeAny t) = .next v) :
    v = s.quietPorts ∨ ((s.order t.initiator).length < 64 ∧ s.table.length < 32 ∧ ∃ u : State, Prepared s { u with ports := s.ports } ∧
      ((∃ st d, v = u.answer t st d) ∨ ∃ k a, v = u.forward t k a ∧ k.passKey = some (t.initiator, t.tag))) := by
  unfold State.offered at h; split at h
  · split at h
    · rename_i hm
      have hp := (State.passEligible_iff _ _).1 ((State.mayTake_iff _ _).1 hm).1
      right
      refine ⟨hp.2.2.2, hp.2.2.1, ?_⟩
      unfold State.takeAny at h
      rcases State.takeAs_cases _ _ _ _ h with ⟨w, st, d, hw, e⟩ | ⟨w, k, a, hw, e, hk⟩
      · exact ⟨w, ⟨hw.table, hw.orders, hw.bursts, hw.starvation, hw.jobs, rfl⟩, .inl ⟨st, d, e⟩⟩
      · exact ⟨w, ⟨hw.table, hw.orders, hw.bursts, hw.starvation, hw.jobs, rfl⟩, .inr ⟨k, a, e, hk⟩⟩
    · cases h; exact .inl rfl
  · cases h

theorem State.nextBurst_room (s : State) (j : Job) (h : s.repairRequest = some (j, .nextBurst)) : s.bursts.length < 4 := by
  unfold State.repairRequest at h; split at h
  · cases h
  · split at h
    · cases h
    · split at h
      · split at h
        · rename_i q hq; injection h with h; injection h with h1 h2; subst h2
          exfalso
          revert hq; generalize s.bursts = l; intro hq
          induction l with
          | nil => cases hq
          | cons a l ih => unfold oldestHeld at hq; split at hq <;> first | cases hq | exact ih hq
        · split at h
          · rename_i hh; exact hh.1
          · cases h
      · cases h

theorem writes_slot (slot) (l : List Burst) : (l.map (Burst.writes slot)).map (·.slot) = l.map (·.slot) := by
  rw [List.map_map]; apply List.map_congr_left; intro b _
  simp only [Function.comp, Burst.writes]; split <;> rfl

theorem State.jobIssued_frame (s : State) : s.jobIssued = { s with jobs := s.jobIssued.jobs } := by unfold State.jobIssued; rw [State.onHead_frame]

theorem State.onHead_length (s : State) (f) : (s.onHead f).jobs.length = s.jobs.length := by
  unfold State.onHead; split
  · rfl
  · rename_i j l h; simp [h]

theorem State.jobIssued_length (s : State) : s.jobIssued.jobs.length = s.jobs.length := State.onHead_length _ _

theorem State.takeGrant_cases (s v : State) (o : Option Initiator) (h : s.takeGrant o = .next v) :
    v = s ∨ (s.table.length < 32 ∧ ∃ k, k.passKey = none ∧ v.table = s.table ++ [{ index := s.freeIndex, kind := k }] ∧ v.orders = s.orders ∧
      v.jobs.length = s.jobs.length ∧ v.starvation ≤ s.starvation ∧
      (k.requester = .loader → (s.entriesOf .loader).length < 3) ∧ (k.requester = .repair → (s.entriesOf .repair).length < 4) ∧
      (v.bursts.map (·.slot) = s.bursts.map (·.slot) ∨ (s.bursts.length < 4 ∧ v.bursts.map (·.slot) = s.bursts.map (·.slot) ++ [s.freeRepairSlot]))) := by
  unfold State.takeGrant at h
  split at h
  · rename_i q he hq
    cases h
    have := (State.loaderEligible_iff s).1 he
    exact .inr ⟨this.2.1, _, rfl, rfl, rfl, rfl, le_rfl, fun _ => this.2.2, fun e => (by cases e), .inl rfl⟩
  · split at h
    · rename_i j q he hq
      have he : s.repairEligible = true := by unfold State.repairTurn at he; simp at he; exact he.1
      have he := (State.repairEligible_iff s).1 he
      right
      refine ⟨he.2.1, ?_⟩
      unfold State.grantRepair at h; split at h
      · unfold State.grantHeldWrite at h; split at h
        · cases h
        · cases h
          rw [State.jobIssued_frame]
          exact ⟨_, rfl, rfl, rfl, (by dsimp only; rw [State.jobIssued_length]; rfl), Nat.zero_le _, fun e => (by cases e), fun _ => he.2.2, .inl (writes_slot _ _)⟩
      · have hb := State.nextBurst_room s j hq
        split at h
        · unfold State.grantPad at h; dsimp only at h; split at h
          · cases h
          · cases h
            unfold State.burstIssued; dsimp only
            rw [State.jobIssued_frame, State.onHead_frame]
            refine ⟨_, rfl, rfl, rfl, ?_, Nat.zero_le _, fun e => (by cases e), fun _ => he.2.2, .inr ⟨hb, ?_⟩⟩
            · dsimp only; rw [State.jobIssued_length]; dsimp only; rw [State.onHead_length]; rfl
            · dsimp only; rw [List.map_append]; rfl
        · unfold State.grantCopyRead at h; dsimp only at h; split at h
          · cases h
            unfold State.burstIssued; dsimp only
            rw [State.jobIssued_frame, State.onHead_frame]
            refine ⟨_, rfl, rfl, rfl, ?_, Nat.zero_le _, fun e => (by cases e), fun _ => he.2.2, .inr ⟨hb, ?_⟩⟩
            · dsimp only; rw [State.jobIssued_length]; dsimp only; rw [State.onHead_length]; rfl
            · dsimp only; rw [List.map_append]; rfl
          · cases h
    · cases h; exact .inl rfl

theorem State.route_table (s : State) (e r) : (s.route e r).table = s.table := by rw [State.route_frame]

/-! ### Commands by kind, and what exec, an idle step and a step can do -/

inductive CommandKind (s : State) : Instr → Prop where
  | byte (i b) : exec i s = .next (s.quietPorts.byteCompletes b) → CommandKind s i
  | port (i t) : exec i s = s.offered t (State.takeAny t) → CommandKind s i
  | powerOn : CommandKind s .powerOnReset
  | release (a c) : CommandKind s (.resetRelease a c)
  | reinit (a c) : CommandKind s (.reinitialisation a c)
  | frameEnd : CommandKind s .frameEnd
  | frameBegin : CommandKind s .frameBegin
  | grant (o) : CommandKind s (.grant o)
  | returned (r) : CommandKind s (.returned r)
  | miss (st) : CommandKind s (.miss st)
  | scan (st k) : CommandKind s (.scanTimerExpiry st k)
  | arm (st b) : CommandKind s (.armMessage st b)
  | teardown (st) : CommandKind s (.teardownRequest st)

theorem command_kind (s : State) (i : Instr) : CommandKind s i := by
  cases i with
  | powerOnReset => exact .powerOn
  | resetRelease a c => exact .release a c
  | reinitialisation a c => exact .reinit a c
  | frameEnd => exact .frameEnd
  | frameBegin => exact .frameBegin
  | grant o => exact .grant o
  | returned r => exact .returned r
  | miss st => exact .miss st
  | scanTimerExpiry st k => exact .scan st k
  | armMessage st b => exact .arm st b
  | teardownRequest st => exact .teardown st
  | softReset b => exact .byte _ b (exec_byte _ b s (by simp))
  | getDevice b => exact .byte _ b (exec_byte _ b s (by simp))
  | getStream b => exact .byte _ b (exec_byte _ b s (by simp))
  | getPool b => exact .byte _ b (exec_byte _ b s (by simp))
  | getReaders b => exact .byte _ b (exec_byte _ b s (by simp))
  | getCoverage b => exact .byte _ b (exec_byte _ b s (by simp))
  | getCounters b => exact .byte _ b (exec_byte _ b s (by simp))
  | ackEvents b => exact .byte _ b (exec_byte _ b s (by simp))
  | arm b => exact .byte _ b (exec_byte _ b s (by simp))
  | disarm b => exact .byte _ b (exec_byte _ b s (by simp))
  | reload b => exact .byte _ b (exec_byte _ b s (by simp))
  | unlistedCommand b => exact .byte _ b (exec_byte _ b s (by simp))
  | byteComplete b => exact .byte _ b (exec_byte _ b s (by simp))
  | passThrough t => exact .port _ t (execPassThrough_any t s)
  | lineAreaWrite t => exact .port _ t (execLineAreaWrite_any t s)
  | excessWrite t => exact .port _ t (execExcessWrite_any t s)
  | captureRead t => exact .port _ t (execCaptureRead_any t s)
  | close t => exact .port _ t (execClose_any t s)
  | captureStatusRead t => exact .port _ t (execCaptureStatusRead_any t s)
  | claim t => exact .port _ t (execClaim_any t s)
  | peek t => exact .port _ t (execPeek_any t s)
  | presentationLineRead t => exact .port _ t (execPresentationLineRead_any t s)
  | dormantCaptureAccess t => exact .port _ t (execDormantCaptureAccess_any t s)
  | dormantPresentationAccess t => exact .port _ t (execDormantPresentationAccess_any t s)
  | accessRefusal t => exact .port _ t (execAccessRefusal_any t s)

theorem within_byte (s : State) (b) : Within s (s.byteCompletes b) ∧ (s.byteCompletes b).table = s.table ∧ (s.byteCompletes b).orders = s.orders := by
  obtain ⟨S, n, R, hn, h⟩ := State.byteCompletes_frame s b
  rw [h]
  refine ⟨Within.of _ _ rfl (by dsimp only; omega) (List.Sublist.refl _) ?_ rfl, rfl, rfl⟩
  dsimp only; rcases hn with rfl | rfl <;> omega

theorem State.sampleStraps_frame (s : State) (a c) : ∃ d l, s.sampleStraps a c = { s with apsel := a, cfgsel := c, device := d, load := l } := by
  unfold State.sampleStraps; dsimp only; split
  · exact ⟨_, _, rfl⟩
  · exact ⟨_, _, rfl⟩

theorem State.quietPorts_within (s : State) : Within s s.quietPorts ∧ s.quietPorts.table = s.table ∧ s.quietPorts.orders = s.orders :=
  ⟨Within.same _ _ rfl rfl rfl rfl rfl, rfl, rfl⟩

theorem State.powerOn_within (s : State) : Within s s.powerOn := by
  refine ⟨List.nil_sublist _, by show 0 ≤ _; omega, List.nil_sublist _, Nat.zero_le _, fun i => ?_⟩
  have : s.powerOn.order i = [] := by show (Vector.replicate 16 []).get i = []; simp [Vector.get]
  rw [this]; exact Nat.zero_le _

theorem exec_cases (s u : State) (i : Instr) (h : exec i s = .next u) :
    (∃ t, exec i s = s.offered t (State.takeAny t)) ∨ (∃ o, i = .grant o) ∨ (∃ r, i = .returned r) ∨
    (Within s u ∧ ((u.table = s.table ∧ u.orders = s.orders) ∨ (u.table = [] ∧ ∀ i, u.order i = []))) := by
  have reset0 : ∀ v : State, v.table = s.powerOn.table → v.orders = s.powerOn.orders → v.table = [] ∧ ∀ i, v.order i = [] := by
    intro v h1 h2; refine ⟨h1, fun i => ?_⟩
    unfold State.order; rw [h2]; show (Vector.replicate 16 []).get i = []; simp [Vector.get]
  cases command_kind s i with
  | byte i b hb =>
    rw [hb] at h; cases h
    obtain ⟨h1, h2, h3⟩ := within_byte s.quietPorts b
    exact .inr (.inr (.inr ⟨(State.quietPorts_within s).1.trans h1, .inl ⟨h2, h3⟩⟩))
  | port i t ht => exact .inl ⟨t, ht⟩
  | grant o => exact .inr (.inl ⟨o, rfl⟩)
  | returned r => exact .inr (.inr (.inl ⟨r, rfl⟩))
  | powerOn =>
    cases h
    exact .inr (.inr (.inr ⟨State.powerOn_within s, .inr (reset0 _ rfl rfl)⟩))
  | release a c =>
    change execResetRelease a c s = _ at h
    unfold execResetRelease at h; split at h
    · cases h; exact .inr (.inr (.inr ⟨(State.quietPorts_within s).1, .inl ⟨rfl, rfl⟩⟩))
    · cases h
      obtain ⟨d, l, e⟩ := State.sampleStraps_frame { s.quietPorts with resetN := true, link := .idle } a c
      rw [e]
      exact .inr (.inr (.inr ⟨Within.same _ _ rfl rfl rfl rfl rfl, .inl ⟨rfl, rfl⟩⟩))
  | reinit a c =>
    change execReinitialisation a c s = _ at h
    unfold execReinitialisation at h; split at h
    · cases h
      obtain ⟨d, l, e⟩ := State.sampleStraps_frame s.reinitialised a c
      rw [e]
      have := State.powerOn_within s
      exact .inr (.inr (.inr ⟨⟨this.1, this.2, this.3, this.4, this.5⟩, .inr (reset0 _ rfl rfl)⟩))
    · cases h; exact .inr (.inr (.inr ⟨(State.quietPorts_within s).1, .inl ⟨rfl, rfl⟩⟩))
  | frameEnd => cases h; exact .inr (.inr (.inr ⟨Within.same _ _ rfl rfl rfl rfl rfl, .inl ⟨rfl, rfl⟩⟩))
  | frameBegin =>
    change execFrameBegin s = _ at h
    unfold execFrameBegin at h; split at h <;> cases h <;> exact .inr (.inr (.inr ⟨Within.same _ _ rfl rfl rfl rfl rfl, .inl ⟨rfl, rfl⟩⟩))
  | miss st =>
    change execMiss st s = _ at h
    unfold execMiss at h; split at h <;> cases h <;> exact .inr (.inr (.inr ⟨Within.same _ _ rfl rfl rfl rfl rfl, .inl ⟨rfl, rfl⟩⟩))
  | scan st k =>
    change execScanTimerExpiry st k s = _ at h
    unfold execScanTimerExpiry at h; split at h <;> cases h
    · rw [State.reportQuiet_frame]
      exact .inr (.inr (.inr ⟨Within.same _ _ rfl rfl rfl rfl rfl, .inl ⟨rfl, rfl⟩⟩))
    · exact .inr (.inr (.inr ⟨Within.same _ _ rfl rfl rfl rfl rfl, .inl ⟨rfl, rfl⟩⟩))
  | arm st b =>
    change execArmMessage st b s = _ at h
    unfold execArmMessage at h; split at h <;> cases h <;> exact .inr (.inr (.inr ⟨Within.same _ _ rfl rfl rfl rfl rfl, .inl ⟨rfl, rfl⟩⟩))
  | teardown st =>
    change execTeardownRequest st s = _ at h
    unfold execTeardownRequest at h; split at h <;> cases h
    · refine .inr (.inr (.inr ⟨(State.quietPorts_within s).1.trans (within_teardown _ _), .inl ?_⟩))
      rw [State.takeTeardown_frame]; exact ⟨rfl, rfl⟩
    · exact .inr (.inr (.inr ⟨Within.same _ _ rfl rfl rfl rfl rfl, .inl ⟨rfl, rfl⟩⟩))

theorem idle_cases (s u : State) (h : s.idle = .next u) : u = s.tick ∨ ∃ i c, exec i { s with choice := c } = .next u ∧ ((∃ st, i = .miss st) ∨ ∃ st k, i = .scanTimerExpiry st k) := by
  have ex : ∀ (v : State) (e : TimerName), v.takeExpiry e = .next u → ∃ i, exec i v = .next u ∧ ((∃ st, i = .miss st) ∨ ∃ st k, i = .scanTimerExpiry st k) := by
    intro v e he; cases e with
    | cadence st => exact ⟨.miss st, he, .inl ⟨_, rfl⟩⟩
    | scan st k => exact ⟨.scanTimerExpiry st k, he, .inr ⟨_, _, rfl⟩⟩
  unfold State.idle at h; split at h
  · cases h; exact .inl rfl
  · obtain ⟨i, h1, h2⟩ := ex _ _ h; exact .inr ⟨i, s.choice, h1, h2⟩
  · obtain ⟨i, h1, h2⟩ := ex _ _ h; exact .inr ⟨i, s.choice + 1, h1, h2⟩

theorem step_cases (s u : State) (h : step s = .next u) : (u = s.tick) ∨ ∃ i v, exec i v = .next u ∧ ((∃ c, v = { s with choice := c }) ∨ ∃ l, v = { s with pending := l }) := by
  unfold step at h; split at h
  · exact .inr ⟨_, _, h, .inr ⟨_, rfl⟩⟩
  · rcases idle_cases s u h with h | ⟨i, c, h, _⟩
    · exact .inl h
    · exact .inr ⟨i, _, h, .inl ⟨c, rfl⟩⟩

/-! ### Returns and the responses that leave -/

theorem exec_returned (s : State) (r) (h : r.wf = true) : exec (.returned r) s = .next (s.quietPorts.takeReturn r) := by
  show execReturned r s = _; unfold execReturned; rw [if_pos h]

theorem splitReady_run (l : List OrderEntry) : ∃ run : List (OrderEntry × Response), (splitReady l).1 = run.map Prod.fst ∧ (∀ x ∈ run, x.1.state = .ready x.2) ∧
    ∀ i, (splitReady l).1.flatMap (OrderEntry.sent i) = run.map (fun x => sentFor i x.1 x.2) := by
  induction l with
  | nil => exact ⟨[], rfl, by simp, fun _ => rfl⟩
  | cons a l ih =>
    obtain ⟨run, h1, h2, h3⟩ := ih
    cases ha : a.state with
    | waits n => exact ⟨[], by simp [splitReady, ha], by simp, fun i => by simp [splitReady, ha]⟩
    | ready x =>
      refine ⟨(a, x) :: run, by simp [splitReady, ha, h1], ?_, fun i => ?_⟩
      · intro y hy; rcases List.mem_cons.1 hy with rfl | hy
        · exact ha
        · exact h2 y hy
      · simp [splitReady, ha, h3 i, OrderEntry.sent, sentFor]

theorem State.fulfil_ports (s : State) (i n r) : (s.fulfil i n r).ports = { s.ports with responses := s.ports.responses ++ (splitReady ((s.order i).map (OrderEntry.fulfil n r))).1.flatMap (OrderEntry.sent i) } := by
  unfold State.fulfil; rw [State.leaveReady_ports, State.order_setOrder]; rfl

theorem State.fulfil_frame (s : State) (i n r) : s.fulfil i n r = { s with orders := (s.fulfil i n r).orders, ports := (s.fulfil i n r).ports } := rfl

theorem State.freeEntry_frame (s : State) (e) : s.freeEntry e = { s with table := (s.freeEntry e).table } := rfl

theorem State.route_pass (s : State) (e : Entry) (r : DsResponse) (i t) (h : e.kind.passKey = some (i, t)) : s.route e r = s.fulfil i e.index { status := r.status, data := r.data } := by
  unfold State.route
  cases hk : e.kind <;> rw [hk] at h <;> simp [EntryKind.passKey] at h <;> obtain ⟨rfl, rfl⟩ := h <;> rfl

end Sys2Proof.Machine
end

