-- ==== Sys2Proof/Laws/Slots.lean ====
section
/-! SUPPORT. What the operations do to stream slots: which slots they leave, which leave a slot's lifecycle and lock alone, how the
lock state machine moves, and the parts of a job, a drain, a hand-off and a claim. -/
namespace Sys2Proof.Machine

open Sys2Proof Sys2Proof.Safety

/-! ### Operations on one slot that leave its lifecycle, descriptors, lock and counters alone -/

structure SameLock (x y : StreamState) : Prop where
  current : y.current = x.current
  waiting : y.pendingSlot = x.pendingSlot
  life : y.life = x.life
  await : y.armAwaited = x.armAwaited
  taken : y.drainTaken = x.drainTaken
  lock : y.lock = x.lock
  acq : y.acquire = x.acquire
  loss : y.loss = x.loss

structure Keep (x y : StreamState) : Prop where
  slot : SlotLock x → SlotLock y
  idle : SlotIdle x → SlotIdle y

theorem Keep.refl {x : StreamState} : Keep x x := ⟨id, id⟩

theorem Keep.trans {x y z : StreamState} (a : Keep x y) (b : Keep y z) : Keep x z := ⟨b.slot ∘ a.slot, b.idle ∘ a.idle⟩

theorem desc_of_current {x y : StreamState} (h : y.current = x.current) : y.desc = x.desc := by unfold StreamState.desc; rw [h]

theorem ranges_congr {x y : StreamState} (h : CountersInRange x) (hc : y.current = x.current) (hl : y.lock = x.lock) (ha : y.acquire = x.acquire) (ho : y.loss = x.loss) : CountersInRange y := by
  unfold CountersInRange at *; rw [hl, ha, ho, desc_of_current hc]; exact h

theorem SameLock.keep {x y : StreamState} (h : SameLock x y) : Keep x y := by
  refine ⟨fun s => ⟨?_, ?_, ?_, ?_, ?_, ?_, ?_, ?_⟩, fun s => ⟨h.lock ▸ s.1, h.await ▸ s.2.1, h.life ▸ s.2.2⟩⟩
  · rw [h.current]; exact s.current
  · rw [h.waiting]; exact s.waiting
  · exact ranges_congr s.ranges h.current h.lock h.acq h.loss
  · rw [h.lock, desc_of_current h.current]; exact s.counts
  · rw [h.await, h.life, desc_of_current h.current]; exact s.arming
  · rw [h.life, h.await, h.lock]; exact s.off
  · rw [h.life, h.lock]; exact s.refused
  · rw [h.life, h.taken, h.lock]; exact s.draining

theorem SameLock.trans {x y z : StreamState} (a : SameLock x y) (b : SameLock y z) : SameLock x z :=
  ⟨b.1.trans a.1, b.2.trans a.2, b.3.trans a.3, b.4.trans a.4, b.5.trans a.5, b.6.trans a.6, b.7.trans a.7, b.8.trans a.8⟩

theorem SameLock.refl {x : StreamState} : SameLock x x := ⟨rfl, rfl, rfl, rfl, rfl, rfl, rfl, rfl⟩

theorem sameLock_release (x : StreamState) (i) : SameLock x (x.release i) := ⟨rfl, rfl, rfl, rfl, rfl, rfl, rfl, rfl⟩

theorem sameLock_onBuf (x : StreamState) (i f) : SameLock x (x.onBuf i f) := ⟨rfl, rfl, rfl, rfl, rfl, rfl, rfl, rfl⟩

theorem sameLock_raise (x : StreamState) (e) : SameLock x (x.raise e) := ⟨rfl, rfl, rfl, rfl, rfl, rfl, rfl, rfl⟩

theorem sameLock_count (x : StreamState) (c) : SameLock x (x.count c) := ⟨rfl, rfl, rfl, rfl, rfl, rfl, rfl, rfl⟩

theorem sameLock_join (x : StreamState) (i) : SameLock x (x.join i) := by rw [StreamState.join_frame]; exact ⟨rfl, rfl, rfl, rfl, rfl, rfl, rfl, rfl⟩

theorem sameLock_placeHold (x : StreamState) : SameLock x (x.placeHold) := by rw [StreamState.placeHold_frame]; exact ⟨rfl, rfl, rfl, rfl, rfl, rfl, rfl, rfl⟩

theorem sameLock_clearHold (x : StreamState) : SameLock x (x.clearHold) := by rw [StreamState.clearHold_frame]; exact ⟨rfl, rfl, rfl, rfl, rfl, rfl, rfl, rfl⟩

theorem sameLock_unbindOld (x : StreamState) (r) : SameLock x (x.unbindOld r) := by rw [StreamState.unbindOld_frame]; exact ⟨rfl, rfl, rfl, rfl, rfl, rfl, rfl, rfl⟩

theorem sameLock_unpinFor (x : StreamState) (m) : SameLock x (x.unpinFor m) := by cases m <;> exact ⟨rfl, rfl, rfl, rfl, rfl, rfl, rfl, rfl⟩

theorem sameLock_pinFor (x : StreamState) (m) : SameLock x (x.pinFor m) := by cases m <;> exact ⟨rfl, rfl, rfl, rfl, rfl, rfl, rfl, rfl⟩

theorem sameLock_countVerdict (x : StreamState) (v) : SameLock x (x.countVerdict v) := by cases v <;> exact ⟨rfl, rfl, rfl, rfl, rfl, rfl, rfl, rfl⟩

theorem sameLock_claim (x : StreamState) (n k) : SameLock x (x.claim n k) := by
  unfold StreamState.claim StreamState.setReader; rw [StreamState.claimPool_frame]; exact ⟨rfl, rfl, rfl, rfl, rfl, rfl, rfl, rfl⟩

theorem sameLock_startFrame (x : StreamState) (q) : SameLock x (x.startFrame q).1 := by
  unfold StreamState.startFrame; split
  · exact ⟨rfl, rfl, rfl, rfl, rfl, rfl, rfl, rfl⟩
  · split <;> exact ⟨rfl, rfl, rfl, rfl, rfl, rfl, rfl, rfl⟩

theorem sameLock_beginFrame (x : StreamState) : SameLock x x.beginFrame := by
  unfold StreamState.beginFrame; split
  · have := sameLock_startFrame ({ x with lastSeq := x.lastSeq + 1#32 }.count .framesStarted) (x.lastSeq + 1#32)
    exact ⟨this.1, this.2, this.3, this.4, this.5, this.6, this.7, this.8⟩
  · exact .refl
  · exact .refl

/-! ### The lock state machine keeps the counters in range -/

theorem keep_lock {x y : StreamState} (hc : y.current = x.current) (hw : y.pendingSlot = x.pendingSlot) (hl : y.life = x.life) (ha : y.armAwaited = x.armAwaited) (ht : y.drainTaken = x.drainTaken)
    (hn : x.lock ≠ .down) (hr : SlotLock x → CountersInRange y) : Keep x y := by
  refine ⟨fun s => ⟨hc ▸ s.current, hw ▸ s.waiting, hr s, fun _ => desc_of_current hc ▸ s.counts hn, ?_, ?_, ?_, ?_⟩, fun h => absurd h.1 hn⟩
  · rw [ha, hl, desc_of_current hc]; exact s.arming
  · rw [ha, hl]; intro h1 h2; exact absurd (s.off h1 h2) hn
  · rw [hl]; intro h1; exact absurd (s.refused h1) hn
  · rw [hl, ht]; intro h1 h2; exact absurd (s.draining h1 h2) hn

theorem sameLock_lose (x : StreamState) (h : x.lock = .locked ∨ x.lock = .coast) : Keep x x.loseLock := by
  have hn : x.lock ≠ .down := by rcases h with h | h <;> rw [h] <;> intro e <;> cases e
  set z := { x with lock := .freerun, loss := 0 }.raise .lockLost with hz
  have hh : x.loseLock = if Decode.unlock x.desc = some .hold then z.placeHold else z := rfl
  have ht : SameLock z x.loseLock := by
    rw [hh]; split
    · exact sameLock_placeHold _
    · exact .refl
  refine keep_lock ht.1 ht.2 ht.3 ht.4 ht.5 hn (fun s => ?_)
  have hr := s.ranges
  have hp := s.counts hn
  refine ranges_congr (x := z) ?_ ht.1 ht.6 ht.7 ht.8
  show x.acquire < Decode.reacquireCount x.desc ∧ 0 = 0 ∧ 0 < Decode.lossCount x.desc
  have h0 : x.acquire = 0 := by
    unfold CountersInRange at hr; rcases h with h | h <;> rw [h] at hr <;> exact hr.1
  rw [h0]; exact ⟨hp.2.1, rfl, hp.2.2⟩

theorem sameLock_gain (x y : StreamState) (h : x.lock = .search ∨ x.lock = .freerun) (hy : SameLock x.gainLock y) : Keep x y := by
  have hn : x.lock ≠ .down := by rcases h with h | h <;> rw [h] <;> intro e <;> cases e
  refine keep_lock hy.1 hy.2 hy.3 hy.4 hy.5 hn (fun s => ?_)
  have hr := s.ranges
  have hp := s.counts hn
  refine ranges_congr (x := x.gainLock) ?_ hy.1 hy.6 hy.7 hy.8
  show 0 = 0 ∧ x.loss = 0 ∧ x.loss < Decode.lossCount x.desc
  unfold CountersInRange at hr
  rcases h with h | h <;> rw [h] at hr <;> exact ⟨rfl, hr.2⟩

theorem keep_lockInput (x : StreamState) (i) : Keep x (x.lockInput i) := by
  unfold StreamState.lockInput
  cases hl : x.lock with
  | down => exact .refl
  | search =>
    cases i with
    | neutral => exact .refl
    | good =>
      dsimp only; split
      · exact sameLock_gain x _ (.inl hl) .refl
      · rename_i hh
        refine keep_lock rfl rfl rfl rfl rfl (by rw [hl]; intro e; cases e) (fun s => ?_)
        have hr := s.ranges; unfold CountersInRange at *; rw [hl] at hr; dsimp only; try rw [hl]
        exact ⟨by show x.acquire + 1 < Decode.acquireCount x.desc; omega, hr.2⟩
    | fault =>
      refine keep_lock rfl rfl rfl rfl rfl (by rw [hl]; intro e; cases e) (fun s => ?_)
      have hr := s.ranges; unfold CountersInRange at *; rw [hl] at hr; dsimp only; try rw [hl]
      exact ⟨by show 0 < Decode.acquireCount x.desc; omega, hr.2⟩
  | locked =>
    cases i with
    | neutral => exact .refl
    | good => exact .refl
    | fault =>
      dsimp only; split
      · exact sameLock_lose x (.inl hl)
      · rename_i hh
        refine keep_lock rfl rfl rfl rfl rfl (by rw [hl]; intro e; cases e) (fun s => ?_)
        have hr := s.ranges; unfold CountersInRange at *; rw [hl] at hr; dsimp only
        exact ⟨hr.1, by show 1 < Decode.lossCount x.desc; omega⟩
  | coast =>
    cases i with
    | neutral => exact .refl
    | good =>
      refine keep_lock rfl rfl rfl rfl rfl (by rw [hl]; intro e; cases e) (fun s => ?_)
      have hr := s.ranges; unfold CountersInRange at *; rw [hl] at hr; dsimp only
      exact ⟨hr.1, rfl, by show 0 < Decode.lossCount x.desc; omega⟩
    | fault =>
      dsimp only; split
      · exact sameLock_lose x (.inr hl)
      · rename_i hh
        refine keep_lock rfl rfl rfl rfl rfl (by rw [hl]; intro e; cases e) (fun s => ?_)
        have hr := s.ranges; unfold CountersInRange at *; rw [hl] at hr; dsimp only; try rw [hl]
        exact ⟨hr.1, by show x.loss + 1 < Decode.lossCount x.desc; omega⟩
  | freerun =>
    cases i with
    | neutral => exact .refl
    | good =>
      dsimp only; split
      · refine sameLock_gain x _ (.inr hl) ?_
        unfold StreamState.relock; dsimp only; split
        · exact sameLock_clearHold _
        · exact .refl
      · rename_i hh
        refine keep_lock rfl rfl rfl rfl rfl (by rw [hl]; intro e; cases e) (fun s => ?_)
        have hr := s.ranges; unfold CountersInRange at *; rw [hl] at hr; dsimp only; try rw [hl]
        exact ⟨by show x.acquire + 1 < Decode.reacquireCount x.desc; omega, hr.2⟩
    | fault =>
      refine keep_lock rfl rfl rfl rfl rfl (by rw [hl]; intro e; cases e) (fun s => ?_)
      have hr := s.ranges; unfold CountersInRange at *; rw [hl] at hr; dsimp only; try rw [hl]
      exact ⟨by show 0 < Decode.reacquireCount x.desc; omega, hr.2⟩

theorem keep_handOn (x : StreamState) (v b) : Keep x (x.handOn v b) := by
  unfold StreamState.handOn
  refine (keep_lockInput x (v.lockInput b.early)).trans ?_
  refine Keep.trans ?_ (sameLock_countVerdict _ v).keep
  exact SameLock.keep ⟨rfl, rfl, rfl, rfl, rfl, rfl, rfl, rfl⟩

theorem keep_good (x : StreamState) (v i b) : Keep x (x.finishGood v i b) :=
  ((keep_handOn x v b).trans (sameLock_onBuf _ _ _).keep).trans (sameLock_join _ _).keep

theorem keep_bad (x : StreamState) (v i b) : Keep x (x.finishBad v i b) := (keep_handOn x v b).trans (sameLock_release _ _).keep

/-! ### Operations on the whole part, slot by slot -/

def Keeps (s u : State) : Prop := ∀ k, Keep (s.stream k) (u.stream k)

theorem Keeps.refl {s : State} : Keeps s s := fun _ => Keep.refl

theorem Keeps.of (s u : State) (h : u.streams = s.streams) : Keeps s u := fun k => by unfold State.stream; rw [h]; exact .refl

theorem Keeps.trans {s u v : State} (a : Keeps s u) (b : Keeps u v) : Keeps s v := fun k => (a k).trans (b k)

theorem Keeps.on (s : State) (st) (f : StreamState → StreamState) (h : Keep (s.stream st) (f (s.stream st))) : Keeps s (s.onStream st f) := by
  intro k
  by_cases hk : k = st
  · subst hk; rw [State.stream_onStream]; exact h
  · rw [State.stream_onStream_ne _ _ _ _ hk]; exact .refl

theorem keeps_drain (s : State) (st i) : Keeps s (s.drain st i) := by
  unfold State.drain; split
  · exact .refl
  · split
    · split
      · rename_i b _ _ _
        have : Keeps s (s.onStream st (fun x => (x.pinFor (x.repairMethod i)).onBuf i (fun b => { b with state := .repairing }))) :=
          Keeps.on _ _ _ ((sameLock_pinFor _ _).trans (sameLock_onBuf _ _ _)).keep
        exact this
      · exact Keeps.on _ _ _ (keep_good _ _ _ _)
      · exact Keeps.on _ _ _ (keep_bad _ _ _ _)
    · exact .refl

theorem keep_report (x : StreamState) (j) : Keep x (x.jobReport j) := by
  unfold StreamState.jobReport; split
  · exact .refl
  · split
    · exact (sameLock_release _ _).keep
    · split
      · exact keep_bad _ _ _ _
      · split <;> exact keep_good _ _ _ _

theorem keeps_onHead (s : State) (f) : Keeps s (s.onHead f) := by rw [State.onHead_frame]; exact Keeps.of _ _ rfl

theorem keeps_withdraw (s : State) : Keeps s s.withdrawRepair := by rw [State.withdrawRepair_frame]; exact Keeps.of _ _ rfl

theorem keeps_settleJob (s : State) : Keeps s s.settleJob := by
  unfold State.settleJob; split
  · exact .refl
  · split
    · rename_i j l _ _
      exact fun k => Keeps.on s j.stream (fun x => (x.unpinFor j.method).jobReport j) ((sameLock_unpinFor _ _).keep.trans (keep_report _ _)) k
    · exact .refl

theorem keeps_routeRepair (s : State) (r n st d) : Keeps s (s.routeRepair r n st d) := by
  unfold State.routeRepair; split
  · split
    · split <;> exact Keeps.of _ _ rfl
    · dsimp only; split
      · refine Keeps.trans ?_ (Keeps.on _ _ _ (sameLock_raise _ _).keep)
        exact fun k => ((keeps_withdraw s).trans (keeps_onHead _ _)) k
      · exact (keeps_withdraw s).trans (keeps_onHead _ _)
  · exact Keeps.of _ _ rfl

theorem keeps_account (s : State) : Keeps s s.accountRepair := (keeps_onHead _ _).trans (keeps_settleJob _)

theorem sameLock_foldl_cancelJob (l : List Job) (x : StreamState) : SameLock x (l.foldl StreamState.cancelJob x) := by
  induction l generalizing x with
  | nil => exact .refl
  | cons a l ih => exact ((sameLock_unpinFor _ _).trans (sameLock_release _ _)).trans (ih _)

theorem keeps_cancelQueued (s : State) (st) : Keeps s (s.cancelQueued st) := by
  unfold State.cancelQueued; split
  · exact .refl
  · rename_i j l _
    exact fun k => Keeps.on s st (fun x => (l.filter (fun k => k.stream == st)).foldl StreamState.cancelJob x) (sameLock_foldl_cancelJob _ _).keep k

theorem keeps_cancelHead (s : State) (st) : Keeps s (s.cancelHead st) := by
  unfold State.cancelHead; split
  · exact .refl
  · split
    · refine Keeps.trans ?_ (keeps_settleJob _)
      exact fun k => ((keeps_withdraw s).trans (keeps_onHead _ _)) k
    · exact .refl

theorem keeps_cancel (s : State) (st) : Keeps s (s.cancelRepair st) := by
  unfold State.cancelRepair; split
  · exact .refl
  · exact (keeps_cancelQueued _ _).trans (keeps_cancelHead _ _)

theorem SameLock.onStream (s : State) (st k) (f : StreamState → StreamState) (h : SameLock (s.stream st) (f (s.stream st))) : SameLock (s.stream k) ((s.onStream st f).stream k) := by
  by_cases hk : k = st
  · subst hk; rw [State.stream_onStream]; exact h
  · rw [State.stream_onStream_ne _ _ _ _ hk]; exact .refl

theorem State.onHead_jobs (s : State) (f j l) (h : s.jobs = j :: l) : (s.onHead f).jobs = f j :: l := by unfold State.onHead; rw [h]

theorem State.withdrawRepair_jobs (s : State) : (s.withdrawRepair).jobs = s.jobs := by unfold State.withdrawRepair; split <;> rfl

theorem State.onHead_stream (s : State) (f) (k) : (s.onHead f).stream k = s.stream k := by unfold State.onHead; split <;> rfl

theorem State.withdrawRepair_stream (s : State) (k) : (s.withdrawRepair).stream k = s.stream k := by unfold State.withdrawRepair; split <;> rfl

theorem State.cancelRepair_sameLock (s : State) (st k : StreamId) : SameLock (s.stream k) ((s.cancelRepair st).stream k) := by
  unfold State.cancelRepair; split
  · exact .refl
  · have h1 : SameLock (s.stream k) ((s.cancelQueued st).stream k) := by
      unfold State.cancelQueued; split
      · exact .refl
      · rename_i j l _
        exact SameLock.onStream s st k (fun x => (l.filter (fun k => k.stream == st)).foldl StreamState.cancelJob x) (sameLock_foldl_cancelJob _ _)
    refine h1.trans ?_
    generalize s.cancelQueued st = u
    unfold State.cancelHead; split
    · exact .refl
    · rename_i a l hq
      split
      · set v := { (u.withdrawRepair).onHead (fun k => { k with state := .cancelling }) with bursts := dropHeld u.bursts } with hv
        have hvj : v.jobs = { a with state := .cancelling } :: l := by
          rw [hv]; exact State.onHead_jobs _ _ a _ ((State.withdrawRepair_jobs _).trans hq)
        have hvs : v.stream k = u.stream k := (State.onHead_stream _ _ _).trans (State.withdrawRepair_stream _ _)
        rw [← hvs]
        unfold State.settleJob; rw [hvj]; dsimp only
        split
        · refine SameLock.onStream v a.stream k (fun x => (x.unpinFor a.method).jobReport { a with state := .cancelling }) ?_
          refine (sameLock_unpinFor _ a.method).trans ?_
          unfold StreamState.jobReport; split
          · exact .refl
          · rw [if_pos (.inl rfl)]; exact sameLock_release _ _
        · exact .refl
      · exact .refl

theorem keeps_quiet (s : State) (st b r) : Keeps s (s.reportQuiet st b r) := by
  unfold State.reportQuiet; dsimp only; split
  · exact Keeps.on _ _ _ (SameLock.keep ⟨rfl, rfl, rfl, rfl, rfl, rfl, rfl, rfl⟩)
  · exact .refl

/-! ### Slots at rest, at a hand-off and in an arm -/

theorem SlotLock.of_down {y : StreamState} (hc : EnabledCounts y.current) (hw : EnabledCounts y.pendingSlot) (hl : y.lock = .down) (ha : y.acquire = 0) (ho : y.loss = 0)
   (har : y.armAwaited ≠ [] → y.life = .off ∧ countsPositive y.desc) : SlotLock y := by
  refine ⟨hc, hw, ?_, fun hn => absurd hl hn, har, fun _ _ => hl, fun _ => hl, fun _ _ => hl⟩
  unfold CountersInRange; rw [hl]; exact ⟨ha, ho⟩

theorem StreamState.restOff_fields (y : StreamState) : y.restOff.current = y.current ∧ y.restOff.pendingSlot = y.pendingSlot ∧ y.restOff.lock = y.lock ∧ y.restOff.acquire = y.acquire ∧ y.restOff.loss = y.loss ∧ y.restOff.armAwaited = [] ∧ y.restOff.life = .off := by
  unfold StreamState.restOff StreamState.standbyPool; split <;> exact ⟨rfl, rfl, rfl, rfl, rfl, rfl, rfl⟩

theorem SlotLock.restOff {y : StreamState} (hc : EnabledCounts y.current) (hw : EnabledCounts y.pendingSlot) (hl : y.lock = .down) (ha : y.acquire = 0) (ho : y.loss = 0) : SlotLock y.restOff := by
  obtain ⟨h1, h2, h3, h4, h5, h6, h7⟩ := StreamState.restOff_fields y
  exact SlotLock.of_down (h1 ▸ hc) (h2 ▸ hw) (h3.trans hl) (h4.trans ha) (h5.trans ho) (fun h => absurd h6 h)

theorem countsPositive_of_outcome (y : StreamState) (h : y.outcome = some .enabled) (hc : EnabledCounts y.current) : countsPositive y.desc := by
  unfold StreamState.outcome at h
  cases hk : y.current with
  | none => rw [hk] at h; cases h
  | some d =>
    rw [hk] at h; simp at h
    unfold StreamState.desc; rw [hk]; exact hc d hk h

theorem SlotLock.counters_down {x : StreamState} (h : SlotLock x) (hl : x.lock = .down) : x.acquire = 0 ∧ x.loss = 0 := by
  have := h.ranges; unfold CountersInRange at this; rw [hl] at this; exact this

theorem keeps_endDrain (s : State) (st) (hl : (s.stream st).life = .draining) (hd : (s.stream st).drainTaken = 5) : Keeps s (s.endDrain st) := by
  have ni : ∀ y, SlotIdle (s.stream st) → SlotIdle y := fun y h => by have := h.2.2; rw [hl] at this; cases this
  unfold State.endDrain; split
  · refine Keeps.on _ _ _ ⟨fun h => ?_, ni _⟩
    have hk := h.draining hl (by omega)
    have hz := SlotLock.counters_down h hk
    exact SlotLock.restOff h.current h.waiting hk hz.1 hz.2
  · have lw : ∀ u : State, Keeps u (u.leaveWaitSet st) := fun u => by rw [State.leaveWaitSet_frame]; exact Keeps.of _ _ rfl
    refine Keeps.trans ?_ (lw _)
    refine Keeps.on _ _ _ ⟨fun h => ?_, ni _⟩
    have hk := h.draining hl (by omega)
    have hz := SlotLock.counters_down h hk
    set x := s.stream st
    have hsw : ∃ z, z = (x.raise .streamDown).switch ∧ EnabledCounts z.current ∧ EnabledCounts z.pendingSlot ∧ z.lock = .down ∧ z.acquire = 0 ∧ z.loss = 0 := by
      refine ⟨_, rfl, ?_⟩
      unfold StreamState.switch; split
      · rename_i i hi
        exact ⟨fun d hd => h.waiting d (hi.trans hd), fun d hd => (by cases hd), hk, hz.1, hz.2⟩
      · exact ⟨h.current, h.waiting, hk, hz.1, hz.2⟩
    obtain ⟨z, hz', z1, z2, z3, z4, z5⟩ := hsw
    rw [← hz']
    unfold StreamState.afterDrain; split
    · exact SlotLock.of_down z1 z2 z3 z4 z5 (fun h => absurd rfl h)
    · rename_i ho
      split
      · exact SlotLock.of_down z1 z2 z3 z4 z5 (fun _ => ⟨rfl, countsPositive_of_outcome z ho z1⟩)
      · exact SlotLock.restOff z1 z2 z3 z4 z5
    · exact SlotLock.restOff z1 z2 z3 z4 z5
    · exact SlotLock.restOff z1 z2 z3 z4 z5

theorem keeps_settleDrain (s : State) (st) : Keeps s (s.settleDrain st) := by
  unfold State.settleDrain; dsimp only; split
  · rename_i h; exact keeps_endDrain s st h.1 h.2.2
  · exact .refl

theorem keeps_teardown (s : State) (st) (hl : (s.stream st).life = .draining) : Keeps s (s.takeTeardown st) := by
  unfold State.takeTeardown; dsimp only
  refine Keeps.trans ?_ (keeps_settleDrain _ _)
  refine Keeps.trans ?_ (keeps_quiet _ _ _ _)
  intro k
  have ni : ∀ x y : StreamState, x.life = .draining → SlotIdle x → SlotIdle y := fun x y hx h => by have := h.2.2; rw [hx] at this; cases this
  by_cases hk : k = st
  · subst hk
    rw [State.stream_onStream]
    -- taking of block
    have bump : ∀ z : StreamState, SameLock (s.stream k) z → (s.stream k).drainTaken ≠ 1 → Keep (s.stream k) { z with drainTaken := (s.stream k).drainTaken + 1 } := by
      intro z hz hne
      refine ⟨fun h => ?_, ni _ _ hl⟩
      have := hz.keep.slot h
      refine ⟨this.1, this.2, this.3, this.4, this.5, this.6, this.7, ?_⟩
      intro h1 h2
      show z.lock = .down
      dsimp only at h2
      exact hz.lock.trans (h.draining hl (by omega))
    unfold State.teardownTaking; split
    · rename_i h0; rw [State.stream_onStream]
      refine bump _ ?_ (by omega)
      unfold StreamState.captureTeardown; split <;> exact ⟨rfl, rfl, rfl, rfl, rfl, rfl, rfl, rfl⟩
    · rename_i h0; rw [State.stream_onStream]
      refine ⟨fun h => ?_, ni _ _ hl⟩
      set y := { s.stream k with timer := .stopped, lock := .down, acquire := 0, loss := 0 } with hy
      have hc : SameLock y (s.stream k).cadenceTeardown := by
        unfold StreamState.cadenceTeardown; dsimp only; split
        · exact sameLock_clearHold _
        · exact .refl
      refine SlotLock.of_down (hc.current ▸ h.current) (hc.waiting ▸ h.waiting) (hc.lock.trans rfl) (hc.acq.trans rfl) (hc.loss.trans rfl) ?_
      intro ha
      have := h.arming (hc.await ▸ ha)
      rw [hl] at this; cases this.1
    · rename_i h0; rw [State.stream_onStream]
      refine bump _ ?_ (by omega)
      rw [StreamState.poolTeardown_frame]; exact ⟨rfl, rfl, rfl, rfl, rfl, rfl, rfl, rfl⟩
    · rename_i h0; rw [State.stream_onStream]
      refine bump _ ?_ (by omega)
      unfold StreamState.presentationTeardown
      have : ∀ (l : List Reader) x, SameLock x (l.foldl StreamState.unbindOld x) := by
        intro l; induction l with
        | nil => intro x; exact .refl
        | cons a l ih => intro x; exact (sameLock_unbindOld _ _).trans (ih _)
      have := this (s.stream k).readers (s.stream k)
      exact ⟨this.1, this.2, this.3, this.4, this.5, this.6, this.7, this.8⟩
    · rename_i h0 h1 h2 h3
      refine ⟨fun h => ?_, ni _ _ hl⟩
      have hk := keeps_cancel s k k
      have h' := hk.slot h
      refine ⟨h'.1, h'.2, h'.3, h'.4, h'.5, h'.6, h'.7, ?_⟩
      intro a b
      exact (State.cancelRepair_sameLock s k k).lock.trans (h.draining hl (by have : (s.stream k).drainTaken ≠ 0 := h0; have : (s.stream k).drainTaken ≠ 1 := h1; omega))
  · rw [State.stream_onStream_ne _ _ _ _ hk]
    unfold State.teardownTaking; split
    all_goals first
      | rw [State.stream_onStream_ne _ _ _ _ hk]; exact .refl
      | exact keeps_cancel _ _ _

theorem countsPositive_of_enabled (p ds k d) (h : (validate p ds k d).outcome = .enabled) : countsPositive (validate p ds k d).desc := by
  have hd : (validate p ds k d).desc = d := by unfold validate; split <;> rfl
  rw [hd]
  have hc : countsOk d = true := by
    unfold validate at h; split at h
    · dsimp only at h; split at h
      · rename_i hf
        unfold firstFailure at hf
        by_contra hn
        simp only [Bool.not_eq_true] at hn
        rw [hn] at hf
        repeat' split at hf
        all_goals first | (cases hf; done) | simp at *
      · cases h
    · cases h
  unfold countsOk at hc
  simp only [Bool.and_eq_true, decide_eq_true_eq] at hc
  unfold countsPositive; omega

theorem enabledCounts_installed (p ds k d) : EnabledCounts (some (validate p ds k d)) := fun e he ho => by
  cases he; exact countsPositive_of_enabled p ds k d ho

theorem SlotLock.follow {x : StreamState} (i : Installed) (hi : EnabledCounts (some i)) (hw : EnabledCounts x.pendingSlot) (hl : x.lock = .down) (ha : x.acquire = 0) (ho : x.loss = 0)
   (_haw : x.armAwaited = []) : SlotLock ((x.install i).follow i.outcome) := by
  cases h : i.outcome with
  | enabled => exact SlotLock.of_down hi hw hl ha ho (fun _ => ⟨rfl, hi i rfl h⟩)
  | disabled => exact SlotLock.restOff (y := x.install i) hi hw hl ha ho
  | refused => exact SlotLock.of_down hi hw hl ha ho (fun hh => absurd rfl hh)

theorem State.handOffStart_stream (s : State) (c b) (st) : ((s.handOffStart c b).stream st) = StreamState.handOff (installedOf s.place (imageDescriptors b) st.val) (s.stream st) := by
  unfold State.handOffStart; dsimp only
  rw [State.raiseDevice_stream]
  rw [State.foldl_onStream_stream _ (by decide) (fun st => StreamState.handOff (installedOf s.place (imageDescriptors b) st.val)), if_pos (mem_allStreams st)]; rfl

theorem SlotLock.reloadSlot (x : StreamState) (i : Installed) (hi : EnabledCounts (some i)) (h : SlotLock x) : SlotLock (StreamState.reloadSlot i x) := by
  unfold StreamState.reloadSlot
  have noarm : x.life ≠ .off → x.armAwaited = [] := fun hn => by
    by_contra hc; exact hn (h.arming hc).1
  split
  · rename_i hl
    refine ⟨h.current, hi, h.ranges, h.counts, ?_, fun h => (by cases h), fun h => (by cases h), fun _ h2 => ?_⟩
    · intro ha; exact absurd (noarm (by rw [hl]; intro e; cases e)) ha
    · exact absurd h2 (by show ¬ 2 ≤ 0; omega)
  · rename_i hl
    exact ⟨h.current, hi, h.ranges, h.counts, h.arming, h.off, h.refused, h.draining⟩
  · rename_i hl
    unfold StreamState.dropArm; split
    · exact SlotLock.follow (x := { x with armAwaited := [], timer := .stopped, lock := .down, acquire := 0, loss := 0 }) i hi h.waiting rfl rfl rfl rfl
    · rename_i hn
      have ha : x.armAwaited = [] := by unfold StreamState.arming at hn; simpa using hn
      have hk := h.off hl ha
      have hz := SlotLock.counters_down h hk
      exact SlotLock.follow i hi h.waiting hk hz.1 hz.2 ha
  · rename_i hl
    have hk := h.refused hl
    have hz := SlotLock.counters_down h hk
    exact SlotLock.follow i hi h.waiting hk hz.1 hz.2 (noarm (by rw [hl]; intro e; cases e))

theorem State.joinWaitSet_stream (s : State) (st k) : (s.joinWaitSet st).stream k = s.stream k := by unfold State.joinWaitSet; split <;> rfl

theorem State.reloadOne_stream (p ds) (s : State) (st k) : (State.reloadOne p ds s st).stream k = s.stream k ∨ (State.reloadOne p ds s st).stream k = StreamState.reloadSlot (installedOf p ds st.val) (s.stream k) := by
  unfold State.reloadOne; dsimp only; split
  · by_cases hk : k = st
    · subst hk; right; split
      · rw [State.joinWaitSet_stream, State.stream_onStream]
      · rw [State.stream_onStream]
    · left; split
      · rw [State.joinWaitSet_stream, State.stream_onStream_ne _ _ _ _ hk]
      · rw [State.stream_onStream_ne _ _ _ _ hk]
  · exact .inl rfl

theorem State.endReload_stream (s : State) (r e k) : (s.endReload r e).stream k = s.stream k := rfl

theorem SlotLock.beginArm {x : StreamState} (h : SlotLock x) (h1 : x.outcome = some .enabled) (hl : x.life = .off) (ha : x.armAwaited = []) : SlotLock x.beginArm := by
  have hk := h.off hl ha
  have hz := SlotLock.counters_down h hk
  exact SlotLock.of_down h.current h.waiting hk hz.1 hz.2 (fun _ => ⟨rfl, countsPositive_of_outcome x h1 h.current⟩)

theorem SlotLock.armBlock (x : StreamState) (n b) (h : SlotLock x) (ha : x.armAwaited ≠ []) : SlotLock (x.armBlock n b) := by
  obtain ⟨h1, h2⟩ := h.arming ha
  cases b with
  | cadenceMonitor =>
    refine ⟨h.current, h.waiting, ⟨h2.1, rfl, h2.2.2⟩, fun _ => h2, h.arming, fun _ e => absurd e ha, fun e => ?_, fun e => ?_⟩
    · change x.life = _ at e; rw [h1] at e; cases e
    · change x.life = _ at e; rw [h1] at e; cases e
  | poolManager => exact SameLock.keep (x := x) (y := x.armBlock n _) ⟨rfl, rfl, rfl, rfl, rfl, rfl, rfl, rfl⟩ |>.slot h
  | captureUnit => exact SameLock.keep (x := x) (y := x.armBlock n _) ⟨rfl, rfl, rfl, rfl, rfl, rfl, rfl, rfl⟩ |>.slot h
  | presentationUnit => exact SameLock.keep (x := x) (y := x.armBlock n _) ⟨rfl, rfl, rfl, rfl, rfl, rfl, rfl, rfl⟩ |>.slot h
  | eventUnit => exact SameLock.keep (x := x) (y := x.armBlock n _) ⟨rfl, rfl, rfl, rfl, rfl, rfl, rfl, rfl⟩ |>.slot h

theorem SlotLock.armTaken (x : StreamState) (b) (h : SlotLock x) (ha : x.armAwaited ≠ []) : SlotLock (x.armTaken b) := by
  obtain ⟨h1, h2⟩ := h.arming ha
  unfold StreamState.armTaken; dsimp only; split
  · exact ⟨h.current, h.waiting, h.ranges, h.counts, fun e => absurd rfl e, fun e => (by cases e), fun e => (by cases e), fun e => (by cases e)⟩
  · rename_i hn
    refine ⟨h.current, h.waiting, h.ranges, h.counts, fun _ => ⟨h1, h2⟩, fun _ e => ?_, h.refused, h.draining⟩
    dsimp only at e; rw [e] at hn; exact absurd rfl hn

theorem armBlock_await (x : StreamState) (n b) : (x.armBlock n b).armAwaited = x.armAwaited := by cases b <;> rfl

theorem sameLock_expire (x : StreamState) (k) : SameLock x (x.expire k) := by
  have h := sameLock_unbindOld x (x.reader k)
  unfold StreamState.expire
  generalize x.unbindOld (x.reader k) = y at h ⊢
  exact ⟨h.1, h.2, h.3, h.4, h.5, h.6, h.7, h.8⟩

/-! ### The hand-off of a reload over all slots -/

theorem State.mem_joinWaitSet (w : State) (a k : StreamId) : k ∈ (w.joinWaitSet a).waitSet ↔ k ∈ w.waitSet ∨ k = a := by
  unfold State.joinWaitSet; split
  · rename_i h; constructor
    · exact .inl
    · rintro (h' | rfl)
      · exact h'
      · simpa using h
  · show k ∈ w.waitSet ++ [a] ↔ _; simp

theorem State.reloadOne_spec (p : Place) (ds : List Descriptor) (v : State) (a : StreamId) :
    (∀ k, k ≠ a → (State.reloadOne p ds v a).stream k = v.stream k) ∧
    ((State.reloadOne p ds v a).stream a = if (v.stream a).changedBy (ds.getD a.val []) = true then StreamState.reloadSlot (installedOf p ds a.val) (v.stream a) else v.stream a) ∧
    (∀ k, k ∈ (State.reloadOne p ds v a).waitSet ↔ k ∈ v.waitSet ∨ (k = a ∧ (v.stream a).changedBy (ds.getD a.val []) = true ∧ ((v.stream a).life = .active ∨ (v.stream a).life = .draining))) := by
  unfold State.reloadOne; dsimp only; split
  · rename_i h
    split
    · rename_i hl
      refine ⟨fun k hk => ?_, ?_, fun k => ?_⟩
      · rw [State.joinWaitSet_stream, State.stream_onStream_ne _ _ _ _ hk]
      · rw [State.joinWaitSet_stream, State.stream_onStream]
      · rw [State.mem_joinWaitSet, State.onStream_waitSet]
        constructor
        · rintro (h' | h')
          · exact .inl h'
          · exact .inr ⟨h', h, hl⟩
        · rintro (h' | h')
          · exact .inl h'
          · exact .inr h'.1
    · rename_i hl
      refine ⟨fun k hk => ?_, ?_, fun k => ?_⟩
      · rw [State.stream_onStream_ne _ _ _ _ hk]
      · rw [State.stream_onStream]
      · rw [State.onStream_waitSet]
        exact ⟨.inl, fun h' => h'.elim id (fun h' => absurd h'.2.2 hl)⟩
  · rename_i h
    refine ⟨fun k hk => rfl, rfl, fun k => ?_⟩
    exact ⟨.inl, fun h' => h'.elim id (fun h' => absurd h'.2.1 h)⟩

theorem State.foldl_reloadOne_spec (p : Place) (ds : List Descriptor) (l : List StreamId) (v : State) (hnd : l.Nodup) :
    (∀ k, (l.foldl (State.reloadOne p ds) v).stream k = if k ∈ l ∧ (v.stream k).changedBy (ds.getD k.val []) = true then StreamState.reloadSlot (installedOf p ds k.val) (v.stream k) else v.stream k) ∧
    (∀ k, k ∈ (l.foldl (State.reloadOne p ds) v).waitSet ↔ k ∈ v.waitSet ∨ (k ∈ l ∧ (v.stream k).changedBy (ds.getD k.val []) = true ∧ ((v.stream k).life = .active ∨ (v.stream k).life = .draining))) := by
  induction l generalizing v with
  | nil => exact ⟨fun k => by rw [if_neg (fun e => by cases e.1)]; rfl, fun k => ⟨.inl, fun h => h.elim id (fun h => by cases h.1)⟩⟩
  | cons a l ih =>
    obtain ⟨hn, hnd⟩ := List.nodup_cons.1 hnd
    obtain ⟨i1, i2⟩ := ih (State.reloadOne p ds v a) hnd
    obtain ⟨o1, o2, o3⟩ := State.reloadOne_spec p ds v a
    simp only [List.foldl_cons]
    generalize State.reloadOne p ds v a = w at i1 i2 o1 o2 o3 ⊢
    constructor
    · intro k
      by_cases hk : k = a
      · subst hk
        rw [i1, if_neg (fun e => hn e.1), o2]
        by_cases hc : (v.stream k).changedBy (ds.getD k.val []) = true
        · rw [if_pos hc, if_pos ⟨List.mem_cons_self, hc⟩]
        · rw [if_neg hc, if_neg (fun e => hc e.2)]
      · rw [i1, o1 k hk]
        by_cases hc : k ∈ l ∧ (v.stream k).changedBy (ds.getD k.val []) = true
        · rw [if_pos hc, if_pos ⟨List.mem_cons_of_mem _ hc.1, hc.2⟩]
        · rw [if_neg hc, if_neg (fun e => hc ⟨(List.mem_cons.1 e.1).resolve_left hk, e.2⟩)]
    · intro k; rw [i2, o3]
      by_cases hk : k = a
      · subst hk
        constructor
        · rintro ((h | h) | h)
          · exact .inl h
          · exact .inr ⟨List.mem_cons_self, h.2⟩
          · exact absurd h.1 hn
        · rintro (h | h)
          · exact .inl (.inl h)
          · exact .inl (.inr ⟨rfl, h.2⟩)
      · rw [o1 k hk]
        constructor
        · rintro ((h | h) | h)
          · exact .inl h
          · exact absurd h.1 hk
          · exact .inr ⟨List.mem_cons_of_mem _ h.1, h.2⟩
        · rintro (h | h)
          · exact .inl (.inl h)
          · exact .inr ⟨(List.mem_cons.1 h.1).resolve_left hk, h.2⟩

/-! ### Drains and returns -/

theorem Buf.settle_ne (b : Buf) (h : b.state ≠ .releasing) : b.settle = b := by unfold Buf.settle; rw [if_neg (fun e => h e.1)]

theorem State.drain_not (s : State) (st i) (b : Buf) (h : (s.stream st).bufs[i]? = some b) (hn : ¬ (b.state = .closing ∧ b.inFlight = 0)) : s.drain st i = s := by
  unfold State.drain; rw [h]; dsimp only; rw [if_neg hn]

theorem State.settleStream_not (u q : State) (k : EntryKind) (st : StreamId) (i : Nat) (hc : k.counted = some (st, i)) (hu : (u.stream st).life ≠ .draining) : u.settleStream k q = u := by
  unfold State.settleStream; rw [hc]; dsimp only
  have h1 : u.reportQuiet st (q.stream st) false = u := by unfold State.reportQuiet; dsimp only; rw [if_neg (fun e => hu e.1)]
  rw [h1]; unfold State.settleDrain; dsimp only; rw [if_neg (fun e => hu e.1)]

theorem State.drain_congr (a b : State) (st i) (h : a.streams = b.streams) (hj : a.jobs = b.jobs) :
   (a.drain st i).streams = (b.drain st i).streams ∧ (a.drain st i).jobs = (b.drain st i).jobs := by
  cases a; cases b; simp only at h hj; subst h hj
  unfold State.drain State.queueJob State.onStream State.setStream State.stream; dsimp only; repeat' split
  all_goals exact ⟨rfl, rfl⟩

theorem State.drain_stream_ne (s : State) (st k : StreamId) (i : Nat) (h : k ≠ st) : (s.drain st i).stream k = s.stream k := by
  unfold State.drain; split
  · rfl
  · split
    · split
      · rename_i b _ _ _
        exact State.stream_onStream_ne s st k (fun x => (x.pinFor (x.repairMethod i)).onBuf i (fun b => { b with state := .repairing })) h
      · exact State.stream_onStream_ne _ _ _ _ h
      · exact State.stream_onStream_ne _ _ _ _ h
    · rfl

theorem State.drain_life (s : State) (st : StreamId) (i : Nat) : ((s.drain st i).stream st).life = (s.stream st).life := by
  unfold State.drain; split
  · rfl
  · split
    · split
      · rename_i b _ _ _
        have : ((s.onStream st (fun x => (x.pinFor (x.repairMethod i)).onBuf i (fun b => { b with state := .repairing }))).stream st).life = (s.stream st).life := by
          rw [State.stream_onStream]; exact ((sameLock_pinFor _ _).trans (sameLock_onBuf _ _ _)).life
        exact this
      · rw [State.stream_onStream, StreamState.finishGood_frame]
      · rw [State.stream_onStream, StreamState.finishBad_frame]
    · rfl

theorem Buf.decrement_false (b : Buf) (h : b.state ≠ .releasing) : Buf.decrement false b = { b with inFlight := b.inFlight - 1 } := by
  unfold Buf.decrement; simp only [Bool.false_and, Bool.or_false]; exact Buf.settle_ne _ h

theorem State.drain_none (s : State) (st i) (h : (s.stream st).bufs[i]? = none) : s.drain st i = s := by
  unfold State.drain; rw [h]

/-! ### Grants to the Repair Engine and the walk over missing lines -/

theorem State.ownIssue_ports (s : State) (k a body) : (s.quietPorts.issue k (s.quietPorts.ownTxn a body)).ports = ownIssue s a body := rfl

theorem RepairTurn.granted (s : State) (offer) (h : RepairTurn s offer) (hs : s.repairStands = true) : s.quietPorts.loaderEligible = false ∧ s.quietPorts.repairTurn offer = true := by
  obtain ⟨h1, h2, h3, h4, h5⟩ := h
  constructor
  · by_contra hc
    have := (State.loaderEligible_iff s.quietPorts).1 (by simpa using hc)
    obtain ⟨a, b, c⟩ := this
    change (s.entriesOf .loader).length < 3 at c
    rcases h4 with h4 | h4
    · change s.loaderRequest.isSome = true at a; rw [h4] at a; cases a
    · omega
  · unfold State.repairTurn
    rw [Bool.and_eq_true]
    refine ⟨(State.repairEligible_iff s.quietPorts).2 ⟨hs, h2, h3⟩, ?_⟩
    rw [Bool.or_eq_true]
    rcases h5 with h5 | h5
    · left; rw [beq_iff_eq]; exact h5
    · right
      cases offer with
      | none => rfl
      | some i => have := h5 i rfl; simp only [Option.any_some, Bool.not_eq_true']; exact this

theorem oldestHeld_none (l : List Burst) (h : ∀ b ∈ l, ∀ d, b.phase ≠ .held d) : oldestHeld l = none := by
  induction l with
  | nil => rfl
  | cons a l ih =>
    unfold oldestHeld; split
    · rename_i d hd; exact absurd hd (h a (by simp) d)
    · exact ih (fun b hb => h b (by simp [hb]))
    · exact ih (fun b hb => h b (by simp [hb]))

theorem oldestHeld_some (l m : List Burst) (b d) (hb : b.phase = .held d) (h : ∀ b ∈ l, ∀ d, b.phase ≠ .held d) : oldestHeld (l ++ b :: m) = some (.writeHeld b.slot b.offset d) := by
  induction l with
  | nil => simp only [List.nil_append]; unfold oldestHeld; rw [hb]
  | cons a l ih =>
    rw [List.cons_append]; unfold oldestHeld; split
    · rename_i d hd; exact absurd hd (h a (by simp) d)
    · exact ih (fun b hb => h b (by simp [hb]))
    · exact ih (fun b hb => h b (by simp [hb]))

theorem State.repairRequest_due (s : State) (j rest) (hs : s.softResetPending = false) (hj : s.jobs = j :: rest) (h : NextBurstDue s j) : s.repairRequest = some (j, .nextBurst) := by
  obtain ⟨h1, h2, h3, h4⟩ := h
  unfold State.repairRequest; rw [hs, hj]; simp only [Bool.false_eq_true, if_false]; rw [if_pos h1, oldestHeld_none _ h2]; dsimp only
  rw [if_pos]
  refine ⟨h3, ?_⟩
  unfold walkDone; simp; exact h4

theorem nextMissing_open (cov lines n) (h : nextMissing cov lines n < lines) : nextMissing cov lines n ∉ cov ∧ n ≤ nextMissing cov lines n := by
  unfold nextMissing at *
  cases hf : (List.range lines).find? (fun k => decide (n ≤ k) && !cov.contains k) with
  | none => rw [hf] at h; simp at h
  | some k =>
    have := List.find?_some hf; simp at this; simp; exact ⟨this.2, this.1⟩

theorem nextMissing_le (cov lines n m) (h1 : n ≤ m) (h2 : m < lines) (h3 : m ∉ cov) : nextMissing cov lines n ≤ m := by
  unfold nextMissing
  cases hf : (List.range lines).find? (fun k => decide (n ≤ k) && !cov.contains k) with
  | none => rw [List.find?_eq_none] at hf; have := hf m (by simpa using h2); simp at this; exact absurd (this h1) h3
  | some k =>
    simp only [Option.getD_some]
    by_contra hc
    rw [List.find?_eq_some_iff_append] at hf
    obtain ⟨hp, as, bs, he, hall⟩ := hf
    have hm : m ∈ as := by
      have hmem : m ∈ List.range lines := by simpa using h2
      rw [he] at hmem
      have hs := List.pairwise_lt_range (n := lines); rw [he] at hs
      rw [List.pairwise_append] at hs
      rcases List.mem_append.1 hmem with h | h
      · exact h
      · exfalso
        rcases List.mem_cons.1 h with h | h
        · omega
        · have := (List.pairwise_cons.1 hs.2.1).1 m h; omega
    have := hall m hm; simp at this; rcases this with h | h
    · omega
    · exact h3 h

theorem nextMissing_ge (cov lines n) (h : n ≤ lines) : n ≤ nextMissing cov lines n := by
  unfold nextMissing
  cases hf : (List.range lines).find? (fun k => decide (n ≤ k) && !cov.contains k) with
  | none => exact h
  | some k => have := List.find?_some hf; simp at this; exact this.1

theorem Job.walked_spec (d : Descriptor) (cov : List Nat) (j : Job) (hj : j.nextLine < Decode.lines d) : Walked d cov j { j.walked d cov with outstanding := (j.walked d cov).outstanding + 1 } := by
  have hlen : burstLength d j = nextLength d j := rfl
  unfold Job.walked
  dsimp only
  by_cases h : j.nextPos + burstLength d j < Decode.lineBytes d
  · rw [if_pos h]
    refine ⟨rfl, fun _ => ⟨rfl, rfl⟩, fun h' => ?_⟩
    rw [hlen] at h; omega
  · rw [if_neg h]
    refine ⟨rfl, fun h' => ?_, fun _ => ⟨rfl, ?_, ?_, ?_⟩⟩
    · rw [hlen] at h; omega
    · show j.nextLine < nextMissing cov (Decode.lines d) (j.nextLine + 1)
      have := nextMissing_ge cov (Decode.lines d) (j.nextLine + 1) (by omega); omega
    · intro h2; exact (nextMissing_open _ _ _ h2).1
    · intro n h1 h2 h3; exact nextMissing_le _ _ _ _ (by omega) h2 h3

theorem State.burstIssued_eq (u : State) (d j rest cov ph) (hu : u.jobs = j :: rest) : u.burstIssued d j cov ph = { u with
    jobs := { j.walked d cov with outstanding := (j.walked d cov).outstanding + 1 } :: rest
    bursts := u.bursts ++ [{ slot := u.freeRepairSlot, offset := burstOffset d j, length := burstLength d j, phase := ph }] } := by
  unfold State.burstIssued State.jobIssued State.onHead; dsimp only; rw [hu]

/-! ### Sequence order -/

theorem newer_iff_distance (a b g : BitVec 32) (h1 : (a - g).toNat < 2 ^ 31) (h2 : (b - g).toNat < 2 ^ 31) : newer a b = true ↔ (b - g).toNat < (a - g).toNat := by
  unfold newer
  have e : a - b = (a - g) - (b - g) := by bv_omega
  rw [e]
  generalize a - g = x at *
  generalize b - g = y at *
  simp only [Bool.and_eq_true, decide_eq_true_eq]
  bv_omega

/-! ### What the operations on one stream leave alone -/

theorem State.endJob_stream_ne (s : State) (j : Job) (k : StreamId) (h : k ≠ j.stream) : (s.endJob j).stream k = s.stream k :=
  State.stream_onStream_ne s j.stream k (fun x => (x.unpinFor j.method).jobReport j) h

theorem State.settleJob_stream_ne (s : State) (j l) (k : StreamId) (hj : s.jobs = j :: l) (h : k ≠ j.stream) : (s.settleJob).stream k = s.stream k := by
  unfold State.settleJob; rw [hj]; dsimp only; split
  · exact State.endJob_stream_ne _ _ _ h
  · rfl

theorem State.cancelRepair_stream_ne (s : State) (st k : StreamId) (h : k ≠ st) : (s.cancelRepair st).stream k = s.stream k := by
  unfold State.cancelRepair; split
  · rfl
  · have h1 : (s.cancelQueued st).stream k = s.stream k := by
      unfold State.cancelQueued; split
      · rfl
      · rename_i j l _
        exact State.stream_onStream_ne s st k (fun x => (l.filter (fun k => k.stream == st)).foldl StreamState.cancelJob x) h
    rw [← h1]
    unfold State.cancelHead; split
    · rfl
    · rename_i j l hj
      split
      · rename_i hst
        rw [State.settleJob_stream_ne _ { j with state := .cancelling } l k]
        · exact (State.onHead_stream _ _ _).trans (State.withdrawRepair_stream _ _)
        · exact State.onHead_jobs _ _ j l ((State.withdrawRepair_jobs _).trans hj)
        · rw [hst]; exact h
      · rfl

theorem promote_mem (l : List Job) (j) (h : j ∈ promote l) : ∃ k ∈ l, j.stream = k.stream := by
  cases l with
  | nil => cases h
  | cons a l =>
    rcases List.mem_cons.1 h with rfl | h
    · refine ⟨a, by simp, ?_⟩; split <;> rfl
    · exact ⟨j, by simp [h], rfl⟩

theorem promote_tail (l : List Job) : (promote l).tail = l.tail := by cases l <;> rfl

theorem foldl_unbindOld (l : List Reader) (x : StreamState) : l.foldl StreamState.unbindOld x = l.foldl unboundFrom x := rfl

theorem State.settleDrain_not (s : State) (st) (h : (s.stream st).drainTaken ≠ 5) : s.settleDrain st = s := by
  unfold State.settleDrain; dsimp only; rw [if_neg (fun e => h e.2.2)]

theorem State.leaveWaitSet_stream (s : State) (st k : StreamId) : (s.leaveWaitSet st).stream k = s.stream k := by
  unfold State.leaveWaitSet; dsimp only; repeat' split
  all_goals rfl

theorem State.endDrain_stream_ne (s : State) (st k : StreamId) (h : k ≠ st) : (s.endDrain st).stream k = s.stream k := by
  unfold State.endDrain; split
  · exact State.stream_onStream_ne _ _ _ _ h
  · rw [State.leaveWaitSet_stream, State.stream_onStream_ne _ _ _ _ h]

theorem State.settleDrain_stream_ne (s : State) (st k : StreamId) (h : k ≠ st) : (s.settleDrain st).stream k = s.stream k := by
  unfold State.settleDrain; dsimp only; split
  · exact State.endDrain_stream_ne _ _ _ h
  · rfl

theorem State.reportQuiet_stream_ne (s : State) (st k : StreamId) (b r) (h : k ≠ st) : (s.reportQuiet st b r).stream k = s.stream k := by
  unfold State.reportQuiet; dsimp only; split
  · exact State.stream_onStream_ne _ _ _ _ h
  · rfl

theorem State.reportQuiet_stream (s : State) (st : StreamId) (b r) : ∃ q, (s.reportQuiet st b r).stream st = { s.stream st with poolQuiet := q } := by
  unfold State.reportQuiet; dsimp only; split
  · exact ⟨true, State.stream_onStream _ _ _⟩
  · exact ⟨_, rfl⟩

theorem State.teardownTaking_stream_ne (s : State) (st k : StreamId) (h : k ≠ st) : (s.teardownTaking st).stream k = s.stream k := by
  unfold State.teardownTaking; split
  · exact State.stream_onStream_ne _ _ _ _ h
  · exact State.stream_onStream_ne _ _ _ _ h
  · exact State.stream_onStream_ne _ _ _ _ h
  · exact State.stream_onStream_ne _ _ _ _ h
  · exact State.cancelRepair_stream_ne _ _ _ h

/-! ### Model operations in the terms of Sys2Proof/Safety.lean -/

theorem StreamState.beginFrame_none (x : StreamState) (h : x.mode = .none) :
   x.beginFrame = (let y := ({ x with lastSeq := x.lastSeq + 1#32 }.count .framesStarted).startFrame (x.lastSeq + 1#32); { y.1 with mode := modeOf y.2 }) := by
  unfold StreamState.beginFrame; rw [h]

theorem StreamState.beginFrame_current (x : StreamState) : x.beginFrame.current = x.current := by
  unfold StreamState.beginFrame; split <;> try rfl
  dsimp only [StreamState.startFrame]; repeat' split
  all_goals rfl

theorem State.onStream_current (s : State) (st k : StreamId) (f : StreamState → StreamState) (h : ∀ x, (f x).current = x.current) : ((s.onStream st f).stream k).current = (s.stream k).current := by
  by_cases hk : k = st
  · subst hk; simp [h]
  · rw [State.stream_onStream_ne _ _ _ _ hk]

theorem StreamState.beginFrame_desc (x : StreamState) : x.beginFrame.desc = x.desc := by unfold StreamState.desc; rw [StreamState.beginFrame_current]

theorem StreamState.sequenceEnded_iff (x : StreamState) : x.sequenceEnded = true ↔ x.mode = .none ∧ x.lastSeq = 0xFFFFFFFF#32 := by simp [StreamState.sequenceEnded]

theorem StreamState.beginFrame_not (x : StreamState) (h : x.mode ≠ .none) : x.beginFrame = x := by unfold StreamState.beginFrame; split <;> simp_all

theorem StreamState.beginFrame_if (x : StreamState) : (if x.mode = .none then x.beginFrame else x) = x.beginFrame := by
  split
  · rfl
  · rename_i h; rw [StreamState.beginFrame_not x h]

theorem State.answerFill_eq (v : State) (t : Txn) (f : BitVec 32) : v.answerFill t f = v.answer t .okay (fillData f t.address.toNat t.length) := by
  unfold State.answerFill; rw [fillBytes_fillData]

theorem StreamState.isEarly_iff (x : StreamState) (t : Nat) : x.isEarly t = true ↔ Early x t := by
  unfold StreamState.isEarly Early; rw [Bool.and_eq_true, decide_eq_true_iff, decide_eq_true_iff]

theorem StreamState.arrive_eq (x : StreamState) (t : Nat) : x.arrive t = arrived x t := by
  unfold StreamState.arrive arrived cadenceTimer
  by_cases h : x.isEarly t = true
  · have := (StreamState.isEarly_iff x t).1 h
    unfold Early at this
    simp only [h, if_true]; rw [if_pos this]; rfl
  · have h2 : ¬ (Decode.period x.desc ≠ 0 ∧ t + Decode.tolerance x.desc < x.ref + Decode.period x.desc) := fun e => h ((StreamState.isEarly_iff x t).2 e)
    simp only [h]; rw [if_neg h2]; rfl

theorem StreamState.lockInput_neutral (x : StreamState) : x.lockInput .neutral = x := by unfold StreamState.lockInput; cases x.lock <;> rfl

theorem State.onStream_setStream (a : State) (st : StreamId) (x : StreamState) (f) : (a.setStream st x).onStream st f = a.setStream st (f x) := by
  unfold State.onStream; rw [State.stream_setStream]; unfold State.setStream; simp

theorem StreamState.presentationRecord_eq (x : StreamState) (now : Nat) (k : ReaderSlot) (r : Reader) : x.presentationRecord now k r = presentationBytes x now k r := by
  have e3 : one x.reportedLock.code = if x.life = .active then one x.lock.code else 0#8 := by
    unfold StreamState.reportedLock; cases x.life <;> simp [Lock.code, one]
  have e4 : Decode.leBytes 2 0 = [0#8, 0#8] := by decide
  have e5 : Decode.leBytes 4 0 = [0#8, 0#8, 0#8, 0#8] := by decide
  have e6 : one 0 = 0#8 := by decide
  have e7 : one 0x50 = 0x50#8 := by decide
  unfold StreamState.presentationRecord presentationBytes
  simp only [byte_one, e3, e4, e5, leBytes_two, leBytes_four]
  cases r.state with
  | bound i =>
    cases h : x.bufs[i]? with
    | none => simp [h, e7]
    | some b => simp [h, e7, e6, flagByte_two, leBytes_two_nat, leBytes_four_nat, StreamState.missing, Buf.covered, ageOf]
  | unbound => simp [e7]
  | subst => simp [e7]
  | stale => simp [e7]

theorem StreamState.byDiscipline_iff (x : StreamState) : x.byDiscipline = true ↔ ByDiscipline x := by
  simp [StreamState.byDiscipline, ByDiscipline, or_assoc]

theorem StreamState.reader_at (x : StreamState) (k : ReaderSlot) (r : Reader) (h : x.readers[k.val]? = some r) : x.reader k = r := by
  unfold StreamState.reader; rw [List.getD_eq_getElem?_getD, h]; rfl

theorem skippedBetween_eq (a b : BitVec 32) : skippedBetween a.toNat b.toNat = skippedFrames a b := by
  unfold skippedBetween skippedFrames
  have z : ∀ v : BitVec 32, v.toNat = 0 ↔ v = 0#32 := fun v => by
    constructor
    · intro h; exact BitVec.eq_of_toNat_eq (by simpa using h)
    · rintro rfl; rfl
  simp only [z]
  split
  · rfl
  · split
    · rename_i h; have : b.toNat - a.toNat - 1 = 0 := by omega
      rw [this]; rfl
    · rfl

theorem scanTimer_eq (x : StreamState) (now) : scanTimer x.desc now = scanRestart x now := rfl

theorem StreamState.unbindOld_eq (x : StreamState) (r) : x.unbindOld r = unboundFrom x r := rfl

theorem StreamState.claim_eq (x : StreamState) (now k r) (h : x.readers[k.val]? = some r) (g : Target) (hg : x.target r = g) :
   x.claim now k = { (let y := x.rebind r g; if x.latestClaim then y.claimSkip (x.candidate.map x.seqOf) else y) with
      readers := x.readers.set k.val { r.claimed (x.targetSeq g) g with timer := scanRestart x now } } := by
  unfold StreamState.claim StreamState.setReader StreamState.claimPool StreamState.claimEntry
  rw [StreamState.reader_at x k r h, hg, scanTimer_eq]
  have : (x.claimPool r).readers = x.readers := StreamState.claimPool_readers x r
  unfold StreamState.claimPool at this; rw [hg] at this
  dsimp only at this ⊢; rw [this]

theorem StreamState.latestClaim_queue (x : StreamState) (h : Decode.discipline x.desc = .queue) : x.latestClaim = false := by
  simp [StreamState.latestClaim, h]

theorem StreamState.latestClaim_out (x : StreamState) (h : ¬ ByDiscipline x) : x.latestClaim = false := by
  have : x.byDiscipline = false := by rw [← Bool.not_eq_true, StreamState.byDiscipline_iff]; exact h
  simp [StreamState.latestClaim, this]

theorem StreamState.candidate_of (x c b) (h : Newest x [.ready, .shown] c b) : x.candidate = some c := by
  obtain ⟨h1, h2, h3⟩ := h
  refine x.newestBuf_of _ c b h1 (by simpa using h2) (fun j d hj hd hp => h3 j d hj hd (by simpa using hp))

theorem StreamState.marked_none (x : StreamState) (h : ∀ b ∈ x.bufs, b.hold = false) : x.marked = none := findIdx_none _ _ h

theorem StreamState.marked_some (x : StreamState) (i b) (h : x.bufs[i]? = some b) (hb : b.hold = true) (hf : ∀ j c, j ≠ i → x.bufs[j]? = some c → c.hold = false) : x.marked = some i :=
  findIdx_of _ _ i b h hb (fun j c hj hc => hf j c (by omega) hc)

theorem isClose_iff (w : Windows) (a o : Nat) (d : List Byte) (h : w.markOffset a = o) : isClose w a d = true ↔ (o = 0 ∧ d.length = 32 ∧ d.head? = some 0x43#8) := by
  unfold isClose; rw [h]
  simp only [Bool.and_eq_true, decide_eq_true_eq, and_assoc]
  have : Decode.byteAt d 0 = Decode.closeKind ↔ d.head? = some 0x43#8 := by
    cases d with
    | nil => simp [Decode.byteAt, Decode.closeKind]
    | cons a l =>
      simp only [Decode.byteAt, Decode.closeKind, List.getD_cons_zero, List.head?_cons, Option.some.injEq]
      constructor
      · intro h; exact BitVec.eq_of_toNat_eq (by simpa using h)
      · rintro rfl; rfl
  rw [this]

theorem State.classifyWindow_capture (s : State) (t : Txn) (m : Match) (hk : m.kind = .capture) (hi : t.initiator = m.entry.producer) (hl : (s.stream m.stream).life = .active) :
   s.classifyWindow t m = classifyCapture m.stream m.entry (m.offset t.address.toNat) t.body := by
  have hlb : ((s.stream m.stream).life == .active) = true := by simp [hl]
  unfold State.classifyWindow
  rw [hk, hlb]; dsimp only
  rw [if_neg (by simpa using hi), if_pos rfl]

theorem State.classifyWindow_presentation (s : State) (t : Txn) (m : Match) (k n) (hk : m.kind = .presentation) (hs : m.entry.slotOf t.initiator = some k) (hb : t.body = .read n) (hl : (s.stream m.stream).life = .active) :
   s.classifyWindow t m = classifyPresentation m.stream k m.entry (m.offset t.address.toNat) n := by
  have hlb : ((s.stream m.stream).life == .active) = true := by simp [hl]
  unfold State.classifyWindow
  rw [hk, hlb, hs, hb]; dsimp only
  rw [if_pos rfl]

theorem getElem_set_at (l : List Buf) (i : Nat) (b c : Buf) (h : l[i]? = some b) : (l.set i c)[i]? = some c := by
  have := (List.getElem?_eq_some_iff.1 h).1; simp [this]

theorem StreamState.stateOf_at (x : StreamState) (i b) (h : x.bufs[i]? = some b) : x.stateOf i = some b.state := by
  unfold StreamState.stateOf; rw [h]; rfl

theorem StreamState.releasesReady_of (x : StreamState) (l : List Nat) (p : Nat → Buf → Prop) (hl : l.Nodup) (hm : ∀ j, j ∈ l ↔ ∃ c, x.bufs[j]? = some c ∧ c.state = .ready ∧ p j c) :
    ReleasesReady x (l.foldl StreamState.releaseSkipped x) p := by
  obtain ⟨h1, h2, h3⟩ := StreamState.foldl_release_spec l hl x
  rw [StreamState.foldl_releaseSkipped_spec]
  refine ⟨?_, ?_, ?_, ⟨h3, ?_⟩, ⟨l, hl, hm, rfl⟩, ?_⟩
  · intro j c hj hs hp
    show (l.foldl StreamState.release x).bufs[j]? = _
    rw [h1, if_pos ((hm j).2 ⟨c, hj, hs, hp⟩), hj]
    simp [Buf.release_eq c (by simp [hs]) (by simp [hs])]
  · intro j c hj hn
    show (l.foldl StreamState.release x).bufs[j]? = _
    rw [h1, if_neg, hj]
    rw [hm]; rintro ⟨d, hd, hds, hp⟩
    rw [hj] at hd; cases hd; exact hn ⟨hds, hp⟩
  · show (l.foldl StreamState.release x).bufs.length = _
    apply Nat.le_antisymm
    · by_contra hc
      have := h1 x.bufs.length
      rw [List.getElem?_eq_getElem (by omega)] at this
      simp at this
    · by_contra hc
      have := h1 (l.foldl StreamState.release x).bufs.length
      rw [List.getElem?_eq_none (by omega), List.getElem?_eq_getElem (by omega)] at this
      simp at this; split at this <;> simp at this
  · intro j
    show j ∈ (l.foldl StreamState.release x).ready ↔ _
    rw [h2, hm]
    constructor
    · rintro ⟨h, hn⟩; exact ⟨h, fun c hc hh => hn ⟨c, hc, hh⟩⟩
    · rintro ⟨h, hn⟩; exact ⟨h, fun ⟨c, hc, hh⟩ => hn c hc hh⟩
  · conv_lhs => rw [StreamState.foldl_release_frame]

/-! ### The decrement and the quiet report of a return (R4 to R6, R25) -/

theorem State.setStream_self (s : State) (st : StreamId) : s.setStream st (s.stream st) = s := by
  unfold State.setStream State.stream
  have h : s.streams.set st.val (s.streams.get st) = s.streams := by
    apply Vector.ext; intro k hk; rw [Vector.getElem_set]; split
    · rename_i e; subst e; rfl
    · rfl
  rw [h]

/-- The quiet report of a return in the terms of Safety.lean (R25). -/
theorem State.reportQuiet_after (s : State) (st : StreamId) (x : StreamState) :
    s.reportQuiet st x false = s.setStream st (quietAfter x (s.stream st)) := by
  have a (x : StreamState) : x.allFree = true ↔ ∀ b ∈ x.bufs, b.state = .free := by unfold StreamState.allFree; simp
  have n : ¬ x.allFree = true ↔ ∃ b ∈ x.bufs, b.state ≠ .free := by rw [a]; push Not; rfl
  unfold State.reportQuiet quietAfter; dsimp only
  simp only [a (s.stream st), Bool.false_eq_true, false_or, n]
  split
  · rfl
  · exact (State.setStream_self s st).symm

/-- All that a decrement does to a record (R4 to R6). -/
theorem Buf.decrement_eq (b : Buf) (w : Bool) : Buf.decrement w b =
    if b.state = .releasing then (if b.inFlight ≤ 1 ∧ b.pins = 0 then Buf.fresh b.base else { b with inFlight := b.inFlight - 1 })
    else { b with inFlight := b.inFlight - 1
                  writeError := b.writeError || (w && decide (b.state = .filling ∨ b.state = .closing)) } := by
  unfold Buf.decrement Buf.settle Buf.cleared
  by_cases h : b.state = .releasing
  · have : (b.inFlight - 1 = 0) ↔ b.inFlight ≤ 1 := by omega
    simp [h, this]
  · simp [h]

end Sys2Proof.Machine
end

