-- ==== Sys2Proof/Laws/Buffers.lean ====
section
/-! SUPPORT. One slot's buffer records, READY queue and reader entries: PoolOk is kept by every change of a record, every
request of Chapters 1 to 5 and every arm, rest and descriptor that comes into force. -/
namespace Sys2Proof.Safety

open Sys2Proof Sys2Proof.Machine

/-! ### Records after an edit -/

theorem getElem_set_of (l : List Buf) (i j : Nat) (b c : Buf) (h : l[i]? = some b) :
    (l.set i c)[j]? = if j = i then some c else l[j]? := by
  have := (List.getElem?_eq_some_iff.1 h).1
  rw [List.getElem?_set]
  by_cases hj : i = j
  · subst hj; simp [this]
  · rw [if_neg hj, if_neg (fun e => hj e.symm)]

theorem seqOf_congr (x y : StreamState) (h : y.bufs = x.bufs) (i : Nat) : y.seqOf i = x.seqOf i := by
  unfold StreamState.seqOf; rw [h]

theorem seqOf_edit (x y : StreamState) (i j : Nat) (b c : Buf) (h : x.bufs[i]? = some b) (hy : y.bufs = x.bufs.set i c)
    (hj : j ≠ i) : y.seqOf j = x.seqOf j := by
  unfold StreamState.seqOf; rw [hy, getElem_set_of _ _ _ _ _ h, if_neg hj]

/-! ### One invariant, two ways a slot moves on -/

/-- Fields the pool does not look at, the lock while no buffer is marked, and a rising last sequence. -/
theorem PoolOk.same {x y : StreamState} {P : Nat → Nat} {T : List Nat} (h : PoolOk x P T) (hb : y.bufs = x.bufs)
    (hq : y.ready = x.ready) (hr : ∀ i, boundTo y i = boundTo x i)
    (hin : ∀ r ∈ y.readers, ∀ i, r.state = .bound i → i < x.bufs.length) (hm : y.mode = x.mode) (hs : x.lastSeq ≤ y.lastSeq)
    (hl : (∀ b ∈ x.bufs, b.hold = false) ∨ (y.lock = x.lock ∧ y.current = x.current)) : PoolOk y P T where
  each i b hi := by
    rw [hb] at hi
    have o := h.each i b hi
    exact { free := o.free, readers := by rw [hr]; exact o.readers, shown := o.shown, kept := o.kept, pins := o.pins,
            target := o.target, filling := by rw [hm]; exact o.filling
            number := fun hf => ⟨(o.number hf).1, BitVec.le_trans (o.number hf).2 hs⟩
            hold := fun hh => by
              rcases hl with hl | ⟨hl, hc⟩
              · rw [hl b (List.mem_of_getElem? hi)] at hh; cases hh
              · rw [hl, desc_of_current hc]; exact o.hold hh }
  queue := by rw [hq, hb]; exact h.queue
  rising := by rw [hq]; exact h.rising.imp (fun {a b} hab => by rw [seqOf_congr x y hb, seqOf_congr x y hb]; exact hab)
  oneHold := by rw [hb]; exact h.oneHold
  distinct := by rw [hb]; exact h.distinct
  bound := by rw [hb]; exact hin
  current := by rw [hm, hb]; exact h.current
  pinned := by rw [hb]; exact h.pinned
  targets := by rw [hb]; exact h.targets

/-- One record of a slot is replaced, with what belongs to it: queue place, bindings, frame mode, pins, target. -/
structure Edit (x y : StreamState) (P Q : Nat → Nat) (T U : List Nat) (i : Nat) (b c : Buf) : Prop where
  old : x.bufs[i]? = some b
  bufs : y.bufs = x.bufs.set i c
  new : BufOk y Q U i c
  counts : ∀ j, j ≠ i → boundTo y j = boundTo x j
  inside : ∀ r ∈ y.readers, ∀ k, r.state = .bound k → k < x.bufs.length
  lock : y.lock = x.lock
  desc : y.current = x.current
  mode : ∀ j, j ≠ i → (y.mode = .buffer j ↔ x.mode = .buffer j)
  last : x.lastSeq ≤ y.lastSeq
  pins : ∀ j, j ≠ i → Q j = P j
  targets : U.Nodup ∧ ∀ j ∈ U, j ≠ i → j ∈ T
  queue : ∀ j, j ∈ y.ready ↔ (j = i ∧ c.state = .ready) ∨ (j ≠ i ∧ j ∈ x.ready)
  rising : y.ready.Pairwise (fun j k => y.seqOf j < y.seqOf k)
  hold : c.hold = true → ∀ (j : Nat) (d : Buf), j ≠ i → x.bufs[j]? = some d → d.hold = false
  seq : c.state ≠ .free → (c.seq = b.seq ∧ b.state ≠ .free) ∨
    ∀ (j : Nat) (d : Buf), j ≠ i → x.bufs[j]? = some d → d.state ≠ .free → d.seq ≠ c.seq

theorem PoolOk.edit {x y : StreamState} {P Q : Nat → Nat} {T U : List Nat} {i : Nat} {b c : Buf} (h : PoolOk x P T)
    (e : Edit x y P Q T U i b c) : PoolOk y Q U := by
  have hi : i < x.bufs.length := (List.getElem?_eq_some_iff.1 e.old).1
  have hlen : y.bufs.length = x.bufs.length := by rw [e.bufs, List.length_set]
  have get : ∀ j, y.bufs[j]? = if j = i then some c else x.bufs[j]? := fun j => by rw [e.bufs, getElem_set_of _ _ _ _ _ e.old]
  refine ⟨?_, ?_, e.rising, ?_, ?_, ?_, ?_, ?_, e.targets.1, ?_⟩
  · intro j d hj
    rw [get] at hj
    by_cases hji : j = i
    · subst hji; rw [if_pos rfl] at hj; cases hj; exact e.new
    · rw [if_neg hji] at hj
      have o := h.each j d hj
      exact { free := o.free, readers := by rw [e.counts j hji]; exact o.readers, shown := o.shown, kept := o.kept
              pins := by rw [e.pins j hji]; exact o.pins
              target := fun hu => o.target (e.targets.2 j hu hji)
              filling := by rw [e.mode j hji]; exact o.filling
              number := fun hf => ⟨(o.number hf).1, BitVec.le_trans (o.number hf).2 e.last⟩
              hold := by rw [e.lock, desc_of_current e.desc]; exact o.hold }
  · intro j
    rw [e.queue, get]
    by_cases hji : j = i
    · subst hji; simp
    · simp [hji, h.queue]
  · intro j k d f hj hk hd hf
    rw [get] at hj hk
    by_cases hji : j = i
    · by_cases hki : k = i
      · rw [hji, hki]
      · subst hji; rw [if_pos rfl] at hj; rw [if_neg hki] at hk; cases hj
        rw [e.hold hd k f hki hk] at hf; cases hf
    · rw [if_neg hji] at hj
      by_cases hki : k = i
      · subst hki; rw [if_pos rfl] at hk; cases hk
        rw [e.hold hf j d hji hj] at hd; cases hd
      · rw [if_neg hki] at hk; exact h.oneHold j k d f hj hk hd hf
  · intro j k d f hj hk hd hf hs
    rw [get] at hj hk
    by_cases hji : j = i
    · by_cases hki : k = i
      · rw [hji, hki]
      · subst hji; rw [if_pos rfl] at hj; rw [if_neg hki] at hk; cases hj
        rcases e.seq hd with ⟨h1, h2⟩ | h1
        · exact h.distinct j k b f e.old hk h2 hf (by rw [← h1]; exact hs)
        · exact absurd hs.symm (h1 k f hki hk hf)
    · rw [if_neg hji] at hj
      by_cases hki : k = i
      · subst hki; rw [if_pos rfl] at hk; cases hk
        rcases e.seq hf with ⟨h1, h2⟩ | h1
        · exact h.distinct j k d b hj e.old hd h2 (by rw [← h1]; exact hs)
        · exact absurd hs (h1 j d hji hj hd)
      · rw [if_neg hki] at hk; exact h.distinct j k d f hj hk hd hf hs
  · rw [hlen]; exact e.inside
  · intro j hj; rw [hlen]
    by_cases hji : j = i
    · subst hji; exact hi
    · exact h.current j ((e.mode j hji).1 hj)
  · intro j hj; rw [hlen]
    by_cases hji : j = i
    · subst hji; exact hi
    · exact h.pinned j (by rw [← e.pins j hji]; exact hj)
  · intro j hj; rw [hlen]
    by_cases hji : j = i
    · subst hji; exact hi
    · exact h.targets.2 j (e.targets.2 j hj hji)

/-- The queue part of an edit whose new record is not READY: the place is given up. -/
theorem PoolOk.queue_drop {x y : StreamState} {P : Nat → Nat} {T : List Nat} {i : Nat} {b c : Buf} (h : PoolOk x P T)
    (ho : x.bufs[i]? = some b) (hb : y.bufs = x.bufs.set i c) (hc : c.state ≠ .ready)
    (hq : y.ready = x.ready.filter (· != i)) :
    (∀ j, j ∈ y.ready ↔ (j = i ∧ c.state = .ready) ∨ (j ≠ i ∧ j ∈ x.ready)) ∧
      y.ready.Pairwise (fun j k => y.seqOf j < y.seqOf k) := by
  refine ⟨fun j => ?_, ?_⟩
  · rw [hq, List.mem_filter]; simp [hc, and_comm]
  · rw [hq]
    refine List.Pairwise.imp_of_mem ?_ (h.rising.sublist List.filter_sublist)
    intro j k hj hk hjk
    rw [List.mem_filter] at hj hk
    rw [seqOf_edit x y i j b c ho hb (by simpa using hj.2), seqOf_edit x y i k b c ho hb (by simpa using hk.2)]
    exact hjk

/-- A buffer that is not READY has no place in the queue. -/
theorem PoolOk.filter_ready {x : StreamState} {P : Nat → Nat} {T : List Nat} {i : Nat} {b : Buf} (h : PoolOk x P T)
    (ho : x.bufs[i]? = some b) (hb : b.state ≠ .ready) : x.ready.filter (· != i) = x.ready := by
  rw [List.filter_eq_self]
  intro j hj
  obtain ⟨d, hd, hs⟩ := (h.queue j).1 hj
  simp only [bne_iff_ne, ne_eq]
  rintro rfl
  rw [ho] at hd; cases hd; exact hb hs

/-- The queue part of an edit that keeps state and sequence. -/
theorem PoolOk.queue_keep {x y : StreamState} {P : Nat → Nat} {T : List Nat} {i : Nat} {b c : Buf} (h : PoolOk x P T)
    (ho : x.bufs[i]? = some b) (hb : y.bufs = x.bufs.set i c) (hs : c.state = b.state) (hn : c.seq = b.seq)
    (hq : y.ready = x.ready) :
    (∀ j, j ∈ y.ready ↔ (j = i ∧ c.state = .ready) ∨ (j ≠ i ∧ j ∈ x.ready)) ∧
      y.ready.Pairwise (fun j k => y.seqOf j < y.seqOf k) := by
  have seq : ∀ j, y.seqOf j = x.seqOf j := by
    intro j
    by_cases hj : j = i
    · subst hj; unfold StreamState.seqOf; rw [hb, getElem_set_of _ _ _ _ _ ho, if_pos rfl, ho]; simp [hn]
    · exact seqOf_edit x y i j b c ho hb hj
  refine ⟨fun j => ?_, ?_⟩
  · rw [hq]
    by_cases hj : j = i
    · subst hj; rw [h.queue, hs, ho]; simp
    · simp [hj]
  · rw [hq]; exact h.rising.imp (fun {a b} hab => by rw [seq, seq]; exact hab)

theorem BufOk.congr {x y : StreamState} {P : Nat → Nat} {T : List Nat} {i : Nat} {b : Buf} (o : BufOk x P T i b)
    (hr : y.readers = x.readers) (hl : y.lock = x.lock) (hc : y.current = x.current) (hm : y.mode = x.mode)
    (hs : y.lastSeq = x.lastSeq) : BufOk y P T i b where
  free := o.free
  readers := by unfold boundTo; rw [hr]; exact o.readers
  shown := o.shown
  hold := by rw [hl, desc_of_current hc]; exact o.hold
  kept := o.kept
  filling := by rw [hm]; exact o.filling
  number := by rw [hs]; exact o.number
  pins := o.pins
  target := o.target

/-- A cleared record: no entry bound to it, no frame in it, no pin on it, no job of it. -/
theorem BufOk.fresh {x : StreamState} {P : Nat → Nat} {T : List Nat} {i : Nat} (base : BitVec 32) (hr : boundTo x i = 0)
    (hm : x.mode ≠ .buffer i) (hp : P i = 0) (ht : i ∉ T) : BufOk x P T i (Buf.fresh base) where
  free _ := rfl
  readers := hr.symm
  shown := by simp [Buf.fresh]
  hold h := by cases h
  kept h := by cases h
  filling := by simp [Buf.fresh, hm]
  number h := absurd rfl h
  pins := hp.symm
  target h := absurd h ht

theorem BufOk.unread {x : StreamState} {P : Nat → Nat} {T : List Nat} {i : Nat} {b : Buf} (o : BufOk x P T i b)
    (h : b.state ≠ .shown) : boundTo x i = 0 := by
  rw [← o.readers]; by_contra hc; exact h (o.shown.2 hc)

/-- What a slot's descriptor, lifecycle, drain progress and report keep, with the bases and entries of its pool. -/
structure SlotSame (x y : StreamState) : Prop where
  current : y.current = x.current
  life : y.life = x.life
  taken : y.drainTaken = x.drainTaken
  quiet : y.poolQuiet = x.poolQuiet
  entries : y.readers.map (fun r => (r.valid, r.id)) = x.readers.map (fun r => (r.valid, r.id))
  bases : y.bufs.map (·.base) = x.bufs.map (·.base)
  mode : y.mode = x.mode ∨ y.mode = .none
  free : AllFree x → AllFree y

theorem SlotSame.refl {x : StreamState} : SlotSame x x := ⟨rfl, rfl, rfl, rfl, rfl, rfl, .inl rfl, id⟩

theorem SlotSame.trans {x y z : StreamState} (a : SlotSame x y) (b : SlotSame y z) : SlotSame x z :=
  ⟨b.1.trans a.1, b.2.trans a.2, b.3.trans a.3, b.4.trans a.4, b.5.trans a.5, b.6.trans a.6,
    b.7.elim (fun h => a.7.elim (fun g => .inl (h.trans g)) (fun g => .inr (h.trans g))) .inr, b.8 ∘ a.8⟩

theorem SlotSame.pool {x y : StreamState} (s : SlotSame x y) (h : SlotPool x) : SlotPool y where
  bases := by
    rcases h.bases with hb | hb
    · left
      have := s.bases; rw [hb] at this; simpa using this
    · right; rw [s.bases, hb, desc_of_current s.current]
  entries := by rw [s.entries, s.current]; exact h.entries
  live := by rw [s.life, s.current]; exact h.live
  rest hl := by
    rw [s.life] at hl
    exact ⟨s.mode.elim (fun e => e.trans (h.rest hl).1) id, s.free (h.rest hl).2⟩
  quiet hq := by
    rw [s.quiet] at hq
    exact ⟨s.life.trans (h.quiet hq).1, s.free (h.quiet hq).2⟩
  captured hl ht := by
    rw [s.life] at hl; rw [s.taken] at ht
    exact s.mode.elim (fun e => e.trans (h.captured hl ht)) id

theorem bases_set (l : List Buf) (i : Nat) (b c : Buf) (h : l[i]? = some b) (hc : c.base = b.base) :
    (l.set i c).map (·.base) = l.map (·.base) := by
  apply List.ext_getElem?; intro j
  rw [List.getElem?_map, List.getElem?_map, getElem_set_of _ _ _ _ _ h]
  split
  · rename_i e; subst e; rw [h]; simp [hc]
  · rfl

/-- Replacing one record by one that fits, with its queue place. -/
theorem PoolOk.put {x : StreamState} {P Q : Nat → Nat} {T U : List Nat} {i : Nat} {b : Buf} (h : PoolOk x P T)
    (ho : x.bufs[i]? = some b) (c : Buf) (R : List Nat) (hnew : BufOk x Q U i c) (hbase : c.base = b.base)
    (hfree : b.state = .free → c.state = .free) (hp : ∀ j, j ≠ i → Q j = P j) (hU : U.Nodup ∧ ∀ j ∈ U, j ≠ i → j ∈ T)
    (hR : (c.state ≠ .ready ∧ R = x.ready.filter (· != i)) ∨ (c.state = b.state ∧ c.seq = b.seq ∧ R = x.ready) ∨
      ((∀ j, j ∈ R ↔ (j = i ∧ c.state = .ready) ∨ (j ≠ i ∧ j ∈ x.ready)) ∧
        R.Pairwise (fun j k => StreamState.seqOf { x with bufs := x.bufs.set i c } j < StreamState.seqOf { x with bufs := x.bufs.set i c } k)))
    (hh : c.hold = true → b.hold = true ∨ ∀ d ∈ x.bufs, d.hold = false) (hs : c.state ≠ .free → c.seq = b.seq) :
    PoolOk { x with bufs := x.bufs.set i c, ready := R } Q U ∧
      SlotSame x { x with bufs := x.bufs.set i c, ready := R } := by
  have hi : i < x.bufs.length := (List.getElem?_eq_some_iff.1 ho).1
  have hq : (∀ j, j ∈ R ↔ (j = i ∧ c.state = .ready) ∨ (j ≠ i ∧ j ∈ x.ready)) ∧
      R.Pairwise (fun j k => StreamState.seqOf { x with bufs := x.bufs.set i c, ready := R } j
        < StreamState.seqOf { x with bufs := x.bufs.set i c, ready := R } k) := by
    rcases hR with ⟨h1, h2⟩ | ⟨h1, h2, h3⟩ | h1
    · exact h.queue_drop (y := { x with bufs := x.bufs.set i c, ready := R }) ho rfl h1 h2
    · exact h.queue_keep (y := { x with bufs := x.bufs.set i c, ready := R }) ho rfl h1 h2 h3
    · exact h1
  refine ⟨h.edit ⟨ho, rfl, hnew.congr rfl rfl rfl rfl rfl, fun _ _ => rfl, h.bound, rfl, rfl, fun _ _ => Iff.rfl,
    BitVec.le_refl _, hp, hU, hq.1, hq.2, ?_, ?_⟩, ⟨rfl, rfl, rfl, rfl, rfl, ?_, .inl rfl, ?_⟩⟩
  · intro hc j d hj hd
    rcases hh hc with hb | hn
    · by_contra hx
      exact hj (h.oneHold j i d b hd ho (by simpa using hx) hb)
    · exact hn d (List.mem_of_getElem? hd)
  · intro hf; exact .inl ⟨hs hf, fun e => hf (hfree e)⟩
  · exact bases_set _ _ _ _ ho hbase
  · intro hall d hd
    show d.state = .free
    rcases List.mem_or_eq_of_mem_set hd with hd | rfl
    · exact hall d hd
    · exact hfree (hall b (List.mem_of_getElem? ho))

theorem onBuf_onBuf (x : StreamState) (i : Nat) (f g : Buf → Buf) :
    (x.onBuf i f).onBuf i g = x.onBuf i (fun b => g (f b)) := by
  cases h : x.bufs[i]? with
  | none =>
    rw [StreamState.onBuf_none _ _ _ h, StreamState.onBuf_none _ _ _ h, StreamState.onBuf_none _ _ _ h]
  | some b =>
    rw [StreamState.onBuf_at x i b _ h, StreamState.onBuf_at x i b _ h]
    rw [StreamState.onBuf_at _ i (f b) g (getElem_set_at _ _ _ _ h)]
    simp

/-- A change of a record's counts of traffic, coverage, close info or verdict. -/
theorem PoolOk.touch {x : StreamState} {P : Nat → Nat} {T : List Nat} (h : PoolOk x P T) (i : Nat) (f : Buf → Buf)
    (hf : ∀ b, x.bufs[i]? = some b → (f b).state = b.state ∧ (f b).seq = b.seq ∧ (f b).readers = b.readers ∧
      (f b).pins = b.pins ∧ (f b).hold = b.hold ∧ (f b).base = b.base ∧ (b.state = .free → f b = b)) :
    PoolOk (x.onBuf i f) P T ∧ SlotSame x (x.onBuf i f) := by
  cases ho : x.bufs[i]? with
  | none => rw [StreamState.onBuf_none _ _ _ ho]; exact ⟨h, .refl⟩
  | some b =>
    obtain ⟨h1, h2, h3, h4, h5, h6, h7⟩ := hf b ho
    have o := h.each i b ho
    rw [StreamState.onBuf_at _ _ _ _ ho]
    refine h.put ho (f b) x.ready ?_ h6 (fun e => by rw [h1]; exact e) (fun _ _ => rfl) ⟨h.targets.1, fun _ h _ => h⟩
      (.inr (.inl ⟨h1, h2, rfl⟩)) (fun e => .inl (by rw [← h5]; exact e)) (fun _ => h2)
    refine ⟨fun e => ?_, by rw [h3]; exact o.readers, by rw [h1, h3]; exact o.shown, by rw [h5, h1]; exact o.hold,
      by rw [h1, h5]; exact o.kept, by rw [h1]; exact o.filling, by rw [h1, h2]; exact o.number, by rw [h4]; exact o.pins,
      by rw [h1]; exact o.target⟩
    rw [h1] at e; rw [h7 e]; exact o.free e

/-- A RELEASING buffer with counts of 0 goes to FREE (R4). -/
theorem PoolOk.settle {x : StreamState} {P : Nat → Nat} {T : List Nat} (h : PoolOk x P T) (i : Nat) :
    PoolOk (x.onBuf i Buf.settle) P T ∧ SlotSame x (x.onBuf i Buf.settle) := by
  cases ho : x.bufs[i]? with
  | none => rw [StreamState.onBuf_none _ _ _ ho]; exact ⟨h, .refl⟩
  | some b =>
    have o := h.each i b ho
    by_cases hr : b.state = .releasing ∧ b.inFlight = 0 ∧ b.pins = 0
    · rw [StreamState.onBuf_at _ _ _ _ ho]
      have : Buf.settle b = Buf.fresh b.base := by unfold Buf.settle; rw [if_pos hr]; rfl
      rw [this]
      refine h.put ho _ x.ready (BufOk.fresh _ (o.unread (by rw [hr.1]; simp)) ?_ ?_ ?_) rfl (fun _ => rfl) (fun _ _ => rfl)
        ⟨h.targets.1, fun _ h _ => h⟩ (.inl ⟨by simp [Buf.fresh], (h.filter_ready ho (by rw [hr.1]; simp)).symm⟩)
        (fun e => by cases e) (fun e => absurd rfl e)
      · intro e; have := o.filling.2 e; rw [hr.1] at this; cases this
      · rw [← o.pins]; exact hr.2.2
      · intro e; have := o.target e; rw [hr.1] at this; cases this
    · refine h.touch i _ (fun c hc => ?_)
      rw [ho] at hc; cases hc
      have : Buf.settle b = b := by unfold Buf.settle; rw [if_neg hr]
      rw [this]; exact ⟨rfl, rfl, rfl, rfl, rfl, rfl, fun _ => rfl⟩

/-- A return's decrement (R5, R6). -/
theorem PoolOk.decrement {x : StreamState} {P : Nat → Nat} {T : List Nat} (h : PoolOk x P T) (i : Nat) (w : Bool) :
    PoolOk (x.onBuf i (Buf.decrement w)) P T ∧ SlotSame x (x.onBuf i (Buf.decrement w)) := by
  have e : x.onBuf i (Buf.decrement w) = (x.onBuf i (fun b => { b with inFlight := b.inFlight - 1, writeError :=
      b.writeError || (w && decide (b.state = .filling ∨ b.state = .closing)) })).onBuf i Buf.settle := by
    rw [onBuf_onBuf]; rfl
  rw [e]
  obtain ⟨h1, s1⟩ := h.touch i (fun b => { b with inFlight := b.inFlight - 1, writeError :=
      b.writeError || (w && decide (b.state = .filling ∨ b.state = .closing)) }) (fun b hb =>
        ⟨rfl, rfl, rfl, rfl, rfl, rfl, fun hf => by rw [(h.each i b hb).free hf]; simp [Buf.fresh]⟩)
  obtain ⟨h2, s2⟩ := h1.settle i
  exact ⟨h2, s1.trans s2⟩

/-- An entry made for a transaction on a buffer that is not FREE (R5). -/
theorem PoolOk.increment {x : StreamState} {P : Nat → Nat} {T : List Nat} (h : PoolOk x P T) (i : Nat)
    (hf : ∀ b, x.bufs[i]? = some b → b.state ≠ .free) : PoolOk (x.increment i) P T ∧ SlotSame x (x.increment i) :=
  h.touch i _ (fun b hb => ⟨rfl, rfl, rfl, rfl, rfl, rfl, fun e => absurd e (hf b hb)⟩)

/-- A release of a buffer that is not SHOWN, FILLING or the target of a job that stays (R4). -/
theorem PoolOk.release {x : StreamState} {P : Nat → Nat} {T U : List Nat} (h : PoolOk x P T) (i : Nat)
    (hs : ∀ b, x.bufs[i]? = some b → b.state ≠ .shown ∧ b.state ≠ .filling) (hU : U.Nodup ∧ ∀ j ∈ U, j ∈ T ∧ j ≠ i) :
    PoolOk (x.release i) P U ∧ SlotSame x (x.release i) := by
  unfold StreamState.release
  cases ho : x.bufs[i]? with
  | none =>
    rw [StreamState.onBuf_none (x.dequeue i) _ _ ho]
    have hq : x.ready.filter (· != i) = x.ready := by
      rw [List.filter_eq_self]; intro j hj
      obtain ⟨b, hb, _⟩ := (h.queue j).1 hj
      simp only [bne_iff_ne, ne_eq]; rintro rfl; rw [ho] at hb; cases hb
    have : x.dequeue i = x := by unfold StreamState.dequeue; rw [hq]
    rw [this]
    refine ⟨⟨fun k b hb => ?_, h.queue, h.rising, h.oneHold, h.distinct, h.bound, h.current, h.pinned, hU.1,
      fun k hk => h.targets.2 k (hU.2 k hk).1⟩, .refl⟩
    have o := h.each k b hb
    exact ⟨o.free, o.readers, o.shown, o.hold, o.kept, o.filling, o.number, o.pins, fun e => o.target (hU.2 k e).1⟩
  | some b =>
    have o := h.each i b ho
    obtain ⟨n1, n2⟩ := hs b ho
    have hit : i ∉ U := fun e => (hU.2 i e).2 rfl
    rw [StreamState.onBuf_at (x.dequeue i) i b _ ho]
    refine h.put ho b.release (x.ready.filter (· != i)) ?_ ?_ ?_ (fun _ _ => rfl) ⟨hU.1, fun j hj _ => (hU.2 j hj).1⟩ ?_ ?_ ?_
    · unfold Buf.release
      split
      · exact ⟨o.free, o.readers, o.shown, o.hold, o.kept, o.filling, o.number, o.pins, fun e => absurd e hit⟩
      · split
        · rename_i hz
          exact BufOk.fresh _ (o.unread n1) (fun e => n2 (o.filling.2 e)) (by rw [← o.pins]; exact hz.2) hit
        · rename_i hn _
          exact ⟨fun e => (by cases e), o.readers, ⟨fun e => (by cases e), fun e => absurd (o.shown.2 e) n1⟩, fun e => (by cases e),
            fun e => (by cases e), ⟨fun e => (by cases e), fun e => absurd (o.filling.2 e) n2⟩,
            fun _ => o.number (fun e => hn (.inl e)), o.pins, fun e => absurd e hit⟩
    · unfold Buf.release; split
      · rfl
      · split <;> rfl
    · intro e; unfold Buf.release; rw [if_pos (.inl e)]; exact e
    · left
      refine ⟨?_, rfl⟩
      unfold Buf.release; split
      · rename_i e; rcases e with e | e <;> rw [e] <;> simp
      · split <;> simp [Buf.cleared, Buf.fresh]
    · unfold Buf.release; split
      · exact fun e => .inl e
      · split <;> (intro e; cases e)
    · unfold Buf.release; split
      · exact fun _ => rfl
      · split
        · intro e; exact absurd rfl e
        · exact fun _ => rfl

/-- A pin of a buffer that is not FREE (R7). -/
theorem PoolOk.pin {x : StreamState} {P : Nat → Nat} {T : List Nat} (h : PoolOk x P T) (i : Nat) (b : Buf)
    (ho : x.bufs[i]? = some b) (hf : b.state ≠ .free) :
    PoolOk (x.pin i) (fun j => P j + if j = i then 1 else 0) T ∧ SlotSame x (x.pin i) := by
  have o := h.each i b ho
  unfold StreamState.pin
  rw [StreamState.onBuf_at _ _ _ _ ho]
  refine h.put ho _ x.ready ?_ rfl (fun e => absurd e hf) (fun j hj => by simp [hj]) ⟨h.targets.1, fun _ h _ => h⟩
    (.inr (.inl ⟨rfl, rfl, rfl⟩)) (fun e => .inl e) (fun _ => rfl)
  exact ⟨fun e => absurd e hf, o.readers, o.shown, o.hold, o.kept, o.filling, o.number, by simp [o.pins], o.target⟩

/-- An unpin (R7). -/
theorem PoolOk.unpin {x : StreamState} {P : Nat → Nat} {T : List Nat} (h : PoolOk x P T) (i : Nat) :
    PoolOk (x.unpin i) (fun j => P j - if j = i then 1 else 0) T ∧ SlotSame x (x.unpin i) := by
  have e : x.unpin i = (x.onBuf i (fun b => { b with pins := b.pins - 1 })).onBuf i Buf.settle := by
    rw [onBuf_onBuf]; rfl
  rw [e]
  have first : PoolOk (x.onBuf i (fun b => { b with pins := b.pins - 1 })) (fun j => P j - if j = i then 1 else 0) T ∧
      SlotSame x (x.onBuf i (fun b => { b with pins := b.pins - 1 })) := by
    cases ho : x.bufs[i]? with
    | none =>
      rw [StreamState.onBuf_none _ _ _ ho]
      have : (fun j => P j - if j = i then 1 else 0) = P := by
        funext j; by_cases hj : j = i
        · subst hj
          have : P j = 0 := by
            by_contra hc; have := h.pinned j hc; rw [List.getElem?_eq_none_iff] at ho; omega
          simp [this]
        · simp [hj]
      rw [this]; exact ⟨h, .refl⟩
    | some b =>
      have o := h.each i b ho
      rw [StreamState.onBuf_at _ _ _ _ ho]
      refine h.put ho _ x.ready ?_ rfl (fun e => e) (fun j hj => by simp [hj]) ⟨h.targets.1, fun _ h _ => h⟩
        (.inr (.inl ⟨rfl, rfl, rfl⟩)) (fun e => .inl e) (fun _ => rfl)
      refine ⟨fun e => ?_, o.readers, o.shown, o.hold, o.kept, o.filling, o.number, by simp [o.pins], o.target⟩
      have := o.free e
      rw [this]; rfl
  obtain ⟨h1, s1⟩ := first
  obtain ⟨h2, s2⟩ := h1.settle i
  exact ⟨h2, s1.trans s2⟩

/-! ### Frames: start, steal, close, end at a teardown (R8, R9, R11, R48) -/

theorem PoolOk.not_target {x : StreamState} {P : Nat → Nat} {T : List Nat} (h : PoolOk x P T) (i : Nat) (b : Buf)
    (ho : x.bufs[i]? = some b) (hb : b.state ≠ .repairing) : i ∉ T := fun e => hb ((h.each i b ho).target e)

/-- A FREE or an unpinned READY buffer takes the frame. -/
theorem PoolOk.fill {x y : StreamState} {P : Nat → Nat} {T : List Nat} (h : PoolOk x P T) (i : Nat) (b : Buf)
    (ho : x.bufs[i]? = some b) (hb : b.state = .free ∨ b.state = .ready) (hp : b.pins = 0) (hm : x.mode = .none)
    (hl : x.lastSeq ≠ 0xFFFFFFFF#32) (hy : y.bufs = x.bufs.set i (Buf.fill (x.lastSeq + 1#32) b))
    (hq : y.ready = x.ready.filter (· != i)) (hym : y.mode = .buffer i) (hr : y.readers = x.readers) (hk : y.lock = x.lock)
    (hc : y.current = x.current) (hs : y.lastSeq = x.lastSeq + 1#32) : PoolOk y P T := by
  have o := h.each i b ho
  have hsh : b.state ≠ .shown := by rcases hb with e | e <;> rw [e] <;> simp
  have hre : b.state ≠ .repairing := by rcases hb with e | e <;> rw [e] <;> simp
  have hlt : x.lastSeq < x.lastSeq + 1#32 := by bv_omega
  have hcount : ∀ j, boundTo y j = boundTo x j := fun j => by unfold boundTo; rw [hr]
  have hqd := h.queue_drop (y := y) ho hy (c := Buf.fill (x.lastSeq + 1#32) b) (by simp [Buf.fill]) hq
  refine h.edit ⟨ho, hy, ?_, fun j _ => hcount j, by rw [hr]; exact h.bound, hk, hc, ?_, ?_, fun _ _ => rfl,
    ⟨h.targets.1, fun _ e _ => e⟩, hqd.1, hqd.2, fun e => (by cases e), fun _ => .inr ?_⟩
  · refine ⟨fun e => (by cases e), ?_, ⟨fun e => (by cases e), fun e => absurd rfl e⟩, fun e => (by cases e), fun e => (by cases e),
      ⟨fun _ => hym, fun _ => rfl⟩, fun _ => ⟨?_, by rw [hs]; exact BitVec.le_refl _⟩, ?_, fun e => absurd e (h.not_target i b ho hre)⟩
    · rw [hcount, o.unread hsh]; rfl
    · show 1 ≤ (x.lastSeq + 1#32).toNat; bv_omega
    · show 0 = _; rw [← o.pins, hp]
  · intro j hj; rw [hym, hm]
    exact ⟨fun e => absurd (by injection e with e; exact e.symm) hj, fun e => (by cases e)⟩
  · rw [hs]; exact BitVec.le_of_lt hlt
  · intro j d hj hd hf e
    have := ((h.each j d hd).number hf).2
    change d.seq = x.lastSeq + 1#32 at e
    rw [e] at this
    exact absurd this (by bv_omega)

theorem PoolOk.beginFrame {x : StreamState} {P : Nat → Nat} {T : List Nat} (h : PoolOk x P T)
    (hn : x.mode ≠ .none ∨ x.lastSeq ≠ 0xFFFFFFFF#32) : PoolOk x.beginFrame P T := by
  by_cases hm : x.mode = .none
  · have hl : x.lastSeq ≠ 0xFFFFFFFF#32 := hn.elim (fun e => absurd hm e) id
    have hle : x.lastSeq ≤ x.lastSeq + 1#32 := by bv_omega
    rw [StreamState.beginFrame_none x hm]
    dsimp only
    set z := { x with lastSeq := x.lastSeq + 1#32 }.count .framesStarted with hz
    unfold StreamState.startFrame
    split
    · rename_i i hi
      obtain ⟨hlt, hp, _⟩ := List.findIdx?_eq_some_iff_getElem.1 hi
      have ho : x.bufs[i]? = some x.bufs[i] := List.getElem?_eq_getElem hlt
      have hs : x.bufs[i].state = .free := by have hp' : (x.bufs[i].state == .free) = true := hp; simpa using hp'
      have o := h.each i _ ho
      refine h.fill i _ ho (.inl hs) (by rw [o.free hs]; rfl) hm hl ?_ ?_ rfl rfl rfl rfl rfl
      · show (z.onBuf i (Buf.fill (x.lastSeq + 1#32))).bufs = _
        rw [StreamState.onBuf_at z i _ _ ho]; rfl
      · exact (h.filter_ready ho (by rw [hs]; simp)).symm
    · split
      · rename_i _ i hi
        have hst : x.oldestBuf (fun b => b.state == .ready && b.pins == 0) = some i := by
          split at hi
          · exact hi
          · cases hi
        have hmem := (lowest_mem _ _ _ hst).1
        obtain ⟨b, ho, hb⟩ := (x.mem_indices _ i).1 hmem
        simp only [Bool.and_eq_true, beq_iff_eq] at hb
        refine h.fill i b ho (.inr hb.1) hb.2 hm hl ?_ rfl rfl rfl rfl rfl rfl
        show (StreamState.onBuf _ i (Buf.fill (x.lastSeq + 1#32))).bufs = _
        rw [StreamState.onBuf_at ((z.dequeue i).count .skipped) i b _ ho]; rfl
      · have e0 := fun i b (hb : x.bufs[i]? = some b) => (h.each i b hb).filling
        have h1 : PoolOk { x with mode := .sink } P T := by
          refine ⟨fun i b hb => ?_, h.queue, h.rising, h.oneHold, h.distinct, h.bound, fun i e => (by cases e), h.pinned, h.targets⟩
          have o := h.each i b hb
          refine ⟨o.free, o.readers, o.shown, o.hold, o.kept, ⟨fun e => ?_, fun e => (by cases e)⟩, o.number, o.pins, o.target⟩
          have := o.filling.1 e; rw [hm] at this; cases this
        exact h1.same rfl rfl (fun _ => rfl) h1.bound rfl hle (.inr ⟨rfl, rfl⟩)
  · rw [StreamState.beginFrame_not x hm]; exact h

/-- The frame leaves its FILLING buffer, which becomes CLOSING or is released. -/
theorem PoolOk.leave {x y : StreamState} {P : Nat → Nat} {T : List Nat} (h : PoolOk x P T) (i : Nat) (b c : Buf)
    (ho : x.bufs[i]? = some b) (hm : x.mode = .buffer i) (hy : y.bufs = x.bufs.set i c)
    (hq : y.ready = x.ready) (hym : y.mode = .none) (hr : y.readers = x.readers) (hk : y.lock = x.lock)
    (hc : y.current = x.current) (hs : y.lastSeq = x.lastSeq)
    (hcc : c = Buf.fresh b.base ∨ (c.state = .closing ∨ c.state = .releasing) ∧ c.seq = b.seq ∧ c.readers = b.readers ∧
      c.pins = b.pins ∧ c.hold = false) (hz : c = Buf.fresh b.base → b.pins = 0) : PoolOk y P T := by
  have o := h.each i b ho
  have hb := o.filling.2 hm
  have hcount : ∀ j, boundTo y j = boundTo x j := fun j => by unfold boundTo; rw [hr]
  have hnot : i ∉ T := h.not_target i b ho (by rw [hb]; simp)
  have hcr : c.state ≠ .ready := by
    rcases hcc with e | ⟨e | e, _⟩
    · rw [e]; simp [Buf.fresh]
    · rw [e]; simp
    · rw [e]; simp
  have hqd := h.queue_drop (y := y) ho hy hcr (by rw [hq, h.filter_ready ho (by rw [hb]; simp)])
  have hsh := o.unread (by rw [hb]; simp)
  refine h.edit ⟨ho, hy, ?_, fun j _ => hcount j, by rw [hr]; exact h.bound, hk, hc, ?_, by rw [hs]; exact BitVec.le_refl _,
    fun _ _ => rfl, ⟨h.targets.1, fun _ e _ => e⟩, hqd.1, hqd.2, ?_, ?_⟩
  · rcases hcc with e | ⟨e, e1, e2, e3, e4⟩
    · rw [e]; exact BufOk.fresh _ (by rw [hcount, hsh]) (by rw [hym]; simp) (by rw [← o.pins]; exact hz e) hnot
    · have h0 : c.readers = 0 := by rw [e2, o.readers, hsh]
      refine ⟨fun f => ?_, by rw [h0, hcount, hsh], ⟨fun f => ?_, fun f => absurd h0 f⟩, fun f => ?_, fun f => ?_,
        ⟨fun f => ?_, fun f => ?_⟩, fun _ => ?_, by rw [e3]; exact o.pins, fun f => absurd f hnot⟩
      · rcases e with e | e <;> rw [e] at f <;> cases f
      · rcases e with e | e <;> rw [e] at f <;> cases f
      · rw [e4] at f; cases f
      · rcases e with e | e <;> rw [e] at f <;> cases f
      · rcases e with e | e <;> rw [e] at f <;> cases f
      · rw [hym] at f; cases f
      · rw [e1, hs]; exact o.number (by rw [hb]; simp)
  · intro j hj; rw [hym, hm]
    exact ⟨fun e => (by cases e), fun e => absurd (by injection e with e; exact e.symm) hj⟩
  · rcases hcc with e | ⟨_, _, _, _, e4⟩
    · rw [e]; intro f; cases f
    · rw [e4]; intro f; cases f
  · intro f
    rcases hcc with e | ⟨_, e1, _⟩
    · rw [e] at f; exact absurd rfl f
    · exact .inl ⟨e1, by rw [hb]; simp⟩

theorem PoolOk.closeBuffer {x : StreamState} {P : Nat → Nat} {T : List Nat} (h : PoolOk x P T) (i : Nat)
    (c : Decode.CloseRecord) (now : Micros) (early : Bool) (hm : x.mode = .buffer i) :
    PoolOk (x.closeBuffer i c now early) P T ∧ SlotSame x (x.closeBuffer i c now early) := by
  obtain ⟨b, ho⟩ : ∃ b, x.bufs[i]? = some b := ⟨_, List.getElem?_eq_getElem (h.current i hm)⟩
  have hb := (h.each i b ho).filling.2 hm
  unfold StreamState.closeBuffer
  rw [StreamState.onBuf_at _ _ _ _ ho]
  refine ⟨h.leave i b _ ho hm rfl rfl rfl rfl rfl rfl rfl (.inr ⟨.inl rfl, rfl, rfl, rfl, ?_⟩) ?_,
    ⟨rfl, rfl, rfl, rfl, rfl, ?_, .inr rfl, ?_⟩⟩
  · show b.hold = false
    by_contra hc
    have := ((h.each i b ho).hold (by simpa using hc)).1
    rw [hb] at this; simp at this
  · intro e; have : BufState.closing = BufState.free := congrArg Buf.state e; cases this
  · exact bases_set _ _ _ _ ho rfl
  · intro hall; have := hall b (List.mem_of_getElem? ho); rw [hb] at this; cases this

theorem PoolOk.captureTeardown {x : StreamState} {P : Nat → Nat} {T : List Nat} (h : PoolOk x P T) :
    PoolOk x.captureTeardown P T ∧ SlotSame x x.captureTeardown ∧ x.captureTeardown.mode = .none := by
  unfold StreamState.captureTeardown
  cases hm : x.mode with
  | buffer i =>
    dsimp only
    obtain ⟨b, ho⟩ : ∃ b, x.bufs[i]? = some b := ⟨_, List.getElem?_eq_getElem (h.current i hm)⟩
    have hb := (h.each i b ho).filling.2 hm
    have hr : x.release i = releasedAt x i b := StreamState.release_at x i b ho (by rw [hb]; simp) (by rw [hb]; simp)
    rw [hr]; unfold releasedAt
    refine ⟨h.leave i b (releasedBuf b) ho hm rfl ?_ rfl rfl rfl rfl rfl ?_ ?_, ⟨rfl, rfl, rfl, rfl, rfl, ?_, .inr rfl, ?_⟩, rfl⟩
    · exact h.filter_ready ho (by rw [hb]; simp)
    · unfold releasedBuf; split
      · exact .inl rfl
      · exact .inr ⟨.inr rfl, rfl, rfl, rfl, rfl⟩
    · unfold releasedBuf; split
      · rename_i e; exact fun _ => e.2
      · intro e; have : BufState.releasing = BufState.free := congrArg Buf.state e; cases this
    · exact bases_set _ _ _ _ ho (by unfold releasedBuf; split <;> rfl)
    · intro hall; have := hall b (List.mem_of_getElem? ho); rw [hb] at this; cases this
  | none => exact ⟨h.same rfl rfl (fun _ => rfl) h.bound hm.symm (BitVec.le_refl _) (.inr ⟨rfl, rfl⟩),
      ⟨rfl, rfl, rfl, rfl, rfl, rfl, .inr rfl, id⟩, rfl⟩
  | sink =>
    refine ⟨⟨fun i b hb => ?_, h.queue, h.rising, h.oneHold, h.distinct, h.bound, fun i e => (by cases e), h.pinned, h.targets⟩,
      ⟨rfl, rfl, rfl, rfl, rfl, rfl, .inr rfl, id⟩, rfl⟩
    have o := h.each i b hb
    refine ⟨o.free, o.readers, o.shown, o.hold, o.kept, ⟨fun e => ?_, fun e => (by cases e)⟩, o.number, o.pins, o.target⟩
    have := o.filling.1 e; rw [hm] at this; cases this

/-! ### Hold mark and lock (R22, R23, R105 to R110) -/

/-- Records of frames under judgement or repair stay as they are. -/
def Spares (x y : StreamState) : Prop :=
  ∀ (i : Nat) (b : Buf), x.bufs[i]? = some b → (b.state = .closing ∨ b.state = .repairing) → y.bufs[i]? = some b

theorem Spares.refl {x : StreamState} : Spares x x := fun _ _ h _ => h

theorem Spares.trans {x y z : StreamState} (a : Spares x y) (b : Spares y z) : Spares x z :=
  fun i c hi hc => b i c (a i c hi hc) hc

theorem PoolOk.placeHold {x : StreamState} {P : Nat → Nat} {T : List Nat} (h : PoolOk x P T)
    (hn : ∀ b ∈ x.bufs, b.hold = false) (hl : x.lock = .freerun) (hu : Decode.unlock x.desc = some .hold) :
    PoolOk x.placeHold P T ∧ SlotSame x x.placeHold ∧ Spares x x.placeHold := by
  unfold StreamState.placeHold
  split
  · rename_i i hi
    obtain ⟨b, ho, hb⟩ := (x.mem_indices _ i).1 (highest_mem _ _ _ hi).1
    have hb : b.state = .shown ∨ b.state = .ready := by simpa using hb
    have o := h.each i b ho
    rw [StreamState.onBuf_at (x.dequeue i) i b _ ho]
    have hre : b.state ≠ .repairing := by rcases hb with e | e <;> rw [e] <;> simp
    have sp : Spares x { x with bufs := x.bufs.set i (if b.state = .ready then { b with state := .kept, hold := true } else { b with hold := true }), ready := x.ready.filter (· != i) } := by
      intro j c hj hc
      show (x.bufs.set i _)[j]? = _
      rw [getElem_set_of _ _ _ _ _ ho, if_neg, hj]
      rintro rfl; rw [ho] at hj; cases hj
      rcases hb with e | e <;> rw [e] at hc <;> simp at hc
    suffices hh : PoolOk _ P T ∧ SlotSame x _ from ⟨hh.1, hh.2, sp⟩
    refine h.put ho _ _ ?_ ?_ ?_ (fun _ _ => rfl) ⟨h.targets.1, fun _ e _ => e⟩ (.inl ⟨?_, rfl⟩) (fun _ => .inr hn) ?_
    · split
      · rename_i e
        have hr := o.unread (by rw [e]; simp)
        refine ⟨fun f => (by cases f), o.readers, ⟨fun f => (by cases f), fun f => ?_⟩, fun _ => ⟨.inr rfl, hl, hu⟩, fun _ => rfl,
          ⟨fun f => (by cases f), fun f => ?_⟩, fun _ => o.number (by rw [e]; simp), o.pins, fun f => absurd f (h.not_target i b ho hre)⟩
        · exact absurd (o.readers.trans hr) f
        · have := o.filling.2 f; rw [e] at this; cases this
      · rename_i e
        have hs : b.state = .shown := hb.resolve_right e
        exact ⟨fun f => (by rw [hs] at f; cases f), o.readers, o.shown, fun _ => ⟨.inl hs, hl, hu⟩, fun _ => rfl, o.filling, o.number, o.pins, o.target⟩
    · split <;> rfl
    · intro e; rw [e] at hb; simp at hb
    · split
      · simp
      · rename_i e; exact e
    · intro _; split <;> rfl
  · exact ⟨h, .refl, .refl⟩

theorem clearHold_congr (x z : StreamState) (hb : z.bufs = x.bufs) (hq : z.ready = x.ready) :
    z.clearHold.bufs = x.clearHold.bufs ∧ z.clearHold.ready = x.clearHold.ready := by
  unfold StreamState.clearHold StreamState.marked StreamState.stateOf StreamState.onBuf StreamState.release
    StreamState.dequeue StreamState.onBuf
  dsimp only
  rw [hb, hq]
  split
  · split <;> exact ⟨rfl, rfl⟩
  · exact ⟨hb, hq⟩

theorem PoolOk.clearHold {x : StreamState} {P : Nat → Nat} {T : List Nat} (h : PoolOk x P T) :
    PoolOk x.clearHold P T ∧ SlotSame x x.clearHold ∧ Spares x x.clearHold ∧ ∀ b ∈ x.clearHold.bufs, b.hold = false := by
  unfold StreamState.clearHold
  split
  · rename_i i hi
    unfold StreamState.marked at hi
    obtain ⟨hlt, hp, _⟩ := List.findIdx?_eq_some_iff_getElem.1 hi
    have ho : x.bufs[i]? = some x.bufs[i] := List.getElem?_eq_getElem hlt
    generalize x.bufs[i] = b at ho hp
    have o := h.each i b ho
    have hst := (o.hold hp).1
    have sp : ∀ j c, x.bufs[j]? = some c → (c.state = .closing ∨ c.state = .repairing) → j ≠ i := by
      rintro j c hj hc rfl
      rw [ho] at hj; cases hj
      rcases hst with e | e <;> rw [e] at hc <;> simp at hc
    have others : ∀ j c, j ≠ i → x.bufs[j]? = some c → c.hold = false := by
      intro j c hj hc; by_contra hx
      exact hj (h.oneHold j i c b hc ho (by simpa using hx) hp)
    dsimp only
    rw [StreamState.stateOf_at x i b ho]
    split
    · rename_i hk
      have hk : b.state = .kept := by simpa using hk
      have hrel : (x.onBuf i (fun b => { b with hold := false })).release i = releasedAt x i b := by
        rw [StreamState.onBuf_at _ _ _ _ ho]
        rw [StreamState.release_at _ i { b with hold := false } (getElem_set_at _ _ _ _ ho) (by simp [hk]) (by simp [hk])]
        unfold releasedAt releasedBuf; simp
      have hrel2 : x.release i = releasedAt x i b := StreamState.release_at x i b ho (by rw [hk]; simp) (by rw [hk]; simp)
      obtain ⟨h1, h2⟩ := h.release (U := T) i (fun c hc => by rw [ho] at hc; cases hc; rw [hk]; simp)
        ⟨h.targets.1, fun j hj => ⟨hj, fun e => h.not_target i b ho (by rw [hk]; simp) (e ▸ hj)⟩⟩
      rw [hrel, ← hrel2]
      refine ⟨h1, h2, fun j c hj hc => ?_, ?_⟩
      · rw [StreamState.release_getElem, if_neg (fun e => sp j c hj hc e.symm), hj]
      · intro c hc
        obtain ⟨j, hj⟩ := List.mem_iff_getElem?.1 hc
        rw [hrel2] at hj
        change (x.bufs.set i (releasedBuf b))[j]? = _ at hj
        rw [getElem_set_of _ _ _ _ _ ho] at hj
        split at hj
        · cases hj; unfold releasedBuf; split <;> rfl
        · rename_i e; exact others j c e hj
    · rename_i hk
      have hs : b.state = .shown := hst.resolve_right (fun e => hk (by rw [e]))
      rw [StreamState.onBuf_at _ _ _ _ ho]
      have := h.put (Q := P) (U := T) ho { b with hold := false } x.ready
        ⟨fun e => (by rw [show b.state = _ from hs] at e; cases e), o.readers, o.shown, fun e => (by cases e),
          fun e => (by rw [show b.state = _ from hs] at e; cases e), o.filling, o.number, o.pins, o.target⟩
        rfl (fun e => e) (fun _ _ => rfl) ⟨h.targets.1, fun _ e _ => e⟩ (.inr (.inl ⟨rfl, rfl, rfl⟩)) (fun e => (by cases e)) (fun _ => rfl)
      refine ⟨this.1, this.2, fun j c hj hc => ?_, ?_⟩
      · show (x.bufs.set i _)[j]? = _
        rw [getElem_set_of _ _ _ _ _ ho, if_neg (sp j c hj hc), hj]
      · intro c hc
        obtain ⟨j, hj⟩ := List.mem_iff_getElem?.1 hc
        change (x.bufs.set i _)[j]? = _ at hj
        rw [getElem_set_of _ _ _ _ _ ho] at hj
        split at hj
        · cases hj; rfl
        · rename_i e; exact others j c e hj
  · rename_i hi
    refine ⟨h, .refl, .refl, fun b hb => ?_⟩
    unfold StreamState.marked at hi
    have := List.findIdx?_eq_none_iff.1 hi b hb
    simpa using this

/-- What a change in which the lock state may move leaves. -/
def LockMove (x y : StreamState) (P : Nat → Nat) (T : List Nat) : Prop := PoolOk y P T ∧ SlotSame x y ∧ Spares x y

/-- A change of lock and counters in a slot without a mark. -/
theorem PoolOk.unmarked {x y : StreamState} {P : Nat → Nat} {T : List Nat} (h : PoolOk x P T)
    (hn : ∀ b ∈ x.bufs, b.hold = false) (hb : y.bufs = x.bufs) (hq : y.ready = x.ready) (hr : y.readers = x.readers)
    (hm : y.mode = x.mode) (hs : y.lastSeq = x.lastSeq) : PoolOk y P T :=
  h.same hb hq (fun _ => by unfold boundTo; rw [hr]) (by rw [hr]; exact h.bound) hm (by rw [hs]; exact BitVec.le_refl _) (.inl hn)

theorem PoolOk.no_mark {x : StreamState} {P : Nat → Nat} {T : List Nat} (h : PoolOk x P T)
    (hl : x.lock ≠ .freerun ∨ Decode.unlock x.desc ≠ some .hold) : ∀ b ∈ x.bufs, b.hold = false := by
  intro b hb
  obtain ⟨i, hi⟩ := List.mem_iff_getElem?.1 hb
  by_contra hc
  have := (h.each i b hi).hold (by simpa using hc)
  exact hl.elim (fun e => e this.2.1) (fun e => e this.2.2)

theorem PoolOk.loseLock {x : StreamState} {P : Nat → Nat} {T : List Nat} (h : PoolOk x P T) (hl : x.lock ≠ .freerun) :
    LockMove x x.loseLock P T := by
  have hn := h.no_mark (.inl hl)
  set z := { x with lock := .freerun, loss := 0 }.raise .lockLost with hz
  have hh : x.loseLock = if Decode.unlock x.desc = some .hold then z.placeHold else z := rfl
  have h1 : PoolOk z P T := h.unmarked hn rfl rfl rfl rfl rfl
  have s1 : SlotSame x z := ⟨rfl, rfl, rfl, rfl, rfl, rfl, .inl rfl, id⟩
  rw [hh]; split
  · rename_i hu
    obtain ⟨h2, s2, p2⟩ := h1.placeHold hn rfl hu
    exact ⟨h2, s1.trans s2, p2⟩
  · exact ⟨h1, s1, .refl⟩

theorem PoolOk.clears {x z : StreamState} {P : Nat → Nat} {T : List Nat} (h : PoolOk x P T) (hb : z.bufs = x.bufs)
    (hq : z.ready = x.ready) (hr : z.readers = x.readers) (hm : z.mode = x.mode) (hs : z.lastSeq = x.lastSeq)
    (same : SlotSame x z) (hc : z.current = x.current) :
    LockMove x (if Decode.unlock z.desc = some .hold then z.clearHold else z) P T ∧
      ∀ b ∈ (if Decode.unlock z.desc = some .hold then z.clearHold else z).bufs, b.hold = false := by
  split
  · obtain ⟨h1, s1, p1, n1⟩ := h.clearHold
    obtain ⟨e1, e2⟩ := clearHold_congr x z hb hq
    refine ⟨⟨?_, ?_, ?_⟩, ?_⟩
    · refine h1.unmarked n1 e1 e2 ?_ ?_ ?_
      · rw [StreamState.clearHold_readers, StreamState.clearHold_readers, hr]
      · rw [StreamState.clearHold_mode, StreamState.clearHold_mode, hm]
      · rw [StreamState.clearHold_lastSeq, StreamState.clearHold_lastSeq, hs]
    · refine ⟨?_, ?_, ?_, ?_, ?_, ?_, ?_, ?_⟩
      · rw [StreamState.clearHold_current]; exact same.current
      · rw [StreamState.clearHold_life]; exact same.life
      · rw [StreamState.clearHold_drainTaken]; exact same.taken
      · rw [StreamState.clearHold_poolQuiet]; exact same.quiet
      · rw [StreamState.clearHold_readers]; exact same.entries
      · rw [e1]; exact s1.bases
      · rw [StreamState.clearHold_mode]; exact same.mode
      · intro hf; have := s1.free hf; unfold AllFree at *; rw [e1]; exact this
    · intro i b hi hst; rw [e1]; exact p1 i b hi hst
    · rw [e1]; exact n1
  · rename_i hu
    have hn := h.no_mark (.inr (by rw [desc_of_current hc] at hu; exact hu))
    exact ⟨⟨h.unmarked hn hb hq hr hm hs, same, fun i b hi _ => by rw [hb]; exact hi⟩, by rw [hb]; exact hn⟩

theorem PoolOk.lockInput {x : StreamState} {P : Nat → Nat} {T : List Nat} (h : PoolOk x P T) (i : LockInput) :
    LockMove x (x.lockInput i) P T := by
  have id' : LockMove x x P T := ⟨h, .refl, .refl⟩
  have lockless : ∀ y : StreamState, x.lock ≠ .freerun → y.bufs = x.bufs → y.ready = x.ready → y.readers = x.readers →
      y.mode = x.mode → y.lastSeq = x.lastSeq → SlotSame x y → LockMove x y P T := fun y hl hb hq hr hm hs s =>
    ⟨h.unmarked (h.no_mark (.inl hl)) hb hq hr hm hs, s, fun i b hi _ => by rw [hb]; exact hi⟩
  have other : ∀ y : StreamState, y.lock = x.lock → y.bufs = x.bufs → y.ready = x.ready → y.readers = x.readers →
      y.mode = x.mode → y.lastSeq = x.lastSeq → SlotSame x y → LockMove x y P T := fun y hl hb hq hr hm hs s =>
    ⟨h.same hb hq (fun _ => by unfold boundTo; rw [hr]) (by rw [hr]; exact h.bound) hm (by rw [hs]; exact BitVec.le_refl _)
      (.inr ⟨hl, s.current⟩), s, fun i b hi _ => by rw [hb]; exact hi⟩
  unfold StreamState.lockInput
  cases hl : x.lock with
  | down => exact id'
  | search =>
    cases i with
    | neutral => exact id'
    | good =>
      dsimp only; split
      · exact lockless _ (by rw [hl]; simp) rfl rfl rfl rfl rfl ⟨rfl, rfl, rfl, rfl, rfl, rfl, .inl rfl, id⟩
      · exact other _ hl.symm rfl rfl rfl rfl rfl ⟨rfl, rfl, rfl, rfl, rfl, rfl, .inl rfl, id⟩
    | fault => exact other _ hl.symm rfl rfl rfl rfl rfl ⟨rfl, rfl, rfl, rfl, rfl, rfl, .inl rfl, id⟩
  | locked =>
    cases i with
    | neutral => exact id'
    | good => exact id'
    | fault =>
      dsimp only; split
      · exact h.loseLock (by rw [hl]; simp)
      · exact lockless _ (by rw [hl]; simp) rfl rfl rfl rfl rfl ⟨rfl, rfl, rfl, rfl, rfl, rfl, .inl rfl, id⟩
  | coast =>
    cases i with
    | neutral => exact id'
    | good => exact lockless _ (by rw [hl]; simp) rfl rfl rfl rfl rfl ⟨rfl, rfl, rfl, rfl, rfl, rfl, .inl rfl, id⟩
    | fault =>
      dsimp only; split
      · exact h.loseLock (by rw [hl]; simp)
      · exact other _ hl.symm rfl rfl rfl rfl rfl ⟨rfl, rfl, rfl, rfl, rfl, rfl, .inl rfl, id⟩
  | freerun =>
    cases i with
    | neutral => exact id'
    | good =>
      dsimp only; split
      · exact (h.clears (z := x.gainLock) rfl rfl rfl rfl rfl ⟨rfl, rfl, rfl, rfl, rfl, rfl, .inl rfl, id⟩ rfl).1
      · exact other _ hl.symm rfl rfl rfl rfl rfl ⟨rfl, rfl, rfl, rfl, rfl, rfl, .inl rfl, id⟩
    | fault => exact other _ hl.symm rfl rfl rfl rfl rfl ⟨rfl, rfl, rfl, rfl, rfl, rfl, .inl rfl, id⟩

/-! ### Releases of several buffers (R15, R16, R24) -/

/-- A change of what the pool does not look at. -/
theorem PoolOk.aside {x y : StreamState} {P : Nat → Nat} {T : List Nat} (h : PoolOk x P T) (hb : y.bufs = x.bufs)
    (hq : y.ready = x.ready) (hr : y.readers = x.readers) (hm : y.mode = x.mode) (hs : y.lastSeq = x.lastSeq)
    (hl : y.lock = x.lock) (hc : y.current = x.current) : PoolOk y P T :=
  h.same hb hq (fun _ => by unfold boundTo; rw [hr]) (by rw [hr]; exact h.bound) hm (by rw [hs]; exact BitVec.le_refl _)
    (.inr ⟨hl, hc⟩)

theorem PoolOk.releases {P : Nat → Nat} {T : List Nat} (l : List Nat) {x : StreamState} (h : PoolOk x P T)
    (hs : ∀ i ∈ l, ∀ b, x.bufs[i]? = some b → b.state ≠ .shown ∧ b.state ≠ .filling ∧ b.state ≠ .repairing) :
    PoolOk (l.foldl StreamState.release x) P T ∧ SlotSame x (l.foldl StreamState.release x) := by
  induction l generalizing x with
  | nil => exact ⟨h, .refl⟩
  | cons a l ih =>
    have hn : ∀ j ∈ T, j ≠ a := by
      rintro j hj rfl
      obtain ⟨b, hb⟩ : ∃ b, x.bufs[j]? = some b := ⟨_, List.getElem?_eq_getElem (h.targets.2 j hj)⟩
      exact (hs j (by simp) b hb).2.2 ((h.each j b hb).target hj)
    obtain ⟨h1, s1⟩ := h.release (U := T) a (fun b hb => ⟨(hs a (by simp) b hb).1, (hs a (by simp) b hb).2.1⟩)
      ⟨h.targets.1, fun j hj => ⟨hj, hn j hj⟩⟩
    obtain ⟨h2, s2⟩ := ih h1 (fun i hi b hb => by
      rw [StreamState.release_getElem] at hb
      split at hb
      · rename_i e; subst e
        obtain ⟨c, hc, rfl⟩ := Option.map_eq_some_iff.1 hb
        have := hs a (by simp) c hc
        unfold Buf.release; split
        · exact this
        · split <;> simp [Buf.cleared, Buf.fresh]
      · exact hs i (List.mem_cons_of_mem _ hi) b hb)
    exact ⟨h2, s1.trans s2⟩

theorem PoolOk.releasesSkipped {P : Nat → Nat} {T : List Nat} (l : List Nat) {x : StreamState} (h : PoolOk x P T)
    (hs : ∀ i ∈ l, ∀ b, x.bufs[i]? = some b → b.state ≠ .shown ∧ b.state ≠ .filling ∧ b.state ≠ .repairing) :
    PoolOk (l.foldl StreamState.releaseSkipped x) P T ∧ SlotSame x (l.foldl StreamState.releaseSkipped x) := by
  rw [StreamState.foldl_releaseSkipped_spec]
  obtain ⟨h1, s1⟩ := h.releases l hs
  exact ⟨h1.aside rfl rfl rfl rfl rfl rfl rfl, s1.trans ⟨rfl, rfl, rfl, rfl, rfl, rfl, .inl rfl, id⟩⟩

theorem PoolOk.trim {x : StreamState} {P : Nat → Nat} {T : List Nat} (h : PoolOk x P T) :
    PoolOk x.trim P T ∧ SlotSame x x.trim := by
  unfold StreamState.trim; split
  · refine h.releasesSkipped _ (fun i hi b hb => ?_)
    obtain ⟨c, hc, hr⟩ := (x.mem_indices _ i).1 (List.mem_of_mem_filter hi)
    rw [hb] at hc; cases hc
    have hr : b.state = .ready := by simpa using hr
    rw [hr]; simp
  · exact ⟨h, .refl⟩

theorem PoolOk.skip {x : StreamState} {P : Nat → Nat} {T : List Nat} (h : PoolOk x P T) (n : BitVec 32) :
    PoolOk (x.skip n) P T ∧ SlotSame x (x.skip n) := by
  unfold StreamState.skip
  refine h.releasesSkipped _ (fun i hi b hb => ?_)
  obtain ⟨c, hc, hr⟩ := (x.mem_indices _ i).1 hi
  rw [hb] at hc; cases hc
  have hr : b.state = .ready := by simp only [Bool.and_eq_true, beq_iff_eq] at hr; exact hr.1
  rw [hr]; simp

theorem PoolOk.poolTeardown {x : StreamState} {P : Nat → Nat} {T : List Nat} (h : PoolOk x P T) :
    PoolOk x.poolTeardown P T ∧ SlotSame x x.poolTeardown := by
  unfold StreamState.poolTeardown
  refine h.releases _ (fun i hi b hb => ?_)
  obtain ⟨c, hc, hr⟩ := (x.mem_indices _ i).1 hi
  rw [hb] at hc; cases hc
  simp only [Bool.or_eq_true, beq_iff_eq] at hr
  rcases hr with hr | hr <;> rw [hr] <;> simp

/-! ### Final verdicts (R12 to R19) -/

theorem PoolOk.countVerdict {x : StreamState} {P : Nat → Nat} {T : List Nat} (h : PoolOk x P T) (e : VerdictEntry) (v : Verdict) :
    LockMove x ((x.report e).countVerdict v) P T := by
  unfold LockMove
  cases v <;> exact ⟨h.aside rfl rfl rfl rfl rfl rfl rfl, ⟨rfl, rfl, rfl, rfl, rfl, rfl, .inl rfl, id⟩, fun _ _ e _ => e⟩

theorem PoolOk.handOn {x : StreamState} {P : Nat → Nat} {T : List Nat} (h : PoolOk x P T) (v : Verdict) (b : Buf) :
    LockMove x (x.handOn v b) P T := by
  unfold StreamState.handOn
  obtain ⟨h1, s1, p1⟩ := h.lockInput (v.lockInput b.early)
  generalize StreamState.lockInput x _ = y at h1 s1 p1 ⊢
  obtain ⟨h2, s2, p2⟩ := h1.countVerdict { verdict := v, seq := b.seq, producerSeq := b.close.producerSeq, missing := x.missing b } v
  exact ⟨h2, s1.trans s2, p1.trans p2⟩

/-- A frame under judgement or repair is in neither of the states an entry or the Capture Unit uses. -/
theorem judged_ne {b : Buf} (h : b.state = .closing ∨ b.state = .repairing) :
    b.state ≠ .shown ∧ b.state ≠ .filling ∧ b.state ≠ .ready ∧ b.state ≠ .free ∧ b.state ≠ .kept := by
  rcases h with e | e <;> rw [e] <;> simp

theorem PoolOk.finishBad {x : StreamState} {P : Nat → Nat} {T U : List Nat} (h : PoolOk x P T) (v : Verdict) (i : Nat) (b : Buf)
    (ho : x.bufs[i]? = some b) (hb : b.state = .closing ∨ b.state = .repairing) (hU : U.Nodup ∧ ∀ j ∈ U, j ∈ T ∧ j ≠ i) :
    PoolOk (x.finishBad v i b) P U ∧ SlotSame x (x.finishBad v i b) := by
  obtain ⟨h1, s1, p1⟩ := h.handOn v b
  have ho1 := p1 i b ho hb
  obtain ⟨h2, s2⟩ := h1.release (U := U) i (fun c hc => by
    rw [ho1] at hc; cases hc; exact ⟨(judged_ne hb).1, (judged_ne hb).2.1⟩) hU
  exact ⟨h2, s1.trans s2⟩

theorem PoolOk.join {x : StreamState} {P : Nat → Nat} {T U : List Nat} (h : PoolOk x P T) (i : Nat) (b : Buf)
    (ho : x.bufs[i]? = some b) (hb : b.state = .closing ∨ b.state = .repairing) (hU : U.Nodup ∧ ∀ j ∈ U, j ∈ T ∧ j ≠ i) :
    PoolOk (x.join i) P U ∧ SlotSame x (x.join i) := by
  obtain ⟨n1, n2, n3, n4, n5⟩ := judged_ne hb
  have o := h.each i b ho
  have hold : b.hold = false := by
    by_contra hc
    exact ((o.hold (by simpa using hc)).1).elim n1 n5
  unfold StreamState.join; split
  · obtain ⟨h1, s1⟩ := h.release (U := U) i (fun c hc => by rw [ho] at hc; cases hc; exact ⟨n1, n2⟩) hU
    exact ⟨h1.aside rfl rfl rfl rfl rfl rfl rfl, s1.trans ⟨rfl, rfl, rfl, rfl, rfl, rfl, .inl rfl, id⟩⟩
  · dsimp only
    rw [StreamState.onBuf_at _ _ _ _ ho]
    have out : i ∉ x.ready := by
      intro e; obtain ⟨c, hc, hr⟩ := (h.queue i).1 e
      rw [ho] at hc; cases hc; exact n3 hr
    have key : ∀ j, StreamState.seqOf { x with bufs := x.bufs.set i { b with state := .ready } } j = x.seqOf j := by
      intro j; by_cases hj : j = i
      · subst hj; unfold StreamState.seqOf
        show (match (x.bufs.set j _)[j]? with | some b => b.seq.toNat | none => 0) = _
        rw [getElem_set_of _ _ _ _ _ ho, if_pos rfl, ho]
      · exact seqOf_edit x _ i j b _ ho rfl hj
    have hne : ∀ j ∈ x.ready, x.seqOf j ≠ x.seqOf i := by
      intro j hj e
      obtain ⟨c, hc, hr⟩ := (h.queue j).1 hj
      rw [StreamState.seqOf_at _ _ _ hc, StreamState.seqOf_at _ _ _ ho] at e
      have := h.distinct j i c b hc ho (by rw [hr]; simp) n4 (BitVec.eq_of_toNat_eq e)
      exact out (this ▸ hj)
    obtain ⟨older, younger, e1, e2, e3, e4⟩ := insertBySeq_spec x.seqOf i x.ready h.rising hne
    have hput := h.put (Q := P) (U := U) ho { b with state := .ready } (insertBySeq x.seqOf i x.ready)
      ⟨fun f => (by cases f), o.readers, ⟨fun f => (by cases f), fun f => absurd (o.shown.2 f) n1⟩,
        fun f => absurd (hold.symm.trans f) (by simp), fun f => (by cases f), ⟨fun f => (by cases f), fun f => absurd (o.filling.2 f) n2⟩,
        fun _ => o.number n4, o.pins, fun f => absurd rfl (hU.2 i f).2⟩
      rfl (fun e => absurd e n4) (fun _ _ => rfl) ⟨hU.1, fun j hj _ => (hU.2 j hj).1⟩
      (.inr (.inr ⟨?_, ?_⟩)) (fun e => .inl e) (fun _ => rfl)
    · obtain ⟨h1, s1⟩ := hput
      split
      · obtain ⟨h2, s2⟩ := h1.trim
        exact ⟨h2, s1.trans s2⟩
      · exact ⟨h1, s1⟩
    · intro j; rw [e2]
      simp only [List.mem_append, List.mem_cons]
      constructor
      · rintro (hj | rfl | hj)
        · exact .inr ⟨fun e => out (by rw [e1]; subst e; simp [hj]), by rw [e1]; simp [hj]⟩
        · exact .inl ⟨rfl, trivial⟩
        · exact .inr ⟨fun e => out (by rw [e1]; subst e; simp [hj]), by rw [e1]; simp [hj]⟩
      · rintro (⟨rfl, _⟩ | ⟨_, hj⟩)
        · simp
        · rw [e1] at hj; simp only [List.mem_append] at hj; tauto
    · have rise := h.rising
      rw [e2]; rw [e1] at rise
      simp only [key]
      rw [List.pairwise_append] at rise ⊢
      refine ⟨rise.1, List.pairwise_cons.2 ⟨e4, rise.2.1⟩, fun a ha c hc => ?_⟩
      rcases List.mem_cons.1 hc with rfl | hc
      · exact e3 a ha
      · exact rise.2.2 a ha c hc

theorem PoolOk.finishGood {x : StreamState} {P : Nat → Nat} {T U : List Nat} (h : PoolOk x P T) (v : Verdict) (i : Nat) (b : Buf)
    (ho : x.bufs[i]? = some b) (hb : b.state = .closing ∨ b.state = .repairing) (hU : U.Nodup ∧ ∀ j ∈ U, j ∈ T ∧ j ≠ i) :
    PoolOk (x.finishGood v i b) P U ∧ SlotSame x (x.finishGood v i b) := by
  obtain ⟨h1, s1, p1⟩ := h.handOn v b
  have ho1 := p1 i b ho hb
  obtain ⟨h2, s2⟩ := h1.touch i (fun b => { b with verdict := v }) (fun c hc => by
    rw [ho1] at hc; cases hc
    exact ⟨rfl, rfl, rfl, rfl, rfl, rfl, fun e => absurd e (judged_ne hb).2.2.2.1⟩)
  obtain ⟨h3, s3⟩ := h2.join (U := U) i { b with verdict := v }
    (by rw [StreamState.onBuf_at _ _ _ _ ho1]; exact getElem_set_at _ _ _ _ ho1) hb hU
  exact ⟨h3, s1.trans (s2.trans s3)⟩

/-! ### Reader entries: bind, unbind, claim, expiry, teardown (R20, R21, R74, R91, R93) -/

/-- How many entries of a list are bound to buffer i. -/
def boundIn (L : List Reader) (i : Nat) : Nat := L.countP (fun r => r.state == .bound i)

theorem boundIn_cons (r : Reader) (L : List Reader) (i : Nat) :
    boundIn (r :: L) i = boundIn L i + if r.state = .bound i then 1 else 0 := by
  unfold boundIn; rw [List.countP_cons]
  by_cases h : r.state = .bound i <;> simp [h]

/-- A bind of a READY, SHOWN or KEPT buffer, with one entry more bound to it. -/
theorem PoolOk.bind {x : StreamState} {P : Nat → Nat} {T : List Nat} (L : List Reader) (h : PoolOk x P T) (i : Nat) (b : Buf)
    (ho : x.bufs[i]? = some b) (hb : b.state = .ready ∨ b.state = .shown ∨ b.state = .kept)
    (hL : ∀ j, boundIn L j = boundTo x j + if j = i then 1 else 0) :
    PoolOk { x.bind i with readers := L } P T ∧ SlotSame x (x.bind i) := by
  have o := h.each i b ho
  have hf : b.state ≠ .free ∧ b.state ≠ .repairing ∧ b.state ≠ .filling := by rcases hb with e | e | e <;> rw [e] <;> simp
  have hi : i < x.bufs.length := (List.getElem?_eq_some_iff.1 ho).1
  -- the record with one reader more
  have edit : ∀ (c : Buf) (R : List Nat), c.state = .shown → c.seq = b.seq → c.pins = b.pins → c.hold = b.hold → c.base = b.base →
      c.readers = boundTo x i + 1 → R = x.ready.filter (· != i) →
      PoolOk { x with bufs := x.bufs.set i c, ready := R, readers := L } P T ∧
        SlotSame x { x with bufs := x.bufs.set i c, ready := R } := by
    intro c R c1 c2 c3 c4 c5 c6 hR
    have hbound : ∀ r ∈ L, ∀ j, r.state = .bound j → j < x.bufs.length := by
      intro r hr j hj
      by_contra hc
      have h1 : boundIn L j ≠ 0 := by
        unfold boundIn; rw [Ne, List.countP_eq_zero]; push Not
        exact ⟨r, hr, by simp [hj]⟩
      have h2 : boundTo x j = 0 := by
        unfold boundTo; rw [List.countP_eq_zero]
        intro q hq e; exact hc (h.bound q hq j (by simpa using e))
      rw [hL, h2] at h1
      have : j = i := by by_contra e; rw [if_neg e] at h1; exact h1 rfl
      exact hc (this ▸ hi)
    have hqd := h.queue_drop (y := { x with bufs := x.bufs.set i c, ready := R, readers := L }) ho rfl (by rw [c1]; simp) hR
    refine ⟨h.edit ⟨ho, rfl, ⟨fun e => ?_, ?_, ?_, fun e => ?_, fun e => ?_, ⟨fun e => ?_, fun e => ?_⟩, fun _ => ?_, ?_, fun e => ?_⟩,
      fun j hj => ?_, hbound, rfl, rfl, fun _ _ => Iff.rfl, BitVec.le_refl _, fun _ _ => rfl, ⟨h.targets.1, fun _ e _ => e⟩,
      hqd.1, hqd.2, fun e j d hj hd => ?_, fun _ => .inl ⟨c2, hf.1⟩⟩, rfl, rfl, rfl, rfl, rfl, bases_set _ _ _ _ ho c5, .inl rfl, fun hall => ?_⟩
    · rw [c1] at e; cases e
    · show c.readers = boundIn L i; rw [c6, hL, if_pos rfl]
    · rw [c1, c6]; simp
    · rw [c4] at e; exact ⟨.inl c1, (o.hold e).2⟩
    · rw [c1] at e; cases e
    · rw [c1] at e; cases e
    · exact absurd (o.filling.2 e) hf.2.2
    · rw [c2]; exact o.number hf.1
    · rw [c3]; exact o.pins
    · exact absurd (o.target e) hf.2.1
    · show boundIn L j = _; rw [hL, if_neg hj]; rfl
    · rw [c4] at e
      by_contra hx
      exact hj (h.oneHold j i d b hd ho (by simpa using hx) e)
    · exact absurd (hall b (List.mem_of_getElem? ho)) hf.1
  unfold StreamState.bind
  rw [StreamState.stateOf_at x i b ho]
  rcases hb with e | e | e
  · rw [e]; dsimp only
    rw [StreamState.onBuf_at (x.dequeue i) i b _ ho]
    exact edit _ _ rfl rfl rfl rfl rfl (by show 1 = _; rw [o.unread (by rw [e]; simp)]) rfl
  · rw [e]; dsimp only
    rw [StreamState.onBuf_at x i b _ ho]
    exact edit { b with readers := b.readers + 1 } x.ready e rfl rfl rfl rfl (by show b.readers + 1 = _; rw [o.readers])
      (h.filter_ready ho (by rw [e]; simp)).symm
  · rw [e]; dsimp only
    rw [StreamState.onBuf_at x i b _ ho]
    exact edit { b with state := .shown, readers := 1 } x.ready rfl rfl rfl rfl rfl (by show 1 = _; rw [o.unread (by rw [e]; simp)])
      (h.filter_ready ho (by rw [e]; simp)).symm

/-- An unbind, with one entry fewer bound to the buffer. -/
theorem PoolOk.unbind {x : StreamState} {P : Nat → Nat} {T : List Nat} (L : List Reader) (h : PoolOk x P T) (i : Nat)
    (hL : ∀ j, boundTo x j = boundIn L j + if j = i then 1 else 0) :
    PoolOk { x.unbind i with readers := L } P T ∧ SlotSame x (x.unbind i) := by
  have some1 : ∀ j, boundTo x j ≠ 0 → j < x.bufs.length := by
    intro j hj
    unfold boundTo at hj; rw [Ne, List.countP_eq_zero] at hj; push Not at hj
    obtain ⟨r, hr, e⟩ := hj
    exact h.bound r hr j (by simpa using e)
  have hi : i < x.bufs.length := some1 i (by rw [hL, if_pos rfl]; omega)
  obtain ⟨b, ho⟩ : ∃ b, x.bufs[i]? = some b := ⟨_, List.getElem?_eq_getElem hi⟩
  have o := h.each i b ho
  have hr : b.readers = boundIn L i + 1 := by rw [o.readers, hL, if_pos rfl]
  have hsh : b.state = .shown := o.shown.2 (by rw [hr]; omega)
  have hbound : ∀ r ∈ L, ∀ j, r.state = .bound j → j < x.bufs.length := by
    intro r hr j hj
    refine some1 j ?_
    have : boundIn L j ≠ 0 := by
      unfold boundIn; rw [Ne, List.countP_eq_zero]; push Not
      exact ⟨r, hr, by simp [hj]⟩
    rw [hL]; omega
  have edit : ∀ c : Buf, c.readers = boundIn L i ∨ c = Buf.fresh b.base ∧ boundIn L i = 0 →
      (c.state = .shown ∧ boundIn L i ≠ 0 ∨ c.state = .kept ∧ b.hold = true ∧ boundIn L i = 0 ∨
        c.state = .releasing ∧ boundIn L i = 0 ∨ c = Buf.fresh b.base ∧ b.pins = 0) →
      (c ≠ Buf.fresh b.base → c.seq = b.seq ∧ c.pins = b.pins ∧ (c.hold = true → b.hold = true ∧ c.state ≠ .releasing)) →
      (c.state = .kept → c.hold = true) → c.base = b.base →
      PoolOk { x with bufs := x.bufs.set i c, ready := x.ready.filter (· != i), readers := L } P T ∧
        SlotSame x { x with bufs := x.bufs.set i c, ready := x.ready.filter (· != i) } := by
    intro c c1 c2 c3 c4 c5
    have hre : c.state ≠ .ready ∧ c.state ≠ .filling ∧ c.state ≠ .repairing ∧ c.state ≠ .closing := by
      rcases c2 with ⟨e, _⟩ | ⟨e, _⟩ | ⟨e, _⟩ | ⟨e, _⟩ <;> rw [e] <;> simp [Buf.fresh]
    have hfree : c.state = .free → c = Buf.fresh b.base := by
      intro f
      rcases c2 with ⟨e, _⟩ | ⟨e, _⟩ | ⟨e, _⟩ | ⟨e, _⟩
      · rw [e] at f; cases f
      · rw [e] at f; cases f
      · rw [e] at f; cases f
      · exact e
    have live : c.state ≠ .free → c ≠ Buf.fresh b.base := fun f e => f (by rw [e]; rfl)
    have hhold : c.hold = true → b.hold = true ∧ (c.state = .shown ∨ c.state = .kept) := by
      intro f
      have hne : c ≠ Buf.fresh b.base := by intro e; rw [e] at f; cases f
      obtain ⟨g1, g2⟩ := (c3 hne).2.2 f
      refine ⟨g1, ?_⟩
      rcases c2 with ⟨e, _⟩ | ⟨e, _⟩ | ⟨e, _⟩ | ⟨e, _⟩
      · exact .inl e
      · exact .inr e
      · exact absurd e g2
      · exact absurd e hne
    have hqd := h.queue_drop (y := { x with bufs := x.bufs.set i c, ready := x.ready.filter (· != i), readers := L }) ho rfl hre.1 rfl
    have hcr : c.readers = boundIn L i := by
      rcases c1 with e | ⟨e, e0⟩
      · exact e
      · rw [e, e0]; rfl
    refine ⟨h.edit ⟨ho, rfl, ⟨fun e => ?_, hcr, ?_, fun e => ?_, c4, ⟨fun e => absurd e hre.2.1, fun e => ?_⟩, fun f => ?_, ?_, fun e => ?_⟩,
      fun j hj => ?_, hbound, rfl, rfl, fun _ _ => Iff.rfl, BitVec.le_refl _, fun _ _ => rfl, ⟨h.targets.1, fun _ e _ => e⟩,
      hqd.1, hqd.2, fun e j d hj hd => ?_, fun f => .inl ⟨(c3 (live f)).1, by rw [hsh]; simp⟩⟩,
      rfl, rfl, rfl, rfl, rfl, bases_set _ _ _ _ ho c5, .inl rfl, fun hall => ?_⟩
    · rw [c5]; exact hfree e
    · rw [hcr]
      rcases c2 with ⟨e, e'⟩ | ⟨e, _, e'⟩ | ⟨e, e'⟩ | ⟨e, e'⟩
      · rw [e]; simp [e']
      · rw [e]; simp [e']
      · rw [e]; simp [e']
      · have : c.readers = 0 := by rw [e]; rfl
        rw [hcr] at this; rw [e, this]; simp [Buf.fresh]
    · exact ⟨(hhold e).2, (o.hold (hhold e).1).2⟩
    · have := o.filling.2 e; rw [hsh] at this; cases this
    · rw [(c3 (live f)).1]; exact o.number (by rw [hsh]; simp)
    · by_cases e : c = Buf.fresh b.base
      · rcases c2 with ⟨f, _⟩ | ⟨f, _⟩ | ⟨f, _⟩ | ⟨_, f⟩
        · rw [e] at f; cases f
        · rw [e] at f; cases f
        · rw [e] at f; cases f
        · rw [e]; show 0 = _; rw [← o.pins, f]
      · rw [(c3 e).2.1]; exact o.pins
    · have := o.target e; rw [hsh] at this; cases this
    · show boundIn L j = _; have := hL j; rw [if_neg hj] at this; exact this.symm
    · by_contra hx
      exact hj (h.oneHold j i d b hd ho (by simpa using hx) (hhold e).1)
    · have := hall b (List.mem_of_getElem? ho); rw [hsh] at this; cases this
  have hq := h.filter_ready ho (by rw [hsh]; simp)
  unfold StreamState.unbind
  rw [StreamState.onBuf_at x i b _ ho]
  dsimp only
  rw [getElem_set_at _ _ _ _ ho]
  dsimp only
  split
  · rename_i hz
    have hz0 : boundIn L i = 0 := by have : b.readers - 1 = 0 := hz; omega
    split
    · rename_i hh
      rw [StreamState.onBuf_at _ i { b with readers := b.readers - 1 } _ (getElem_set_at _ _ _ _ ho)]
      have := edit { b with readers := b.readers - 1, state := .kept } (.inl (by show b.readers - 1 = _; omega)) (.inr (.inl ⟨rfl, hh, hz0⟩))
        (fun _ => ⟨rfl, rfl, fun e => ⟨e, by simp⟩⟩) (fun _ => hh) rfl
      rw [hq] at this
      simpa using this
    · rename_i hh
      rw [StreamState.release_at _ i { b with readers := b.readers - 1 } (getElem_set_at _ _ _ _ ho) (by rw [show _ = _ from hsh]; simp)
        (by rw [show _ = _ from hsh]; simp)]
      have := edit (releasedBuf { b with readers := b.readers - 1 }) ?_ ?_ ?_ ?_ ?_
      · unfold releasedAt; simpa using this
      · unfold releasedBuf; split
        · exact .inr ⟨rfl, hz0⟩
        · exact .inl (by show b.readers - 1 = _; omega)
      · unfold releasedBuf; split
        · rename_i e; exact .inr (.inr (.inr ⟨rfl, e.2⟩))
        · exact .inr (.inr (.inl ⟨rfl, hz0⟩))
      · unfold releasedBuf; split
        · exact fun e => absurd rfl e
        · exact fun _ => ⟨rfl, rfl, fun e => (by cases e)⟩
      · unfold releasedBuf; split <;> (intro e; cases e)
      · unfold releasedBuf; split <;> rfl
  · rename_i hz
    have := edit { b with readers := b.readers - 1 } (.inl (by show b.readers - 1 = _; omega)) (.inl ⟨hsh, by
      have : b.readers - 1 ≠ 0 := hz; omega⟩) (fun _ => ⟨rfl, rfl, fun e => ⟨e, by rw [show _ = _ from hsh]; simp⟩⟩)
      (fun e => by rw [show _ = _ from hsh] at e; cases e) rfl
    rw [hq] at this
    exact this

theorem PoolOk.withReaders {x : StreamState} {P : Nat → Nat} {T : List Nat} (L : List Reader) (h : PoolOk x P T)
    (hL : ∀ j, boundIn L j = boundTo x j) : PoolOk { x with readers := L } P T := by
  refine h.same rfl rfl hL (fun r hr j hj => ?_) rfl (BitVec.le_refl _) (.inr ⟨rfl, rfl⟩)
  have h1 : boundTo x j ≠ 0 := by
    rw [← hL]; unfold boundIn; rw [Ne, List.countP_eq_zero]; push Not
    exact ⟨r, hr, by simp [show r.state = _ from hj]⟩
  unfold boundTo at h1; rw [Ne, List.countP_eq_zero] at h1; push Not at h1
  obtain ⟨q, hq, e⟩ := h1
  exact h.bound q hq j (by simpa using e)

theorem unbind_readers (x : StreamState) (L : List Reader) (i : Nat) :
    StreamState.unbind { x with readers := L } i = { x.unbind i with readers := L } := by
  unfold StreamState.unbind; dsimp only
  have : (StreamState.onBuf { x with readers := L } i (fun b => { b with readers := b.readers - 1 })).bufs =
      (x.onBuf i (fun b => { b with readers := b.readers - 1 })).bufs := rfl
  rw [this]; split
  · split
    · split <;> rfl
    · rfl
  · rfl

theorem unbindOld_readers (x : StreamState) (L : List Reader) (r : Reader) :
    StreamState.unbindOld { x with readers := L } r = { x.unbindOld r with readers := L } := by
  unfold StreamState.unbindOld; split
  · exact unbind_readers _ _ _
  all_goals rfl

/-- The unbind of the entry at the head of the entries still to be handled. -/
theorem PoolOk.unbindOld {x : StreamState} {P : Nat → Nat} {T : List Nat} (L : List Reader) (r : Reader)
    (h : PoolOk x P T) (hL : ∀ j, boundTo x j = boundIn L j + if r.state = .bound j then 1 else 0) :
    PoolOk { x.unbindOld r with readers := L } P T ∧ SlotSame x (x.unbindOld r) := by
  unfold StreamState.unbindOld
  split
  · rename_i i hi
    refine h.unbind L i (fun j => ?_)
    rw [hL, hi]
    by_cases e : j = i
    · subst e; simp
    · simp [e, Ne.symm e]
  all_goals
    rename_i hi
    exact ⟨h.withReaders L (fun j => by rw [hL, hi]; simp), .refl⟩

theorem countP_set (L : List Reader) (k : Nat) (r q : Reader) (h : L[k]? = some r) (i : Nat) :
    boundIn (L.set k q) i + (if r.state = .bound i then 1 else 0) = boundIn L i + (if q.state = .bound i then 1 else 0) := by
  induction L generalizing k with
  | nil => simp at h
  | cons a l ih =>
    cases k with
    | zero =>
      simp only [List.getElem?_cons_zero, Option.some.injEq] at h; subst h
      rw [List.set_cons_zero, boundIn_cons, boundIn_cons]; omega
    | succ k =>
      simp only [List.getElem?_cons_succ] at h
      rw [List.set_cons_succ, boundIn_cons, boundIn_cons]
      have := ih k h; omega

theorem entries_set (L : List Reader) (k : Nat) (r q : Reader) (h : L[k]? = some r) (hv : q.valid = r.valid) (hi : q.id = r.id) :
    (L.set k q).map (fun r => (r.valid, r.id)) = L.map (fun r => (r.valid, r.id)) := by
  apply List.ext_getElem?; intro j
  rw [List.getElem?_map, List.getElem?_map, List.getElem?_set]
  split
  · rename_i e; subst e; rw [h]; split
    · simp [hv, hi]
    · rename_i hl; exact absurd (List.getElem?_eq_some_iff.1 h).1 hl
  · rfl

/-- What a claim may bind. -/
theorem PoolOk.target_bind {x : StreamState} {P : Nat → Nat} {T : List Nat} (h : PoolOk x P T) (r : Reader) (i : Nat) (src : Source)
    (ht : x.target r = .bind i src) : ∃ b, x.bufs[i]? = some b ∧ (b.state = .ready ∨ b.state = .shown ∨ b.state = .kept) := by
  have rf : r.repeatOrFill ≠ .bind i src := by unfold Reader.repeatOrFill; split <;> simp
  unfold StreamState.target at ht
  split at ht
  · split at ht
    · unfold StreamState.latestTarget at ht
      split at ht
      · rename_i c hc
        split at ht
        · cases ht
          obtain ⟨b, ho, hb⟩ := (x.mem_indices _ i).1 (highest_mem _ _ _ hc).1
          simp only [Bool.or_eq_true, beq_iff_eq] at hb
          exact ⟨b, ho, hb.elim .inl (fun e => .inr (.inl e))⟩
        · exact absurd ht rf
      · cases ht
    · unfold StreamState.queueTarget at ht
      split at ht
      · rename_i c hc
        split at ht
        · exact absurd ht rf
        · cases ht
          obtain ⟨b, ho, hb⟩ := (h.queue i).1 (List.mem_of_head? hc)
          exact ⟨b, ho, .inl hb⟩
      · exact absurd ht rf
  · split at ht
    · unfold StreamState.holdTarget at ht
      split at ht
      · rename_i c hc
        split at ht
        · cases ht
        · cases ht
          unfold StreamState.marked at hc
          obtain ⟨hlt, hp, _⟩ := List.findIdx?_eq_some_iff_getElem.1 hc
          have ho : x.bufs[i]? = some x.bufs[i] := List.getElem?_eq_getElem hlt
          exact ⟨_, ho, ((h.each i _ ho).hold hp).1.elim (fun e => .inr (.inl e)) (fun e => .inr (.inr e))⟩
      · cases ht
    · cases ht

theorem skip_readers (x : StreamState) (L : List Reader) (n : BitVec 32) :
    StreamState.skip { x with readers := L } n = { x.skip n with readers := L } := by
  unfold StreamState.skip
  change List.foldl StreamState.releaseSkipped { x with readers := L } (x.indices _) = _
  generalize x.indices _ = l
  induction l generalizing x with
  | nil => rfl
  | cons a l ih => rw [List.foldl_cons, List.foldl_cons, ← ih]; rfl

/-- A claim (R74 to R80) of a slot's reader entry that is there. -/
theorem PoolOk.claim {x : StreamState} {P : Nat → Nat} {T : List Nat} (h : PoolOk x P T) (now : Micros) (k : ReaderSlot) (r : Reader)
    (hk : x.readers[k.val]? = some r) : PoolOk (x.claim now k) P T ∧ SlotSame x (x.claim now k) := by
  have hr : x.reader k = r := StreamState.reader_at x k r hk
  unfold StreamState.claim StreamState.setReader StreamState.claimPool
  rw [hr]
  set q := x.claimEntry now r with hq
  have same : q.valid = r.valid ∧ q.id = r.id := by
    rw [hq]; unfold StreamState.claimEntry Reader.claimed; cases x.target r <;> exact ⟨rfl, rfl⟩
  have hqs : q.state = match x.target r with | .bind i _ => .bound i | .keep _ => r.state | .fill => .subst := by
    rw [hq]; unfold StreamState.claimEntry Reader.claimed; cases x.target r <;> rfl
  have hset := countP_set x.readers k.val r q hk
  have first : PoolOk { x.rebind r (x.target r) with readers := x.readers.set k.val q } P T ∧ SlotSame x (x.rebind r (x.target r)) := by
    cases ht : x.target r with
    | bind i src =>
      rw [ht] at hqs
      obtain ⟨b, ho, hb⟩ := h.target_bind r i src ht
      obtain ⟨h1, s1⟩ := h.bind (q :: x.readers) i b ho hb (fun j => by
        rw [boundIn_cons, hqs]; unfold boundTo boundIn
        by_cases e : j = i
        · subst e; simp
        · simp [e, Ne.symm e])
      obtain ⟨h2, s2⟩ := h1.unbindOld (x.readers.set k.val q) r (fun j => by
        show boundIn (q :: x.readers) j = _
        rw [boundIn_cons]; have := hset j; omega)
      rw [unbindOld_readers] at h2 s2
      refine ⟨h2, s1.trans ?_⟩
      exact ⟨s2.current, s2.life, s2.taken, s2.quiet, by
        have := StreamState.unbindOld_readers (x.bind i) r
        show ((x.bind i).unbindOld r).readers.map _ = _; rw [this], s2.bases, s2.mode, s2.free⟩
    | keep src =>
      rw [ht] at hqs
      refine ⟨h.withReaders _ (fun j => ?_), .refl⟩
      have := hset j; rw [hqs] at this
      show boundIn _ j = boundIn x.readers j; exact Nat.add_right_cancel this
    | fill =>
      rw [ht] at hqs
      refine h.unbindOld _ r (fun j => ?_)
      have := hset j; rw [hqs] at this
      show boundIn x.readers j = _; simpa using this.symm
  have zr : (x.rebind r (x.target r)).readers = x.readers := StreamState.rebind_readers _ _ _
  generalize x.rebind r (x.target r) = z at first zr ⊢
  have done : ∀ w : StreamState, PoolOk { w with readers := x.readers.set k.val q } P T → SlotSame x w → w.readers = x.readers →
      PoolOk { w with readers := w.readers.set k.val q } P T ∧ SlotSame x { w with readers := w.readers.set k.val q } := by
    intro w hw sw e
    rw [e]
    exact ⟨hw, sw.current, sw.life, sw.taken, sw.quiet, entries_set _ _ _ _ hk same.1 same.2, sw.bases, sw.mode, sw.free⟩
  split
  · unfold StreamState.claimSkip
    split
    · rename_i n _
      obtain ⟨h2, s2⟩ := first.1.skip (BitVec.ofNat 32 n)
      rw [skip_readers] at h2 s2
      refine done _ h2 (first.2.trans ⟨s2.current, s2.life, s2.taken, s2.quiet, ?_, s2.bases, s2.mode, s2.free⟩) ?_
      · rw [StreamState.skip_readers]
      · rw [StreamState.skip_readers, zr]
    · exact done z first.1 first.2 zr
  · exact done z first.1 first.2 zr

/-- A scan timer expiry (R91) of an entry that is there. -/
theorem PoolOk.expire {x : StreamState} {P : Nat → Nat} {T : List Nat} (h : PoolOk x P T) (k : ReaderSlot) (r : Reader)
    (hk : x.readers[k.val]? = some r) : PoolOk (x.expire k) P T ∧ SlotSame x (x.expire k) := by
  have hr : x.reader k = r := StreamState.reader_at x k r hk
  have e : x.expire k = (({ x.unbindOld r with readers := x.readers.set k.val (r.dropped .stale) }).raise .readerStale).count .stales := by
    unfold StreamState.expire StreamState.setReader; rw [hr, StreamState.unbindOld_readers]
  rw [e]
  obtain ⟨h1, s1⟩ := h.unbindOld (x.readers.set k.val (r.dropped .stale)) r (fun j => by
    have := countP_set x.readers k.val r (r.dropped .stale) hk j
    have e0 : (r.dropped .stale).state ≠ .bound j := by simp [Reader.dropped]
    rw [if_neg e0] at this
    show boundIn x.readers j = _; omega)
  exact ⟨h1.aside rfl rfl rfl rfl rfl rfl rfl, s1.current, s1.life, s1.taken, s1.quiet, entries_set _ _ _ _ hk rfl rfl, s1.bases,
    s1.mode, s1.free⟩

/-- The unbinds of a list of entries, one after the other. -/
theorem PoolOk.unbinds {P : Nat → Nat} {T : List Nat} (L M : List Reader) {x : StreamState} (h : PoolOk x P T)
    (hM : ∀ r ∈ M, ∀ j, r.state ≠ .bound j) (hL : ∀ j, boundTo x j = boundIn L j) :
    PoolOk { L.foldl StreamState.unbindOld x with readers := M } P T ∧ SlotSame x (L.foldl StreamState.unbindOld x) := by
  have hM0 : ∀ j, boundIn M j = 0 := fun j => by
    unfold boundIn; rw [List.countP_eq_zero]; intro r hr; simpa using hM r hr j
  induction L generalizing x with
  | nil => exact ⟨h.withReaders M (fun j => by rw [hL, hM0]; rfl), .refl⟩
  | cons a l ih =>
    obtain ⟨h1, s1⟩ := h.unbindOld l a (fun j => by rw [hL, boundIn_cons])
    obtain ⟨h2, s2⟩ := ih h1 (fun _ => rfl)
    have comm : ∀ (l : List Reader) (y : StreamState) (K : List Reader),
        l.foldl StreamState.unbindOld { y with readers := K } = { l.foldl StreamState.unbindOld y with readers := K } := by
      intro l
      induction l with
      | nil => exact fun _ _ => rfl
      | cons b l ih => intro y K; rw [List.foldl_cons, List.foldl_cons, unbindOld_readers, ih]
    have keep : ∀ (l : List Reader) (y : StreamState), (l.foldl StreamState.unbindOld y).readers = y.readers := by
      intro l
      induction l with
      | nil => exact fun _ => rfl
      | cons b l ih => intro y; rw [List.foldl_cons, ih, StreamState.unbindOld_readers]
    rw [comm] at h2 s2
    rw [List.foldl_cons]
    exact ⟨h2, s1.trans ⟨s2.current, s2.life, s2.taken, s2.quiet, by rw [keep], s2.bases, s2.mode, s2.free⟩⟩

/-- The Presentation Unit's teardown (R93). -/
theorem PoolOk.presentationTeardown {x : StreamState} {P : Nat → Nat} {T : List Nat} (h : PoolOk x P T) :
    PoolOk x.presentationTeardown P T ∧ SlotSame x x.presentationTeardown := by
  unfold StreamState.presentationTeardown
  obtain ⟨h1, s1⟩ := h.unbinds x.readers (x.readers.map (fun r => r.dropped .unbound))
    (fun r hr j => by obtain ⟨q, _, rfl⟩ := List.mem_map.1 hr; simp [Reader.dropped]) (fun _ => rfl)
  refine ⟨h1, s1.current, s1.life, s1.taken, s1.quiet, ?_, s1.bases, s1.mode, s1.free⟩
  show (x.readers.map _).map _ = _
  rw [List.map_map]; rfl

/-- The Cadence Monitor's teardown (R113). -/
theorem PoolOk.cadenceTeardown {x : StreamState} {P : Nat → Nat} {T : List Nat} (h : PoolOk x P T) :
    PoolOk x.cadenceTeardown P T ∧ SlotSame x x.cadenceTeardown :=
  let c := (h.clears (z := { x with timer := .stopped, lock := .down, acquire := 0, loss := 0 }) rfl rfl rfl rfl rfl
    ⟨rfl, rfl, rfl, rfl, rfl, rfl, .inl rfl, id⟩ rfl).1
  ⟨c.1, c.2.1⟩

/-- A cadence expiry (R99). -/
theorem PoolOk.miss {x : StreamState} {P : Nat → Nat} {T : List Nat} (h : PoolOk x P T) :
    PoolOk x.miss P T ∧ SlotSame x x.miss := by
  set y : StreamState := { x.count .misses with ref := x.ref + Decode.period x.desc, timer := cadenceTimer x.desc (x.ref + Decode.period x.desc) } with hy
  have h1 : PoolOk y P T := h.aside rfl rfl rfl rfl rfl rfl rfl
  have s1 : SlotSame x y := ⟨rfl, rfl, rfl, rfl, rfl, rfl, .inl rfl, id⟩
  have e : x.miss = y.lockInput .fault := rfl
  rw [e]
  obtain ⟨h2, s2, _⟩ := h1.lockInput .fault
  exact ⟨h2, s1.trans s2⟩

/-- The arrival of a close (R98). -/
theorem PoolOk.arrive {x : StreamState} {P : Nat → Nat} {T : List Nat} (h : PoolOk x P T) (t : Micros) :
    PoolOk (x.arrive t) P T ∧ SlotSame x (x.arrive t) := by
  unfold StreamState.arrive; dsimp only; split <;>
    exact ⟨h.aside rfl rfl rfl rfl rfl rfl rfl, rfl, rfl, rfl, rfl, rfl, rfl, .inl rfl, id⟩

/-- A slot without a current frame, or with a frame in mode SINK, may go to NONE. -/
theorem PoolOk.noFrame {x : StreamState} {P : Nat → Nat} {T : List Nat} (h : PoolOk x P T) (hm : ∀ i, x.mode ≠ .buffer i) :
    PoolOk { x with mode := .none } P T ∧ SlotSame x { x with mode := .none } := by
  refine ⟨⟨fun i b hb => ?_, h.queue, h.rising, h.oneHold, h.distinct, h.bound, fun i e => (by cases e), h.pinned, h.targets⟩,
    rfl, rfl, rfl, rfl, rfl, rfl, .inr rfl, id⟩
  have o := h.each i b hb
  exact ⟨o.free, o.readers, o.shown, o.hold, o.kept, ⟨fun e => absurd (o.filling.1 e) (hm i), fun e => (by cases e)⟩, o.number, o.pins,
    o.target⟩

/-- A close in mode SINK (R43). -/
theorem PoolOk.closeSink {x : StreamState} {P : Nat → Nat} {T : List Nat} (h : PoolOk x P T) (c : Decode.CloseRecord)
    (hm : x.mode = .sink) : PoolOk (x.closeSink c) P T ∧ SlotSame x (x.closeSink c) := by
  unfold StreamState.closeSink; dsimp only
  generalize he : ({ verdict := .droppedOverrun, seq := x.lastSeq, producerSeq := c.producerSeq, missing := Decode.lines x.desc } : VerdictEntry) = e
  obtain ⟨h1, s1, _⟩ := h.countVerdict e .droppedOverrun
  have m1 : ((x.report e).countVerdict .droppedOverrun).mode = .sink := hm
  generalize StreamState.countVerdict _ _ = y at h1 s1 m1 ⊢
  obtain ⟨h2, s2, _⟩ := h1.lockInput (Verdict.lockInput false .droppedOverrun)
  obtain ⟨h3, s3⟩ := h2.noFrame (fun i => by rcases s2.mode with e | e <;> rw [e] <;> simp [m1])
  exact ⟨h3, s1.trans (s2.trans s3)⟩

end Sys2Proof.Safety
end

