-- ==== Sys2Proof/Laws/Pools.lean ====
section
/-! SUPPORT. Every slot's pool and reader entries: PoolsOk is kept by the repair queue, the teardown requests, the hand-offs,
the grants and returns, the upstream takings and the link bytes. -/
namespace Sys2Proof.Safety

open Sys2Proof Sys2Proof.Machine

/-! ### Pins and targets of a queue of jobs -/

theorem pinsOf_cons (j : Job) (l : List Job) (st : StreamId) (i : Nat) :
    pinsOf (j :: l) st i = pinsOf l st i + if j.stream = st ∧ j.method = .copy i then 1 else 0 := by
  unfold pinsOf; rw [List.countP_cons]
  by_cases h : j.stream = st ∧ j.method = .copy i
  · simp [h]
  · rw [if_neg h, if_neg]; simpa using h

theorem pinsOf_append (l : List Job) (j : Job) (st : StreamId) (i : Nat) :
    pinsOf (l ++ [j]) st i = pinsOf l st i + if j.stream = st ∧ j.method = .copy i then 1 else 0 := by
  induction l with
  | nil => rw [List.nil_append, pinsOf_cons]
  | cons a l ih => rw [List.cons_append, pinsOf_cons, pinsOf_cons, ih]; omega

theorem targetsOf_cons (j : Job) (l : List Job) (st : StreamId) :
    targetsOf (j :: l) st = if j.stream = st then j.target :: targetsOf l st else targetsOf l st := by
  unfold targetsOf; rw [List.filter_cons]
  by_cases h : j.stream = st <;> simp [h]

theorem targetsOf_append (l : List Job) (j : Job) (st : StreamId) :
    targetsOf (l ++ [j]) st = targetsOf l st ++ if j.stream = st then [j.target] else [] := by
  unfold targetsOf; rw [List.filter_append, List.map_append]
  by_cases h : j.stream = st <;> simp [h]

/-- Two queues with the same jobs, as far as pins and targets go. -/
def SameHolds (l m : List Job) : Prop := ∀ st, (∀ i, pinsOf l st i = pinsOf m st i) ∧ targetsOf l st = targetsOf m st

theorem SameHolds.refl {l : List Job} : SameHolds l l := fun _ => ⟨fun _ => rfl, rfl⟩

theorem SameHolds.head (j k : Job) (l : List Job) (h1 : k.stream = j.stream) (h2 : k.method = j.method) (h3 : k.target = j.target) :
    SameHolds (k :: l) (j :: l) := by
  intro st
  exact ⟨fun i => by rw [pinsOf_cons, pinsOf_cons, h1, h2], by rw [targetsOf_cons, targetsOf_cons, h1, h3]⟩

theorem SameHolds.promote (l : List Job) : SameHolds (promote l) l := by
  cases l with
  | nil => exact .refl
  | cons j l =>
    unfold Machine.promote
    refine .head _ _ _ ?_ ?_ ?_ <;> split <;> rfl

/-! ### One slot's part of the state -/

/-- The pool and reader entries of one slot stand as they must. -/
def SlotOk (s : State) (st : StreamId) : Prop :=
  PoolOk (s.stream st) (pinsOf s.jobs st) (targetsOf s.jobs st) ∧ SlotPool (s.stream st)

theorem PoolsOk.congr {s u : State} (h : PoolsOk s) (hs : u.streams = s.streams) (hj : SameHolds u.jobs s.jobs) : PoolsOk u := by
  intro st
  have : u.stream st = s.stream st := by unfold State.stream; rw [hs]
  rw [this, show pinsOf u.jobs st = pinsOf s.jobs st from funext (hj st).1, (hj st).2]
  exact h st

theorem PoolsOk.same {s u : State} (h : PoolsOk s) (hs : u.streams = s.streams) (hj : u.jobs = s.jobs) : PoolsOk u :=
  h.congr hs (by rw [hj]; exact .refl)

/-- One slot moves on, the others are as they were. -/
theorem PoolsOk.one {s u : State} (h : PoolsOk s) (st : StreamId) (hu : ∀ k, k ≠ st → u.stream k = s.stream k)
    (hj : ∀ k, k ≠ st → (∀ i, pinsOf u.jobs k i = pinsOf s.jobs k i) ∧ targetsOf u.jobs k = targetsOf s.jobs k)
    (h' : SlotOk u st) : PoolsOk u := by
  intro k
  by_cases hk : k = st
  · subst hk; exact h'
  · rw [hu k hk, show pinsOf u.jobs k = pinsOf s.jobs k from funext (hj k hk).1, (hj k hk).2]
    exact h k

theorem PoolsOk.on {s : State} (h : PoolsOk s) (st : StreamId) (f : StreamState → StreamState)
    (hf : SlotOk s st → PoolOk (f (s.stream st)) (pinsOf s.jobs st) (targetsOf s.jobs st) ∧ SlotPool (f (s.stream st))) :
    PoolsOk (s.onStream st f) := by
  refine h.one st (fun k hk => ?_) (fun _ _ => ⟨fun _ => rfl, rfl⟩) ?_
  · exact State.stream_onStream_ne _ _ _ _ hk
  · unfold SlotOk; rw [State.stream_onStream]; exact hf (h st)

theorem PoolsOk.moves {s : State} (h : PoolsOk s) (st : StreamId) (f : StreamState → StreamState)
    (hf : PoolOk (s.stream st) (pinsOf s.jobs st) (targetsOf s.jobs st) →
      PoolOk (f (s.stream st)) (pinsOf s.jobs st) (targetsOf s.jobs st) ∧ SlotSame (s.stream st) (f (s.stream st))) :
    PoolsOk (s.onStream st f) :=
  h.on st f (fun o => ⟨(hf o.1).1, (hf o.1).2.pool o.2⟩)

/-- One slot moves on as f says, and the queue becomes l. -/
theorem PoolsOk.edit {s u : State} (h : PoolsOk s) (st : StreamId) (f : StreamState → StreamState) (l : List Job)
    (hs : u.streams = (s.onStream st f).streams) (hl : u.jobs = l)
    (hj : ∀ k, k ≠ st → (∀ i, pinsOf l k i = pinsOf s.jobs k i) ∧ targetsOf l k = targetsOf s.jobs k)
    (h' : PoolOk (f (s.stream st)) (pinsOf l st) (targetsOf l st) ∧ SlotPool (f (s.stream st))) : PoolsOk u := by
  have e : ∀ k, u.stream k = (s.onStream st f).stream k := fun k => by unfold State.stream; rw [hs]
  refine h.one st (fun k hk => by rw [e, State.stream_onStream_ne _ _ _ _ hk]) (by rw [hl]; exact hj) ?_
  unfold SlotOk; rw [e, State.stream_onStream, hl]; exact h'

/-! ### Verdict at drain, decrements, returns (R5, R6, R12) -/

theorem PoolOk.unpinFor {x : StreamState} {P : Nat → Nat} {T : List Nat} (Q : Nat → Nat) (h : PoolOk x P T) (m : Method)
    (hQ : ∀ i, P i = Q i + if m = .copy i then 1 else 0) : PoolOk (x.unpinFor m) Q T ∧ SlotSame x (x.unpinFor m) := by
  cases m with
  | pad =>
    have : P = Q := funext (fun i => by rw [hQ]; simp)
    rw [← this]; exact ⟨h, .refl⟩
  | copy k =>
    have : (fun j => P j - if j = k then 1 else 0) = Q := by
      funext i; show P i - _ = _; rw [hQ]
      by_cases e : i = k
      · subst e; simp
      · simp [e, Ne.symm e]
    rw [← this]; exact h.unpin k

theorem PoolOk.pinFor {x : StreamState} {P : Nat → Nat} {T : List Nat} (Q : Nat → Nat) (h : PoolOk x P T) (m : Method)
    (hm : ∀ k, m = .copy k → ∃ b, x.bufs[k]? = some b ∧ b.state ≠ .free)
    (hQ : ∀ i, Q i = P i + if m = .copy i then 1 else 0) : PoolOk (x.pinFor m) Q T ∧ SlotSame x (x.pinFor m) := by
  cases m with
  | pad =>
    have : Q = P := funext (fun i => by rw [hQ]; simp)
    rw [this]; exact ⟨h, .refl⟩
  | copy k =>
    obtain ⟨b, ho, hb⟩ := hm k rfl
    have : Q = (fun j => P j + if j = k then 1 else 0) := by
      funext i; rw [hQ]
      by_cases e : i = k
      · subst e; simp
      · simp [e, Ne.symm e]
    rw [this]; exact h.pin k b ho hb

/-- A CLOSING buffer becomes the target of a new job (R51). -/
theorem PoolOk.toRepair {x : StreamState} {P : Nat → Nat} {T : List Nat} (h : PoolOk x P T) (i : Nat) (b : Buf)
    (ho : x.bufs[i]? = some b) (hb : b.state = .closing) :
    PoolOk (x.onBuf i (fun b => { b with state := .repairing })) P (T ++ [i]) ∧
      SlotSame x (x.onBuf i (fun b => { b with state := .repairing })) := by
  have o := h.each i b ho
  obtain ⟨n1, n2, n3, n4, n5⟩ := judged_ne (.inl hb)
  have nt := h.not_target i b ho (by rw [hb]; simp)
  have hold : b.hold = false := by
    by_contra hc
    exact ((o.hold (by simpa using hc)).1).elim n1 n5
  rw [StreamState.onBuf_at _ _ _ _ ho]
  have := h.put (Q := P) (U := T ++ [i]) ho { b with state := .repairing } (x.ready.filter (· != i))
    ⟨fun f => (by cases f), o.readers, ⟨fun f => (by cases f), fun f => absurd (o.shown.2 f) n1⟩,
      fun f => absurd (hold.symm.trans f) (by simp), fun f => (by cases f), ⟨fun f => (by cases f), fun f => absurd (o.filling.2 f) n2⟩,
      fun _ => o.number n4, o.pins, fun _ => rfl⟩ rfl (fun e => absurd e n4) (fun _ _ => rfl)
    ⟨?_, fun j hj hne => by simpa [hne] using hj⟩ (.inl ⟨by simp, rfl⟩) (fun e => .inl e) (fun _ => rfl)
  · rw [h.filter_ready ho n3] at this; exact this
  · rw [List.nodup_append]
    exact ⟨h.targets.1, by simp, fun a ha c hc => by simp at hc; subst hc; rintro rfl; exact nt ha⟩

theorem PoolsOk.queueJob {s : State} (h : PoolsOk s) (st : StreamId) (i : Nat) (b : Buf) (ho : (s.stream st).bufs[i]? = some b)
    (hb : b.state = .closing) : PoolsOk (s.queueJob st i b) := by
  unfold State.queueJob; dsimp only
  set x := s.stream st with hx
  set m := x.repairMethod i with hm
  have src : ∀ k, m = .copy k → ∃ c, x.bufs[k]? = some c ∧ (c.state = .ready ∨ c.state = .shown ∨ c.state = .kept) := by
    intro k hk
    rw [hm] at hk
    unfold StreamState.repairMethod at hk
    split at hk
    · split at hk
      · rename_i n hn
        cases hk
        obtain ⟨c, hc, hp⟩ := (x.mem_indices _ k).1 (highest_mem _ _ _ hn).1
        simp only [Bool.and_eq_true, Bool.or_eq_true, beq_iff_eq] at hp
        exact ⟨c, hc, by tauto⟩
      · cases hk
    · cases hk
  generalize hj : Job.mk _ _ _ _ _ _ _ = j
  have j1 : j.stream = st := by rw [← hj]
  have j2 : j.method = m := by rw [← hj]
  have j3 : j.target = i := by rw [← hj]
  refine h.one st (fun k hk => State.stream_setStream_ne _ _ _ _ hk) (fun k hk => ?_) ?_
  · show (∀ i, pinsOf (s.jobs ++ [j]) k i = _) ∧ targetsOf (s.jobs ++ [j]) k = _
    refine ⟨fun n => ?_, ?_⟩
    · rw [pinsOf_append, if_neg (fun e => hk (e.1.symm.trans j1))]; rfl
    · rw [targetsOf_append, if_neg (fun e => hk (e.symm.trans j1)), List.append_nil]
  · unfold SlotOk
    show PoolOk ((s.setStream st _).stream st) (pinsOf (s.jobs ++ [j]) st) (targetsOf (s.jobs ++ [j]) st) ∧ SlotPool ((s.setStream st _).stream st)
    rw [State.stream_setStream, targetsOf_append, if_pos j1, j3]
    obtain ⟨h1, s1⟩ := (h st).1.pinFor (pinsOf (s.jobs ++ [j]) st) m
      (fun k hk => by obtain ⟨c, hc, e⟩ := src k hk; exact ⟨c, hc, by rcases e with e | e | e <;> rw [e] <;> simp⟩)
      (fun n => by rw [pinsOf_append, j1, j2]; simp)
    have ho1 : (x.pinFor m).bufs[i]? = some b := by
      cases hmm : m with
      | pad => exact ho
      | copy k =>
        show (x.pin k).bufs[i]? = _
        unfold StreamState.pin
        rw [StreamState.onBuf_getElem, if_neg, ho]
        rintro rfl
        obtain ⟨c, hc, e⟩ := src k hmm
        rw [ho] at hc; cases hc
        rw [hb] at e; simp at e
    obtain ⟨h2, s2⟩ := h1.toRepair i b ho1 hb
    exact ⟨h2, (s1.trans s2).pool (h st).2⟩

theorem PoolsOk.drain {s : State} (h : PoolsOk s) (st : StreamId) (i : Nat) : PoolsOk (s.drain st i) := by
  unfold State.drain; split
  · exact h
  · rename_i b ho
    split
    · rename_i hb
      have nt := (h st).1.not_target i b ho (by rw [hb.1]; simp)
      have hU : (targetsOf s.jobs st).Nodup ∧ ∀ j ∈ targetsOf s.jobs st, j ∈ targetsOf s.jobs st ∧ j ≠ i :=
        ⟨(h st).1.targets.1, fun j hj => ⟨hj, fun e => nt (by rw [← e]; exact hj)⟩⟩
      split
      · exact h.queueJob st i b ho hb.1
      · exact h.moves st _ (fun o => o.finishGood _ i b ho (.inl hb.1) hU)
      · exact h.moves st _ (fun o => o.finishBad _ i b ho (.inl hb.1) hU)
    · exact h

theorem PoolsOk.decrement {s : State} (h : PoolsOk s) (st : StreamId) (i : Nat) (w : Bool) : PoolsOk (s.decrement st i w) :=
  (h.moves st _ (fun o => o.decrement i w)).drain st i

/-! ### Ends and cancellations of jobs (R60, R64 to R67) -/

/-- A target keeps its state through an unpin of any buffer. -/
theorem PoolOk.target_at {x : StreamState} {P : Nat → Nat} {T : List Nat} (h : PoolOk x P T) (i : Nat) (hi : i ∈ T) :
    ∃ b, x.bufs[i]? = some b ∧ b.state = .repairing := by
  obtain ⟨b, hb⟩ : ∃ b, x.bufs[i]? = some b := ⟨_, List.getElem?_eq_getElem (h.targets.2 i hi)⟩
  exact ⟨b, hb, (h.each i b hb).target hi⟩

theorem PoolOk.jobReport {x : StreamState} {P : Nat → Nat} {U : List Nat} (j : Job) (h : PoolOk x P (j.target :: U)) :
    PoolOk (x.jobReport j) P U ∧ SlotSame x (x.jobReport j) := by
  obtain ⟨b, ho, hb⟩ := h.target_at j.target (by simp)
  have hU : U.Nodup ∧ ∀ k ∈ U, k ∈ j.target :: U ∧ k ≠ j.target := by
    have := List.nodup_cons.1 h.targets.1
    exact ⟨this.2, fun k hk => ⟨List.mem_cons_of_mem _ hk, fun e => this.1 (e ▸ hk)⟩⟩
  unfold StreamState.jobReport
  rw [ho]; dsimp only
  split
  · exact h.release j.target (fun c hc => by rw [ho] at hc; cases hc; rw [hb]; simp) hU
  · split
    · exact h.finishBad _ _ b ho (.inr hb) hU
    · split
      · exact h.finishGood _ _ b ho (.inr hb) hU
      · exact h.finishGood _ _ b ho (.inr hb) hU

/-- A job of the slot leaves the queue: unpin and report. -/
theorem PoolOk.jobEnd {x : StreamState} {Q : Nat → Nat} {U : List Nat} (j : Job)
    (h : PoolOk x (fun i => Q i + if j.method = .copy i then 1 else 0) (j.target :: U)) :
    PoolOk ((x.unpinFor j.method).jobReport j) Q U ∧ SlotSame x ((x.unpinFor j.method).jobReport j) := by
  obtain ⟨h1, s1⟩ := h.unpinFor Q j.method (fun _ => rfl)
  obtain ⟨h2, s2⟩ := h1.jobReport j
  exact ⟨h2, s1.trans s2⟩

theorem PoolOk.cancelJob {x : StreamState} {Q : Nat → Nat} {U : List Nat} (j : Job)
    (h : PoolOk x (fun i => Q i + if j.method = .copy i then 1 else 0) (j.target :: U)) :
    PoolOk (x.cancelJob j) Q U ∧ SlotSame x (x.cancelJob j) := by
  obtain ⟨h1, s1⟩ := h.unpinFor Q j.method (fun _ => rfl)
  have hn := List.nodup_cons.1 h1.targets.1
  obtain ⟨h2, s2⟩ := h1.release (U := U) j.target (fun c hc => by
    obtain ⟨b, ho, hb⟩ := h1.target_at j.target (by simp)
    rw [ho] at hc; cases hc; rw [hb]; simp)
    ⟨hn.2, fun k hk => ⟨List.mem_cons_of_mem _ hk, fun e => hn.1 (e ▸ hk)⟩⟩
  exact ⟨h2, s1.trans s2⟩

theorem PoolsOk.onHead {s : State} (h : PoolsOk s) (f : Job → Job)
    (hf : ∀ j, (f j).stream = j.stream ∧ (f j).method = j.method ∧ (f j).target = j.target) : PoolsOk (s.onHead f) := by
  unfold State.onHead
  cases hj : s.jobs with
  | nil => exact h
  | cons j l =>
    refine h.congr rfl ?_
    show SameHolds (f j :: l) s.jobs
    rw [hj]; exact .head _ _ _ (hf j).1 (hf j).2.1 (hf j).2.2

theorem PoolsOk.withdraw {s : State} (h : PoolsOk s) : PoolsOk s.withdrawRepair := by
  unfold State.withdrawRepair; split
  · exact h.same rfl rfl
  · exact h

theorem PoolsOk.endJob {s : State} (h : PoolsOk s) (j : Job) (l : List Job) (hj : s.jobs = j :: l) : PoolsOk (s.endJob j) := by
  unfold State.endJob
  have hp := SameHolds.promote s.jobs.tail
  rw [hj, List.tail_cons] at hp
  refine h.edit j.stream (fun x => (x.unpinFor j.method).jobReport j) (promote l) rfl (by rw [hj]; rfl) (fun k hk => ⟨fun i => ?_, ?_⟩) ?_
  · rw [(hp k).1, hj, pinsOf_cons, if_neg (fun e => hk e.1.symm)]; rfl
  · rw [(hp k).2, hj, targetsOf_cons, if_neg (fun e => hk e.symm)]
  · rw [show pinsOf (promote l) j.stream = pinsOf l j.stream from funext (hp _).1, (hp _).2]
    obtain ⟨o, p⟩ := h j.stream
    have e : pinsOf s.jobs j.stream = fun i => pinsOf l j.stream i + if j.method = .copy i then 1 else 0 := by
      funext i; rw [hj, pinsOf_cons]; simp
    rw [e, hj, targetsOf_cons, if_pos rfl] at o
    obtain ⟨h1, s1⟩ := o.jobEnd j
    exact ⟨h1, s1.pool p⟩

theorem PoolsOk.settleJob {s : State} (h : PoolsOk s) : PoolsOk s.settleJob := by
  unfold State.settleJob; split
  · exact h
  · rename_i j l hj
    split
    · exact h.endJob j l hj
    · exact h

theorem PoolsOk.routeRepair {s : State} (h : PoolsOk s) (r : Bool) (n : Nat) (st : Status) (d : List Byte) :
    PoolsOk (s.routeRepair r n st d) := by
  unfold State.routeRepair; split
  · split
    · split <;> exact h.same rfl rfl
    · have h1 : PoolsOk ((s.withdrawRepair).onHead (fun j => { j with state := .failing })) := h.withdraw.onHead _ (fun _ => ⟨rfl, rfl, rfl⟩)
      generalize (s.withdrawRepair).onHead (fun j => { j with state := .failing }) = t at h1 ⊢
      dsimp only; split
      · refine PoolsOk.moves (h1.same (u := { t with bursts := dropHeld (freeSlot n t.bursts) }) rfl rfl) _ _ (fun o => ?_)
        exact ⟨o.aside rfl rfl rfl rfl rfl rfl rfl, rfl, rfl, rfl, rfl, rfl, rfl, .inl rfl, id⟩
      · exact h1
  · exact h.same rfl rfl

theorem PoolsOk.accountRepair {s : State} (h : PoolsOk s) : PoolsOk s.accountRepair :=
  (h.onHead (fun j => { j with outstanding := j.outstanding - 1 }) (fun _ => ⟨rfl, rfl, rfl⟩)).settleJob

/-- The jobs of a stream behind the head are cancelled in queue order (R65). -/
theorem PoolOk.cancelJobs {x : StreamState} {Q : Nat → Nat} {U : List Nat} (l : List Job)
    (h : PoolOk x (fun i => Q i + l.countP (fun j => j.method == .copy i)) (l.map (·.target) ++ U)) :
    PoolOk (l.foldl StreamState.cancelJob x) Q U ∧ SlotSame x (l.foldl StreamState.cancelJob x) := by
  induction l generalizing x with
  | nil => exact ⟨h, .refl⟩
  | cons j l ih =>
    have e : (fun i => Q i + (j :: l).countP (fun j => j.method == .copy i)) =
        fun i => (Q i + l.countP (fun j => j.method == .copy i)) + if j.method = .copy i then 1 else 0 := by
      funext i; rw [List.countP_cons]; by_cases hm : j.method = .copy i <;> simp [hm]; omega
    rw [e] at h
    obtain ⟨h1, s1⟩ := PoolOk.cancelJob j h
    obtain ⟨h2, s2⟩ := ih h1
    exact ⟨h2, s1.trans s2⟩

theorem holds_others (l : List Job) (st k : StreamId) (hk : k ≠ st) :
    (∀ i, pinsOf (l.filter (fun j => j.stream != st)) k i = pinsOf l k i) ∧
      targetsOf (l.filter (fun j => j.stream != st)) k = targetsOf l k := by
  induction l with
  | nil => exact ⟨fun _ => rfl, rfl⟩
  | cons j l ih =>
    rw [List.filter_cons]
    split
    · exact ⟨fun i => by rw [pinsOf_cons, pinsOf_cons, ih.1], by rw [targetsOf_cons, targetsOf_cons, ih.2]⟩
    · rename_i e
      have e : j.stream = st := by simpa using e
      exact ⟨fun i => by rw [pinsOf_cons, ih.1, if_neg (fun f => hk (f.1.symm.trans e))]; rfl,
        by rw [targetsOf_cons, ih.2, if_neg (fun f => hk (f.symm.trans e))]⟩

theorem holds_own (l : List Job) (st : StreamId) :
    (∀ i, pinsOf (l.filter (fun j => j.stream != st)) st i = 0) ∧ targetsOf (l.filter (fun j => j.stream != st)) st = [] := by
  induction l with
  | nil => exact ⟨fun _ => rfl, rfl⟩
  | cons j l ih =>
    rw [List.filter_cons]
    split
    · rename_i e
      have e : j.stream ≠ st := by simpa using e
      exact ⟨fun i => by rw [pinsOf_cons, ih.1, if_neg (fun f => e f.1)], by rw [targetsOf_cons, if_neg e, ih.2]⟩
    · exact ih

theorem PoolsOk.cancelQueued {s : State} (h : PoolsOk s) (st : StreamId) : PoolsOk (s.cancelQueued st) := by
  unfold State.cancelQueued
  cases hj : s.jobs with
  | nil => exact h
  | cons j l =>
    dsimp only
    refine h.edit st (fun x => (l.filter (fun k => k.stream == st)).foldl StreamState.cancelJob x) (j :: l.filter (fun k => k.stream != st)) rfl rfl (fun k hk => ?_) ?_
    · rw [hj]
      obtain ⟨h1, h2⟩ := holds_others l st k hk
      exact ⟨fun i => by rw [pinsOf_cons, pinsOf_cons, h1], by rw [targetsOf_cons, targetsOf_cons, h2]⟩
    · obtain ⟨o, p⟩ := h st
      obtain ⟨q1, q2⟩ := holds_own l st
      set Q : Nat → Nat := pinsOf (j :: l.filter (fun k => k.stream != st)) st with hQ
      set U := targetsOf (j :: l.filter (fun k => k.stream != st)) st with hU
      have e1 : pinsOf s.jobs st = fun i => Q i + (l.filter (fun k => k.stream == st)).countP (fun j => j.method == .copy i) := by
        funext i
        rw [hQ, hj]
        show pinsOf (j :: l) st i = pinsOf (j :: l.filter (fun k => k.stream != st)) st i + _
        rw [pinsOf_cons, pinsOf_cons, q1, List.countP_filter]
        unfold pinsOf
        have : l.countP (fun j => j.stream == st && j.method == .copy i) = l.countP (fun a => a.method == .copy i && a.stream == st) := by
          congr 1; funext a; exact Bool.and_comm _ _
        rw [this]; omega
      have e2 : targetsOf s.jobs st = (if j.stream = st then [j.target] else []) ++ (l.filter (fun k => k.stream == st)).map (·.target) := by
        rw [hj, targetsOf_cons]; unfold targetsOf; split <;> rfl
      have e3 : U = if j.stream = st then [j.target] else [] := by
        rw [hU, targetsOf_cons, q2]
      have hperm : (targetsOf s.jobs st).Perm ((l.filter (fun k => k.stream == st)).map (·.target) ++ U) := by
        rw [e2, e3]; exact List.perm_append_comm
      have o' : PoolOk (s.stream st) (fun i => Q i + (l.filter (fun k => k.stream == st)).countP (fun j => j.method == .copy i))
          ((l.filter (fun k => k.stream == st)).map (·.target) ++ U) := by
        rw [e1] at o
        refine ⟨fun i b hb => ?_, o.queue, o.rising, o.oneHold, o.distinct, o.bound, o.current, o.pinned,
          hperm.nodup_iff.1 o.targets.1, fun i hi => o.targets.2 i (hperm.mem_iff.2 hi)⟩
        have b' := o.each i b hb
        exact ⟨b'.free, b'.readers, b'.shown, b'.hold, b'.kept, b'.filling, b'.number, b'.pins, fun hi => b'.target (hperm.mem_iff.2 hi)⟩
      obtain ⟨h1, s1⟩ := PoolOk.cancelJobs _ o'
      exact ⟨h1, s1.pool p⟩

theorem PoolsOk.cancelHead {s : State} (h : PoolsOk s) (st : StreamId) : PoolsOk (s.cancelHead st) := by
  unfold State.cancelHead; split
  · exact h
  · split
    · exact ((h.withdraw.onHead (fun k => { k with state := .cancelling }) (fun _ => ⟨rfl, rfl, rfl⟩)).same
        (u := { (s.withdrawRepair).onHead (fun k => { k with state := .cancelling }) with bursts := dropHeld s.bursts }) rfl rfl).settleJob
    · exact h

theorem PoolsOk.cancelRepair {s : State} (h : PoolsOk s) (st : StreamId) : PoolsOk (s.cancelRepair st) := by
  unfold State.cancelRepair; split
  · exact h
  · exact (h.cancelQueued st).cancelHead st

/-! ### Slots without a frame: building, rests, arms (R26, R70, R170, R174) -/

/-- In a slot whose buffers are all FREE nothing is pinned, nothing is the target of a job, bound, queued or current. -/
theorem PoolOk.vacant {x : StreamState} {P : Nat → Nat} {T : List Nat} (h : PoolOk x P T) (ha : AllFree x) :
    P = (fun _ => 0) ∧ T = [] ∧ (∀ b ∈ x.bufs, b = Buf.fresh b.base) ∧ x.ready = [] ∧
      (∀ r ∈ x.readers, ∀ i, r.state ≠ .bound i) ∧ ∀ i, x.mode ≠ .buffer i := by
  have free : ∀ i (b : Buf), x.bufs[i]? = some b → b.state = .free := fun i b hb => ha b (List.mem_of_getElem? hb)
  have ex : ∀ i, i < x.bufs.length → ∃ b, x.bufs[i]? = some b := fun i hi => ⟨_, List.getElem?_eq_getElem hi⟩
  refine ⟨funext (fun i => ?_), ?_, fun b hb => ?_, ?_, fun r hr i e => ?_, fun i e => ?_⟩
  · by_contra hc
    obtain ⟨b, hb⟩ := ex i (h.pinned i hc)
    have o := h.each i b hb
    have := o.pins
    rw [o.free (free i b hb)] at this; exact hc this.symm
  · by_contra hc
    obtain ⟨i, hi⟩ := List.exists_mem_of_ne_nil _ hc
    obtain ⟨b, hb, e⟩ := h.target_at i hi
    rw [free i b hb] at e; cases e
  · obtain ⟨i, hi⟩ := List.mem_iff_getElem?.1 hb
    exact (h.each i b hi).free (ha b hb)
  · by_contra hc
    obtain ⟨i, hi⟩ := List.exists_mem_of_ne_nil _ hc
    obtain ⟨b, hb, e⟩ := (h.queue i).1 hi
    rw [free i b hb] at e; cases e
  · obtain ⟨b, hb⟩ := ex i (h.bound r hr i e)
    have o := h.each i b hb
    have h0 := o.readers
    rw [o.free (free i b hb)] at h0
    have : boundTo x i ≠ 0 := by
      unfold boundTo; rw [Ne, List.countP_eq_zero]; push Not
      exact ⟨r, hr, by simp [e]⟩
    exact this h0.symm
  · obtain ⟨b, hb⟩ := ex i (h.current i e)
    have := (h.each i b hb).filling.2 e
    rw [free i b hb] at this; cases this

/-- A slot with cleared records, nothing queued, bound or current, without jobs. -/
theorem PoolOk.clean {y : StreamState} (hb : ∀ b ∈ y.bufs, b = Buf.fresh b.base) (hq : y.ready = [])
    (hr : ∀ r ∈ y.readers, ∀ i, r.state ≠ .bound i) (hm : ∀ i, y.mode ≠ .buffer i) : PoolOk y (fun _ => 0) [] := by
  have each : ∀ (i : Nat) (b : Buf), y.bufs[i]? = some b → b = Buf.fresh b.base := fun i b h => hb b (List.mem_of_getElem? h)
  have st : ∀ (i : Nat) (b : Buf), y.bufs[i]? = some b → b.state = .free := fun i b h => by rw [each i b h]; rfl
  refine ⟨fun i b h => ?_, fun i => ?_, by rw [hq]; exact List.Pairwise.nil, fun i j b c h1 _ h2 => ?_, fun i j b c h1 _ h2 => ?_,
    fun r h i e => absurd e (hr r h i), fun i e => absurd e (hm i), fun i h => absurd rfl h, List.nodup_nil, fun i h => (by cases h)⟩
  · rw [each i b h]
    refine BufOk.fresh _ ?_ (hm i) rfl (by simp)
    unfold boundTo; rw [List.countP_eq_zero]; intro r hr'; simpa using hr r hr' i
  · rw [hq]; constructor
    · intro e; cases e
    · rintro ⟨b, h1, h2⟩; rw [st i b h1] at h2; cases h2
  · rw [each i b h1] at h2; cases h2
  · exact absurd (st i b h1) h2

/-- A slot whose buffers are all FREE may be built anew. -/
theorem PoolOk.rebuilt {x : StreamState} {P : Nat → Nat} {T : List Nat} (h : PoolOk x P T) (ha : AllFree x) {y : StreamState}
    (hb : (∀ b ∈ y.bufs, b = Buf.fresh b.base) ∨ y.bufs = x.bufs) (hq : y.ready = [] ∨ y.ready = x.ready)
    (hr : (∀ r ∈ y.readers, ∀ i, r.state ≠ .bound i) ∨ y.readers = x.readers) (hm : y.mode = .none ∨ y.mode = x.mode) : PoolOk y P T := by
  obtain ⟨h1, h2, h3, h4, h5, h6⟩ := h.vacant ha
  rw [h1, h2]
  exact PoolOk.clean (hb.elim id (fun e => by rw [e]; exact h3)) (hq.elim id (fun e => e.trans h4))
    (hr.elim id (fun e => by rw [e]; exact h5)) (fun i => hm.elim (fun e => by rw [e]; simp) (fun e => by rw [e]; exact h6 i))

theorem poolOf_fresh (d : Descriptor) : ∀ b ∈ poolOf d, b = Buf.fresh b.base := by
  intro b hb
  obtain ⟨i, _, rfl⟩ := List.mem_map.1 hb; rfl

theorem poolOf_free (d : Descriptor) : ∀ b ∈ poolOf d, b.state = .free := fun b hb => by rw [poolOf_fresh d b hb]; rfl

theorem built_unbound (x : StreamState) : ∀ r ∈ x.buildReaders.readers, ∀ i, r.state ≠ .bound i := by
  intro r hr i
  change r ∈ [readerOf x.desc 0, readerOf x.desc 1] at hr
  simp only [List.mem_cons, List.not_mem_nil, or_false] at hr
  rcases hr with rfl | rfl <;> simp [readerOf]

theorem built_entries (x : StreamState) (i : Installed) (h : x.current = some i) :
    x.buildReaders.readers.map (fun r => (r.valid, r.id)) = (entriesBuilt i.desc).map (fun r => (r.valid, r.id)) := by
  have : x.desc = i.desc := by unfold StreamState.desc; rw [h]
  show ([readerOf x.desc 0, readerOf x.desc 1]).map _ = _
  rw [this]; rfl

/-- What a slot that stands still must have: no frame, FREE records of its descriptor, entries, and OFF or REFUSED. -/
theorem SlotPool.still {y : StreamState} (hl : y.life = .off ∨ y.life = .refused) (hq : y.poolQuiet = false) (hm : y.mode = .none)
    (ha : AllFree y) (hb : y.bufs = [] ∨ y.bufs.map (·.base) = (poolBuilt y.desc).map (·.base))
    (he : ∃ i, y.current = some i ∧ y.readers.map (fun r => (r.valid, r.id)) = (entriesBuilt i.desc).map (fun r => (r.valid, r.id))) :
    SlotPool y := by
  obtain ⟨i, h1, h2⟩ := he
  exact ⟨hb, by rw [h1]; exact h2, fun _ => by rw [h1]; rfl, fun _ => ⟨hm, ha⟩, fun e => by rw [hq] at e; (cases e),
    fun e => by rcases hl with f | f <;> rw [f] at e <;> cases e⟩

/-- A slot in which nothing happens: no frame, every record FREE, a descriptor in force. -/
structure Still (x : StreamState) (P : Nat → Nat) (T : List Nat) : Prop where
  ok : PoolOk x P T
  free : AllFree x
  mode : x.mode = .none
  desc : ∃ i, x.current = some i

theorem Still.restOff {x : StreamState} {P : Nat → Nat} {T : List Nat} (h : Still x P T) : PoolOk x.restOff P T ∧ SlotPool x.restOff := by
  obtain ⟨i, hi⟩ := h.desc
  unfold StreamState.restOff StreamState.standbyPool
  split
  · refine ⟨h.ok.rebuilt h.free (.inl (poolOf_fresh _)) (.inl rfl) (.inl (built_unbound _)) (.inr rfl), ?_⟩
    exact SlotPool.still (.inl rfl) rfl h.mode (poolOf_free _) (.inr rfl) ⟨i, hi, built_entries _ i hi⟩
  · refine ⟨h.ok.rebuilt h.free (.inl (fun b hb => (by cases hb))) (.inl rfl) (.inl (built_unbound _)) (.inr rfl), ?_⟩
    exact SlotPool.still (.inl rfl) rfl h.mode (fun b hb => (by cases hb)) (.inl rfl) ⟨i, hi, built_entries _ i hi⟩

theorem Still.restRefused {x : StreamState} {P : Nat → Nat} {T : List Nat} (h : Still x P T) :
    PoolOk x.restRefused P T ∧ SlotPool x.restRefused := by
  obtain ⟨i, hi⟩ := h.desc
  refine ⟨h.ok.rebuilt h.free (.inl (fun b hb => (by cases hb))) (.inl rfl) (.inl (built_unbound _)) (.inr rfl), ?_⟩
  exact SlotPool.still (.inr rfl) rfl h.mode (fun b hb => (by cases hb)) (.inl rfl) ⟨i, hi, built_entries _ i hi⟩

theorem Still.rearm {x : StreamState} {P : Nat → Nat} {T : List Nat} (h : Still x P T) : PoolOk x.rearm P T ∧ SlotPool x.rearm := by
  obtain ⟨i, hi⟩ := h.desc
  refine ⟨h.ok.rebuilt h.free (.inl (poolOf_fresh _)) (.inl rfl) (.inl (built_unbound _)) (.inr rfl), ?_⟩
  exact SlotPool.still (.inl rfl) rfl h.mode (poolOf_free _) (.inr rfl) ⟨i, hi, built_entries _ i hi⟩

theorem Still.follow {x : StreamState} {P : Nat → Nat} {T : List Nat} (h : Still x P T) (o : DescOutcome) :
    PoolOk (x.follow o) P T ∧ SlotPool (x.follow o) := by
  cases o with
  | disabled => exact h.restOff
  | enabled => exact h.rearm
  | refused => exact h.restRefused

theorem Still.afterDrain {x : StreamState} {P : Nat → Nat} {T : List Nat} (h : Still x P T) :
    PoolOk x.afterDrain P T ∧ SlotPool x.afterDrain := by
  unfold StreamState.afterDrain
  split
  · exact h.restRefused
  · split
    · exact h.rearm
    · exact h.restOff
  · exact h.restOff
  · exact h.restOff

/-- A descriptor comes into force in a slot without a frame. -/
theorem PoolOk.still {x y : StreamState} {P : Nat → Nat} {T : List Nat} (h : PoolOk x P T) (ha : AllFree x) (hm : x.mode = .none)
    (hb : y.bufs = x.bufs) (hq : y.ready = x.ready) (hr : y.readers = x.readers) (hy : y.mode = x.mode)
    (hc : ∃ i, y.current = some i) : Still y P T :=
  ⟨h.rebuilt ha (.inr hb) (.inr hq) (.inr hr) (.inr hy), by unfold AllFree; rw [hb]; exact ha, by rw [hy]; exact hm, hc⟩

/-! ### The five requests of a teardown and the drain end (R24, R25, R173, R174) -/

theorem PoolsOk.endDrain {s : State} (h : PoolsOk s) (st : StreamId) (hl : (s.stream st).life = .draining)
    (hq : (s.stream st).poolQuiet = true) (ht : 1 ≤ (s.stream st).drainTaken) : PoolsOk (s.endDrain st) := by
  have free := ((h st).2.quiet hq).2
  have mode := (h st).2.captured hl ht
  have desc : ∃ i, (s.stream st).current = some i := Option.isSome_iff_exists.1 ((h st).2.live (.inr hl))
  unfold State.endDrain; split
  · refine h.on st _ (fun o => ?_)
    exact (o.1.still (y := (s.stream st).raise .streamDown) free mode rfl rfl rfl rfl desc).restOff
  · have h1 : PoolsOk (s.onStream st (fun x => ((x.raise .streamDown).switch).afterDrain)) := by
      refine h.on st _ (fun o => ?_)
      refine (o.1.still (y := ((s.stream st).raise .streamDown).switch) free mode ?_ ?_ ?_ ?_ ?_).afterDrain
      all_goals unfold StreamState.switch
      · split <;> rfl
      · split <;> rfl
      · split <;> rfl
      · split <;> rfl
      · split
        · exact ⟨_, rfl⟩
        · exact desc
    rw [State.leaveWaitSet_frame]
    exact h1.same rfl rfl

theorem PoolsOk.settleDrain {s : State} (h : PoolsOk s) (st : StreamId) : PoolsOk (s.settleDrain st) := by
  unfold State.settleDrain; dsimp only; split
  · rename_i c; exact h.endDrain st c.1 c.2.1 (by rw [c.2.2]; omega)
  · exact h

theorem PoolsOk.reportQuiet {s : State} (h : PoolsOk s) (st : StreamId) (b : StreamState) (r : Bool) :
    PoolsOk (s.reportQuiet st b r) := by
  unfold State.reportQuiet; dsimp only; split
  · rename_i c
    refine h.on st _ (fun o => ⟨o.1.aside rfl rfl rfl rfl rfl rfl rfl, o.2.bases, o.2.entries, o.2.live, o.2.rest, fun _ => ⟨c.1, ?_⟩, o.2.captured⟩)
    intro d hd
    have := c.2.1
    unfold StreamState.allFree at this
    simpa using List.all_eq_true.1 this d hd
  · exact h

theorem PoolsOk.teardown {s : State} (h : PoolsOk s) (st : StreamId) (hl : (s.stream st).life = .draining) :
    PoolsOk (s.takeTeardown st) := by
  unfold State.takeTeardown; dsimp only
  refine PoolsOk.settleDrain (PoolsOk.reportQuiet ?_ st _ _) st
  have taken : ∀ u : State, PoolsOk u → ((u.stream st).life = .draining → (u.stream st).mode = .none) →
      PoolsOk (u.onStream st (fun x => { x with drainTaken := (s.stream st).drainTaken + 1 })) := by
    intro u hu hm
    refine hu.on st _ (fun o => ⟨o.1.aside rfl rfl rfl rfl rfl rfl rfl, o.2.bases, o.2.entries, o.2.live, o.2.rest, o.2.quiet, fun e _ => hm e⟩)
  have stays : ∀ f : StreamState → StreamState, SlotSame (s.stream st) (f (s.stream st)) → 1 ≤ (s.stream st).drainTaken →
      ((s.onStream st f).stream st).life = .draining → ((s.onStream st f).stream st).mode = .none := by
    intro f sf ht _
    rw [State.stream_onStream]
    have := (h st).2.captured hl ht
    exact sf.mode.elim (fun e => e.trans this) id
  unfold State.teardownTaking
  split
  · refine taken _ (h.moves st _ (fun o => ⟨o.captureTeardown.1, o.captureTeardown.2.1⟩)) (fun _ => ?_)
    rw [State.stream_onStream]; exact (h st).1.captureTeardown.2.2
  · rename_i e
    exact taken _ (h.moves st _ (fun o => o.cadenceTeardown)) (stays _ (h st).1.cadenceTeardown.2 (by omega))
  · rename_i e
    exact taken _ (h.moves st _ (fun o => o.poolTeardown)) (stays _ (h st).1.poolTeardown.2 (by omega))
  · rename_i e
    exact taken _ (h.moves st _ (fun o => o.presentationTeardown)) (stays _ (h st).1.presentationTeardown.2 (by omega))
  · rename_i h0 _ _ _
    have hc := h.cancelRepair st
    refine taken _ hc (fun e => (hc st).2.captured e ?_)
    rw [(State.cancelRepair_sameLock s st st).taken]; exact Nat.one_le_iff_ne_zero.2 h0

/-! ### Arms (R170, R171) and the start of a teardown (R172, R177) -/

/-- A slot whose lifecycle moves to ACTIVE, or to DRAINING with no request taken. -/
theorem SlotPool.moved {x y : StreamState} (h : SlotPool x) (hb : y.bufs = x.bufs) (hr : y.readers = x.readers)
    (hc : y.current = x.current) (hd : x.current.isSome = true) (hq : y.poolQuiet = false)
    (hl : y.life = .active ∨ (y.life = .draining ∧ y.drainTaken = 0)) : SlotPool y where
  bases := by rw [hb, desc_of_current hc]; exact h.bases
  entries := by rw [hr, hc]; exact h.entries
  live _ := by rw [hc]; exact hd
  rest e := by rcases hl with f | ⟨f, _⟩ <;> rw [f] at e <;> simp at e
  quiet e := by rw [hq] at e; cases e
  captured e ht := by
    rcases hl with f | ⟨_, f⟩
    · rw [f] at e; cases e
    · omega

theorem PoolOk.armMessage {x : StreamState} {P : Nat → Nat} {T : List Nat} (h : PoolOk x P T) (p : SlotPool x) (k : SlotLock x)
    (ha : x.armAwaited ≠ []) (now : Micros) (b : ArmBlock) :
    PoolOk ((x.armBlock now b).armTaken b) P T ∧ SlotPool ((x.armBlock now b).armTaken b) := by
  obtain ⟨hl, hp⟩ := k.arming ha
  obtain ⟨hm, hf⟩ := p.rest (.inl hl)
  have hdesc : x.current.isSome = true := by
    cases hc : x.current with
    | some i => rfl
    | none =>
      have : x.desc = [] := by unfold StreamState.desc; rw [hc]
      rw [this] at hp; exact absurd hp.1 (by decide)
  obtain ⟨i, hi⟩ := Option.isSome_iff_exists.1 hdesc
  have hq : x.poolQuiet = false := by
    by_contra hc
    have := (p.quiet (by simpa using hc)).1
    rw [hl] at this; cases this
  -- the block's own part
  have block : PoolOk (x.armBlock now b) P T ∧ SlotPool (x.armBlock now b) := by
    have entries : x.readers.map (fun r => (r.valid, r.id)) = (entriesBuilt i.desc).map (fun r => (r.valid, r.id)) := by
      have := p.entries; rw [hi] at this; exact this
    cases b with
    | poolManager =>
      exact ⟨h.rebuilt hf (.inl (poolOf_fresh _)) (.inl rfl) (.inr rfl) (.inr rfl),
        SlotPool.still (.inl hl) hq hm (poolOf_free _) (.inr rfl) ⟨i, hi, entries⟩⟩
    | captureUnit =>
      exact ⟨h.rebuilt hf (.inr rfl) (.inr rfl) (.inr rfl) (.inl rfl), SlotPool.still (.inl hl) hq rfl hf p.bases ⟨i, hi, entries⟩⟩
    | presentationUnit =>
      exact ⟨h.rebuilt hf (.inr rfl) (.inr rfl) (.inl (built_unbound _)) (.inr rfl),
        SlotPool.still (.inl hl) hq hm hf p.bases ⟨i, hi, built_entries _ i hi⟩⟩
    | cadenceMonitor =>
      exact ⟨h.rebuilt hf (.inr rfl) (.inr rfl) (.inr rfl) (.inr rfl), SlotPool.still (.inl hl) hq hm hf p.bases ⟨i, hi, entries⟩⟩
    | eventUnit =>
      exact ⟨h.rebuilt hf (.inr rfl) (.inr rfl) (.inr rfl) (.inr rfl), SlotPool.still (.inl hl) hq hm hf p.bases ⟨i, hi, entries⟩⟩
  have keep : (x.armBlock now b).current.isSome = true ∧ (x.armBlock now b).poolQuiet = false := by cases b <;> exact ⟨hdesc, hq⟩
  generalize x.armBlock now b = y at block keep ⊢
  unfold StreamState.armTaken; dsimp only; split
  · exact ⟨block.1.aside rfl rfl rfl rfl rfl rfl rfl, block.2.moved rfl rfl rfl keep.1 keep.2 (.inl rfl)⟩
  · exact ⟨block.1.aside rfl rfl rfl rfl rfl rfl rfl, SlotSame.pool (x := y) ⟨rfl, rfl, rfl, rfl, rfl, rfl, .inl rfl, id⟩ block.2⟩

/-- An arm starts in an OFF slot (R171). -/
theorem PoolsOk.beginArm {s : State} (h : PoolsOk s) (st : StreamId) (hl : (s.stream st).life = .off) :
    PoolsOk (s.onStream st StreamState.beginArm) :=
  h.moves st _ (fun o => ⟨o.aside rfl rfl rfl rfl rfl rfl rfl, rfl, hl.symm, rfl, rfl, rfl, rfl, .inl rfl, id⟩)

/-- A teardown starts in an ACTIVE slot (R172, R173). -/
theorem PoolsOk.beginTeardown {s : State} (h : PoolsOk s) (st : StreamId) (hl : (s.stream st).life = .active) :
    PoolsOk (s.onStream st (fun x => { x with armRequest := false }.beginTeardown)) :=
  h.on st _ (fun o => ⟨o.1.aside rfl rfl rfl rfl rfl rfl rfl, o.2.moved rfl rfl rfl (o.2.live (.inl hl)) rfl (.inr ⟨rfl, rfl⟩)⟩)

/-! ### Upstream takings (Chapters 2, 4, 7) -/

/-- A slot that runs, whatever its frame. -/
theorem SlotPool.running {x y : StreamState} (h : SlotPool x) (hl : x.life = .active) (hy : y.life = x.life) (hb : y.bufs.map (·.base) = x.bufs.map (·.base))
    (hr : y.readers = x.readers) (hc : y.current = x.current) (hq : y.poolQuiet = x.poolQuiet) : SlotPool y where
  bases := by
    rcases h.bases with e | e
    · left; rw [e] at hb; simpa using hb
    · right; rw [hb, e, desc_of_current hc]
  entries := by rw [hr, hc]; exact h.entries
  live _ := by rw [hc]; exact h.live (.inl hl)
  rest e := by rw [hy, hl] at e; simp at e
  quiet e := by
    have := (h.quiet (by rw [← hq]; exact e)).1
    rw [hl] at this; cases this
  captured e := by rw [hy, hl] at e; cases e

theorem map_base_modify (l : List Buf) (i : Nat) (f : Buf → Buf) (hf : ∀ b, (f b).base = b.base) :
    (l.modify i f).map (·.base) = l.map (·.base) := by
  apply List.ext_getElem?; intro j
  rw [List.getElem?_map, List.getElem?_map, List.getElem?_modify]
  cases l[j]? with
  | none => rfl
  | some b => by_cases e : i = j <;> simp [e, hf]

theorem beginFrame_keeps (x : StreamState) : x.beginFrame.life = x.life ∧ x.beginFrame.bufs.map (·.base) = x.bufs.map (·.base) ∧
    x.beginFrame.readers = x.readers ∧ x.beginFrame.current = x.current ∧ x.beginFrame.poolQuiet = x.poolQuiet := by
  by_cases hm : x.mode = .none
  · rw [StreamState.beginFrame_none x hm]
    unfold StreamState.startFrame; dsimp only
    have fb : ∀ b : Buf, (Buf.fill (x.lastSeq + 1#32) b).base = b.base := fun _ => rfl
    split
    · exact ⟨rfl, map_base_modify _ _ _ fb, rfl, rfl, rfl⟩
    · split
      · exact ⟨rfl, map_base_modify _ _ _ fb, rfl, rfl, rfl⟩
      · exact ⟨rfl, rfl, rfl, rfl, rfl⟩
  · rw [StreamState.beginFrame_not x hm]; exact ⟨rfl, rfl, rfl, rfl, rfl⟩

theorem PoolsOk.beginFrame {s : State} (h : PoolsOk s) (st : StreamId) (hl : (s.stream st).life = .active)
    (hn : (s.stream st).sequenceEnded = false) : PoolsOk (s.onStream st StreamState.beginFrame) := by
  refine h.on st _ (fun o => ?_)
  have hn' : (s.stream st).mode ≠ .none ∨ (s.stream st).lastSeq ≠ 0xFFFFFFFF#32 := by
    by_contra hc; push Not at hc
    have := (StreamState.sequenceEnded_iff _).2 hc
    rw [hn] at this; cases this
  obtain ⟨h1, h2, h3, h4, h5⟩ := beginFrame_keeps (s.stream st)
  exact ⟨o.1.beginFrame hn', o.2.running hl h1 h2 h3 h4 h5⟩

theorem PoolsOk.count {s : State} (h : PoolsOk s) (st : StreamId) (c : Counter) : PoolsOk (s.onStream st (·.count c)) :=
  h.moves st _ (fun o => ⟨o.aside rfl rfl rfl rfl rfl rfl rfl, rfl, rfl, rfl, rfl, rfl, rfl, .inl rfl, id⟩)

theorem PoolsOk.takeLineWrite {s v : State} (h : PoolsOk s) (t : Txn) (st : StreamId) (o : Nat) (hl : (s.stream st).life = .active)
    (hv : s.takeLineWrite t st o = .next v) : PoolsOk v := by
  unfold State.takeLineWrite at hv; split at hv
  · cases hv; exact (h.count st _).same rfl rfl
  · rename_i hn
    have h1 := h.beginFrame st hl (by simpa using hn)
    dsimp only at hv
    generalize s.onStream st StreamState.beginFrame = u at h1 hv
    split at hv
    · rename_i i hm
      unfold State.forwardWrite at hv; split at hv
      · cases hv
      · rename_i b ho
        cases hv
        have hb := ((h1 st).1.each i b ho).filling.2 hm
        refine PoolsOk.same (h1.moves st (fun x => (x.onBuf i (Buf.mark (linesMarked x.desc o t.length))).increment i) (fun p => ?_)) rfl rfl
        obtain ⟨p1, s1⟩ := p.touch i (Buf.mark (linesMarked (u.stream st).desc o t.length)) (fun c hc => by
          rw [ho] at hc; cases hc
          exact ⟨rfl, rfl, rfl, rfl, rfl, rfl, fun e => by rw [hb] at e; cases e⟩)
        obtain ⟨p2, s2⟩ := p1.increment i (fun c hc => by
          rw [StreamState.onBuf_at _ _ _ _ ho] at hc
          have := getElem_set_at _ _ _ (Buf.mark (linesMarked (u.stream st).desc o t.length) b) ho
          change ((u.stream st).bufs.set i _)[i]? = _ at hc
          rw [this] at hc; cases hc
          show b.state ≠ _; rw [hb]; simp)
        exact ⟨p2, s1.trans s2⟩
    · cases hv; exact h1.same rfl rfl
    · cases hv; exact h1.same rfl rfl

theorem PoolsOk.takeExcessWrite {s : State} (h : PoolsOk s) (t : Txn) (st : StreamId) (hl : (s.stream st).life = .active) :
    PoolsOk (s.takeExcessWrite t st) := by
  unfold State.takeExcessWrite
  refine PoolsOk.same (s := s.onStream st (fun x => if x.sequenceEnded then x.count .excessWrites else x.beginFrame.count .excessWrites)) ?_ rfl rfl
  by_cases hn : (s.stream st).sequenceEnded = true
  · have : s.onStream st (fun x => if x.sequenceEnded then x.count .excessWrites else x.beginFrame.count .excessWrites) =
        s.onStream st (·.count .excessWrites) := by unfold State.onStream; dsimp only; rw [if_pos hn]
    rw [this]; exact h.count st _
  · have : s.onStream st (fun x => if x.sequenceEnded then x.count .excessWrites else x.beginFrame.count .excessWrites) =
        (s.onStream st StreamState.beginFrame).onStream st (·.count .excessWrites) := by
      rw [show (s.onStream st StreamState.beginFrame) = s.setStream st (s.stream st).beginFrame from rfl, State.onStream_setStream]
      unfold State.onStream; dsimp only; rw [if_neg hn]
    rw [this]; exact (h.beginFrame st hl (by simpa using hn)).count st _

theorem PoolsOk.handleClose {s : State} (h : PoolsOk s) (st : StreamId) (c : Decode.CloseRecord) (now : Micros) (early : Bool) :
    PoolsOk (s.handleClose st c now early) := by
  unfold State.handleClose; split
  · rename_i i hm
    exact (h.moves st _ (fun o => o.closeBuffer i c now early hm)).drain st i
  · refine h.moves st _ (fun o => ?_)
    have o1 : PoolOk ((s.stream st).count .emptyCloses) (pinsOf s.jobs st) (targetsOf s.jobs st) := o.aside rfl rfl rfl rfl rfl rfl rfl
    obtain ⟨h1, s1, _⟩ := o1.lockInput .fault
    have s0 : SlotSame (s.stream st) ((s.stream st).count .emptyCloses) := ⟨rfl, rfl, rfl, rfl, rfl, rfl, .inl rfl, id⟩
    exact ⟨h1, s0.trans s1⟩
  · rename_i hm
    exact h.moves st _ (fun o => o.closeSink c hm)

theorem PoolsOk.takeClose {s : State} (h : PoolsOk s) (t : Txn) (st : StreamId) : PoolsOk (s.takeClose t st) := by
  unfold State.takeClose; dsimp only
  have h1 : PoolsOk (s.onStream st (fun x => x.arrive s.now)) := h.moves st _ (fun o => o.arrive s.now)
  generalize s.onStream st (fun x => x.arrive s.now) = u at h1 ⊢
  have h2 := h1.handleClose st (Decode.closeRecord (TxnBody.data t.body)) s.now ((s.stream st).isEarly s.now)
  generalize u.handleClose st _ _ _ = v at h2 ⊢
  exact h2.same (State.acknowledge_streams v t) (State.acknowledge_jobs v t)

theorem reader_there {x : StreamState} (h : SlotPool x) (hl : x.life = .active) (k : ReaderSlot) : ∃ r, x.readers[k.val]? = some r := by
  obtain ⟨i, hi⟩ := Option.isSome_iff_exists.1 (h.live (.inl hl))
  have := congrArg List.length h.entries
  rw [hi] at this
  have len : x.readers.length = 2 := by simpa [entriesBuilt] using this
  exact ⟨_, List.getElem?_eq_getElem (by rw [len]; exact k.isLt)⟩

theorem PoolsOk.takeClaim {s : State} (h : PoolsOk s) (t : Txn) (st : StreamId) (k : ReaderSlot) (hl : (s.stream st).life = .active) :
    PoolsOk (s.takeClaim t st k) := by
  unfold State.takeClaim; dsimp only
  obtain ⟨r, hr⟩ := reader_there (h st).2 hl k
  have h1 : PoolsOk (s.onStream st (fun x => x.claim s.now k)) := h.moves st _ (fun o => o.claim s.now k r hr)
  generalize s.onStream st (fun x => x.claim s.now k) = u at h1 ⊢
  exact h1.same rfl rfl

theorem reader_bound {x : StreamState} (k : ReaderSlot) (i : Nat) (h : (x.reader k).state = .bound i) :
    ∃ r, x.readers[k.val]? = some r ∧ r.state = .bound i := by
  unfold StreamState.reader at h
  rw [List.getD_eq_getElem?_getD] at h
  cases hk : x.readers[k.val]? with
  | none => rw [hk] at h; cases h
  | some r => rw [hk] at h; exact ⟨r, rfl, h⟩

theorem PoolsOk.takePresentationRead {s v : State} (h : PoolsOk s) (t : Txn) (st : StreamId) (k : ReaderSlot) (o : Nat) (f : BitVec 32)
    (hv : s.takePresentationRead t st k o f = .next v) : PoolsOk v := by
  unfold State.takePresentationRead at hv; split at hv
  · rename_i i hi
    split at hv
    · cases hv
      refine PoolsOk.same (h.moves st (fun x => x.increment i) (fun p => p.increment i (fun b hb => ?_))) rfl rfl
      obtain ⟨r, hr, e⟩ := reader_bound k i hi
      have o := p.each i b hb
      have : boundTo (s.stream st) i ≠ 0 := by
        unfold boundTo; rw [Ne, List.countP_eq_zero]; push Not
        exact ⟨r, List.mem_of_getElem? hr, by simp [e]⟩
      rw [o.shown.2 (by rw [o.readers]; exact this)]; simp
    · cases hv
  all_goals cases hv; exact h.same rfl rfl

/-- The classes of an ACTIVE stream. -/
theorem class_active (s : State) (t : Txn) (st : StreamId)
    (h : (∃ o, s.classify t = .lineWrite st o) ∨ s.classify t = .excessWrite st ∨ ∃ k, s.classify t = .claim st k) :
    (s.stream st).life = .active := by
  have win : ∀ m : Match, ((∃ o, s.classifyWindow t m = .lineWrite st o) ∨ s.classifyWindow t m = .excessWrite st ∨
      ∃ k, s.classifyWindow t m = .claim st k) → (s.stream st).life = .active := by
    intro m hm
    unfold State.classifyWindow at hm; dsimp only at hm
    by_cases hl : (s.stream m.stream).life = .active
    · have hc : ∀ o b, ((∃ n, classifyCapture m.stream m.entry o b = .lineWrite st n) ∨ classifyCapture m.stream m.entry o b = .excessWrite st ∨
          ∃ k, classifyCapture m.stream m.entry o b = .claim st k) → m.stream = st := by
        intro o b hb
        unfold classifyCapture at hb
        split at hb
        all_goals first
          | (rcases hb with ⟨n, e⟩ | e | ⟨n, e⟩ <;> first | (cases e; rfl) | cases e)
          | (split at hb <;> rcases hb with ⟨n, e⟩ | e | ⟨n, e⟩ <;> cases e)
      have hp : ∀ k o n, ((∃ j, classifyPresentation m.stream k m.entry o n = .lineWrite st j) ∨ classifyPresentation m.stream k m.entry o n = .excessWrite st ∨
          ∃ j, classifyPresentation m.stream k m.entry o n = .claim st j) → m.stream = st := by
        intro k o n hb
        unfold classifyPresentation at hb
        split at hb
        · rcases hb with ⟨n, e⟩ | e | ⟨n, e⟩ <;> cases e
        · rcases hb with ⟨n, e⟩ | e | ⟨n, e⟩ <;> cases e
        · split at hb
          · rcases hb with ⟨n, e⟩ | e | ⟨n, e⟩ <;> first | (cases e; rfl) | cases e
          · split at hb <;> rcases hb with ⟨n, e⟩ | e | ⟨n, e⟩ <;> cases e
      suffices m.stream = st by rw [← this]; exact hl
      rw [hl] at hm
      split at hm
      · split at hm
        · rcases hm with ⟨n, e⟩ | e | ⟨n, e⟩ <;> cases e
        · exact hc _ _ hm
      · split at hm
        · rcases hm with ⟨n, e⟩ | e | ⟨n, e⟩ <;> cases e
        · rcases hm with ⟨n, e⟩ | e | ⟨n, e⟩ <;> cases e
        · exact hp _ _ _ hm
    · have hl' : ((s.stream m.stream).life == Lifecycle.active) = false := by simpa using hl
      rw [hl'] at hm
      exfalso
      unfold classifyDormantCapture classifyDormantPresentation at hm
      simp only [Bool.false_eq_true, if_false] at hm
      repeat' split at hm
      all_goals (rcases hm with ⟨n, e⟩ | e | ⟨n, e⟩ <;> cases e)
  unfold State.classify at h
  split at h
  · rcases h with ⟨n, e⟩ | e | ⟨n, e⟩ <;> cases e
  · split at h
    · rcases h with ⟨n, e⟩ | e | ⟨n, e⟩ <;> cases e
    · split at h
      · split at h
        · exact win _ h
        · rcases h with ⟨n, e⟩ | e | ⟨n, e⟩ <;> cases e
      · split at h <;> rcases h with ⟨n, e⟩ | e | ⟨n, e⟩ <;> cases e

theorem PoolsOk.answer {s : State} (h : PoolsOk s) (t : Txn) (st : Status) (d : List Byte) : PoolsOk (s.answer t st d) := h.same rfl rfl

theorem PoolsOk.refuse {s : State} (h : PoolsOk s) (t : Txn) (cause : FaultCause) (st : Option StreamId) : PoolsOk (s.refuse t cause st) := by
  unfold State.refuse
  refine PoolsOk.answer ?_ t .error []
  generalize hf : ({ initiator := t.initiator, dir := Txn.dir t, address := t.address, cause := cause, stream := st } : FaultRecord) = f
  have h1 : PoolsOk { s with fault := f } := h.same rfl rfl
  cases st with
  | none => exact h1.same rfl rfl
  | some st =>
    exact PoolsOk.moves h1 st (·.raise .accessFault) (fun o => ⟨o.aside rfl rfl rfl rfl rfl rfl rfl, rfl, rfl, rfl, rfl, rfl, rfl, .inl rfl, id⟩)

theorem PoolsOk.takeAs {s v : State} (h : PoolsOk s) (t : Txn) (c : Machine.Class)
    (act : ∀ st, ((∃ o, c = .lineWrite st o) ∨ c = .excessWrite st ∨ ∃ k, c = .claim st k) → (s.stream st).life = .active)
    (hv : s.takeAs t c = .next v) : PoolsOk v := by
  cases c with
  | forward => injection hv with hv; rw [← hv]; exact h.same rfl rfl
  | refuse cause st => injection hv with hv; rw [← hv]; exact h.refuse t cause st
  | lineWrite st o => exact h.takeLineWrite t st o (act st (.inl ⟨o, rfl⟩)) hv
  | excessWrite st => injection hv with hv; rw [← hv]; exact h.takeExcessWrite t st (act st (.inr (.inl rfl)))
  | captureLineRead st o fill =>
    change s.takeCaptureRead t st o fill = _ at hv
    unfold State.takeCaptureRead at hv
    split at hv
    · split at hv <;> cases hv; exact h.same rfl rfl
    · cases hv; exact h.same rfl rfl
    · cases hv; exact h.same rfl rfl
  | close st => injection hv with hv; rw [← hv]; exact h.takeClose t st
  | claim st k => injection hv with hv; rw [← hv]; exact h.takeClaim t st k (act st (.inr (.inr ⟨k, rfl⟩)))
  | presentationLineRead st k o fill => exact h.takePresentationRead t st k o fill hv
  | _ => injection hv with hv; rw [← hv]; exact h.same rfl rfl

theorem PoolsOk.offered {s v : State} (h : PoolsOk s) (t : Txn) (hv : s.offered t (State.takeAny t) = .next v) : PoolsOk v := by
  unfold State.offered at hv; split at hv
  · split at hv
    · have h1 : PoolsOk { s with ports := { Ports.quiet with accepted := true } } := h.same rfl rfl
      exact PoolsOk.takeAs h1 t _ (class_active _ t) hv
    · cases hv; exact h.same rfl rfl
  · cases hv

/-! ### Hand-offs (R163, R164, R168, R177) -/

/-- A slot that is OFF or REFUSED takes a descriptor. -/
theorem PoolOk.installed {x y : StreamState} {P : Nat → Nat} {T : List Nat} (h : PoolOk x P T) (p : SlotPool x)
    (hl : x.life = .off ∨ x.life = .refused) (i : Installed) (hb : y.bufs = x.bufs) (hq : y.ready = x.ready)
    (hr : y.readers = x.readers) (hm : y.mode = x.mode) :
    PoolOk ((y.install i).follow i.outcome) P T ∧ SlotPool ((y.install i).follow i.outcome) :=
  (h.still (y := y.install i) (p.rest hl).2 (p.rest hl).1 hb hq hr hm ⟨i, rfl⟩).follow i.outcome

theorem PoolsOk.handOffStart {s : State} (h : PoolsOk s) (c : CopyIndex) (b : List Byte) (hl : ∀ st, (s.stream st).life = .off) :
    PoolsOk (s.handOffStart c b) := by
  intro st
  have hj : (s.handOffStart c b).jobs = s.jobs := by rw [State.handOffStart_frame]
  rw [State.handOffStart_stream, hj]
  exact (h st).1.installed (h st).2 (.inl (hl st)) _ rfl rfl rfl rfl

theorem PoolOk.reloadSlot {x : StreamState} {P : Nat → Nat} {T : List Nat} (h : PoolOk x P T) (p : SlotPool x) (i : Installed) :
    PoolOk (StreamState.reloadSlot i x) P T ∧ SlotPool (StreamState.reloadSlot i x) := by
  unfold StreamState.reloadSlot; split
  · rename_i hl
    exact ⟨h.aside rfl rfl rfl rfl rfl rfl rfl, p.moved rfl rfl rfl (p.live (.inl hl)) rfl (.inr ⟨rfl, rfl⟩)⟩
  · exact ⟨h.aside rfl rfl rfl rfl rfl rfl rfl, SlotSame.pool (x := x) ⟨rfl, rfl, rfl, rfl, rfl, rfl, .inl rfl, id⟩ p⟩
  · rename_i hl
    have e : x.dropArm.bufs = x.bufs ∧ x.dropArm.ready = x.ready ∧ x.dropArm.readers = x.readers ∧ x.dropArm.mode = x.mode := by
      unfold StreamState.dropArm; split <;> exact ⟨rfl, rfl, rfl, rfl⟩
    exact h.installed p (.inl hl) i e.1 e.2.1 e.2.2.1 e.2.2.2
  · rename_i hl
    exact h.installed p (.inr hl) i rfl rfl rfl rfl

theorem PoolsOk.handOffReload {s : State} (h : PoolsOk s) (c : CopyIndex) (b : List Byte) : PoolsOk (s.handOffReload c b) := by
  unfold State.handOffReload; dsimp only
  set ds := imageDescriptors b
  set t : State := { s with generation := Decode.imageGeneration b, copyIndex := some c } with ht
  have h0 : PoolsOk t := h.same rfl rfl
  have h1 : PoolsOk (allStreams.foldl (State.reloadOne s.place ds) t) := by
    intro st
    have hj : (allStreams.foldl (State.reloadOne s.place ds) t).jobs = t.jobs := by rw [State.foldl_reloadOne_frame]
    rw [hj, (State.foldl_reloadOne_spec s.place ds allStreams t (by decide)).1]
    split
    · exact (h0 st).1.reloadSlot (h0 st).2 _
    · exact h0 st
  generalize allStreams.foldl (State.reloadOne s.place ds) t = u at h1 ⊢
  split
  · exact h1.same rfl rfl
  · exact h1

/-- The evaluation of a load (R151, R154, R155): a START load is read in LOADING, where no slot runs. -/
theorem PoolsOk.settleLoad {s : State} (h : PoolsOk s) (idle : s.device ≠ .running → ∀ st, SlotIdle (s.stream st))
    (start : ∀ l, s.load = some l → l.purpose = .start → s.device = .loading) : PoolsOk s.settleLoad := by
  unfold State.settleLoad
  cases hl : s.load with
  | none => exact h
  | some l =>
    dsimp only; split
    · exact h
    · have h1 : PoolsOk { s with load := none } := h.same rfl rfl
      split
      · rename_i hp
        have off : ∀ st, (State.stream { s with load := none } st).life = .off := fun st =>
          (idle (by rw [start l hl hp]; simp) st).2.2
        unfold State.evaluateStart; split
        · exact PoolsOk.handOffStart h1 _ _ off
        · exact h1.same rfl rfl
      · unfold State.evaluateReload; split
        · exact h1.same rfl rfl
        · rename_i c _
          split
          · exact h1.same rfl rfl
          · split
            · rename_i hd
              have off : ∀ st, (State.stream { s with load := none } st).life = .off := fun st =>
                (idle (by rw [show s.device = _ from hd]; simp) st).2.2
              have h2 := PoolsOk.handOffStart h1 c (l.copies.get c).bytes off
              generalize State.handOffStart _ c _ = v at h2 ⊢
              exact h2.same rfl rfl
            · exact PoolsOk.handOffReload h1 _ _

/-! ### Grants and returns (R138, R142 to R144) -/

theorem PoolsOk.increment {s : State} (h : PoolsOk s) (st : StreamId) (i : Nat)
    (hf : ∀ b, (s.stream st).bufs[i]? = some b → b.state ≠ .free) : PoolsOk (s.onStream st (fun x => x.increment i)) :=
  h.moves st _ (fun o => o.increment i hf)

theorem PoolsOk.jobIssued {s : State} (h : PoolsOk s) : PoolsOk s.jobIssued :=
  h.onHead (fun j => { j with outstanding := j.outstanding + 1 }) (fun _ => ⟨rfl, rfl, rfl⟩)

theorem PoolsOk.burstIssued {s : State} (h : PoolsOk s) (d : Descriptor) (j : Job) (cov : List Nat) (ph : BurstPhase) :
    PoolsOk (s.burstIssued d j cov ph) := by
  unfold State.burstIssued; dsimp only
  have h1 : PoolsOk { s with bursts := s.bursts ++ [{ slot := s.freeRepairSlot, offset := burstOffset d j, length := burstLength d j, phase := ph }] } :=
    h.same rfl rfl
  refine PoolsOk.jobIssued (PoolsOk.onHead h1 (fun j => j.walked d cov) (fun j => ?_))
  unfold Job.walked; dsimp only; split <;> exact ⟨rfl, rfl, rfl⟩

theorem request_head (s : State) (j : Job) (q : RepairRequest) (h : s.repairRequest = some (j, q)) : ∃ l, s.jobs = j :: l := by
  unfold State.repairRequest at h
  split at h
  · cases h
  · split at h
    · cases h
    · rename_i k l hk
      split at h
      · split at h
        · injection h with h; injection h with h _; subst h; exact ⟨l, hk⟩
        · split at h
          · injection h with h; injection h with h _; subst h; exact ⟨l, hk⟩
          · cases h
      · cases h

theorem PoolsOk.takeGrant {s v : State} (h : PoolsOk s) (o : Option Initiator) (hv : s.takeGrant o = .next v) : PoolsOk v := by
  unfold State.takeGrant at hv
  split at hv
  · injection hv with hv; rw [← hv]; exact h.same rfl rfl
  · split at hv
    · rename_i j q _ hq
      obtain ⟨l, hj⟩ := request_head s j q hq
      have target : ∀ b, (s.stream j.stream).bufs[j.target]? = some b → b.state ≠ .free := by
        intro b hb
        have := ((h j.stream).1.each _ b hb).target (by rw [hj, targetsOf_cons, if_pos rfl]; simp)
        rw [this]; simp
      have inc := h.increment j.stream j.target target
      unfold State.grantRepair at hv; split at hv
      · unfold State.grantHeldWrite at hv; split at hv
        · cases hv
        · injection hv with hv; rw [← hv]
          refine PoolsOk.jobIssued ?_
          exact inc.same rfl rfl
      · split at hv
        · unfold State.grantPad at hv; dsimp only at hv; split at hv
          · cases hv
          · injection hv with hv; rw [← hv]
            refine PoolsOk.burstIssued ?_ _ _ _ _
            exact inc.same rfl rfl
        · rename_i k hk
          unfold State.grantCopyRead at hv; dsimp only at hv; split at hv
          · rename_i b t hb _
            injection hv with hv; rw [← hv]
            refine PoolsOk.burstIssued ?_ _ _ _ _
            have src := h.increment j.stream k (fun c hc => by
              rw [hb] at hc; cases hc
              have o := (h j.stream).1.each k b hb
              have hp : pinsOf s.jobs j.stream k ≠ 0 := by rw [hj, pinsOf_cons, if_pos ⟨rfl, hk⟩]; omega
              intro e
              have := o.pins; rw [o.free e] at this
              exact hp this.symm)
            exact src.same rfl rfl
          · cases hv
    · injection hv with hv; rw [← hv]; exact h

theorem PoolsOk.route {s : State} (h : PoolsOk s) (e : Entry) (r : DsResponse) : PoolsOk (s.route e r) := by
  unfold State.route; split
  · exact h.same rfl rfl
  · exact h.same rfl rfl
  · exact h.same rfl rfl
  · exact h.same rfl rfl
  · exact h.routeRepair _ _ _ _
  · exact h.routeRepair _ _ _ _
  · split
    · exact h
    · exact h.same rfl rfl

theorem PoolsOk.takeReturn {s : State} (h : PoolsOk s) (k : LockStates s) (r : DsResponse) : PoolsOk (s.takeReturn r) := by
  unfold State.takeReturn; split
  · exact h
  · rename_i e _
    have h1 : PoolsOk ((s.route e r).settleCount e.kind r.status) := by
      unfold State.settleCount; split
      · exact (h.route e r).decrement _ _ _
      · exact h.route e r
    have load : e.kind.requester = .loader → ((s.route e r).settleCount e.kind r.status).streams = s.streams ∧
        ((s.route e r).settleCount e.kind r.status).device = s.device ∧
        ∀ l, ((s.route e r).settleCount e.kind r.status).load = some l → ∃ m, s.load = some m ∧ m.purpose = l.purpose := by
      intro hk
      cases he : e.kind with
      | loaderRead q =>
        have e0 : (s.route e r).settleCount (.loaderRead q) r.status = s.route e r := rfl
        rw [e0]
        unfold State.route; rw [he]; dsimp only; split
        · exact ⟨rfl, rfl, fun l hl => ⟨l, hl, rfl⟩⟩
        · refine ⟨rfl, rfl, fun l hl => ?_⟩
          change s.load.map (fun l => l.receive q r.status r.data) = some l at hl
          cases hs : s.load with
          | none => rw [hs] at hl; cases hl
          | some m =>
            rw [hs] at hl; cases hl
            refine ⟨m, rfl, ?_⟩
            unfold Load.receive; split <;> rfl
      | _ => rw [he] at hk; cases hk
    generalize (s.route e r).settleCount e.kind r.status = u at h1 load ⊢
    have h2 : PoolsOk (u.freeEntry e) := h1.same rfl rfl
    have h3 : PoolsOk ((u.freeEntry e).settleRequester e.kind) := by
      unfold State.settleRequester; split
      · exact h2
      · exact h2.accountRepair
      · rename_i hk
        obtain ⟨e1, e2, e3⟩ := load hk
        refine h2.settleLoad (fun hn st => ?_) (fun l hl hp => ?_)
        · have := k.idle (by rw [← e2]; exact hn) st
          have es : (u.freeEntry e).stream st = s.stream st := by unfold State.stream; rw [show (u.freeEntry e).streams = u.streams from rfl, e1]
          rw [es]; exact this
        · obtain ⟨m, hm, hmp⟩ := e3 l hl
          show u.device = _
          rw [e2]; exact k.start m hm (hmp.trans hp)
    generalize (u.freeEntry e).settleRequester e.kind = w at h3 ⊢
    unfold State.settleStream; split
    · exact (h3.reportQuiet _ _ _).settleDrain _
    · exact h3

/-! ### Link bytes (R171, R172, R192) -/

theorem PoolsOk.respond {s : State} (h : PoolsOk s) (a : LinkStatus) (b : List Byte) : PoolsOk (s.respond a b) := h.same rfl rfl

theorem PoolsOk.byteCompletes {s : State} (h : PoolsOk s) (b : Byte) : PoolsOk (s.byteCompletes b) := by
  have flags : ∀ st (f : StreamState → StreamState), (∀ x, (f x).bufs = x.bufs ∧ (f x).ready = x.ready ∧ (f x).readers = x.readers ∧
      (f x).mode = x.mode ∧ (f x).lastSeq = x.lastSeq ∧ (f x).lock = x.lock ∧ (f x).current = x.current ∧ (f x).life = x.life ∧
      (f x).drainTaken = x.drainTaken ∧ (f x).poolQuiet = x.poolQuiet) → PoolsOk (s.onStream st f) := by
    intro st f hf
    obtain ⟨e1, e2, e3, e4, e5, e6, e7, e8, e9, e10⟩ := hf (s.stream st)
    exact h.moves st f (fun o => ⟨o.aside e1 e2 e3 e4 e5 e6 e7, e7, e8, e9, e10, by rw [e3], by rw [e1], .inl e4, fun a => by unfold AllFree; rw [e1]; exact a⟩)
  unfold State.byteCompletes; split
  · exact h
  · exact h.same rfl rfl
  · split
    · exact h.respond _ _
    · split
      · exact h.same rfl rfl
      · unfold State.takeAtStream; split
        · exact h.respond _ _
        · unfold State.takeGetStream; split <;> exact h.respond _ _
        · unfold State.takeGetPool; split <;> exact h.respond _ _
        · unfold State.takeGetReaders; split <;> exact h.respond _ _
        · unfold State.takeArm; split
          · exact h.respond _ _
          · rename_i st _
            dsimp only; refine PoolsOk.respond ?_ _ _
            split
            · rename_i hd
              refine h.beginArm st ?_
              unfold State.armDecision at hd; dsimp only at hd
              split at hd; · cases hd
              split at hd
              · cases hd
              · cases hd
              · cases hd
              · split at hd; · cases hd
                split at hd
                · cases hd
                · cases hd
                · cases hd
                · rename_i hl; exact hl
            · exact h
        · unfold State.takeDisarm; split
          · exact h.respond _ _
          · rename_i st _
            dsimp only; refine PoolsOk.respond ?_ _ _
            split
            · rename_i hd
              refine h.beginTeardown st ?_
              unfold State.disarmDecision at hd; dsimp only at hd
              split at hd; · cases hd
              split at hd
              · cases hd
              · cases hd
              · cases hd
              · split at hd; · cases hd
                split at hd
                · rename_i hl; exact hl
                · split at hd <;> cases hd
                · cases hd
                · cases hd
            · exact h
        · unfold State.takeReload; split
          · refine PoolsOk.respond ?_ _ _; exact h.same rfl rfl
          · exact h.respond _ _
        · unfold State.takeSoftReset; refine PoolsOk.respond ?_ _ _; split
          · exact h
          · exact h.same rfl rfl
        all_goals exact h
  · split
    · exact h.respond _ _
    · unfold State.takeAtArgument; split
      · unfold State.takeGetCoverage; split
        · exact h.respond _ _
        · split
          · exact h.respond _ _
          · split <;> exact h.respond _ _
      · unfold State.takeGetCounters; split
        · exact h.respond _ _
        · split
          · exact h.respond _ _
          · dsimp only; split
            · refine PoolsOk.respond ?_ _ _
              exact flags _ (fun x => { x with counters := Counters.zero }) (fun _ => ⟨rfl, rfl, rfl, rfl, rfl, rfl, rfl, rfl, rfl, rfl⟩)
            · exact h.respond _ _
      · unfold State.takeAckEvents; split
        · refine PoolsOk.respond ?_ _ _; exact h.same rfl rfl
        · split
          · exact h.respond _ _
          · refine PoolsOk.respond ?_ _ _
            exact flags _ (fun x => { x with flags := _ }) (fun _ => ⟨rfl, rfl, rfl, rfl, rfl, rfl, rfl, rfl, rfl, rfl⟩)
      all_goals exact h
  · exact h.same rfl rfl
  · exact h.same rfl rfl

/-! ### A step -/

theorem PoolsOk.fresh (s : State) (hs : ∀ st, s.stream st = StreamState.empty) (hj : s.jobs = []) : PoolsOk s := by
  intro st
  rw [hs, hj]
  refine ⟨PoolOk.clean (fun b hb => (by cases hb)) rfl (fun r hr => (by cases hr)) (fun i e => (by cases e)), ?_⟩
  exact ⟨.inl rfl, rfl, fun e => (by rcases e with e | e <;> cases e), fun _ => ⟨rfl, fun b hb => (by cases hb)⟩, fun e => (by cases e),
    fun e => (by cases e)⟩

theorem reset_slots (st : StreamId) : State.reset.stream st = StreamState.empty := by
  show (Vector.replicate 8 StreamState.empty).get st = _; simp [Vector.get]

theorem PoolsOk.straps {s : State} (h : PoolsOk s) (a c : Byte) : PoolsOk (s.sampleStraps a c) := by
  obtain ⟨d, l, e⟩ := State.sampleStraps_frame s a c
  rw [e]; exact h.same rfl rfl

end Sys2Proof.Safety
end

