-- ==== Sys2Proof/Tests/Slice0.lean ====
section
/-! SUPPORT. The tests: ill-formed operands refused, codes and records checked against the spec's tables and worked
examples, and for every obligation with hypotheses a concrete state and operands that meet them. -/
set_option Elab.async false

namespace Sys2Proof.Tests

open Sys2Proof Sys2Proof.Machine Sys2Proof.Safety

/-! ### Helpers -/

/-- A property of every record, checked over the list. -/
theorem at_all {l : List Buf} {P : Nat → Buf → Prop} (h : ∀ e ∈ l.zipIdx, P e.2 e.1) : ∀ j c, l[j]? = some c → P j c :=
  fun j c hc => h (c, j) (List.mk_mem_zipIdx_iff_getElem?.2 hc)

/-- A transaction with tag 5. -/
def tx (i : Initiator) (a : Address) (body : TxnBody) : Txn := { initiator := i, tag := 5#6, address := a, body := body }

/-- A write of n zero bytes. -/
def zeros (n : Nat) : TxnBody := .write (List.replicate n 0#8)

/-- A descriptor of 4 lines of 64 bytes, 3 buffers, A = Q = D = 2, P = 1000, T = 100, S = 2000, with this byte of
policies: producer 1, readers 2 and 3, windows at 1000 0000h and 1001 0000h. -/
def desc (policies : Byte) : Descriptor :=
  [0x03, 0x01, 0x82, 0x83, 0x00, 0x10, 0x00, 0x01, 0x10, 0x00, 0x10, 0x03, 0x40, 0x00, 0x40, 0x00] ++
  [0x04, 0x00, policies, 0xFF, 0x04, 0x00, 0x22, 0x02, 0xAA, 0xBB, 0xCC, 0xDD, 0xE8, 0x03, 0x00, 0x00] ++
  [0x64, 0x00, 0x00, 0x00, 0xD0, 0x07, 0x00, 0x00, 0x00, 0x01, 0x00, 0x00, 0x01, 0x01, 0x00, 0x00] ++
  [0x02, 0x01, 0x00, 0x00, 0x00, 0x00, 0x00, 0x00, 0x00, 0x00, 0x00, 0x00, 0x00, 0x00, 0x00, 0x00]

/-- The descriptor in force, ENABLED. -/
def installed (policies : Byte) : Installed := { desc := desc policies, outcome := .enabled, cause := .none, mapped := true }

/-- An ACTIVE slot in LOCKED with all its buffers FREE and its cadence timer running to 1100. -/
def slot (policies : Byte) : StreamState :=
  { StreamState.empty with
    current := some (installed policies)
    windows := some (windowsOf (desc policies))
    life := .active
    armRequest := true
    bufs := poolOf (desc policies)
    readers := [readerOf (desc policies) 0, readerOf (desc policies) 1]
    lock := .locked
    timer := .running 1100 }

/-- A buffer record in a state, of a frame. -/
def buf (state : BufState) (seq : BitVec 32) : Buf := { Buf.fresh 0x100#32 with state := state, seq := seq }

/-- The part in RUNNING at APSEL 1 with this slot as stream 0. -/
def running (x : StreamState) : State :=
  { State.reset with resetN := true, apsel := 1#8, device := .running }.setStream 0 x

/-- COPY and HOLD under LATEST (Table 11-9). -/
def usual : StreamState := slot 0x08#8

/-! ### Ill-formed operands -/

theorem test_wf_refuses_empty_read : Instr.wf (.passThrough (tx 0 0#40 (.read 0))) = false := by decide +kernel
theorem test_wf_refuses_long_write : Instr.wf (.lineAreaWrite (tx 1 0#40 (zeros 257))) = false := by decide +kernel
theorem test_wf_refuses_long_response :
    Instr.wf (.returned { origin := false, initiator := 0, tag := 0#6, status := .okay, data := List.replicate 257 0#8 })
      = false := by decide +kernel
theorem test_wf_bounds : Instr.wf (.claim (tx 2 0#40 (.read 1))) = true ∧ Instr.wf (.close (tx 1 0#40 (zeros 256))) = true := by
  decide +kernel

/-- An ill-formed transaction is no bus transaction: the upstream port answers a refusal by name (log 20). -/
theorem test_exec_refuses_ill_formed : exec (.passThrough (tx 0 0#40 (.read 0))) (running usual) = .refused .badTransaction := rfl

/-! ### Codes and records of the spec -/

/-- The check value of Section 8.8: the bytes 31h to 39h give 29B1h. -/
theorem test_crc_check_value :
    Decode.crc [0x31, 0x32, 0x33, 0x34, 0x35, 0x36, 0x37, 0x38, 0x39] = 0x29B1#16 := by decide +kernel

/-- Table 11-10. -/
theorem test_command_bytes :
    Decode.linkCommand 0x20#8 = some .arm ∧ Decode.linkCommand 0x2F#8 = some .softReset ∧ Decode.linkCommand 0x23#8 = none := by
  decide +kernel

/-- The table of operations gives no row a bit pattern. -/
theorem test_no_words : decodeTableWord 32 0 = none := by decide +kernel

/-- The descriptor passes the nine checks (R157). -/
theorem test_validate_usual :
    validate { aperture := 0x10000000, image := 0 } [desc 0x08#8] 0 (desc 0x08#8) = installed 0x08#8 := by decide +kernel

/-- Unlock policy code 3 fails BAD_COUNTS (R162, R200). -/
theorem test_validate_bad_policy :
    (validate { aperture := 0x10000000, image := 0 } [] 0 (desc 0x0E#8)).cause = .badCounts := by decide +kernel

/-- A descriptor of zero bytes is DISABLED without windows (Table 8-5, note 1). -/
theorem test_validate_zero :
    (validate { aperture := 0x10000000, image := 0 } [] 0 (List.replicate 64 0#8)).outcome = .disabled ∧
      (validate { aperture := 0x10000000, image := 0 } [] 0 (List.replicate 64 0#8)).mapped = false := by decide +kernel

/-! ### Worked examples -/

/-- The state a command leaves; State.reset where it faults or is refused. -/
def after (c : Instr) (s : State) : State :=
  match exec c s with
  | .next u => u
  | .fault _ => State.reset
  | .refused _ => State.reset

/-- Section 11.5: the claim of reader slot 1 at 3 000 250 µs answers the record of State A. -/
theorem test_claim_record :
    (after (.claim (tx 3 0x1001FFC0#40 (.read 32)))
      { running { usual with
          bufs := [{ buf .shown 255#32 with readers := 1 },
            { buf .ready 258#32 with
              verdict := .repairedPad, coverage := [1]
              close := { CloseInfo.zero with tagValid := true, producerSeq := 0x1A2B#16, userTag := 0xCAFE0001#32,
                                             time := 3000000 } }]
          ready := [1]
          readers := [readerOf (desc 0x08#8) 0, { readerOf (desc 0x08#8) 1 with state := .bound 0, boundSeq := 255#32 }] }
        with time := 3000250#64 }).ports.responses.map (·.response.data)
      = [[0x50, 0x01, 0x01, 0x01, 0x02, 0x02, 0x01, 0x00, 0x02, 0x01, 0x00, 0x00, 0x2B, 0x1A, 0x03, 0x00,
          0x01, 0x00, 0xFE, 0xCA, 0x02, 0x00, 0x00, 0x00, 0xFA, 0x00, 0x00, 0x00, 0x00, 0x00, 0x00, 0x00]] := by
  decide +kernel

/-- R33: a write of 256 bytes with pitch 64 marks four lines, one that holds no last data byte none. -/
theorem test_coverage_marks :
    (((after (.lineAreaWrite (tx 1 0x10000000#40 (zeros 256))) (running usual)).stream 0).bufs.map (·.coverage)).head?
      = some [0, 1, 2, 3] ∧
    (((after (.lineAreaWrite (tx 1 0x10000040#40 (zeros 63))) (running usual)).stream 0).bufs.map (·.coverage)).head?
      = some [] := by decide +kernel

/-- R38: fill by address, lane 0 at addresses with a mod 4 = 0. -/
theorem test_fill_lanes :
    (after (.captureRead (tx 1 0x10000003#40 (.read 3))) (running usual)).ports.responses.map (·.response.data)
      = [[0xDD#8, 0xAA#8, 0xBB#8]] := by decide +kernel

/-- R98: with r = 0, P = 1000 and T = 100 a close at 899 is early and one at 900 on time. -/
theorem test_early_close :
    let close : Instr := .close (tx 1 0x1000FFC0#40 (.write (0x43#8 :: List.replicate 31 0#8)))
    ((after close { running usual with time := 899#64 }).stream 0).counters.earlyCloses = 1#16 ∧
      ((after close { running usual with time := 900#64 }).stream 0).counters.earlyCloses = 0#16 := by decide +kernel

/-- R99: the miss steps r by P and the timer to r + P + T; with D = 2 the first fault gives COAST (R106). -/
theorem test_miss :
    let x := (after (.miss 0) { running usual with time := 1100#64 }).stream 0
    x.ref = 1000 ∧ x.timer = .running 2100 ∧ x.lock = .coast ∧ x.loss = 1 := by decide +kernel

/-- R135, R142: a response to no entry is discarded. -/
theorem test_response_without_entry :
    after (.returned { origin := false, initiator := 3, tag := 9#6, status := .okay, data := [] }) (running usual)
      = running usual := by decide +kernel

/-- R10: with no FREE buffer under QUEUE in LOCKED the frame start sinks and raises OVERRUN (bit 2). -/
theorem test_frame_sinks :
    let x := (after (.excessWrite (tx 1 0x10000100#40 (zeros 1)))
      (running { slot 0x09#8 with bufs := [buf .ready 1#32], ready := [0], lastSeq := 1#32 })).stream 0
    x.mode = .sink ∧ x.flags = 0x04#8 ∧ x.counters.excessWrites = 1#16 ∧ x.lastSeq = 2#32 := by decide +kernel

/-- R121: a transaction that crosses a 4 KiB boundary is refused with CROSSING and no stream outside the windows. -/
theorem test_crossing_fault :
    let s := after (.accessRefusal (tx 4 0x00001FFF#40 (.read 2))) (running usual)
    s.fault.cause = .crossing ∧ s.fault.stream = none ∧ s.deviceFlags = 0x10#5 ∧ s.attnLow = true := by decide +kernel

/-! ### Witnesses: the queue, resets and the link -/

theorem witness_StepRunsFrontCommand :
    { running usual with pending := [.frameEnd, .powerOnReset] }.pending = .frameEnd :: [.powerOnReset] := rfl

/-- The timers of the part: stream 0's cadence timer runs to 1100. -/
theorem running_timers (st : StreamId) :
    ((running usual).stream st).timer = (if st = 0 then .running 1100 else .stopped) ∧
      ∀ k, (((running usual).stream st).reader k).timer = .stopped := by revert st; decide +kernel

/-- One microsecond before the expiry. -/
theorem witness_EmptyQueueStep_counts :
    ∃ s : State, s.pending = [] ∧ s.time = 1099#64 ∧
      (∀ st e, (s.stream st).timer = .running e → s.time.toNat < e) ∧
      (∀ st k e, ((s.stream st).reader k).timer = .running e → s.time.toNat < e) := by
  refine ⟨{ running usual with time := 1099#64 }, rfl, rfl, fun st e h => ?_, fun st k e h => ?_⟩
  · have h1 : (if st = 0 then Timer.running 1100 else .stopped) = .running e := (running_timers st).1 ▸ h
    split at h1
    · cases h1; decide
    · cases h1
  · have h1 : Timer.stopped = .running e := (running_timers st).2 k ▸ h
    cases h1

/-- At the expiry. -/
theorem witness_EmptyQueueStep_miss :
    ∃ (s : State) (st : StreamId) (e : Nat), s.pending = [] ∧ (s.stream st).timer = .running e ∧ e ≤ s.time.toNat ∧
      (∀ st' e', st' ≠ st → (s.stream st').timer = .running e' → s.time.toNat < e') ∧
      (∀ st' k e', ((s.stream st').reader k).timer = .running e' → s.time.toNat < e') := by
  refine ⟨{ running usual with time := 1100#64 }, 0, 1100, rfl, by decide +kernel, by decide, fun st e hne h => ?_,
    fun st k e h => ?_⟩
  · have h1 : (if st = 0 then Timer.running 1100 else .stopped) = .running e := (running_timers st).1 ▸ h
    rw [if_neg hne] at h1; cases h1
  · have h1 : Timer.stopped = .running e := (running_timers st).2 k ▸ h
    cases h1

theorem witness_ResetReleaseStartsUp : State.reset.resetN = false := rfl

/-- A state of the link. -/
def linked (l : Link) : State := { running usual with link := l }

/-- A START load whose reads are all to come. -/
def load0 : Load :=
  { purpose := .start, copies := Vector.replicate 3 ⟨.pending, none, none, none⟩, plan := [⟨0, 0, 256⟩, ⟨0, 256, 256⟩] }

theorem witness_SoftResetWaitAndEnd :
    (linked (.stream 0x2F#8)).link = .stream 0x2F#8 ∧ (linked (.stream 0x2F#8)).softResetPending = false ∧
      (linked (.stream 0x2F#8)).load = none ∧
      { linked (.stream 0x2F#8) with load := some load0 }.load = some load0 ∧
      (∀ s : State, s = { linked .idle with softResetPending := true } →
        s.softResetPending = true ∧ s.table = [] ∧ ∀ i, s.order i = []) := by
  refine ⟨rfl, rfl, rfl, rfl, fun s h => ?_⟩
  subst h; decide +kernel

theorem witness_LinkFramesAndBadArguments_frames :
    (running usual).mcsN = true ∧ (running usual).resetN = true ∧ State.reset.mcsN = true ∧ State.reset.resetN = false ∧
      (∀ c ∈ [0x05#8, 0x06#8, 0x07#8], (linked (.stream c)).link = .stream c) ∧
      (linked .command).link = .command ∧ (linked .idle).link = .idle ∧
      (linked (.response [1#8])).link = .response [1#8] ∧ (linked (.response [])).link = .response [] := by decide +kernel

/-- Bytes just outside the ranges. -/
theorem witness_LinkFramesAndBadArguments_bounds :
    (∀ c ∈ [0x00#8, 0x08#8, 0x1F#8, 0x23#8, 0x2E#8, 0x30#8, 0xFF#8], (linked (.stream c)).link = .stream c ∧
      c ∉ [0x01#8, 0x02#8, 0x03#8, 0x04#8, 0x05#8, 0x06#8, 0x07#8, 0x20#8, 0x21#8, 0x22#8, 0x2F#8]) ∧
      7 < (8#8).toNat ∧ 5 < (6#8).toNat ∧ 1 < (2#8).toNat ∧ 0xFE#8 ≠ 0xFF#8 ∧ 7 < (0xFE#8).toNat ∧
      (∀ c ∈ [0x02#8, 0x03#8, 0x04#8, 0x20#8, 0x21#8], (linked (.stream c)).link = .stream c) ∧
      (∀ c ∈ [0x05#8, 0x06#8, 0x07#8], (linked (.arguments c 8#8)).link = .arguments c 8#8) := by decide +kernel

theorem witness_snapshots :
    (linked (.stream 0x01#8)).link = .stream 0x01#8 ∧ (linked (.stream 0x02#8)).link = .stream 0x02#8 ∧
      (linked (.stream 0x03#8)).link = .stream 0x03#8 ∧ (linked (.stream 0x04#8)).link = .stream 0x04#8 ∧
      (0#8).toNat = (0 : StreamId).val ∧ (7#8).toNat = (7 : StreamId).val ∧
      ((linked (.stream 0x04#8)).stream 0).readers = [readerOf (desc 0x08#8) 0, readerOf (desc 0x08#8) 1] ∧
      ((linked (.stream 0x04#8)).stream 7).readers = [] := by decide +kernel

theorem witness_CoverageAndCounters :
    (linked (.arguments 0x05#8 0#8)).link = .arguments 0x05#8 0#8 ∧ (0#8).toNat = (0 : StreamId).val ∧ (5#8).toNat ≤ 5 ∧
      ((linked (.arguments 0x05#8 0#8)).stream 0).bufs[(2#8).toNat]? = some (Buf.fresh 0x102#32) ∧
      ((linked (.arguments 0x05#8 0#8)).stream 0).bufs[(3#8).toNat]? = none ∧
      (linked (.arguments 0x06#8 7#8)).link = .arguments 0x06#8 7#8 ∧ (7#8).toNat = (7 : StreamId).val ∧ (1#8).toNat ≤ 1 := by
  decide +kernel

theorem witness_AckEventsClearsMasked :
    (linked (.arguments 0x07#8 0xFF#8)).link = .arguments 0x07#8 0xFF#8 ∧
      (linked (.arguments 0x07#8 7#8)).link = .arguments 0x07#8 7#8 ∧ (7#8).toNat = (7 : StreamId).val := by decide +kernel

theorem witness_ArmByTable_DisarmAndReloadByTable :
    (linked (.stream 0x20#8)).link = .stream 0x20#8 ∧ (linked (.stream 0x21#8)).link = .stream 0x21#8 ∧
      (linked (.stream 0x22#8)).link = .stream 0x22#8 ∧ (7#8).toNat = (7 : StreamId).val := by decide +kernel

/-! ### Witnesses: classification and the upstream port -/

/-- Each arm of the order of checks. -/
theorem witness_ClassificationOrder :
    State.reset.device = .transparent ∧ (running usual).device ≠ .transparent ∧
      (∀ s : State, s = running usual →
        -- crossing: a page, the top of the address space, a region
        (∀ t : Txn, t = tx 1 0x00001FFF#40 (.read 2) →
          t.address.toNat / 4096 ≠ (t.address.toNat + t.length - 1) / 4096) ∧
        (∀ t : Txn, t = tx 1 0xFFFFFFFFFF#40 (.read 2) → 2 ^ 40 < t.address.toNat + t.length) ∧
        (s.matchOf (tx 1 0x100000FF#40 (.read 2))).any (fun m => m.crossesRegion (tx 1 0x100000FF#40 (.read 2))) = true ∧
        -- outside the aperture: a guarded write, one beside the extents, a read of an extent
        s.inAperture 0x00100000 = false ∧
        s.guardHit (tx 1 0x00100000#40 (zeros 1)) = some 0 ∧ s.guardHit (tx 1 0x00100100#40 (zeros 1)) = none ∧
        s.guardHit (tx 1 0x00100000#40 (.read 1)) = none ∧
        -- inside: the edges of the aperture and of the windows
        s.inAperture 0x10000000 = true ∧ s.inAperture 0x1FFFFFFF = true ∧ s.inAperture 0x20000000 = false ∧
        s.windowAt 0x10020000 = none ∧
        (s.windowAt 0x1000FFFF).any (fun m => m.kind = .capture ∧ m.entry.producer ≠ 2) = true ∧
        (s.windowAt 0x10010000).any (fun m => m.kind = .presentation ∧ m.entry.slotOf 1 = none ∧
          m.entry.slotOf 2 = some 0) = true) := by
  refine ⟨rfl, by decide +kernel, fun s h => ?_⟩
  subst h
  refine ⟨?_, ?_, ?_⟩
  · rintro t rfl; decide +kernel
  · rintro t rfl; decide +kernel
  · decide +kernel

/-- An accepted access at the first byte of the capture window, classified by that window. -/
theorem witness_ClassificationOrder_window :
    ∃ m, (running usual).windowAt 0x10000000 = some m ∧
      (running usual).classify (tx 1 0x10000000#40 (zeros 64)) = (running usual).classifyWindow (tx 1 0x10000000#40 (zeros 64)) m ∧
      (running usual).classify (tx 1 0x10000000#40 (zeros 64)) = .lineWrite 0 0 :=
  ⟨⟨0, .capture, windowsOf (desc 0x08#8)⟩, by decide +kernel⟩

/-- No window; each window's first byte, its last and the byte behind it; a draining slot before another; no windows. -/
theorem witness_WindowPrecedence :
    (running usual).windowAt 0x10020000 = none ∧ (running usual).windowAt 0x0FFFFFFF = none ∧
      (∀ a ∈ [0x10000000, 0x1000FFFF], (running usual).windowAt a = some ⟨0, .capture, windowsOf (desc 0x08#8)⟩) ∧
      (∀ a ∈ [0x10010000, 0x1001FFFF], (running usual).windowAt a = some ⟨0, .presentation, windowsOf (desc 0x08#8)⟩) ∧
      ((running usual).setStream 5 { usual with life := .draining }).windowAt 0x10000000
        = some ⟨5, .capture, windowsOf (desc 0x08#8)⟩ ∧
      ((running usual).setStream 5 { usual with life := .off }).windowAt 0x10000000
        = some ⟨0, .capture, windowsOf (desc 0x08#8)⟩ ∧
      ((running usual).stream 7).windows = none := by decide +kernel

/-- The slot disarmed. -/
def dormant : StreamState := { usual with life := .off, lock := .down }

/-- The edges of the aperture, of the reader slots and of the regions of a window of 65536 bytes with 4 lines of 64 bytes. -/
theorem witness_WindowClasses :
    (running usual).inAperture 0x10000000 = true ∧ (running usual).inAperture 0x0FFFFFFF = false ∧
      (running usual).inAperture 0x1FFFFFFF = true ∧ (running usual).inAperture 0x20000000 = false ∧
      ((windowsOf (desc 0x08#8)).slotOf 2 = some 0 ∧ (windowsOf (desc 0x08#8)).slotOf 3 = some 1 ∧
        (windowsOf (desc 0x08#8)).slotOf 1 = none) ∧
      [0, 0xFF, 0x100, 0xFFBF, 0xFFC0, 0xFFFF].map (windowsOf (desc 0x08#8)).region =
        [.line, .line, .excess, .excess, .mark, .mark] ∧
      (Match.mk 0 .capture (windowsOf (desc 0x08#8))).offset 0x1000FFC0 = 0xFFC0 ∧
      (Match.mk 0 .presentation (windowsOf (desc 0x08#8))).offset 0x1001FFE0 = 0xFFE0 := by decide +kernel

/-- Each arm of the classes of a capture window and of a presentation window, live and dormant, is met by an access. -/
theorem witness_WindowClasses_accesses :
    ∀ x ∈ [usual, dormant], ∀ o ∈ [0, 0xFF, 0x100, 0xFFBF, 0xFFC0, 0xFFE0], ∀ body ∈ [zeros 1, .read 1, .read 32],
      ∃ (s : State) (c p : Txn) (m n : Match), s.stream 0 = x ∧ m.stream = 0 ∧ n.stream = 0 ∧
        m.kind = .capture ∧ c.initiator = m.entry.producer ∧ c.body = body ∧ m.offset c.address.toNat = o ∧
        n.kind = .presentation ∧ n.entry.slotOf p.initiator = some 1 ∧ p.body = body ∧ n.offset p.address.toNat = o := by
  intro x hx o ho body _
  refine ⟨running x, tx 1 (BitVec.ofNat 40 (0x10000000 + o)) body, tx 3 (BitVec.ofNat 40 (0x10010000 + o)) body,
    ⟨0, .capture, windowsOf (desc 0x08#8)⟩, ⟨0, .presentation, windowsOf (desc 0x08#8)⟩,
    by unfold running State.stream State.setStream; rfl, rfl, rfl, rfl, rfl, rfl, ?_, rfl, ?_, rfl, ?_⟩
  · show (Match.mk 0 .capture (windowsOf (desc 0x08#8))).offset (BitVec.ofNat 40 (0x10000000 + o)).toNat = o
    revert o; decide +kernel
  · show (windowsOf (desc 0x08#8)).slotOf 3 = some 1; decide +kernel
  · show (Match.mk 0 .presentation (windowsOf (desc 0x08#8))).offset (BitVec.ofNat 40 (0x10010000 + o)).toNat = o
    revert o; decide +kernel

theorem witness_GuardHits :
    (tx 1 0#40 (.read 1)).body = .read 1 ∧ (tx 1 0x00100000#40 (zeros 1)).body = .write [0#8] ∧
      (running usual).guardHit (tx 1 0x001000FF#40 (zeros 1)) = some 0 ∧
      (running usual).guardHit (tx 1 0x00100100#40 (zeros 1)) = none := by decide +kernel

/-- The write meets extents of two guarded streams; the lower one no longer ACTIVE; the lower one without GUARD. -/
theorem witness_GuardHits_names :
    let s := (running usual).setStream 5 usual
    let t := tx 1 0x00100000#40 (zeros 1)
    s.guardHit t = some 0 ∧ (s.setStream 0 { usual with life := .draining }).guardHit t = some 5 ∧
      (s.setStream 0 { usual with current := some { installed 0x08#8 with desc := (desc 0x08#8).set 0 0x01#8 } }).guardHit t
        = some 5 := by decide +kernel

/-- A transaction that the port takes and that is classified so. -/
def taken (s : State) (t : Txn) (c : Machine.Class) : Prop := Takes s t ∧ s.classify t = c

theorem witness_PassThroughForwards : taken (running usual) (tx 1 0#40 (.read 256)) .forward := by
  unfold taken Takes; decide +kernel

/-- A refusal with a stream and one without. -/
theorem witness_RefusalRecorded :
    taken (running usual) (tx 2 0x10000000#40 (.read 1)) (.refuse .notOwner (some 0)) ∧
      taken (running usual) (tx 2 0x10020000#40 (.read 1)) (.refuse .unmapped none) := by
  unfold taken Takes; decide +kernel

/-- A FREE buffer behind one that is not; a READY one to steal, an older pinned one beside it; none of either. -/
theorem witness_FrameStart :
    (∃ (x : StreamState) (i : Nat) (b : Buf), x.mode = .none ∧ x.bufs[i]? = some b ∧ b.state = .free ∧
      ∀ (j : Nat) (c : Buf), j < i → x.bufs[j]? = some c → c.state ≠ .free) ∧
    (∃ (x : StreamState) (i : Nat) (b : Buf), x.mode = .none ∧ (∀ b ∈ x.bufs, b.state ≠ .free) ∧
      Decode.discipline x.desc = .latest ∧ x.bufs[i]? = some b ∧ b.state = .ready ∧ b.pins = 0 ∧
      ∀ (j : Nat) (c : Buf), j ≠ i → x.bufs[j]? = some c → c.state = .ready → c.pins = 0 → b.seq < c.seq) ∧
    (∃ x : StreamState, x.mode = .none ∧ (∀ b ∈ x.bufs, b.state ≠ .free) ∧ ∀ b ∈ x.bufs, b.state = .ready → b.pins ≠ 0) := by
  refine ⟨⟨{ usual with bufs := [buf .shown 1#32, buf .free 0#32] }, 1, buf .free 0#32, rfl, rfl, rfl,
      fun j c hj hc => at_all (P := fun j c => j < 1 → c.state ≠ .free) (by decide +kernel) j c hc hj⟩,
    ⟨{ usual with bufs := [{ buf .ready 1#32 with pins := 1 }, buf .ready 3#32, buf .ready 2#32] }, 2, buf .ready 2#32, rfl,
      by decide +kernel, by decide +kernel, rfl, rfl, rfl, fun j c hj hc => at_all
        (P := fun j c => j ≠ 2 → c.state = .ready → c.pins = 0 → (buf .ready 2#32).seq < c.seq) (by decide +kernel) j c hc hj⟩,
    ⟨{ usual with bufs := [{ buf .ready 1#32 with pins := 1 }, buf .shown 2#32] }, rfl, by decide +kernel, by decide +kernel⟩⟩

/-- Buffer 0 is FILLING, frame 1. -/
def filling : StreamState :=
  { usual with mode := .buffer 0, lastSeq := 1#32, bufs := [buf .filling 1#32, buf .free 0#32, buf .free 0#32] }

/-- The first and last byte of the line area, in each frame mode, and at the end of the sequence range. -/
theorem witness_LineAreaWrite :
    taken (running filling) (tx 1 0x10000000#40 (zeros 256)) (.lineWrite 0 0) ∧
      taken (running filling) (tx 1 0x100000FF#40 (zeros 1)) (.lineWrite 0 255) ∧
      filling.mode = .buffer 0 ∧ filling.bufs[0]? = some (buf .filling 1#32) ∧
      taken (running { usual with mode := .sink }) (tx 1 0x10000000#40 (zeros 1)) (.lineWrite 0 0) ∧
      taken (running { usual with lastSeq := 0xFFFFFFFF#32 }) (tx 1 0x10000000#40 (zeros 1)) (.lineWrite 0 0) := by
  unfold taken Takes; decide +kernel

theorem witness_ExcessWriteAndCaptureRead_writes :
    taken (running usual) (tx 1 0x10000100#40 (zeros 1)) (.excessWrite 0) ∧
      taken (running usual) (tx 1 0x1000FFBF#40 (zeros 1)) (.excessWrite 0) := by unfold taken Takes; decide +kernel

theorem witness_ExcessWriteAndCaptureRead_reads :
    taken (running filling) (tx 1 0x10000000#40 (.read 4)) (.captureLineRead 0 0 0xDDCCBBAA#32) ∧
      filling.mode = .buffer 0 ∧ filling.bufs[0]? = some (buf .filling 1#32) ∧
      taken (running usual) (tx 1 0x100000FF#40 (.read 1)) (.captureLineRead 0 255 0xDDCCBBAA#32) ∧ usual.mode = .none ∧
      taken (running usual) (tx 1 0x10000100#40 (.read 4)) (.captureExcessRead 0 0xDDCCBBAA#32) := by
  unfold taken Takes; decide +kernel

/-- The close record of a frame with producer sequence 7. -/
def closeTx : Txn := tx 1 0x1000FFC0#40 (.write ([0x43, 0, 7, 0] ++ List.replicate 28 0#8))

/-- In each frame mode, the buffer drained and not drained. -/
theorem witness_CloseByMode :
    taken (running usual) closeTx (.close 0) ∧ closeTx.body = .write ([0x43, 0, 7, 0] ++ List.replicate 28 0#8) ∧
      usual.mode = .none ∧ taken (running { usual with mode := .sink }) closeTx (.close 0) ∧
      taken (running filling) closeTx (.close 0) ∧ filling.mode = .buffer 0 ∧
      filling.bufs[0]? = some (buf .filling 1#32) ∧ (buf .filling 1#32).inFlight = 0 ∧
      taken (running { filling with bufs := [{ buf .filling 1#32 with inFlight := 1 }] }) closeTx (.close 0) := by
  unfold taken Takes; decide +kernel

theorem witness_CaptureStatusRead : taken (running filling) (tx 1 0x1000FFC0#40 (.read 32)) (.statusRead 0) := by
  unfold taken Takes; decide +kernel

/-! ### Witnesses: claims and the presentation window -/

theorem witness_ClaimAndPeekAnswer :
    taken (running usual) (tx 2 0x1001FFC0#40 (.read 32)) (.claim 0 0) ∧
      taken (running usual) (tx 3 0x1001FFE0#40 (.read 32)) (.peek 0 1) := by unfold taken Takes; decide +kernel

/-- A reader entry in a state. -/
def reader (s : ReaderState) (seq : BitVec 32) : Reader :=
  { valid := true, id := 2, state := s, boundSeq := seq, lastSource := .frame, lastSkipped := 0#16, timer := .stopped }

/-- A slot with these buffers, READY queue and slot 0 entry. -/
def pool (policies : Byte) (bufs : List Buf) (ready : List Nat) (r : Reader) : StreamState :=
  { slot policies with bufs := bufs, ready := ready, readers := [r, reader .unbound 0#32] }

/-- Under LATEST: a newer candidate, the binding itself, no candidate. Under QUEUE: a clear barrier, one at the same sequence
plus one that stands, an empty queue. -/
theorem witness_ClaimByDiscipline :
    (∃ (x : StreamState) (r : Reader) (b : Buf), ByDiscipline x ∧ Decode.discipline x.desc = .latest ∧
      x.readers[(0 : ReaderSlot).val]? = some r ∧ Newest x [.ready, .shown] 1 b ∧ r.boundSeq < b.seq) ∧
    (∃ (x : StreamState) (r : Reader) (b : Buf), ByDiscipline x ∧ Decode.discipline x.desc = .latest ∧
      x.readers[(0 : ReaderSlot).val]? = some r ∧ Newest x [.ready, .shown] 0 b ∧ ¬ r.boundSeq < b.seq ∧
      r.state = .bound 0) ∧
    (∃ (x : StreamState) (r : Reader), ByDiscipline x ∧ Decode.discipline x.desc = .latest ∧
      x.readers[(0 : ReaderSlot).val]? = some r ∧ (∀ b ∈ x.bufs, b.state ≠ .ready ∧ b.state ≠ .shown) ∧
      ∀ i, r.state ≠ .bound i) ∧
    (∃ (x : StreamState) (r : Reader) (b : Buf), ByDiscipline x ∧ Decode.discipline x.desc = .queue ∧
      x.readers[(0 : ReaderSlot).val]? = some r ∧ x.ready = 0 :: [] ∧ x.bufs[0]? = some b ∧
      ∀ c ∈ x.bufs, c.state = .closing ∨ c.state = .repairing → ¬ c.seq < b.seq) ∧
    (∃ (x : StreamState) (r : Reader) (b : Buf), ByDiscipline x ∧ Decode.discipline x.desc = .queue ∧
      x.readers[(0 : ReaderSlot).val]? = some r ∧ x.ready = 0 :: [] ∧ x.bufs[0]? = some b ∧
      (∃ c ∈ x.bufs, (c.state = .closing ∨ c.state = .repairing) ∧ c.seq < b.seq) ∧ r.state = .bound 2) ∧
    (∃ (x : StreamState) (r : Reader), ByDiscipline x ∧ Decode.discipline x.desc = .queue ∧
      x.readers[(0 : ReaderSlot).val]? = some r ∧ x.ready = [] ∧ ∀ i, r.state ≠ .bound i) := by
  have hn : ∀ (x : StreamState) i b, x.bufs[i]? = some b → b.state ∈ [BufState.ready, .shown] →
      (∀ e ∈ x.bufs.zipIdx, e.2 ≠ i → e.1.state ∈ [BufState.ready, .shown] → e.1.seq < b.seq) → Newest x [.ready, .shown] i b :=
    fun x i b h1 h2 h3 => ⟨h1, h2, fun j c hj hc => at_all (P := fun j c => j ≠ i → c.state ∈ [BufState.ready, .shown] → c.seq < b.seq)
      h3 j c hc hj⟩
  refine ⟨⟨pool 0x08#8 [buf .shown 1#32, buf .ready 2#32] [1] (reader (.bound 0) 1#32), _, buf .ready 2#32, .inl rfl,
      by decide +kernel, rfl, hn _ _ _ rfl (by decide) (by decide +kernel), by decide +kernel⟩,
    ⟨pool 0x08#8 [buf .shown 1#32, buf .kept 2#32] [] (reader (.bound 0) 1#32), _, buf .shown 1#32, .inl rfl,
      by decide +kernel, rfl, hn _ _ _ rfl (by decide) (by decide +kernel), by decide +kernel, rfl⟩,
    ⟨pool 0x08#8 [buf .free 0#32, buf .kept 2#32] [] (reader .stale 0#32), _, .inl rfl, by decide +kernel, rfl,
      by decide +kernel, fun i h => by cases h⟩,
    ⟨pool 0x09#8 [buf .ready 2#32, buf .closing 3#32] [0] (reader .unbound 0#32), _, buf .ready 2#32, .inl rfl,
      by decide +kernel, rfl, rfl, rfl, by decide +kernel⟩,
    ⟨pool 0x09#8 [buf .ready 2#32, buf .repairing 1#32, buf .shown 0#32] [0] (reader (.bound 2) 0#32), _, buf .ready 2#32,
      .inl rfl, by decide +kernel, rfl, rfl, rfl, by decide +kernel, rfl⟩,
    ⟨pool 0x09#8 [buf .free 0#32] [] (reader .subst 0#32), _, .inl rfl, by decide +kernel, rfl, rfl, fun i h => by cases h⟩⟩

/-- FILL in SEARCH; HOLD in FREERUN with the mark on the reader's buffer and on another, and with no mark. -/
theorem witness_ClaimOutOfLock :
    (∃ (x : StreamState) (r : Reader), x.lock = .search ∧ Decode.unlock x.desc = some .fill ∧
      x.readers[(0 : ReaderSlot).val]? = some r) ∧
    (∃ (x : StreamState) (r : Reader), x.lock = .freerun ∧ Decode.unlock x.desc = some .hold ∧
      x.readers[(0 : ReaderSlot).val]? = some r ∧ ∀ b ∈ x.bufs, b.hold = false) ∧
    ∀ n ∈ [0, 1], ∃ (x : StreamState) (r : Reader) (b : Buf), x.lock = .freerun ∧ Decode.unlock x.desc = some .hold ∧
      x.readers[(0 : ReaderSlot).val]? = some r ∧ x.bufs[0]? = some b ∧ b.hold = true ∧
      (∀ (j : Nat) (c : Buf), j ≠ 0 → x.bufs[j]? = some c → c.hold = false) ∧ r.state = .bound n := by
  refine ⟨⟨{ pool 0x0A#8 [] [] (reader .unbound 0#32) with lock := .search }, _, rfl, by decide +kernel, rfl⟩,
    ⟨{ pool 0x08#8 [buf .shown 1#32] [] (reader (.bound 0) 1#32) with lock := .freerun }, _, rfl, by decide +kernel, rfl,
      by decide +kernel⟩, fun n hn => ?_⟩
  obtain rfl | rfl : n = 0 ∨ n = 1 := by simpa using hn
  all_goals exact
    ⟨{ pool 0x08#8 [{ buf .shown 1#32 with hold := true }, buf .shown 2#32] [] (reader (.bound _) 1#32) with lock := .freerun },
      _, _, rfl, by decide +kernel, rfl, rfl, rfl, fun j c hj hc =>
        at_all (P := fun j c => j ≠ 0 → c.hold = false) (by decide +kernel) j c hc hj, rfl⟩

/-- A reader bound to buffer 0. -/
def shown : StreamState := pool 0x08#8 [{ buf .shown 1#32 with readers := 1 }] [] (reader (.bound 0) 1#32)

theorem witness_PresentationRead :
    taken (running shown) (tx 2 0x10010000#40 (.read 256)) (.presentationLineRead 0 0 0 0xDDCCBBAA#32) ∧
      (shown.reader 0).state = .bound 0 ∧ shown.bufs[0]? = some { buf .shown 1#32 with readers := 1 } ∧
      taken (running usual) (tx 2 0x100100FF#40 (.read 1)) (.presentationLineRead 0 0 255 0xDDCCBBAA#32) ∧
      (usual.reader 0).state = .unbound ∧
      taken (running usual) (tx 3 0x10010100#40 (.read 1)) (.presentationExcessRead 0 1 0xDDCCBBAA#32) := by
  unfold taken Takes; decide +kernel

theorem witness_DormantAccess :
    taken (running dormant) closeTx (.dormantDrop 0) ∧
      taken (running dormant) (tx 1 0x10000000#40 (zeros 1)) (.dormantDrop 0) ∧
      taken (running dormant) (tx 1 0x10000100#40 (.read 1)) (.dormantCaptureFill 0 0xDDCCBBAA#32) ∧
      taken (running dormant) (tx 1 0x1000FFC0#40 (.read 32)) (.dormantStatus 0) ∧
      taken (running dormant) (tx 2 0x10010000#40 (.read 1)) (.dormantPresentationFill 0 0 0xDDCCBBAA#32) ∧
      taken (running dormant) (tx 3 0x1001FFC0#40 (.read 32)) (.dormantPresentationRecord 0 1) ∧
      taken (running dormant) (tx 3 0x1001FFE0#40 (.read 32)) (.dormantPresentationRecord 0 1) := by
  unfold taken Takes; decide +kernel

/-- The capture and the presentation window, at mark offsets 0 and 32. -/
theorem witness_MarkSlotForms :
    ∀ kind ∈ [WindowKind.capture, .presentation], ∀ o ∈ [0, 32],
      ∃ (s : State) (t : Txn) (m : Match), m.kind = kind ∧ m.offset t.address.toNat = m.entry.size - 64 + o ∧
        m.entry.region (m.offset t.address.toNat) = .mark ∧ (s.stream m.stream).life = .active ∧
        t.initiator = m.entry.producer ∧ m.entry.slotOf 2 = some 0 := by
  intro kind hk o ho
  refine ⟨running usual, tx 1 (BitVec.ofNat 40 ((if kind = .capture then 0x1000FFC0 else 0x1001FFC0) + o)) (.read 32),
    { stream := 0, kind := kind, entry := windowsOf (desc 0x08#8) }, rfl, ?_⟩
  revert o; revert kind; decide +kernel

/-! ### Witnesses: the pool, verdicts and lock -/

/-- One record, any state and counts, as buffer 0. -/
def one1 (b : Buf) : StreamState := { usual with bufs := [b] }

theorem witness_BindUnbindHold :
    (∀ st ∈ [BufState.ready, .shown, .kept], (one1 (buf st 1#32)).bufs[0]? = some (buf st 1#32) ∧ (buf st 1#32).state = st) ∧
      (∀ n ∈ [1, 2], ∀ h ∈ [true, false], (one1 { buf .shown 1#32 with readers := n, hold := h }).bufs[0]? =
        some { buf .shown 1#32 with readers := n, hold := h }) ∧
      (∀ st ∈ [BufState.ready, .shown], Newest (one1 (buf st 1#32)) [.shown, .ready] 0 (buf st 1#32)) ∧ 0 ∉ (one1 (buf .shown 1#32)).ready ∧
      (∀ b ∈ (one1 (buf .free 0#32)).bufs, b.state ≠ .shown ∧ b.state ≠ .ready) ∧
      (∀ st ∈ [BufState.kept, .shown], ∀ (j : Nat) (c : Buf), j ≠ 0 → (one1 { buf st 1#32 with hold := true }).bufs[j]? = some c → c.hold = false) ∧
      ∀ b ∈ (one1 (buf .shown 1#32)).bufs, b.hold = false := by
  refine ⟨by decide +kernel, by decide +kernel, fun st hst => ⟨rfl, ?_, fun j c hj hc => ?_⟩, by decide +kernel,
    by decide +kernel, fun st _ j c hj hc => ?_, by decide +kernel⟩
  · revert st; decide
  · exact absurd hc (by rw [List.getElem?_eq_none (Nat.one_le_iff_ne_zero.2 hj)]; simp)
  · exact absurd hc (by rw [List.getElem?_eq_none (Nat.one_le_iff_ne_zero.2 hj)]; simp)

theorem witness_SkipAndTrimRelease :
    Newest { usual with bufs := [buf .ready 1#32, buf .ready 2#32], ready := [0, 1] } [.ready] 1 (buf .ready 2#32) :=
  ⟨rfl, by decide, fun j c hj hc => at_all (P := fun j c => j ≠ 1 → c.state ∈ [BufState.ready] → c.seq < (buf .ready 2#32).seq)
    (by decide +kernel) j c hc hj⟩

/-- Overtaken under LATEST; joining between two frames under QUEUE, in lock and in SEARCH under HOLD. -/
theorem witness_JoinReadyQueue :
    (∃ (x : StreamState) (b : Buf), x.bufs[0]? = some b ∧ b.state = .repairing ∧ Decode.discipline x.desc = .latest ∧
      ∃ c ∈ x.bufs, (c.state = .ready ∨ c.state = .shown ∨ c.state = .kept) ∧ b.seq < c.seq) ∧
    ∀ l ∈ [Lock.locked, .search], ∃ (x : StreamState) (b : Buf), x.lock = l ∧ Decode.unlock x.desc = some .hold ∧
      x.bufs[0]? = some b ∧ b.state = .closing ∧ Decode.discipline x.desc ≠ .latest ∧
      x.ready.Pairwise (fun j k => x.seqOf j < x.seqOf k) ∧ ∀ j ∈ x.ready, x.seqOf j ≠ b.seq.toNat := by
  refine ⟨⟨{ usual with bufs := [buf .repairing 1#32, buf .shown 2#32] }, _, rfl, rfl, by decide +kernel, by decide +kernel⟩, ?_⟩
  intro l hl
  refine ⟨{ slot 0x09#8 with bufs := [buf .closing 2#32, buf .ready 1#32, buf .ready 3#32], ready := [1, 2], lock := l },
    buf .closing 2#32, rfl, ?_⟩
  revert l; decide +kernel

/-- A CLOSING buffer that covers these lines, as buffer 0 beside a SHOWN one of an older frame. -/
def closing (policies : Byte) (coverage : List Nat) (abandon writeError : Bool) : StreamState :=
  { slot policies with
    bufs := [{ buf .closing 2#32 with coverage := coverage, writeError := writeError
                                      close := { CloseInfo.zero with abandon := abandon } }, buf .shown 1#32] }

/-- Write error; abandoned; complete; short under REJECT; short under COPY with room in the queue and without. -/
theorem witness_VerdictAtDrain :
    (∀ w ∈ [true, false], ∀ a ∈ [true, false], ∀ c ∈ [[0, 1, 2, 3], [0, 1]], ∃ b, (closing 0x08#8 c a w).bufs[0]? = some b ∧
      b.state = .closing ∧ b.inFlight = 0 ∧ b.writeError = w ∧ b.close.abandon = a ∧ b.close.noRepair = false ∧ b.coverage = c) ∧
      Decode.lines (closing 0x08#8 [] false false).desc = 4 ∧ Decode.repairLimit (closing 0x08#8 [] false false).desc = 4 ∧
      Decode.repairPolicy (closing 0x08#8 [] false false).desc = some .copy ∧
      Decode.repairPolicy (closing 0x10#8 [] false false).desc = some .reject ∧
      8 ≤ (List.replicate 8 (⟨0, 0, .pad, .queued, 0, 0, 0⟩ : Job)).length :=
  ⟨fun _ _ _ _ _ _ => ⟨_, rfl, rfl, rfl, rfl, rfl, rfl, rfl⟩, by decide +kernel, by decide +kernel, by decide +kernel,
    by decide +kernel, by decide⟩

/-- A slot of two buffers, under COPY. -/
def pair (b c : Buf) : StreamState := { usual with bufs := [b, c] }

theorem pair_policy (b c : Buf) : Decode.repairPolicy (pair b c).desc = some .copy := by
  show Decode.repairPolicy (desc 0x08#8) = _
  decide +kernel

/-- COPY with a source, COPY without one, PAD. -/
theorem witness_JobQueued :
    (∃ (x : StreamState) (b c : Buf), x.bufs[0]? = some b ∧ b.state = .closing ∧ Decode.repairPolicy x.desc = some .copy ∧
      x.bufs[1]? = some c ∧ c.state = .shown ∧ c.seq < b.seq ∧
      ∀ (l : Nat) (d : Buf), l ≠ 1 → x.bufs[l]? = some d → d.state = .ready ∨ d.state = .shown ∨ d.state = .kept → d.seq < b.seq →
        d.seq < c.seq) ∧
    (∃ (x : StreamState) (b : Buf), x.bufs[0]? = some b ∧ b.state = .closing ∧ Decode.repairPolicy x.desc = some .copy ∧
      ∀ c ∈ x.bufs, c.state = .ready ∨ c.state = .shown ∨ c.state = .kept → ¬ c.seq < b.seq) ∧
    Decode.repairPolicy (closing 0x00#8 [] false false).desc ≠ some .copy := by
  refine ⟨⟨pair (buf .closing 2#32) (buf .shown 1#32), buf .closing 2#32, buf .shown 1#32, rfl, rfl, pair_policy _ _, rfl, rfl,
      by decide, fun l d hl hd hs _ => ?_⟩,
    ⟨pair (buf .closing 2#32) (buf .ready 3#32), buf .closing 2#32, rfl, rfl, pair_policy _ _, ?_⟩, by decide +kernel⟩
  · have h := at_all (l := [buf .closing 2#32, buf .shown 1#32]) (P := fun l d => l ≠ 1 → d.state = .closing) (by decide) l d hd hl
    rw [h] at hs; simp at hs
  · show ∀ c ∈ [buf .closing 2#32, buf .ready 3#32], _
    decide

theorem witness_LockStateMachine :
    countsPositive usual.desc ∧ Decode.acquireCount usual.desc = 2 ∧ Decode.reacquireCount usual.desc = 2 ∧
      Decode.lossCount usual.desc = 2 := by unfold countsPositive; decide +kernel

theorem witness_TimerExpiries :
    (∃ (s : State) (e : Nat), (s.stream 0).timer = .running e ∧ e ≤ s.time.toNat) ∧
      (∃ (s : State) (e : Nat), (s.stream 0).timer = .running e ∧ s.time.toNat < e) ∧
      ∀ t ∈ [1999, 2000], ∃ (s : State) (r : Reader) (e : Nat), (s.stream 0).readers[(1 : ReaderSlot).val]? = some r ∧
        r.timer = .running e ∧ e = 2000 ∧ s.time = BitVec.ofNat 64 t := by
  refine ⟨⟨{ running usual with time := 1100#64 }, 1100, by decide +kernel, by decide⟩,
    ⟨{ running usual with time := 1099#64 }, 1100, by decide +kernel, by decide⟩, fun t _ =>
    ⟨{ running { usual with readers := [reader .unbound 0#32, { reader .subst 0#32 with timer := .running 2000 }] } with
        time := BitVec.ofNat 64 t }, { reader .subst 0#32 with timer := .running 2000 }, 2000, rfl, rfl, rfl, rfl⟩⟩

/-! ### Witnesses: lifecycle -/

/-- Message 5 of 5, one of two, and one that is not awaited. -/
theorem witness_ArmMessageTaken :
    (∃ s : State, ArmBlock.eventUnit ∈ (s.stream 0).armAwaited ∧ ∀ c ∈ (s.stream 0).armAwaited, c = .eventUnit) ∧
      (∃ s : State, ArmBlock.eventUnit ∈ (s.stream 0).armAwaited ∧ ∃ c ∈ (s.stream 0).armAwaited, c ≠ .eventUnit) ∧
      ArmBlock.eventUnit ∉ ((running usual).stream 0).armAwaited :=
  ⟨⟨running { usual with life := .off, armAwaited := [.eventUnit] }, by decide +kernel⟩,
    ⟨running { usual with life := .off, armAwaited := [.captureUnit, .eventUnit] }, by decide +kernel⟩, by decide +kernel⟩

/-- DRAINING with n requests taken. -/
def draining (n : Nat) : StreamState := { usual with life := .draining, drainTaken := n, poolQuiet := decide (3 ≤ n) }

theorem witness_TeardownInOrder :
    (∀ n ∈ [0, 1, 2, 3, 4], (draining n).life = .draining ∧ (draining n).drainTaken = n ∧ n < 5) ∧
      (running (draining 4)).softResetPending = false ∧ (running (draining 4)).jobs = [] ∧
      (draining 5).drainTaken = 5 ∧ usual.life ≠ .draining := by decide +kernel

/-- The first request in each frame mode, the second under HOLD with a marked buffer and under FILL. -/
theorem witness_TeardownInOrder_blocks :
    (∀ x ∈ [filling, { usual with mode := .sink }, usual], { x with life := .draining }.life = .draining ∧
      { x with life := .draining }.drainTaken = 0) ∧
      filling.mode = .buffer 0 ∧ filling.bufs[0]? = some (buf .filling 1#32) ∧ (∀ i, usual.mode ≠ .buffer i) ∧
      Decode.unlock (slot 0x08#8).desc = some .hold ∧ Decode.unlock (slot 0x0A#8).desc = some .fill ∧
      (∀ s ∈ [BufState.closing, .ready, .shown], ((pair (buf s 1#32) (buf .shown 2#32)).bufs[0]?) = some (buf s 1#32)) := by
  refine ⟨by decide +kernel, rfl, rfl, fun i h => (by cases h), by decide +kernel, by decide +kernel, by decide +kernel⟩

/-- With and without a pending descriptor, in the wait set, as the last of it and not, and in a soft reset's wait. -/
theorem witness_DrainEnd :
    ∀ p ∈ [none, some (installed 0x09#8)], ∀ w ∈ [[], [(0 : StreamId)], [0, 3]], ∀ r ∈ [true, false],
      ∃ (s : State) (x : StreamState), x = s.stream 0 ∧ x.life = .draining ∧ s.softResetPending = r ∧ x.poolQuiet = true ∧
        x.drainTaken = 5 ∧ x.pendingSlot = p ∧ s.waitSet = w := by
  intro p _ w _ r _
  exact ⟨{ running { draining 5 with pendingSlot := p } with waitSet := w, softResetPending := r },
    { draining 5 with pendingSlot := p }, by unfold running State.stream State.setStream; rfl, rfl, rfl, rfl, rfl, rfl, rfl⟩

/-- The fifth request taken with a buffer still out; the pool quiet with four taken. -/
theorem witness_DrainEnd_waits :
    { draining 5 with poolQuiet := false }.life = .draining ∧ { draining 5 with poolQuiet := false }.poolQuiet = false ∧
      (draining 4).life = .draining ∧ (draining 4).drainTaken ≠ 5 := by decide +kernel

/-! ### Witnesses: grants and returns -/

theorem witness_LoaderReads_grants :
    (∃ s : State, s.softResetPending = false ∧ s.load = some load0 ∧ load0.plan = ⟨0, 0, 256⟩ :: [⟨0, 256, 256⟩] ∧
      s.table.length < 32 ∧ (s.entriesOf .loader).length < 3) ∧
      (running usual).loaderRequest = none ∧ (running usual).repairStands = false :=
  ⟨⟨{ running usual with load := some load0 }, rfl, rfl, rfl, by decide, by decide⟩, by decide +kernel, by decide +kernel⟩

/-- A RUNNING job of stream 0 whose target is buffer 0, at line 2. -/
def job (m : Method) : Job := { stream := 0, target := 0, method := m, state := .running, nextLine := 2, nextPos := 0, outstanding := 0 }

/-- The part with this job at the head, buffer 0 under repair with lines 0 and 1 covered, buffer 1 SHOWN. -/
def repairing (m : Method) (bursts : List Burst) : State :=
  { running { usual with bufs := [{ buf .repairing 2#32 with coverage := [0, 1] }, { buf .shown 1#32 with pins := 1 }] } with
    jobs := [job m], bursts := bursts }

/-- The transaction may be taken; then each of the five waits of R140 alone, and RESET_N low. -/
theorem witness_PortTakesAtPassGrant :
    let t := tx 1 0#40 (.read 1)
    t.wf = true ∧ (running usual).mayTake 1 = true ∧
      ∀ s ∈ [{ running usual with table := (List.range 32).map (fun n => ⟨n, .passThrough 3 5#6⟩) },
          { running usual with load := some load0 },
          { repairing .pad [] with starvation := 8 },
          { running usual with orders := (Vector.replicate 16 []).set 1 (List.replicate 64 (OrderEntry.mk 5#6 .read (.waits 2))) },
          { running usual with softResetPending := true },
          { running usual with resetN := false }], s.mayTake t.initiator = false := by decide +kernel

/-- The relief is due only at the eighth taking; a list of 63 entries has room. -/
theorem witness_PortTakesAtPassGrant_bounds :
    { repairing .pad [] with starvation := 7 }.mayTake 1 = true ∧
      { running usual with table := (List.range 31).map (fun n => ⟨n, .passThrough 3 5#6⟩) }.mayTake 1 = true ∧
      { running usual with
        orders := (Vector.replicate 16 []).set 1 (List.replicate 63 (OrderEntry.mk 5#6 .read (.waits 2))) }.mayTake 1 = true := by
  decide +kernel

/-- PAD, COPY with a burst that holds data behind one that does not, COPY with none. -/
theorem witness_RepairGrants :
    (∀ m ∈ [Method.pad, .copy 1], ∀ o ∈ [none, some (3 : Initiator)], ∃ s : State, s = repairing m [] ∧
      (o = none → RepairTurn s o) ∧ (o = some 3 → RepairTurn { s with starvation := 8 } o) ∧
      s.jobs = [job m] ∧ NextBurstDue s (job m) ∧ (s.stream 0).bufs[0]?.isSome = true ∧ (s.stream 0).bufs[1]?.isSome = true) ∧
    ∃ (l m : List Burst) (b : Burst), RepairTurn (repairing (.copy 1) (l ++ b :: m)) none ∧ b.phase = .held [1#8] ∧
      (∀ x ∈ l, ∀ e, x.phase ≠ .held e) ∧ ((l ++ b :: m).map (·.slot)).Nodup := by
  constructor
  · intro m hm o _
    refine ⟨_, rfl, ?_⟩
    have hd : (repairing m []).softResetPending = false ∧ (repairing m []).table.length < 32 ∧
        ((repairing m []).entriesOf .repair).length < 4 ∧ (repairing m []).loaderRequest = none := by
      revert m; decide +kernel
    refine ⟨fun h => ⟨hd.1, hd.2.1, hd.2.2.1, .inl hd.2.2.2, .inr (fun i hi => by rw [h] at hi; cases hi)⟩,
      fun _ => ⟨hd.1, hd.2.1, hd.2.2.1, .inl hd.2.2.2, .inl rfl⟩, rfl,
      ⟨rfl, fun b hb => (by cases hb), (by show 0 < 4; decide), ?_⟩, ?_⟩
    · revert m; decide +kernel
    · revert m; decide +kernel
  · refine ⟨[⟨0, 128, 64, .writing⟩], [], ⟨1, 192, 64, .held [1#8]⟩,
      ⟨rfl, by decide, by decide, .inl (by decide +kernel), .inr (fun i hi => by cases hi)⟩, rfl, ?_, by decide⟩
    intro x hx e h; simp only [List.mem_singleton] at hx; subst hx; cases h

/-- A response to initiator 3's tag 5. -/
def response (status : Status) : DsResponse := { origin := false, initiator := 3, tag := 5#6, status := status, data := [7#8] }

/-- The entry waited for at the head with a ready entry behind it, and behind another that waits. -/
theorem witness_ReturnToInitiator :
    (response .okay).wf = true ∧ (∀ e ∈ (running usual).table, e.kind.passKey ≠ some (3, 5#6)) ∧
      ∀ pre ∈ [[], [OrderEntry.mk 4#6 .read (.waits 7)]], ∀ post ∈ [[], [OrderEntry.mk 6#6 .read (.ready ⟨.okay, []⟩)]],
        ∃ (s : State) (e : Entry) (w : OrderEntry), s.table = [] ++ e :: [⟨7, .passThrough 3 4#6⟩] ∧
          e.kind.passKey = some (3, 5#6) ∧ (s.table.map (·.index)).Nodup ∧ s.order 3 = pre ++ w :: post ∧
          w.state = .waits e.index ∧ ∀ o ∈ pre ++ post, o.state ≠ .waits e.index := by
  refine ⟨by decide, by decide +kernel, fun pre hpre post hpost => ?_⟩
  refine ⟨{ running usual with
      table := [⟨2, .passThrough 3 5#6⟩, ⟨7, .passThrough 3 4#6⟩]
      orders := (Vector.replicate 16 []).set 3 (pre ++ OrderEntry.mk 5#6 .read (.waits 2) :: post) },
    ⟨2, .passThrough 3 5#6⟩, OrderEntry.mk 5#6 .read (.waits 2), rfl, rfl, (by show ([2, 7] : List Nat).Nodup; decide), ?_, rfl, ?_⟩
  · revert pre post; decide +kernel
  · revert pre post; decide +kernel

/-- The buffer in each state that matters, with one and with two in flight, ACTIVE and DRAINING, alone and beside a buffer that is
not FREE. -/
theorem witness_ReturnDecrements :
    (response .error).wf = true ∧ (response .error).origin = false ∧
      ∀ st ∈ [BufState.filling, .closing, .releasing, .shown, .repairing], ∀ n ∈ [1, 2], ∀ life ∈ [Lifecycle.active, .draining],
        ∀ more ∈ [[], [buf .shown 2#32]],
        ∃ (s : State) (e : Entry) (b : Buf), s.matched (response .error) = some e ∧ e.kind.counted = some (0, 0) ∧
          (s.stream 0).bufs = b :: more ∧ b.state = st ∧ b.inFlight = n ∧ b.pins = 0 ∧ (s.stream 0).life = life ∧
          e.kind = .captureWrite 3 5#6 0 0 := by
  refine ⟨by decide, rfl, fun st hst n hn life hl more hm => ?_⟩
  refine ⟨{ running { usual with life := life, bufs := { buf st 1#32 with inFlight := n } :: more } with
      table := [⟨0, .captureWrite 3 5#6 0 0⟩] }, ⟨0, .captureWrite 3 5#6 0 0⟩, { buf st 1#32 with inFlight := n }, ?_⟩
  revert st n life more; decide +kernel

/-- A read and a write of the head job in each state it can have, in a soft reset's wait and outside, of a buffer under repair,
of a SHOWN source and of a RELEASING source left with counts of 0. -/
theorem witness_RepairReturnTaken :
    ∀ k ∈ [EntryKind.repairWrite 0 0 0, .repairRead 0 0 0], ∀ js ∈ [JobState.running, .failing, .cancelling],
      ∀ w ∈ [true, false], ∀ bs ∈ [BufState.repairing, .shown, .releasing], ∃ (s : State) (r : DsResponse) (e : Entry) (b : Buf),
        r.wf = true ∧ s.softResetPending = w ∧ e.kind = k ∧ s.jobs = { job (.copy 1) with state := js } :: [] ∧
        b.state = bs ∧ b.inFlight = 1 ∧ b.pins = 0 ∧ b.state ≠ .closing ∧ (s.stream 0).bufs[0]? = some b ∧
        s.matched r = some e := by
  intro k hk js _ w _ bs hb
  refine ⟨{ running { usual with bufs := [{ buf bs 2#32 with inFlight := 1 }, { buf .shown 1#32 with pins := 1 }] } with
      jobs := [{ job (.copy 1) with state := js }], table := [⟨4, k⟩], softResetPending := w },
    { origin := true, initiator := 0, tag := 4#6, status := .okay, data := [] }, ⟨4, k⟩, { buf bs 2#32 with inFlight := 1 },
    rfl, rfl, rfl, rfl, rfl, rfl, rfl, ?_, by unfold running State.stream State.setStream; rfl, ?_⟩
  · rintro rfl; simp at hb
  · simp only [List.mem_cons, List.not_mem_nil, or_false] at hk
    rcases hk with rfl | rfl <;> rfl

/-- A stream with one buffer under repair and a SHOWN source with one pin, and these jobs. -/
def withJobs (life : Lifecycle) (taken : Nat) (jobs : List Job) : State :=
  { running { usual with life := life, drainTaken := taken,
                         bufs := [{ buf .repairing 2#32 with coverage := [0, 1] }, { buf .shown 1#32 with pins := 1 }] } with
    jobs := jobs }

/-- The walk at its end, and a job that failed or was cancelled, by PAD and by COPY, the last job and not; ACTIVE, and
DRAINING with 2 and with 3 requests taken; and a walk not at its end, which ends no job. -/
theorem witness_RepairJobEnds :
    ∀ m ∈ [Method.pad, .copy 1], ∀ js ∈ [JobState.running, .failing, .cancelling], ∀ n ∈ [2, 4], ∀ rest ∈ [[], [job .pad]],
      ∀ life ∈ [(Lifecycle.active, 0), (.draining, 2), (.draining, 3)],
        ∃ (s : State) (j : Job) (b : Buf), s.jobs = j :: rest ∧ j.method = m ∧ j.state = js ∧ j.nextLine = n ∧
          s.softResetPending = false ∧ s.bursts = [] ∧ j.outstanding = 0 ∧ Decode.lines (s.stream j.stream).desc = 4 ∧
          (sourceLeft (s.stream j.stream) j.method).life = life.1 ∧
          (sourceLeft (s.stream j.stream) j.method).drainTaken = life.2 ∧
          (sourceLeft (s.stream j.stream) j.method).bufs[j.target]? = some b := by
  intro m hm js _ n _ rest _ life _
  refine ⟨withJobs life.1 life.2 ({ job m with state := js, nextLine := n } :: rest), { job m with state := js, nextLine := n },
    { buf .repairing 2#32 with coverage := [0, 1] }, rfl, rfl, rfl, rfl, rfl, rfl, rfl, ?_⟩
  have hd : Decode.lines (desc 0x08#8) = 4 := by decide +kernel
  refine ⟨hd, ?_⟩
  simp only [List.mem_cons, List.not_mem_nil, or_false] at hm
  rcases hm with rfl | rfl <;> exact ⟨rfl, rfl, rfl⟩

/-- A head job of the stream and of another, a job of each behind it, no job, and a soft reset's wait. -/
theorem witness_RepairCancellation :
    ∀ w ∈ [true, false], ∀ st ∈ [(0 : StreamId), 5], ∃ (s : State) (j : Job) (rest : List Job), s.softResetPending = w ∧
      (s.stream 0).life = .draining ∧ (s.stream 0).drainTaken = 4 ∧ s.jobs = j :: rest ∧ j.stream = st ∧
      rest.filter (fun k => k.stream = 0) = [job (.copy 1)] ∧ rest.filter (fun k => k.stream ≠ 0) = [{ job .pad with stream := 5 }] := by
  intro w _ st _
  exact ⟨{ withJobs .draining 4 [{ job .pad with stream := st }, { job .pad with stream := 5 }, job (.copy 1)] with softResetPending := w },
    { job .pad with stream := st }, [{ job .pad with stream := 5 }, job (.copy 1)], rfl, rfl, rfl, rfl, rfl, by decide +kernel,
    by decide +kernel⟩

/-! ### Witnesses: the image -/

/-- Slot bytes 0 to 63: signature, version 1, generation 3. -/
def header : List Byte := [0x5A, 0x43, 0x46, 0x47, 1, 0, 0, 0, 3, 0, 0, 0] ++ List.replicate 52 0#8

/-- The bytes of a copy: this header, this descriptor 0, seven descriptors of zero bytes, and their CRC. -/
def copyOf (d : Descriptor) : List Byte :=
  (header ++ d ++ List.replicate 448 0#8) ++ lsb16 (Decode.crc (header ++ d ++ List.replicate 448 0#8))

/-- A copy whose three reads have returned. -/
def received (bytes : List Byte) : CopyRx :=
  { state := .received, first := some (bytes.take 256), second := some ((bytes.drop 256).take 256), third := some (bytes.drop 512) }

/-- A load whose copy 1 holds this image, the others having failed. -/
def loaded (p : Purpose) (bytes : List Byte) : Load :=
  { purpose := p, plan := [], copies := #v[⟨.failed, none, none, none⟩, received bytes, ⟨.failed, none, none, none⟩] }

/-- The image with this descriptor 0. -/
def image : List Byte := copyOf (desc 0x08#8)

theorem received_bytes (l : List Byte) : (received l).bytes = l := by
  show l.take 256 ++ (l.drop 256).take 256 ++ l.drop 512 = l
  rw [← List.take_add, List.take_append_drop]

/-- A copy that holds a header of 64 bytes and its CRC is valid (R152). -/
theorem received_valid (d : Descriptor) (hd : d.length = 64) : (received (copyOf d)).valid = true := by
  have hl : (header ++ d ++ List.replicate 448 0#8).length = 576 := by
    rw [List.length_append, List.length_append, hd, List.length_replicate]; rfl
  have h0 : (copyOf d).take 4 = [0x5A#8, 0x43#8, 0x46#8, 0x47#8] := rfl
  have h1 : Decode.le16 (copyOf d) 4 = 1 := rfl
  have h2 : (Decode.crc ((copyOf d).take 576)).toNat = Decode.le16 (copyOf d) 576 := by
    have ht : (copyOf d).take 576 = header ++ d ++ List.replicate 448 0#8 := List.take_left' hl
    rw [ht]
    unfold Decode.le16 Decode.byteAt copyOf
    generalize header ++ d ++ List.replicate 448 0#8 = body at hl
    rw [List.getD_append_right _ _ _ _ (by omega), List.getD_append_right _ _ _ _ (by omega), hl]
    generalize Decode.crc body = c
    show c.toNat = (c.extractLsb' 0 8).toNat + 256 * (c.extractLsb' 8 8).toNat
    simp [BitVec.extractLsb'_toNat, Nat.shiftRight_eq_div_pow]; omega
  unfold CopyRx.valid Decode.signatureOk Decode.versionOk Decode.crcOk
  rw [received_bytes, h0, h1, h2]; simp [received]

/-- Copy 1, received with its CRC, is selected beside failed copies (R153). -/
theorem test_copy_selected : (loaded .start image).selected = some 1 := by
  have h0 : (CopyRx.mk .failed none none none).valid = false := rfl
  have h1 : (received image).valid = true := received_valid _ (by decide)
  have e (k : CopyIndex) : (loaded .start image).copies.get k = if k = 1 then received image else .mk .failed none none none := by
    unfold loaded; generalize received image = r
    match k with
    | 0 => rfl
    | 1 => rfl
    | 2 => rfl
  have key (l : Load) (h0 : (l.copies.get 0).valid = false) (h1 : (l.copies.get 1).valid = true)
      (h2 : (l.copies.get 2).valid = false) : l.selected = some 1 := by
    unfold Load.selected walkCopy; simp [h0, h1, h2]
  exact key _ (by rw [e]; exact h0) (by rw [e]; exact h1) (by rw [e]; exact h0)

theorem witness_LoaderReads_returns :
    ∃ (s : State) (r : DsResponse) (e : Entry) (q : LoaderRead), r.wf = true ∧ s.softResetPending = false ∧
      s.matched r = some e ∧ e.kind = .loaderRead q ∧ s.load = some load0 ∧ q.copy ∈ [(0 : CopyIndex), 1, 2] ∧
      (load0.copies.get q.copy).state = .pending ∧ q.offset = 512 :=
  ⟨{ running usual with load := some load0, table := [⟨1, .loaderRead ⟨2, 512, 66⟩⟩] },
    { origin := true, initiator := 0, tag := 1#6, status := .okay, data := List.replicate 66 0#8 },
    ⟨1, .loaderRead ⟨2, 512, 66⟩⟩, ⟨2, 512, 66⟩, by decide, rfl, by decide +kernel, rfl, rfl, by decide, by decide +kernel, rfl⟩

/-- A response to an image read in a soft reset's wait. -/
theorem witness_LoaderReads_reset :
    ∃ (s : State) (r : DsResponse) (e : Entry) (q : LoaderRead), r.wf = true ∧ s.softResetPending = true ∧
      s.matched r = some e ∧ e.kind = .loaderRead q ∧ s.load = some { load0 with plan := [] } :=
  ⟨{ running usual with load := some { load0 with plan := [] }, softResetPending := true, table := [⟨1, .loaderRead ⟨2, 512, 66⟩⟩] },
    { origin := true, initiator := 0, tag := 1#6, status := .okay, data := List.replicate 66 0#8 },
    ⟨1, .loaderRead ⟨2, 512, 66⟩⟩, ⟨2, 512, 66⟩, by decide, rfl, by decide +kernel, rfl, rfl⟩

/-- Copies within 2³¹ of one another, and the three generations of R153 that lie far apart. -/
theorem witness_CopyValidityAndSelection :
    (0xFFFFFFFE#32 - 0xFFFFFFF0#32).toNat < 2 ^ 31 ∧ (3#32 - 0xFFFFFFF0#32).toNat < 2 ^ 31 ∧
      Machine.newer 3#32 0xFFFFFFFE#32 = true ∧ Machine.newer 0x55555555#32 0#32 = true ∧ Machine.newer 0xAAAAAAAA#32 0x55555555#32 = true ∧
      Machine.newer 0#32 0xAAAAAAAA#32 = true ∧ Machine.newer 0x80000000#32 0#32 = false ∧ Machine.newer 0#32 0x80000000#32 = false := by decide

/-- START with and without a valid copy; RELOAD without one, with the current one, and with another in RUNNING and CONFIG_FAULT. -/
theorem witness_LoadEvaluation :
    ∀ p ∈ [Purpose.start, .reload], ∀ g ∈ [3#32, 4#32], ∀ d ∈ [Device.running, .configFault],
      ∃ s : State, s.load = some (loaded p image) ∧ s.entriesOf .loader = [] ∧
        s.softResetPending = false ∧ s.device = d ∧ s.copyIndex = some 1 ∧ s.generation = g :=
  fun p _ g _ d _ => ⟨{ running usual with load := some (loaded p image), device := d, copyIndex := some 1,
                                           generation := g }, rfl, rfl, rfl, rfl, rfl, rfl⟩

/-- No evaluation: a soft reset's wait, no load, a read left to present, a read outstanding. -/
theorem witness_LoadEvaluation_none :
    { running usual with load := some (loaded .start []), softResetPending := true }.softResetPending = true ∧
      (running usual).load = none ∧ load0.plan ≠ [] ∧
      { running usual with table := [⟨1, .loaderRead ⟨2, 512, 66⟩⟩] }.entriesOf .loader ≠ [] := by
  refine ⟨rfl, by decide +kernel, by decide, by decide +kernel⟩

theorem witness_ReloadHandOff :
    (running usual).waitSet = [] ∧
      usual.current.map (·.desc) = some (Decode.imageDescriptor image 0) ∧
      usual.current.map (·.desc) ≠ some (Decode.imageDescriptor (copyOf (desc 0x09#8)) 0) := by decide +kernel

/-- The nine checks of a descriptor alone in its copy, with the causes of Table 8-4. -/
def checksOf (p : Place) (d : Descriptor) : List (Bool × RefusalCause) :=
  [(geometryOk d, .badGeometry), (windowsInside p d, .windowOutsideAperture), (windowsApart p [] 0 d, .windowOverlap),
   (poolOk d, .badPool), (buffersApart p [] 0 d, .bufferOverlap), (readersOk d, .badReaders), (holdPoolOk d, .holdNeedsThree),
   (countsOk d, .badCounts), (timingOk d, .badTiming)]

/-- No check fails; each of the nine fails with all before it passing, by one byte: line bytes 41h, a capture window beyond the
aperture, one window on the other, one buffer, buffer 1 on buffer 0, one ID twice, two buffers under HOLD, A = 0, P = 232. -/
theorem witness_ValidationOutcome :
    ∃ p : Place, Decode.enable (desc 0x08#8) = true ∧ Decode.enable (List.replicate 64 0#8) = false ∧
      (∀ c ∈ checksOf p (desc 0x08#8), c.1 = true) ∧
      ∀ e ∈ [(0, 12, 0x41#8), (1, 5, 0x20#8), (2, 7, 0x00#8), (3, 11, 0x01#8), (4, 44, 0x00#8), (5, 3, 0x82#8), (6, 11, 0x02#8),
          (7, 22, 0x20#8), (8, 29, 0x00#8)],
        (∀ c ∈ (checksOf p ((desc 0x08#8).set e.2.1 e.2.2)).take e.1, c.1 = true) ∧
        ((checksOf p ((desc 0x08#8).set e.2.1 e.2.2))[e.1]?.map (·.1)) = some false ∧
        Decode.enable ((desc 0x08#8).set e.2.1 e.2.2) = true :=
  ⟨{ aperture := 0x10000000, image := 0 }, by decide +kernel⟩

/-! ### Witnesses: the invariants -/

/-- One pass-through read of initiator 3 under way, and MCS_N about to rise. -/
def busy : State :=
  { running usual with
    pending := [.frameEnd], link := .command, mcsN := false, table := [⟨2, .passThrough 3 5#6⟩]
    orders := (Vector.replicate 16 []).set 3 [OrderEntry.mk 5#6 .read (.waits 2)] }

theorem busy_order (i : Initiator) : busy.order i = if i = 3 then [OrderEntry.mk 5#6 .read (.waits 2)] else [] := by
  revert i; decide +kernel

theorem busy_stream (st : StreamId) : busy.stream st = if st = 0 then usual else StreamState.empty := by
  revert st; decide +kernel

theorem busy_steps : ∃ u, step busy = .next u := ⟨_, rfl⟩

theorem witness_StepKeepsCapacity : Capacity busy := by constructor <;> decide +kernel

theorem witness_StepKeepsOrderLinks : OrderLinks busy := by
  refine ⟨fun i e l r h => ?_, fun i o ho n hn => ?_, by decide +kernel, by decide +kernel⟩
  · rw [busy_order] at h; split at h <;> cases h
    simp
  · rw [busy_order] at ho; split at ho
    · rename_i hi
      simp only [List.mem_singleton] at ho; subst ho; subst hi; cases hn
      exact ⟨⟨2, .passThrough 3 5#6⟩, by decide +kernel, rfl, rfl⟩
    · cases ho

theorem witness_StepKeepsLockStates : LockStates busy := by
  have hc : countsPositive usual.desc := by unfold countsPositive; decide +kernel
  have hu : SlotLock usual :=
    ⟨fun d h _ => by cases h; exact hc, fun d h => (by cases h), ⟨rfl, rfl, by decide +kernel⟩, fun _ => hc,
      fun h => absurd rfl h, fun h => (by cases h), fun h => (by cases h), fun h => (by cases h)⟩
  have he : SlotLock StreamState.empty :=
    ⟨fun d h => (by cases h), fun d h => (by cases h), ⟨rfl, rfl⟩, fun h => absurd rfl h,
      fun h => absurd rfl h, fun _ _ => rfl, fun h => (by cases h), fun h => (by cases h)⟩
  refine ⟨fun st => ?_, fun h => absurd rfl h, fun h => (by cases h), fun h => (by cases h), fun l h => (by cases h),
    fun l h => (by cases h)⟩
  rw [busy_stream]; split
  · exact hu
  · exact he

/-- Buffer 0 SHOWN with one reader, buffer 1 READY, buffer 2 FREE. -/
def pooled : StreamState :=
  { usual with
    lastSeq := 3#32, ready := [1]
    bufs := [{ Buf.fresh 0x100#32 with state := .shown, seq := 2#32, readers := 1 },
      { Buf.fresh 0x101#32 with state := .ready, seq := 3#32 }, Buf.fresh 0x102#32]
    readers := [{ readerOf (desc 0x08#8) 0 with state := .bound 0, boundSeq := 2#32 }, readerOf (desc 0x08#8) 1] }

theorem pooled_pool : PoolOk pooled (fun _ => 0) [] where
  each i b h := by
    match i with
    | 0 | 1 | 2 => cases h; constructor <;> decide +kernel
    | n + 3 => cases h
  queue i := by
    match i with
    | 0 | 1 | 2 => decide +kernel
    | n + 3 => exact ⟨fun h => by simp [pooled] at h, fun ⟨b, h, _⟩ => by cases h⟩
  rising := by decide +kernel
  oneHold i j b c hi _ hb _ := by
    have h := at_all (P := fun _ b => b.hold = false) (by decide +kernel) i b hi
    rw [h] at hb; cases hb
  distinct i j b c hi hj hb hc hs := by
    match i, j with
    | 0, 0 | 1, 1 => rfl
    | 0, 1 | 1, 0 => cases hi; cases hj; exact absurd hs (by decide)
    | 2, _ => cases hi; exact absurd rfl hb
    | _, 2 => cases hj; exact absurd rfl hc
    | n + 3, _ => cases hi
    | _, n + 3 => cases hj
  bound r hr i h := by
    have hd : ∀ r ∈ pooled.readers, r.state = .bound 0 ∨ r.state = .unbound := by decide +kernel
    rcases hd r hr with hs | hs <;> rw [hs] at h <;> cases h
    decide
  current i h := by cases h
  pinned i h := absurd rfl h
  targets := ⟨List.nodup_nil, fun i h => by cases h⟩

theorem pooled_slot : SlotPool pooled :=
  ⟨.inr (by decide +kernel), by decide +kernel, fun _ => rfl, (by rintro (h | h) <;> cases h), fun h => (by cases h),
    fun h => (by cases h)⟩

theorem empty_pool : PoolOk StreamState.empty (fun _ => 0) [] ∧ SlotPool StreamState.empty := by
  refine ⟨⟨fun i b h => ?_, fun i => ?_, List.Pairwise.nil, fun i _ b _ h => ?_, fun i _ b _ h => ?_, fun r h => ?_,
    fun i h => (by cases h), fun i h => absurd rfl h, List.nodup_nil, fun i h => (by cases h)⟩,
    .inl rfl, rfl, (by rintro (h | h) <;> cases h), fun _ => ⟨rfl, fun b h => (by cases h)⟩, fun h => (by cases h), fun h => (by cases h)⟩
  · cases i <;> cases h
  · exact ⟨fun h => (by cases h), fun ⟨b, h, _⟩ => by cases i <;> cases h⟩
  · cases i <;> cases h
  · cases i <;> cases h
  · cases h

theorem witness_StepKeepsPools :
    ∃ s u : State, LockStates s ∧ PoolsOk s ∧ step s = .next u ∧ s.stream 0 = pooled := by
  have hs (st : StreamId) : (busy.setStream 0 pooled).stream st = if st = 0 then pooled else StreamState.empty := by
    revert st; decide +kernel
  refine ⟨busy.setStream 0 pooled, _, ?_, fun st => ?_, rfl, hs 0⟩
  · have h := witness_StepKeepsLockStates
    have hp : SlotLock pooled := by
      have hu := h.slots 0
      rw [busy_stream 0, if_pos rfl] at hu
      exact ⟨hu.current, hu.waiting, hu.ranges, hu.counts, hu.arming, hu.off, hu.refused, hu.draining⟩
    refine ⟨fun st => ?_, fun hd => absurd rfl hd, fun hd => (by cases hd), fun hd => (by cases hd),
      fun l hl => (by cases hl), fun l hl => (by cases hl)⟩
    have hb := h.slots st
    rw [busy_stream] at hb
    rw [hs]; split
    · exact hp
    · rename_i hne; rw [if_neg hne] at hb; exact hb
  · rw [hs]; split
    · exact ⟨pooled_pool, pooled_slot⟩
    · exact empty_pool

end Sys2Proof.Tests
end

section
/-! PROOF. The capture path: closes, capture status reads and the forms of a mark slot access (Chapters 2 and 4). The lemmas say
what a taken upstream command does, what a close leaves in each frame mode, the bytes of the capture status record, and how a mark
slot access is classified. -/
namespace Sys2Proof.Machine

open Sys2Proof Sys2Proof.Safety

/-! ### What a taken command runs -/

/-- The state a taking answers from: the acceptance is driven, nothing else differs (R140). -/
def State.accepting (s : State) : State := { s with ports := { Ports.quiet with accepted := true } }

@[simp] theorem State.accepting_stream (s : State) (st : StreamId) : s.accepting.stream st = s.stream st := rfl
@[simp] theorem State.accepting_now (s : State) : s.accepting.now = s.time.toNat := rfl

/-- A transaction that the port takes is handled by its class, whatever the command's own name (R120, R140; log 5). -/
theorem State.offered_takeAny (s : State) (t : Txn) (h : Takes s t) :
    s.offered t (State.takeAny t) = s.accepting.takeAs t (s.classify t) := by
  rw [State.offered_taken s t h]
  show s.accepting.takeAs t (State.classify s.accepting t) = _
  rw [State.accepting, State.classify_ports]

/-! ### Closes (R41 to R43) -/

theorem StreamState.count_emptyCloses (x : StreamState) :
    x.count .emptyCloses =
      { x with counters := { x.counters with emptyCloses := advance16 x.counters.emptyCloses } } := rfl

theorem StreamState.closeSink_eq (x : StreamState) (c : Decode.CloseRecord) :
    x.closeSink c = { x with
      mode := .none
      previous := x.newest
      newest := { verdict := .droppedOverrun, seq := x.lastSeq, producerSeq := c.producerSeq,
                  missing := Decode.lines x.desc }
      counters := { x.counters with droppedOverrun := advance16 x.counters.droppedOverrun } } := by
  have hin (y : StreamState) : y.lockInput (Verdict.lockInput false .droppedOverrun) = y := y.lockInput_neutral
  unfold StreamState.closeSink
  simp only [hin]
  rfl

theorem StreamState.closeBuffer_at (x : StreamState) (i : Nat) (b : Buf) (c : Decode.CloseRecord) (now : Micros) (early : Bool)
    (h : x.bufs[i]? = some b) :
    x.closeBuffer i c now early = { x with
      mode := .none
      bufs := x.bufs.set i { b with state := .closing, close := closeInfoOf c now, early := early } } := by
  unfold StreamState.closeBuffer
  rw [StreamState.onBuf_at x i b _ h]

/-- A close's handling reaches no other slot. -/
theorem State.handleClose_stream_ne (s : State) (st k : StreamId) (c : Decode.CloseRecord) (now : Micros) (early : Bool)
    (h : k ≠ st) : (s.handleClose st c now early).stream k = s.stream k := by
  unfold State.handleClose
  split
  next i _ => rw [State.drain_stream_ne _ _ _ _ h, State.stream_onStream_ne _ _ _ _ h]
  next => exact State.stream_onStream_ne _ _ _ _ h
  next => exact State.stream_onStream_ne _ _ _ _ h

theorem State.handleClose_none (s : State) (st : StreamId) (x : StreamState) (c : Decode.CloseRecord) (now : Micros)
    (early : Bool) (h : x.mode = .none) :
    (s.setStream st x).handleClose st c now early = s.setStream st ((x.count .emptyCloses).lockInput .fault) := by
  unfold State.handleClose
  rw [State.stream_setStream, h]
  exact State.onStream_setStream s st x _

theorem State.handleClose_sink (s : State) (st : StreamId) (x : StreamState) (c : Decode.CloseRecord) (now : Micros)
    (early : Bool) (h : x.mode = .sink) :
    (s.setStream st x).handleClose st c now early = s.setStream st (x.closeSink c) := by
  unfold State.handleClose
  rw [State.stream_setStream, h]
  exact State.onStream_setStream s st x _

theorem State.handleClose_buffer (s : State) (st : StreamId) (x : StreamState) (i : Nat) (c : Decode.CloseRecord)
    (now : Micros) (early : Bool) (h : x.mode = .buffer i) :
    (s.setStream st x).handleClose st c now early = (s.setStream st (x.closeBuffer i c now early)).drain st i := by
  unfold State.handleClose
  rw [State.stream_setStream, h]
  exact congrArg (State.drain · st i) (State.onStream_setStream s st x _)

/-- A closed buffer does not drain while its writes are in flight (R5, R12). -/
theorem State.drain_closeBuffer_inFlight (s : State) (st : StreamId) (x : StreamState) (i : Nat) (b : Buf)
    (c : Decode.CloseRecord) (now : Micros) (early : Bool) (hi : x.bufs[i]? = some b) (hn : b.inFlight ≠ 0) :
    (s.setStream st (x.closeBuffer i c now early)).drain st i = s.setStream st (x.closeBuffer i c now early) := by
  refine State.drain_not _ st i { b with state := .closing, close := closeInfoOf c now, early := early } ?_
    (fun e => hn e.2)
  rw [State.stream_setStream, StreamState.closeBuffer_at x i b _ _ _ hi]
  exact getElem_set_at _ _ _ _ hi

/-- What a close leaves before its acknowledgement: the arrival taken, then the handling by frame mode (R41, R98). -/
def State.closed (s : State) (st : StreamId) (d : List Byte) : State :=
  (s.accepting.setStream st (arrived (s.stream st) s.time.toNat)).handleClose st (Decode.closeRecord d) s.time.toNat
    ((s.stream st).isEarly s.time.toNat)

/-- A taken close is its handling, acknowledged OKAY (R41). -/
theorem State.exec_close (s : State) (t : Txn) (st : StreamId) (d : List Byte) (h : Takes s t)
    (hc : s.classify t = .close st) (hb : t.body = .write d) : exec (.close t) s = .next ((s.closed st d).answer t .okay []) := by
  show execClose t s = _
  rw [execClose_any, State.offered_takeAny s t h, hc]
  show Host.Outcome.next (s.accepting.takeClose t st) = _
  unfold State.takeClose State.closed State.acknowledge State.onStream
  simp only [hb, State.accepting_stream, State.accepting_now, StreamState.arrive_eq, TxnBody.data]

/-- A close before its acknowledgement changes slots and jobs beside the acceptance (R41 to R43). -/
theorem State.closed_frame (s : State) (st : StreamId) (d : List Byte) :
    ∃ streams jobs, s.closed st d = { s.accepting with streams := streams, jobs := jobs } := by
  unfold State.closed
  exact ⟨_, _, State.handleClose_frame _ _ _ _ _⟩

theorem State.closed_answered (s : State) (t : Txn) (st : StreamId) (d : List Byte) :
    Answered s ((s.closed st d).answer t .okay []) t .okay [] := by
  obtain ⟨streams, jobs, h⟩ := State.closed_frame s st d
  rw [h]
  exact State.answer_spec s _ t .okay [] rfl rfl

/-- An acknowledged close changes slots, order lists, pins and jobs alone. -/
theorem State.closed_answer_frame (s : State) (t : Txn) (st : StreamId) (d : List Byte) (u : State)
    (hu : u = (s.closed st d).answer t .okay []) :
    u = { s with streams := u.streams, orders := u.orders, ports := u.ports, jobs := u.jobs } := by
  obtain ⟨streams, jobs, h⟩ := State.closed_frame s st d
  rw [hu, h]
  rfl

theorem State.closed_stream_ne (s : State) (st k : StreamId) (d : List Byte) (h : k ≠ st) :
    (s.closed st d).stream k = s.stream k := by
  unfold State.closed
  rw [State.handleClose_stream_ne _ _ _ _ _ _ h, State.stream_setStream_ne _ _ _ _ h, State.accepting_stream]

section
variable (s : State) (st : StreamId) (d : List Byte) (x : StreamState) (hx : x = arrived (s.stream st) s.time.toNat)
include hx

/-- In mode NONE a close counts in empty_closes and is a lock fault (R42). -/
theorem State.closed_none (h : (s.stream st).mode = .none) :
    s.closed st d = s.accepting.setStream st (({ x with
      counters := { x.counters with emptyCloses := advance16 x.counters.emptyCloses } } : StreamState).lockInput .fault) := by
  rw [State.closed, ← hx, State.handleClose_none _ _ _ _ _ _ (by rw [hx]; exact h), StreamState.count_emptyCloses]

/-- In mode SINK a close gives DROPPED_OVERRUN at once (R43). -/
theorem State.closed_sink (h : (s.stream st).mode = .sink) :
    s.closed st d = s.accepting.setStream st (x.closeSink (Decode.closeRecord d)) := by
  rw [State.closed, ← hx, State.handleClose_sink _ _ _ _ _ _ (by rw [hx]; exact h)]

/-- In mode BUFFER the filling buffer goes to CLOSING with its close info and early flag, and drains (R11, R12). -/
theorem State.closed_buffer (i : Nat) (h : (s.stream st).mode = .buffer i) :
    s.closed st d = (s.accepting.setStream st (x.closeBuffer i (Decode.closeRecord d) s.time.toNat
      ((s.stream st).isEarly s.time.toNat))).drain st i := by
  rw [State.closed, ← hx, State.handleClose_buffer _ _ _ i _ _ _ (by rw [hx]; exact h)]

end

/-! ### The capture status record (R46) -/

/-- The lines the status record counts as covered: the filling buffer's in mode BUFFER, else 0 (Table 2-3). -/
theorem StreamState.coveredNow_eq (x : StreamState) :
    x.coveredNow = match x.mode with
      | .buffer i => (match x.bufs[i]? with | some b => b.coverage.length | none => 0)
      | .none => 0
      | .sink => 0 := by
  unfold StreamState.coveredNow
  cases x.mode with
  | buffer i => cases h : x.bufs[i]? <;> simp [h, Buf.covered]
  | none => rfl
  | sink => rfl

theorem StreamState.countIn_one (x : StreamState) (p : BufState) :
    x.countIn [p] = (x.bufs.filter (fun b => b.state = p)).length := by
  unfold StreamState.countIn
  congr 2
  funext b
  simp

theorem StreamState.countIn_two (x : StreamState) (p q : BufState) :
    x.countIn [p, q] = (x.bufs.filter (fun b => b.state = p ∨ b.state = q)).length := by
  unfold StreamState.countIn
  congr 2
  funext b
  simp

/-- The 32 bytes of Table 11-2 for an ACTIVE stream (R46). -/
theorem StreamState.activeStatus_eq (x : StreamState) :
    x.activeStatus =
      [0x53#8, one x.lock.code, one x.mode.code, one ((x.bufs.filter (fun b => b.state = .free)).length)]
        ++ lsb32 x.lastSeq ++ lsb16 (BitVec.ofNat 16 x.coveredNow)
        ++ [one ((x.bufs.filter (fun b => b.state = .closing ∨ b.state = .repairing)).length),
            one x.newest.verdict.code, one x.previous.verdict.code, 0#8]
        ++ lsb16 (BitVec.ofNat 16 x.newest.missing) ++ lsb32 x.newest.seq ++ lsb16 x.newest.producerSeq
        ++ lsb16 x.previous.producerSeq ++ lsb32 x.previous.seq ++ lsb16 (BitVec.ofNat 16 x.previous.missing)
        ++ [0#8, 0#8] := by
  have hreserved : Decode.leBytes 2 0 = [0#8, 0#8] := by decide
  unfold StreamState.activeStatus statusRecord
  rw [leBytes_two_nat x.coveredNow, leBytes_two_nat x.newest.missing, leBytes_two_nat x.previous.missing]
  simp only [byte_one, leBytes_two, leBytes_four, hreserved, StreamState.countIn_one, StreamState.countIn_two]
  rfl

/-- A taken capture status read answers with the record of the slot as it stands (R46). -/
theorem State.exec_captureStatusRead (s : State) (t : Txn) (st : StreamId) (h : Takes s t)
    (hc : s.classify t = .statusRead st) :
    exec (.captureStatusRead t) s = .next (s.accepting.answer t .okay (s.stream st).activeStatus) := by
  show execCaptureStatusRead t s = _
  rw [execCaptureStatusRead_any, State.offered_takeAny s t h, hc]
  rfl

/-! ### Mark slot accesses (R39, R72) -/

/-- The mark offset of an address that lies this far behind the start of the mark slot (R119). -/
theorem Windows.markOffset_of (w : Windows) (a o : Nat) (h : a = w.size - 64 + o) : w.markOffset a = o := by
  unfold Windows.markOffset
  have : Config.markSize = 64 := rfl
  omega

section
variable (st : StreamId) (w : Windows) (a o : Nat) (hr : w.region a = .mark) (ho : w.markOffset a = o)
include hr ho

/-- A write to the mark slot of an ACTIVE capture window: a close, or misuse (R39). -/
theorem classifyCapture_mark_write (d : List Byte) :
    classifyCapture st w a (.write d) =
      if o = 0 ∧ d.length = 32 ∧ d.head? = some 0x43#8 then .close st else .refuse .markMisuse (some st) := by
  unfold classifyCapture
  rw [hr]
  simp only [isClose_iff w a o d ho]

/-- A read of the mark slot of an ACTIVE capture window: a status read, or misuse (R39). -/
theorem classifyCapture_mark_read (n : Nat) :
    classifyCapture st w a (.read n) = if o = 0 ∧ n = 32 then .statusRead st else .refuse .markMisuse (some st) := by
  unfold classifyCapture
  rw [hr, ← ho]

/-- A read of the mark slot of an ACTIVE presentation window: a claim, a peek, or misuse (R72). -/
theorem classifyPresentation_mark (k : ReaderSlot) (n : Nat) :
    classifyPresentation st k w a n =
      if o = 0 ∧ n = 32 then .claim st k
      else if o = 32 ∧ n = 32 then .peek st k
      else .refuse .markMisuse (some st) := by
  simp only [classifyPresentation, hr, ho]

end

end Sys2Proof.Machine

namespace Sys2Proof.CapturePath

open Sys2Proof Sys2Proof.Machine Sys2Proof.Safety

/-- Settles O25: the close is its handling by frame mode with the arrival taken first, and each mode's clause is the
equation of that mode. -/
theorem closeByMode : Obligations.CloseByMode := by
  intro s t st d ht hc hb x info hx hinfo
  refine ⟨_, State.exec_close s t st d ht hc hb, State.closed_answered s t st d,
    fun k hk => (State.answer_stream _ _ _ _ _).trans (State.closed_stream_ne s st k d hk),
    State.closed_answer_frame s t st d _ rfl, ?none, ?sink, ?buffer⟩
  case none =>
    intro hm
    rw [State.closed_none s st d x hx hm]
    exact ⟨rfl, State.stream_setStream _ _ _⟩
  case sink =>
    intro hm
    rw [State.closed_sink s st d x hx hm, StreamState.closeSink_eq, hinfo]
    exact ⟨rfl, State.stream_setStream _ _ _⟩
  case buffer =>
    intro i b hm hi
    have hxi : x.bufs[i]? = some b := by rw [hx]; exact hi
    refine ⟨(s.stream st).isEarly s.time.toNat, StreamState.isEarly_iff _ _,
      s.setStream st (x.closeBuffer i (Decode.closeRecord d) s.time.toNat ((s.stream st).isEarly s.time.toNat)), ?_, ?_⟩
    · rw [hinfo]
      exact congrArg (s.setStream st) (StreamState.closeBuffer_at x i b _ _ _ hxi)
    · rw [State.answer_streams, State.answer_jobs, State.closed_buffer s st d x hx i hm]
      obtain ⟨hstreams, hjobs⟩ := State.drain_congr (s.accepting.setStream st _) (s.setStream st _) st i rfl rfl
      refine ⟨hstreams, hjobs, fun hn => ?_⟩
      rw [State.drain_closeBuffer_inFlight s.accepting st x i b _ _ _ hxi hn]
      exact ⟨rfl, rfl⟩

/-- Settles O26: the taking answers from the slot as it stands, and the record's fields are those of Table 11-2. -/
theorem captureStatusRead : Obligations.CaptureStatusRead := by
  rintro s t st ht hc x rfl
  have hexec := State.exec_captureStatusRead s t st ht hc
  rw [StreamState.activeStatus_eq, StreamState.coveredNow_eq] at hexec
  exact ⟨_, hexec, rfl, rfl, State.answer_spec s s.accepting t .okay _ rfl rfl⟩

/-- Settles O32, by the mark offset of the access and the form of its body. -/
theorem markSlotForms : Obligations.MarkSlotForms := by
  intro s t m o ho hr hl
  have hmark := Windows.markOffset_of m.entry _ o ho
  refine ⟨fun hk hi => ⟨fun d hb => ?_, fun n hb => ?_⟩, fun hk k n hs hb => ?_⟩
  · rw [State.classifyWindow_capture s t m hk hi hl, hb]
    exact classifyCapture_mark_write _ _ _ o hr hmark d
  · rw [State.classifyWindow_capture s t m hk hi hl, hb]
    exact classifyCapture_mark_read _ _ _ o hr hmark n
  · rw [State.classifyWindow_presentation s t m k n hk hs hb hl]
    exact classifyPresentation_mark _ _ _ o hr hmark k n

end Sys2Proof.CapturePath
end

section
/-! PROOF. Claims and peeks of the presentation window (Chapter 4). The lemmas say what a taken claim or peek runs, what target the
discipline gives under LATEST and under QUEUE, and what slot a claim leaves for each target. -/
namespace Sys2Proof.Machine

open Sys2Proof Sys2Proof.Safety

/-! ### What a taken claim and a taken peek run (R74, R83) -/

/-- Whatever the slots became, a taking that answers leaves all but slots, order lists and pins (R132, R140). -/
theorem State.accepting_answer_portAndStreams (s : State) (streams : Vector StreamState 8) (t : Txn) (status : Status)
    (d : List Byte) : PortAndStreams s (State.answer { s.accepting with streams := streams } t status d) := rfl

/-- A claim's slot operation on its stream, before the answer; nothing but the acceptance and that slot differs (R74). -/
def State.claiming (s : State) (st : StreamId) (k : ReaderSlot) : State :=
  s.accepting.onStream st (fun x => x.claim s.time.toNat k)

@[simp] theorem State.claiming_stream (s : State) (st : StreamId) (k : ReaderSlot) :
    (s.claiming st k).stream st = (s.stream st).claim s.time.toNat k := State.stream_onStream _ _ _

theorem State.claiming_stream_ne (s : State) (st j : StreamId) (k : ReaderSlot) (h : j ≠ st) :
    (s.claiming st k).stream j = s.stream j := State.stream_onStream_ne _ _ _ _ h

/-- A claim before its answer changes slots alone beside the acceptance (R74). -/
theorem State.claiming_frame (s : State) (st : StreamId) (k : ReaderSlot) :
    ∃ streams, s.claiming st k = { s.accepting with streams := streams } := ⟨_, rfl⟩

theorem State.claiming_portAndStreams (s : State) (t : Txn) (st : StreamId) (k : ReaderSlot) (d : List Byte) :
    PortAndStreams s ((s.claiming st k).answer t .okay d) := by
  obtain ⟨streams, h⟩ := State.claiming_frame s st k
  rw [h]
  exact State.accepting_answer_portAndStreams s streams t .okay d

theorem State.claiming_answered (s : State) (t : Txn) (st : StreamId) (k : ReaderSlot) (d : List Byte) :
    Answered s ((s.claiming st k).answer t .okay d) t .okay d := by
  obtain ⟨streams, h⟩ := State.claiming_frame s st k
  rw [h]
  exact State.answer_spec s _ t .okay d rfl rfl

theorem State.exec_claim (s : State) (t : Txn) (st : StreamId) (k : ReaderSlot) (h : Takes s t)
    (hc : s.classify t = .claim st k) :
    exec (.claim t) s = .next ((s.claiming st k).answer t .okay
      (presentationBytes ((s.claiming st k).stream st) s.time.toNat k (((s.claiming st k).stream st).reader k))) := by
  show execClaim t s = _
  rw [execClaim_any, State.offered_takeAny s t h, hc, ← StreamState.presentationRecord_eq]
  rfl

theorem State.exec_peek (s : State) (t : Txn) (st : StreamId) (k : ReaderSlot) (h : Takes s t)
    (hc : s.classify t = .peek st k) :
    exec (.peek t) s = .next (s.accepting.answer t .okay
      (presentationBytes (s.stream st) s.time.toNat k ((s.stream st).reader k))) := by
  show execPeek t s = _
  rw [execPeek_any, State.offered_takeAny s t h, hc, ← StreamState.presentationRecord_eq]
  rfl

/-! ### The target a discipline gives (R75, R76, R17) -/

theorem Reader.repeatOrFill_bound (r : Reader) (i : Nat) (h : r.state = .bound i) : r.repeatOrFill = .keep .repeated := by
  simp [Reader.repeatOrFill, h]

theorem Reader.repeatOrFill_not_bound (r : Reader) (h : ∀ i, r.state ≠ .bound i) : r.repeatOrFill = .fill := by
  unfold Reader.repeatOrFill
  cases hs : r.state with
  | bound i => exact absurd hs (h i)
  | unbound => rfl
  | subst => rfl
  | stale => rfl

theorem StreamState.candidate_none (x : StreamState) (h : ∀ b ∈ x.bufs, b.state ≠ .ready ∧ b.state ≠ .shown) :
    x.candidate = none :=
  x.newestBuf_none _ fun b hb => by simp [h b hb]

section
variable (x : StreamState) (r : Reader)

theorem StreamState.target_latest (hd : ByDiscipline x) (hl : Decode.discipline x.desc = .latest) :
    x.target r = x.latestTarget r := by
  rw [StreamState.target, if_pos (x.byDiscipline_iff.2 hd), hl]

theorem StreamState.target_queue (hd : ByDiscipline x) (hq : Decode.discipline x.desc = .queue) :
    x.target r = x.queueTarget r := by
  rw [StreamState.target, if_pos (x.byDiscipline_iff.2 hd), hq]

/-- With a candidate LATEST compares its sequence with the bound sequence (R75). -/
theorem StreamState.latestTarget_newest (c : Nat) (b : Buf) (h : Newest x [.ready, .shown] c b) :
    x.latestTarget r = if r.boundSeq < b.seq then .bind c .frame else r.repeatOrFill := by
  simp only [StreamState.latestTarget, x.candidate_of c b h, x.seqOf_at c b h.1, BitVec.lt_def]

theorem StreamState.latestTarget_none (h : ∀ b ∈ x.bufs, b.state ≠ .ready ∧ b.state ≠ .shown) :
    x.latestTarget r = .fill := by
  rw [StreamState.latestTarget, x.candidate_none h]

/-- The barrier stands exactly when a CLOSING or REPAIRING buffer is older than the READY head (R17). -/
theorem StreamState.barrier_iff (h : Nat) (l : List Nat) (b : Buf) (hr : x.ready = h :: l) (hb : x.bufs[h]? = some b) :
    x.barrier = true ↔ ∃ c ∈ x.bufs, (c.state = .closing ∨ c.state = .repairing) ∧ c.seq < b.seq := by
  simp [StreamState.barrier, hr, x.seqOf_at h b hb, BitVec.lt_def]

theorem StreamState.queueTarget_clear (h : Nat) (l : List Nat) (hr : x.ready = h :: l) (hb : ¬ x.barrier = true) :
    x.queueTarget r = .bind h .frame := by
  simp [StreamState.queueTarget, hr, hb]

/-- On an empty queue and behind the barrier QUEUE binds nothing new (R76). -/
theorem StreamState.queueTarget_stopped (h : x.ready = [] ∨ x.barrier = true) : x.queueTarget r = r.repeatOrFill := by
  unfold StreamState.queueTarget
  cases hr : x.ready with
  | nil => rfl
  | cons a l =>
    have hb : x.barrier = true := h.resolve_left (by simp [hr])
    simp [hb]

end

/-! ### The skip of a claim (R79) -/

/-- The slot y left by bind and unbind, after the skip that a claim in slot x sends (R79). -/
def StreamState.afterSkip (x y : StreamState) : StreamState :=
  if x.latestClaim then y.claimSkip (x.candidate.map x.seqOf) else y

theorem StreamState.latestClaim_latest (x : StreamState) (hd : ByDiscipline x) (hl : Decode.discipline x.desc = .latest) :
    x.latestClaim = true := by
  simp [StreamState.latestClaim, x.byDiscipline_iff.2 hd, hl]

theorem StreamState.afterSkip_newest (x y : StreamState) (hd : ByDiscipline x) (hl : Decode.discipline x.desc = .latest)
    (c : Nat) (b : Buf) (h : Newest x [.ready, .shown] c b) : x.afterSkip y = y.skip b.seq := by
  rw [StreamState.afterSkip, if_pos (x.latestClaim_latest hd hl), x.candidate_of c b h]
  simp [StreamState.claimSkip, x.seqOf_at c b h.1]

theorem StreamState.afterSkip_noCandidate (x y : StreamState)
    (h : ∀ b ∈ x.bufs, b.state ≠ .ready ∧ b.state ≠ .shown) : x.afterSkip y = y := by
  rw [StreamState.afterSkip, x.candidate_none h]
  exact ite_self _

theorem StreamState.afterSkip_queue (x y : StreamState) (hq : Decode.discipline x.desc = .queue) : x.afterSkip y = y := by
  simp [StreamState.afterSkip, x.latestClaim_queue hq]

/-! ### The slot a claim leaves, by target (R78 to R80, R90) -/

theorem unboundFrom_not_bound (x : StreamState) (r : Reader) (h : ∀ i, r.state ≠ .bound i) : unboundFrom x r = x := by
  unfold unboundFrom
  cases hs : r.state with
  | bound i => exact absurd hs (h i)
  | unbound => rfl
  | subst => rfl
  | stale => rfl

section
variable (x : StreamState) (now : Nat) (k : ReaderSlot) (r : Reader) (hr : x.readers[k.val]? = some r)
include hr

theorem StreamState.claim_bind (i : Nat) (b : Buf) (src : Source) (hg : x.target r = .bind i src) (hi : x.bufs[i]? = some b) :
    x.claim now k = { x.afterSkip (unboundFrom (x.bind i) r) with
      readers := x.readers.set k.val (entryBound x now r i b.seq src) } := by
  have hentry : { r.claimed (x.targetSeq (.bind i src)) (.bind i src) with timer := scanRestart x now }
      = entryBound x now r i b.seq src := by
    simp [Reader.claimed, StreamState.targetSeq, entryBound, x.seqOf_at i b hi, skippedBetween_eq]
  rw [x.claim_eq now k r hr _ hg, hentry]
  rfl

theorem StreamState.claim_keep (src : Source) (hg : x.target r = .keep src) :
    x.claim now k = { x.afterSkip x with readers := x.readers.set k.val (entryKept x now r src) } := by
  rw [x.claim_eq now k r hr _ hg]
  rfl

theorem StreamState.claim_fill (hg : x.target r = .fill) :
    x.claim now k = { x.afterSkip (unboundFrom x r) with readers := x.readers.set k.val (entrySubst x now r) } := by
  rw [x.claim_eq now k r hr _ hg]
  rfl

end

end Sys2Proof.Machine

namespace Sys2Proof.Claims

open Sys2Proof Sys2Proof.Machine Sys2Proof.Safety

/-- Settles O27: a claim answers from the slot its own operation left, a peek from the slot as it stands. -/
theorem claimAndPeekAnswer : Obligations.ClaimAndPeekAnswer := by
  refine fun s t st k ht => ⟨fun hc => ?claim, fun hc => ?peek⟩
  case claim =>
    refine ⟨_, State.exec_claim s t st k ht hc, State.claiming_portAndStreams s t st k _, fun j hj => ?_, ?_, ?_⟩
    · rw [State.answer_stream, State.claiming_stream_ne s st j k hj]
    · rw [State.answer_stream, State.claiming_stream]
    · rw [State.answer_stream]
      exact State.claiming_answered s t st k _
  case peek =>
    exact ⟨_, State.exec_peek s t st k ht hc, State.accepting_answer_portAndStreams s s.streams t .okay _,
      State.answer_streams s.accepting t .okay _, State.answer_spec s s.accepting t .okay _ rfl rfl⟩

section
variable (x : StreamState) (now : Nat) (k : ReaderSlot) (r : Reader) (hd : ByDiscipline x) (hr : x.readers[k.val]? = some r)
include hd hr

section
variable (hl : Decode.discipline x.desc = .latest)
include hl

/-- Under LATEST a newer candidate is bound with source FRAME, then the skip (R75, R79). -/
theorem claim_latest_newer (c : Nat) (b : Buf) (hn : Newest x [.ready, .shown] c b) (hlt : r.boundSeq < b.seq) :
    x.claim now k = { (unboundFrom (x.bind c) r).skip b.seq with
      readers := x.readers.set k.val (entryBound x now r c b.seq .frame) } := by
  have htarget : x.target r = .bind c .frame := by
    rw [x.target_latest r hd hl, x.latestTarget_newest r c b hn, if_pos hlt]
  rw [x.claim_bind now k r hr c b .frame htarget hn.1, x.afterSkip_newest _ hd hl c b hn]

/-- Under LATEST a candidate that is not newer leaves a BOUND reader its binding with source REPEAT, then the skip (R75, R79). -/
theorem claim_latest_repeated (c : Nat) (b : Buf) (hn : Newest x [.ready, .shown] c b) (hlt : ¬ r.boundSeq < b.seq)
    (hbound : r.state = .bound c) :
    x.claim now k = { x.skip b.seq with readers := x.readers.set k.val (entryKept x now r .repeated) } := by
  have htarget : x.target r = .keep .repeated := by
    rw [x.target_latest r hd hl, x.latestTarget_newest r c b hn, if_neg hlt, r.repeatOrFill_bound c hbound]
  rw [x.claim_keep now k r hr .repeated htarget, x.afterSkip_newest _ hd hl c b hn]

/-- Under LATEST without a candidate a reader without a binding becomes SUBST (R75). -/
theorem claim_latest_none (hn : ∀ b ∈ x.bufs, b.state ≠ .ready ∧ b.state ≠ .shown) (hfree : ∀ i, r.state ≠ .bound i) :
    x.claim now k = { x with readers := x.readers.set k.val (entrySubst x now r) } := by
  have htarget : x.target r = .fill := by rw [x.target_latest r hd hl, x.latestTarget_none r hn]
  rw [x.claim_fill now k r hr htarget, x.afterSkip_noCandidate _ hn, unboundFrom_not_bound x r hfree]

end

section
variable (hq : Decode.discipline x.desc = .queue)
include hq

/-- Under QUEUE the READY head is bound with source FRAME while the barrier does not stand (R76, R17). -/
theorem claim_queue_head (h : Nat) (l : List Nat) (b : Buf) (hh : x.ready = h :: l) (hb : x.bufs[h]? = some b)
    (hclear : ∀ c ∈ x.bufs, c.state = .closing ∨ c.state = .repairing → ¬ c.seq < b.seq) :
    x.claim now k = { unboundFrom (x.bind h) r with
      readers := x.readers.set k.val (entryBound x now r h b.seq .frame) } := by
  have hbarrier : ¬ x.barrier = true := fun hbar => by
    obtain ⟨c, hc, hstate, holder⟩ := (x.barrier_iff h l b hh hb).1 hbar
    exact hclear c hc hstate holder
  have htarget : x.target r = .bind h .frame := by
    rw [x.target_queue r hd hq, x.queueTarget_clear r h l hh hbarrier]
  rw [x.claim_bind now k r hr h b .frame htarget hb, x.afterSkip_queue _ hq]

section
variable (hstop : x.ready = [] ∨ x.barrier = true)
include hstop

/-- Under QUEUE with nothing to bind a BOUND reader keeps its binding with source REPEAT (R76). -/
theorem claim_queue_repeated (i : Nat) (hbound : r.state = .bound i) :
    x.claim now k = { x with readers := x.readers.set k.val (entryKept x now r .repeated) } := by
  have htarget : x.target r = .keep .repeated := by
    rw [x.target_queue r hd hq, x.queueTarget_stopped r hstop, r.repeatOrFill_bound i hbound]
  rw [x.claim_keep now k r hr .repeated htarget, x.afterSkip_queue _ hq]

/-- Under QUEUE with nothing to bind a reader without a binding becomes SUBST (R76). -/
theorem claim_queue_fill (hfree : ∀ i, r.state ≠ .bound i) :
    x.claim now k = { x with readers := x.readers.set k.val (entrySubst x now r) } := by
  have htarget : x.target r = .fill := by
    rw [x.target_queue r hd hq, x.queueTarget_stopped r hstop, r.repeatOrFill_not_bound hfree]
  rw [x.claim_fill now k r hr htarget, x.afterSkip_queue _ hq, unboundFrom_not_bound x r hfree]

end

end

end

/-- Settles O28, one lemma for each outcome of each discipline. -/
theorem claimByDiscipline : Obligations.ClaimByDiscipline := by
  refine ⟨fun x now k r hd hl hr => ⟨?newer, ?repeated, ?none⟩, fun x now k r hd hq hr => ⟨?head, fun hstop => ?stopped⟩⟩
  case newer => exact claim_latest_newer x now k r hd hr hl
  case repeated => exact claim_latest_repeated x now k r hd hr hl
  case none => exact claim_latest_none x now k r hd hr hl
  case head => exact claim_queue_head x now k r hd hr hq
  case stopped =>
    have hbar : x.ready = [] ∨ x.barrier = true := by
      refine hstop.imp_right fun ⟨h, l, b, hh, hb, older⟩ => ?_
      exact (x.barrier_iff h l b hh hb).2 older
    exact ⟨claim_queue_repeated x now k r hd hr hq hbar, claim_queue_fill x now k r hd hr hq hbar⟩

end Sys2Proof.Claims
end

section
/-! PROOF. The lock state machine of the Cadence Monitor (Chapter 5). The lemmas give the slot each lock change leaves and one rule
for each row and input of Table 5-4; a row with a counter has one rule below its limit and one at it. -/
namespace Sys2Proof.Machine

open Sys2Proof

section
variable (x : StreamState)

/-! ### The changes of lock state with their events and hold requests (R108 to R110) -/

theorem StreamState.gainLock_eq :
    x.gainLock = { x with lock := .locked, acquire := 0, flags := x.flags ||| 0x01#8 } := rfl

theorem StreamState.loseLock_eq :
    x.loseLock =
      if Decode.unlock x.desc = some .hold
      then ({ x with lock := .freerun, loss := 0, flags := x.flags ||| 0x02#8 } : StreamState).placeHold
      else { x with lock := .freerun, loss := 0, flags := x.flags ||| 0x02#8 } := rfl

theorem StreamState.relock_eq :
    x.relock = if Decode.unlock x.desc = some .hold then x.gainLock.clearHold else x.gainLock := rfl

/-! ### DOWN and SEARCH (R105) -/

theorem StreamState.lockInput_down (i : LockInput) (h : x.lock = .down) : x.lockInput i = x := by
  simp only [StreamState.lockInput, h]

section
variable (h : x.lock = .search)
include h

theorem StreamState.lockInput_search_good_below (hA : x.acquire + 1 < Decode.acquireCount x.desc) :
    x.lockInput .good = { x with acquire := x.acquire + 1 } := by
  simp only [StreamState.lockInput, h, if_neg (Nat.not_le.2 hA)]

theorem StreamState.lockInput_search_good_reached (hA : Decode.acquireCount x.desc ≤ x.acquire + 1) :
    x.lockInput .good = x.gainLock := by
  simp only [StreamState.lockInput, h, if_pos hA]

theorem StreamState.lockInput_search_fault : x.lockInput .fault = { x with acquire := 0 } := by
  simp only [StreamState.lockInput, h]

end

/-! ### LOCKED and COAST (R106) -/

section
variable (h : x.lock = .locked)
include h

theorem StreamState.lockInput_locked_good : x.lockInput .good = x := by
  simp only [StreamState.lockInput, h]

theorem StreamState.lockInput_locked_fault_below (hD : 1 < Decode.lossCount x.desc) :
    x.lockInput .fault = { x with lock := .coast, loss := 1 } := by
  simp only [StreamState.lockInput, h, if_neg (Nat.not_le.2 hD)]

theorem StreamState.lockInput_locked_fault_reached (hD : Decode.lossCount x.desc ≤ 1) :
    x.lockInput .fault = x.loseLock := by
  simp only [StreamState.lockInput, h, if_pos hD]

end

section
variable (h : x.lock = .coast)
include h

theorem StreamState.lockInput_coast_good : x.lockInput .good = { x with lock := .locked, loss := 0 } := by
  simp only [StreamState.lockInput, h]

theorem StreamState.lockInput_coast_fault_below (hD : x.loss + 1 < Decode.lossCount x.desc) :
    x.lockInput .fault = { x with loss := x.loss + 1 } := by
  simp only [StreamState.lockInput, h, if_neg (Nat.not_le.2 hD)]

theorem StreamState.lockInput_coast_fault_reached (hD : Decode.lossCount x.desc ≤ x.loss + 1) :
    x.lockInput .fault = x.loseLock := by
  simp only [StreamState.lockInput, h, if_pos hD]

end

/-! ### FREERUN (R107) -/

section
variable (h : x.lock = .freerun)
include h

theorem StreamState.lockInput_freerun_good_below (hQ : x.acquire + 1 < Decode.reacquireCount x.desc) :
    x.lockInput .good = { x with acquire := x.acquire + 1 } := by
  simp only [StreamState.lockInput, h, if_neg (Nat.not_le.2 hQ)]

theorem StreamState.lockInput_freerun_good_reached (hQ : Decode.reacquireCount x.desc ≤ x.acquire + 1) :
    x.lockInput .good = x.relock := by
  simp only [StreamState.lockInput, h, if_pos hQ]

theorem StreamState.lockInput_freerun_fault : x.lockInput .fault = { x with acquire := 0 } := by
  simp only [StreamState.lockInput, h]

end

end

end Sys2Proof.Machine

namespace Sys2Proof.LockMachine

open Sys2Proof Sys2Proof.Machine Sys2Proof.Safety

/-- Settles O39, by the rows of Table 5-4. Each clause states its own limit, so the premise that the counts are at least 1 goes
unused. -/
theorem lockStateMachine : Obligations.LockStateMachine := by
  intro x _ holds lost gained
  refine ⟨x.lockInput_down, x.lockInput_neutral, fun h => ?search, fun h => ?locked, fun h => ?coast, fun h => ?freerun⟩
  case search =>
    exact ⟨x.lockInput_search_good_below h,
      fun hA => (x.lockInput_search_good_reached h hA).trans x.gainLock_eq, x.lockInput_search_fault h⟩
  case locked =>
    exact ⟨x.lockInput_locked_good h, x.lockInput_locked_fault_below h,
      fun hD => (x.lockInput_locked_fault_reached h hD.le).trans x.loseLock_eq⟩
  case coast =>
    exact ⟨x.lockInput_coast_good h, x.lockInput_coast_fault_below h,
      fun hD => (x.lockInput_coast_fault_reached h hD).trans x.loseLock_eq⟩
  case freerun =>
    exact ⟨x.lockInput_freerun_good_below h,
      fun hQ => (x.lockInput_freerun_good_reached h hQ).trans x.relock_eq, x.lockInput_freerun_fault h⟩

end Sys2Proof.LockMachine
end

section
/-! PROOF. The copies of the configuration image (Chapter 8). The lemmas give the tests of a copy byte by byte, what each step of
the walk over the copies holds, and the copy that leads after it. -/
namespace Sys2Proof.Machine

open Sys2Proof Sys2Proof.Safety

/-! ### The tests of a copy (R152, R200) -/

/-- A 16-bit value equals a field of two bytes exactly where the bytes are the value's, the least significant first (R197). -/
theorem toNat_eq_le16_iff (v : BitVec 16) (bytes : List Byte) (n : Nat) :
    v.toNat = Decode.le16 bytes n ↔ lsb16 v = [bytes.getD n 0#8, bytes.getD (n + 1) 0#8] := by
  unfold Decode.le16 Decode.byteAt lsb16
  generalize bytes.getD n 0#8 = low
  generalize bytes.getD (n + 1) 0#8 = high
  have hlow : (v.extractLsb' 0 8).toNat = v.toNat % 256 := by simp
  have hhigh : (v.extractLsb' 8 8).toNat = v.toNat / 256 := by
    rw [BitVec.extractLsb'_toNat, Nat.shiftRight_eq_div_pow]; omega
  rw [List.cons.injEq, List.cons.injEq, ← BitVec.toNat_inj, ← BitVec.toNat_inj, hlow, hhigh, eq_self, and_true]
  omega

theorem signatureOk_iff (slot : List Byte) :
    Decode.signatureOk slot = true ↔ slot.take 4 = [0x5A#8, 0x43#8, 0x46#8, 0x47#8] := by
  rw [Decode.signatureOk, beq_iff_eq]

theorem versionOk_iff (slot : List Byte) :
    Decode.versionOk slot = true ↔ slot.getD 4 0#8 = 0x01#8 ∧ slot.getD 5 0#8 = 0x00#8 := by
  have h := toNat_eq_le16_iff 1#16 slot 4
  have hone : lsb16 1#16 = [0x01#8, 0x00#8] := rfl
  rw [hone, List.cons.injEq, List.cons.injEq] at h
  rw [Decode.versionOk, beq_iff_eq, eq_comm, show (1 : Nat) = (1#16).toNat from rfl, h]
  simp [eq_comm]

theorem crcOk_iff (slot : List Byte) :
    Decode.crcOk slot = true ↔
      lsb16 (Decode.crc (slot.take 576)) = [slot.getD 576 0#8, slot.getD 577 0#8] := by
  rw [Decode.crcOk, beq_iff_eq, toNat_eq_le16_iff]

theorem CopyRx.valid_iff (c : CopyRx) :
    c.valid = true ↔ c.state = .received ∧ c.bytes.take 4 = [0x5A#8, 0x43#8, 0x46#8, 0x47#8] ∧
      c.bytes.getD 4 0#8 = 0x01#8 ∧ c.bytes.getD 5 0#8 = 0x00#8 ∧
      lsb16 (Decode.crc (c.bytes.take 576)) = [c.bytes.getD 576 0#8, c.bytes.getD 577 0#8] := by
  rw [CopyRx.valid, Bool.and_eq_true, Bool.and_eq_true, Bool.and_eq_true, beq_iff_eq, signatureOk_iff, versionOk_iff,
    crcOk_iff, and_assoc, and_assoc, and_assoc]

/-! ### The walk over the copies (R153) -/

theorem newer_iff (a b : BitVec 32) : newer a b = true ↔ 1 ≤ (a - b).toNat ∧ (a - b).toNat ≤ 2 ^ 31 - 1 := by
  rw [newer, Bool.and_eq_true, decide_eq_true_iff, decide_eq_true_iff]

/-- Of two copies of a load, the first has the newer generation (R153). -/
abbrev Load.NewerCopy (l : Load) (k h : CopyIndex) : Prop :=
  newer (Decode.imageGeneration (l.copies.get k).bytes) (Decode.imageGeneration (l.copies.get h).bytes) = true

section
variable (l : Load) (k : CopyIndex)

theorem walkCopy_invalid (before : Option CopyIndex) (hk : (l.copies.get k).valid = false) :
    walkCopy l before k = before := by
  simp [walkCopy, hk]

variable (hk : (l.copies.get k).valid = true)
include hk

theorem walkCopy_first : walkCopy l none k = some k := by
  simp [walkCopy, hk]

theorem walkCopy_newer (h : CopyIndex) (hn : l.NewerCopy k h) :
    walkCopy l (some h) k = some k := by
  simp [walkCopy, hk, hn]

theorem walkCopy_not_newer (h : CopyIndex) (hn : ¬ l.NewerCopy k h) :
    walkCopy l (some h) k = some h := by
  simp [walkCopy, hk, hn]

end

/-- The three cases of R153 determine what a step of the walk holds. -/
theorem walkCopy_eq_of_rule {l : Load} {before after : Option CopyIndex} {k : CopyIndex}
    (hinvalid : (l.copies.get k).valid = false → after = before)
    (hfirst : (l.copies.get k).valid = true → before = none → after = some k)
    (hlater : (l.copies.get k).valid = true → ∀ h, before = some h →
      (l.NewerCopy k h → after = some k) ∧ (¬ l.NewerCopy k h → after = some h)) : walkCopy l before k = after := by
  rcases Bool.eq_false_or_eq_true (l.copies.get k).valid with hk | hk
  case inr => rw [walkCopy_invalid l k before hk, hinvalid hk]
  case inl =>
    cases before with
    | none => rw [walkCopy_first l k hk, hfirst hk rfl]
    | some h =>
      obtain ⟨hnewer, hnot⟩ := hlater hk h rfl
      by_cases hn : l.NewerCopy k h
      · rw [walkCopy_newer l k hk h hn, hnewer hn]
      · rw [walkCopy_not_newer l k hk h hn, hnot hn]

theorem Load.selected_eq (l : Load) : l.selected = walkCopy l (walkCopy l (walkCopy l none 0) 1) 2 := rfl

/-! ### The newest copy (R153, R154)

While the valid copies lie within 2³¹ of one another, "newer" orders them by their distance from a common base; the walk then
keeps the copy that comes first in the order by distance, larger first, and copy index. -/

/-- How far a copy's generation lies past a base, modulo 2³². -/
def Load.ahead (l : Load) (g : BitVec 32) (k : CopyIndex) : Nat :=
  (Decode.imageGeneration (l.copies.get k).bytes - g).toNat

/-- The generations of the valid copies lie within 2³¹ of one another, counted from a base. -/
def Load.Near (l : Load) (g : BitVec 32) : Prop := ∀ c, (l.copies.get c).valid = true → l.ahead g c < 2 ^ 31

/-- Copy c is selected over copy k: it is at least as new, and newer where k stands before it. -/
def Load.Outranks (l : Load) (g : BitVec 32) (c k : CopyIndex) : Prop :=
  l.ahead g k ≤ l.ahead g c ∧ (k < c → l.ahead g k < l.ahead g c)

/-- What the walk holds after the copies seen: no candidate while none of them is valid, else a valid one that outranks them. -/
def Load.Leads (l : Load) (seen : List CopyIndex) : Option CopyIndex → Prop
  | none => ∀ k ∈ seen, (l.copies.get k).valid = false
  | some c => c ∈ seen ∧ (l.copies.get c).valid = true ∧
      ∀ g, l.Near g → ∀ k ∈ seen, (l.copies.get k).valid = true → l.Outranks g c k

theorem Load.Outranks.refl (l : Load) (g : BitVec 32) (c : CopyIndex) : l.Outranks g c c :=
  ⟨le_rfl, fun h => absurd h (lt_irrefl c)⟩

theorem Load.Outranks.trans {l : Load} {g : BitVec 32} {c h k : CopyIndex} (hch : l.Outranks g c h)
    (hhk : l.Outranks g h k) : l.Outranks g c k := by
  obtain ⟨hle, hlt⟩ := hch
  obtain ⟨kle, klt⟩ := hhk
  refine ⟨kle.trans hle, fun hkc => ?_⟩
  rcases lt_or_ge k h with hkh | hhk
  · exact (klt hkh).trans_le hle
  · exact kle.trans_lt (hlt (hhk.trans_lt hkc))

section
variable {l : Load} {g : BitVec 32} {h k : CopyIndex} (near : l.Near g) (hh : (l.copies.get h).valid = true)
  (hk : (l.copies.get k).valid = true)
include near hh hk

theorem Load.newerCopy_iff_ahead : l.NewerCopy k h ↔ l.ahead g h < l.ahead g k :=
  newer_iff_distance _ _ g (near k hk) (near h hh)

theorem Load.outranks_of_newerCopy (hn : l.NewerCopy k h) : l.Outranks g k h := by
  have hlt := (newerCopy_iff_ahead near hh hk).1 hn
  exact ⟨hlt.le, fun _ => hlt⟩

theorem Load.outranks_of_not_newerCopy (hhk : h < k) (hn : ¬ l.NewerCopy k h) : l.Outranks g h k :=
  ⟨not_lt.1 (mt (newerCopy_iff_ahead near hh hk).2 hn), fun hkh => absurd hkh hhk.not_gt⟩

end

section
variable {l : Load} {seen : List CopyIndex} {k : CopyIndex}

/-- A candidate that outranks one copy more leads the copies seen and that one. -/
theorem Load.Leads.kept {c : CopyIndex} (hc : l.Leads seen (some c))
    (hk : (l.copies.get k).valid = true → ∀ g, l.Near g → l.Outranks g c k) : l.Leads (seen ++ [k]) (some c) := by
  obtain ⟨hmem, hvalid, hrank⟩ := hc
  refine ⟨List.mem_append_left _ hmem, hvalid, fun g near j hj hjv => ?_⟩
  rcases List.mem_append.1 hj with hseen | hnew
  · exact hrank g near j hseen hjv
  · obtain rfl := List.mem_singleton.1 hnew
    exact hk hjv g near

/-- A valid copy that outranks the valid copies seen leads them and itself. -/
theorem Load.Leads.replaced (hk : (l.copies.get k).valid = true)
    (hrank : ∀ g, l.Near g → ∀ j ∈ seen, (l.copies.get j).valid = true → l.Outranks g k j) :
    l.Leads (seen ++ [k]) (some k) := by
  refine ⟨List.mem_append_right _ (List.mem_singleton_self k), hk, fun g near j hj hjv => ?_⟩
  rcases List.mem_append.1 hj with hseen | hnew
  · exact hrank g near j hseen hjv
  · exact List.mem_singleton.1 hnew ▸ Load.Outranks.refl l g k

/-- No candidate stands after one invalid copy more. -/
theorem Load.Leads.none_kept (hb : l.Leads seen none) (hk : (l.copies.get k).valid = false) :
    l.Leads (seen ++ [k]) none := by
  intro j hj
  rcases List.mem_append.1 hj with hseen | hnew
  · exact hb j hseen
  · exact List.mem_singleton.1 hnew ▸ hk

/-- A step of the walk, over a copy behind those seen, gives their new leader (R153). -/
theorem walkCopy_leads {before : Option CopyIndex} (hb : l.Leads seen before) (hlater : ∀ h ∈ seen, h < k) :
    l.Leads (seen ++ [k]) (walkCopy l before k) := by
  rcases Bool.eq_false_or_eq_true (l.copies.get k).valid with hk | hk
  case inr =>
    rw [walkCopy_invalid l k before hk]
    cases before with
    | none => exact hb.none_kept hk
    | some h => exact hb.kept fun hv => absurd hv (by rw [hk]; decide)
  case inl =>
    cases before with
    | none =>
      rw [walkCopy_first l k hk]
      exact .replaced hk fun g _ j hseen hjv => absurd hjv (by rw [hb j hseen]; decide)
    | some h =>
      have ⟨hmem, hvalid, hrank⟩ := hb
      by_cases hn : l.NewerCopy k h
      · rw [walkCopy_newer l k hk h hn]
        exact .replaced hk fun g near j hseen hjv =>
          (Load.outranks_of_newerCopy near hvalid hk hn).trans (hrank g near j hseen hjv)
      · rw [walkCopy_not_newer l k hk h hn]
        exact hb.kept fun _ g near => Load.outranks_of_not_newerCopy near hvalid hk (hlater h hmem) hn

end

theorem Load.selected_leads (l : Load) : l.Leads [0, 1, 2] l.selected := by
  have h0 : l.Leads [] none := fun _ h => absurd h List.not_mem_nil
  have h1 : l.Leads [0] (walkCopy l none 0) := walkCopy_leads h0 (by decide)
  have h2 : l.Leads [0, 1] (walkCopy l (walkCopy l none 0) 1) := walkCopy_leads h1 (by decide)
  exact walkCopy_leads h2 (by decide)

theorem copyIndex_mem_all (k : CopyIndex) : k ∈ ([0, 1, 2] : List CopyIndex) := by
  revert k; decide

theorem Load.selected_valid (l : Load) (c : CopyIndex) (hc : l.selected = some c) : (l.copies.get c).valid = true := by
  have h := l.selected_leads
  rw [hc] at h
  exact h.2.1

theorem Load.selected_none_iff (l : Load) : l.selected = none ↔ ∀ c, (l.copies.get c).valid = false := by
  constructor
  case mp =>
    intro hnone c
    have h := l.selected_leads
    rw [hnone] at h
    exact h c (copyIndex_mem_all c)
  case mpr =>
    intro hall
    cases hsel : l.selected with
    | none => rfl
    | some c => exact absurd (l.selected_valid c hsel) (by rw [hall c]; decide)

theorem Load.selected_outranks (l : Load) (g : BitVec 32) (near : l.Near g) (c k : CopyIndex) (hc : l.selected = some c)
    (hk : (l.copies.get k).valid = true) : l.Outranks g c k := by
  have h := l.selected_leads
  rw [hc] at h
  obtain ⟨-, -, hrank⟩ := h
  exact hrank g near k (copyIndex_mem_all k) hk

end Sys2Proof.Machine

namespace Sys2Proof.ConfigurationImage

open Sys2Proof Sys2Proof.Machine Sys2Proof.Safety

/-- Settles O51: the tests byte by byte, the selection by the invariant of the walk, and the walk step by step. -/
theorem copyValidityAndSelection : Obligations.CopyValidityAndSelection := by
  refine ⟨CopyRx.valid_iff,
    fun l => ⟨l.selected_none_iff, l.selected_valid, fun g near c hc k hk => l.selected_outranks g near c k hc hk⟩, ?walk⟩
  case walk =>
    intro l g hg c0 c1 c2 hc0 hsteps
    have step (k : CopyIndex) (before after : Option CopyIndex)
        (hmem : (k, before, after) ∈ [((1 : CopyIndex), c0, c1), (2, c1, c2)]) : walkCopy l before k = after := by
      obtain ⟨hinvalid, hfirst, hlater⟩ := hsteps k before after hmem
      refine walkCopy_eq_of_rule hinvalid hfirst fun hk h hb => ?_
      have hcase := hlater hk h hb
      rwa [hg, hg, ← newer_iff] at hcase
    have h0 : walkCopy l none 0 = c0 := by rw [hc0]; rfl
    rw [l.selected_eq, h0, step 1 c0 c1 (by simp), step 2 c1 c2 (by simp)]

end Sys2Proof.ConfigurationImage
end

section
/-! PROOF. The outcome of a descriptor's validation (Chapter 8). The lemmas give the cause of the first failing check of a list of
checks, and what validation installs for a disabled, an enabled and a refused descriptor. -/
namespace Sys2Proof.Machine

open Sys2Proof Sys2Proof.Safety

/-! ### The first failing check (R157, Table 8-4) -/

/-- The nine checks in their order, each with its cause (Table 8-4). -/
def nineChecks (p : Place) (ds : List Descriptor) (k : Nat) (d : Descriptor) : List (Bool × RefusalCause) :=
  [(geometryOk d, .badGeometry), (windowsInside p d, .windowOutsideAperture), (windowsApart p ds k d, .windowOverlap),
   (poolOk d, .badPool), (buffersApart p ds k d, .bufferOverlap), (readersOk d, .badReaders),
   (holdPoolOk d, .holdNeedsThree), (countsOk d, .badCounts), (timingOk d, .badTiming)]

/-- The cause of the first check of a list that fails, NONE when all pass. -/
def firstCause : List (Bool × RefusalCause) → RefusalCause
  | [] => .none
  | (ok, cause) :: rest => if !ok then cause else firstCause rest

theorem firstFailure_eq (p : Place) (ds : List Descriptor) (k : Nat) (d : Descriptor) :
    firstFailure p ds k d = firstCause (nineChecks p ds k d) := rfl

theorem firstCause_append (before after : List (Bool × RefusalCause)) (h : ∀ c ∈ before, c.1 = true) :
    firstCause (before ++ after) = firstCause after := by
  induction before with
  | nil => rfl
  | cons c rest ih =>
    obtain ⟨hc, hrest⟩ := List.forall_mem_cons.1 h
    rw [List.cons_append, firstCause, hc]
    exact ih hrest

theorem firstCause_all (checks : List (Bool × RefusalCause)) (h : ∀ c ∈ checks, c.1 = true) :
    firstCause checks = .none := by
  have happend := firstCause_append checks [] h
  rwa [List.append_nil] at happend

theorem firstCause_first (before after : List (Bool × RefusalCause)) (cause : RefusalCause) (h : ∀ c ∈ before, c.1 = true) :
    firstCause (before ++ (false, cause) :: after) = cause :=
  firstCause_append before _ h

/-- A check that fails refuses the descriptor with a cause (Table 8-4). -/
theorem nineChecks_cause (p : Place) (ds : List Descriptor) (k : Nat) (d : Descriptor) :
    ∀ c ∈ nineChecks p ds k d, c.2 ≠ .none := by
  simp [nineChecks]

/-! ### The outcome (R157) -/

section
variable (p : Place) (ds : List Descriptor) (k : Nat) (d : Descriptor)

theorem validate_desc : (validate p ds k d).desc = d := by
  unfold validate; split <;> rfl

theorem validate_mapped : (validate p ds k d).mapped = windowsMapped p ds k d := by
  unfold validate; split <;> rfl

theorem windowsMapped_iff :
    windowsMapped p ds k d = true ↔ geometryOk d = true ∧ windowsInside p d = true ∧ windowsApart p ds k d = true := by
  rw [windowsMapped, Bool.and_eq_true, Bool.and_eq_true, and_assoc]

theorem validate_disabled (h : Decode.enable d = false) :
    (validate p ds k d).outcome = .disabled ∧ (validate p ds k d).cause = .none := by
  simp [validate, h]

variable (h : Decode.enable d = true)
include h

theorem validate_enabled (hf : firstFailure p ds k d = .none) :
    (validate p ds k d).outcome = .enabled ∧ (validate p ds k d).cause = .none := by
  simp [validate, h, hf]

theorem validate_refused (hf : firstFailure p ds k d ≠ .none) :
    (validate p ds k d).outcome = .refused ∧ (validate p ds k d).cause = firstFailure p ds k d := by
  simp [validate, h, hf]

end

end Sys2Proof.Machine

namespace Sys2Proof.ConfigurationImage

open Sys2Proof Sys2Proof.Machine Sys2Proof.Safety

/-- Settles O54: the cause is that of the first failing check of the list, and no check's cause is NONE. -/
theorem validationOutcome : Obligations.ValidationOutcome := by
  rintro p ds k d _ rfl checks (rfl : checks = nineChecks p ds k d)
  refine ⟨validate_desc p ds k d, ?mapped, validate_disabled p ds k d, fun he => ⟨fun hall => ?enabled, ?refused⟩⟩
  case mapped => rw [validate_mapped, windowsMapped_iff]
  case enabled => exact validate_enabled p ds k d he ((firstFailure_eq p ds k d).trans (firstCause_all _ hall))
  case refused =>
    intro before cause after hsplit hbefore
    have hf : firstFailure p ds k d = cause := by rw [firstFailure_eq, hsplit, firstCause_first _ _ _ hbefore]
    have hne : cause ≠ .none := nineChecks_cause p ds k d (false, cause) (by rw [hsplit]; simp)
    exact hf ▸ validate_refused p ds k d he (hf ▸ hne)

end Sys2Proof.ConfigurationImage
end

section
/-! PROOF. The nine checks of a descriptor (Chapter 8). The lemmas say what byte ranges hold, which descriptors checks 3 and 5
compare against, and what each check passes, with ranges read as the addresses in them. -/
namespace Sys2Proof.Machine

open Sys2Proof Sys2Proof.Safety

/-! ### Ranges of addresses (R159, R160) -/

/-- No address lies in both ranges, each a base and a length. -/
def Apart (a n b m : Nat) : Prop := ∀ x, a ≤ x → x < a + n → ¬ (b ≤ x ∧ x < b + m)

theorem Apart.symm {a n b m : Nat} (h : Apart a n b m) : Apart b m a n :=
  fun x hb hbm ⟨ha, han⟩ => h x ha han ⟨hb, hbm⟩

theorem not_overlap_iff (a n b m : Nat) : (!overlap a n b m) = true ↔ Apart a n b m := by
  rw [Bool.not_eq_true', Bool.eq_false_iff, Ne, overlap_iff]
  exact ⟨fun h x ha han ⟨hb, hbm⟩ => h ⟨x, ha, han, hb, hbm⟩, fun h ⟨x, ha, han, hb, hbm⟩ => h x ha han ⟨hb, hbm⟩⟩

/-- A window that holds a byte lies within the aperture exactly where each of its addresses does (R159). -/
theorem windowInside_iff (p : Place) (base size : Nat) (hs : 0 < size) :
    windowInside p base size = true ↔
      ∀ a, base ≤ a → a < base + size → p.aperture ≤ a ∧ a < p.aperture + Config.apertureSize := by
  rw [windowInside, Bool.and_eq_true, decide_eq_true_iff, decide_eq_true_iff]
  constructor
  case mp => intro ⟨hlow, hhigh⟩ a ha hend; omega
  case mpr =>
    intro h
    have hfirst := h base le_rfl (by omega)
    have hlast := h (base + size - 1) (by omega) (by omega)
    omega

/-! ### The comparison sets (R159, R160) -/

/-- A test of the descriptors of a copy other than descriptor k that another test, which may read their numbers, picks. -/
theorem all_others_iff (ds : List Descriptor) (k : Nat) (picks : Descriptor × Nat → Bool) (ok : Descriptor → Bool) :
    ((ds.zipIdx.filter (fun e => e.2 != k && picks e)).map (·.1)).all ok = true ↔
      ∀ j e, j ≠ k → ds[j]? = some e → picks (e, j) = true → ok e = true := by
  simp only [List.all_eq_true, List.forall_mem_map, List.mem_filter, Bool.and_eq_true, bne_iff_ne, and_imp, Prod.forall,
    List.mk_mem_zipIdx_iff_getElem?]
  exact ⟨fun h j e hjk hj => h e j hj hjk, fun h e j hj hjk => h j e hjk hj⟩

theorem windowPeer_iff (p : Place) (e : Descriptor) :
    windowPeer p e = true ↔ Decode.enable e = true ∧ geometryOk e = true ∧ windowsInside p e = true := by
  rw [windowPeer, Bool.and_eq_true, Bool.and_eq_true, and_assoc]

theorem bufferPeer_iff (p : Place) (ds : List Descriptor) (j : Nat) (e : Descriptor) :
    bufferPeer p ds j e = true ↔ Decode.enable e = true ∧ geometryOk e = true ∧ windowsInside p e = true ∧
      windowsApart p ds j e = true ∧ poolOk e = true := by
  simp only [bufferPeer, Bool.and_eq_true, and_assoc]

/-! ### Checks 1 to 3 (R158, R159) -/

section
variable (p : Place) (ds : List Descriptor) (k : Nat) (d : Descriptor)

theorem geometryOk_iff : geometryOk d = true ↔
    64 ≤ Decode.lineBytes d ∧ Decode.lineBytes d ≤ 16384 ∧ 64 ∣ Decode.lineBytes d ∧
    Decode.lineBytes d ≤ Decode.pitch d ∧ Decode.pitch d ≤ 32768 ∧ 64 ∣ Decode.pitch d ∧
    Decode.lines d ≠ 0 ∧ Decode.lines d ≤ 2048 ∧ 16 ≤ Decode.sizeCode d ∧ Decode.sizeCode d ≤ 26 ∧
    Decode.extent d + Config.markSize ≤ Decode.windowSize d := by
  simp only [geometryOk, Bool.and_eq_true, decide_eq_true_eq, and_assoc, Nat.one_le_iff_ne_zero, Nat.dvd_iff_mod_eq_zero]

/-- The bases of a descriptor's two windows. -/
def windowBases (d : Descriptor) : List Nat := [Decode.captureBase d, Decode.presentationBase d]

theorem forall_windowBases (ok : Nat → Prop) :
    (∀ b ∈ windowBases d, ok b) ↔ ok (Decode.captureBase d) ∧ ok (Decode.presentationBase d) := by
  simp [windowBases]

theorem windowsInside_iff : windowsInside p d = true ↔ ∀ base ∈ windowBases d, ∀ a, base ≤ a →
    a < base + Decode.windowSize d → p.aperture ≤ a ∧ a < p.aperture + Config.apertureSize := by
  have hsize : 0 < Decode.windowSize d := Nat.two_pow_pos _
  rw [windowsInside, Bool.and_eq_true, windowInside_iff p _ _ hsize, windowInside_iff p _ _ hsize, forall_windowBases]

theorem not_windowsMeet_iff (e : Descriptor) : (!windowsMeet d e) = true ↔
    ∀ b ∈ windowBases d, ∀ c ∈ windowBases e, Apart b (Decode.windowSize d) c (Decode.windowSize e) := by
  simp only [windowsMeet, Bool.not_or, Bool.and_eq_true, not_overlap_iff, forall_windowBases, and_assoc]

theorem windowsApart_iff : windowsApart p ds k d = true ↔
    Apart (Decode.captureBase d) (Decode.windowSize d) (Decode.presentationBase d) (Decode.windowSize d) ∧
    ∀ j e, j ≠ k → ds[j]? = some e → windowPeer p e = true →
      ∀ b ∈ windowBases d, ∀ c ∈ windowBases e, Apart b (Decode.windowSize d) c (Decode.windowSize e) := by
  rw [windowsApart, Bool.and_eq_true, not_overlap_iff, othersWith, all_others_iff ds k (fun e => windowPeer p e.1)]
  simp only [not_windowsMeet_iff]

/-! ### Checks 4 and 5 (R160) -/

/-- The address of buffer i of a descriptor (R1). -/
def bufferStart (d : Descriptor) (i : Nat) : Nat := (Decode.bufferBase d i).toNat * Config.bufferUnit

theorem bufferAddresses_eq : bufferAddresses d = (List.range (Decode.poolSize d)).map (bufferStart d) := rfl

theorem all_bufferAddresses_iff (ok : Nat → Bool) :
    (bufferAddresses d).all ok = true ↔ ∀ i, i < Decode.poolSize d → ok (bufferStart d i) = true := by
  simp only [bufferAddresses_eq, List.all_eq_true, List.forall_mem_map, List.mem_range]

theorem poolOk_iff : poolOk d = true ↔ 2 ≤ Decode.poolSize d ∧ Decode.poolSize d ≤ 6 ∧
    ∀ i, i < Decode.poolSize d → bufferStart d i + Decode.extent d ≤ Config.addressTop := by
  simp only [poolOk, Bool.and_eq_true, all_bufferAddresses_iff, decide_eq_true_eq, and_assoc]

theorem extentsApart_iff_pairwise (n : Nat) (l : List Nat) :
    extentsApart n l = true ↔ l.Pairwise (fun a b => Apart a n b n) := by
  induction l with
  | nil => simp [extentsApart]
  | cons a l ih =>
    rw [extentsApart, Bool.and_eq_true, List.all_eq_true, List.pairwise_cons, ih]
    simp only [not_overlap_iff]

/-- The buffers of a pool lie apart exactly where every two different ones do. -/
theorem extentsApart_bufferAddresses_iff (n : Nat) : extentsApart n (bufferAddresses d) = true ↔
    ∀ i, i < Decode.poolSize d → ∀ l, l < Decode.poolSize d → l ≠ i → Apart (bufferStart d i) n (bufferStart d l) n := by
  have hsymm : Std.Symm (fun i l => Apart (bufferStart d i) n (bufferStart d l) n) := ⟨fun _ _ => Apart.symm⟩
  rw [extentsApart_iff_pairwise, bufferAddresses_eq, List.pairwise_map]
  constructor
  case mp =>
    intro h i hi l hl hne
    exact List.Pairwise.forall h (List.mem_range.2 hi) (List.mem_range.2 hl) hne.symm
  case mpr =>
    intro h
    refine List.nodup_range.pairwise_of_forall_ne fun i hi l hl hne => ?_
    exact h i (List.mem_range.1 hi) l (List.mem_range.1 hl) hne.symm

theorem buffersApart_iff : buffersApart p ds k d = true ↔
    (∀ i, i < Decode.poolSize d → ∀ l, l < Decode.poolSize d → l ≠ i →
      Apart (bufferStart d i) (Decode.extent d) (bufferStart d l) (Decode.extent d)) ∧
    (∀ j e, j ≠ k → ds[j]? = some e → bufferPeer p ds j e = true →
      ∀ i, i < Decode.poolSize d → ∀ l, l < Decode.poolSize e →
        Apart (bufferStart d i) (Decode.extent d) (bufferStart e l) (Decode.extent e)) ∧
    (∀ i, i < Decode.poolSize d →
      Apart (bufferStart d i) (Decode.extent d) p.aperture Config.apertureSize ∧
      Apart (bufferStart d i) (Decode.extent d) p.image (3 * Config.copySlotSize)) := by
  rw [buffersApart, Bool.and_eq_true, Bool.and_eq_true, and_assoc, extentsApart_bufferAddresses_iff, bufferPeers,
    all_others_iff ds k (fun e => bufferPeer p ds e.2 e.1)]
  simp only [all_bufferAddresses_iff, Bool.and_eq_true, not_overlap_iff]

/-- Check 5 address by address: none of a buffer's addresses lies in another buffer of the descriptor, in a buffer of the
comparison set, in the aperture or in the image. -/
theorem buffersApart_iff_addresses : buffersApart p ds k d = true ↔
    ∀ i, i < Decode.poolSize d → ∀ a, bufferStart d i ≤ a → a < bufferStart d i + Decode.extent d →
      (∀ l, l < Decode.poolSize d → l ≠ i → ¬ (bufferStart d l ≤ a ∧ a < bufferStart d l + Decode.extent d)) ∧
      (∀ j e, j ≠ k → ds[j]? = some e → bufferPeer p ds j e = true →
        ∀ l, l < Decode.poolSize e → ¬ (bufferStart e l ≤ a ∧ a < bufferStart e l + Decode.extent e)) ∧
      ¬ (p.aperture ≤ a ∧ a < p.aperture + Config.apertureSize) ∧
      ¬ (p.image ≤ a ∧ a < p.image + 3 * Config.copySlotSize) := by
  rw [buffersApart_iff]
  constructor
  case mp =>
    rintro ⟨own, others, outside⟩ i hi a ha hend
    obtain ⟨aperture, image⟩ := outside i hi
    exact ⟨fun l hl hne => own i hi l hl hne a ha hend,
      fun j e hjk hj hpeer l hl => others j e hjk hj hpeer i hi l hl a ha hend, aperture a ha hend, image a ha hend⟩
  case mpr =>
    intro h
    refine ⟨fun i hi l hl hne a ha hend => ?own, fun j e hjk hj hpeer i hi l hl a ha hend => ?others,
      fun i hi => ⟨fun a ha hend => ?aperture, fun a ha hend => ?image⟩⟩
    all_goals obtain ⟨own, others, aperture, image⟩ := h i hi a ha hend
    case own => exact own l hl hne
    case others => exact others j e hjk hj hpeer l hl
    case aperture => exact aperture
    case image => exact image

/-! ### Checks 6 to 9 (R161, R162) -/

theorem readersOk_iff : readersOk d = true ↔
    ((Decode.readerSlot d 0).valid = true ∨ (Decode.readerSlot d 1).valid = true) ∧
    ((Decode.readerSlot d 0).valid = true → (Decode.readerSlot d 1).valid = true →
      (Decode.readerSlot d 0).id ≠ (Decode.readerSlot d 1).id ∧ Decode.discipline d ≠ .queue) := by
  unfold readersOk
  generalize Decode.readerSlot d 0 = a
  generalize Decode.readerSlot d 1 = b
  cases ha : a.valid <;> cases hb : b.valid <;> simp [ha, hb]

theorem holdPoolOk_iff : holdPoolOk d = true ↔ ¬ (Decode.unlock d = some .hold ∧ Decode.poolSize d = 2) := by
  rw [holdPoolOk, Bool.not_eq_true', Bool.eq_false_iff, Ne, Bool.and_eq_true, beq_iff_eq, beq_iff_eq]

theorem countsOk_iff : countsOk d = true ↔ countsPositive d ∧ Decode.unlock d ≠ none ∧ Decode.repairPolicy d ≠ none ∧
    (Decode.repairPolicy d = some .reject ∨ (1 ≤ Decode.repairLimit d ∧ Decode.repairLimit d ≤ 2048)) := by
  simp only [countsOk, countsPositive, Bool.and_eq_true, Bool.or_eq_true, decide_eq_true_eq, beq_iff_eq, and_assoc,
    Nat.one_le_iff_ne_zero, Option.isSome_iff_ne_none]

theorem timingOk_iff : timingOk d = true ↔
    (Decode.period d = 0 ∨ (500 ≤ Decode.period d ∧ Decode.period d ≤ 1000000)) ∧
    (Decode.period d = 0 → Decode.tolerance d = 0) ∧ (Decode.period d ≠ 0 → 2 * Decode.tolerance d < Decode.period d) ∧
    (Decode.scanTimeout d = 0 ∨ (1000 ≤ Decode.scanTimeout d ∧ Decode.scanTimeout d ≤ 4000000)) := by
  simp only [timingOk, Bool.and_eq_true, decide_eq_true_eq, and_assoc]

end

end Sys2Proof.Machine

namespace Sys2Proof.ConfigurationImage

open Sys2Proof Sys2Proof.Machine Sys2Proof.Safety

/-- Settles O55, one lemma for each check; the comparison sets of checks 3 and 5 are opened here. -/
theorem descriptorChecks : Obligations.DescriptorChecks := by
  intro p ds k d base extent
  refine ⟨geometryOk_iff d, windowsInside_iff p d, ?check3, poolOk_iff d, ?check5, readersOk_iff d, holdPoolOk_iff d,
    countsOk_iff d, timingOk_iff d⟩
  case check3 =>
    have h := windowsApart_iff p ds k d
    simp only [windowPeer_iff, and_imp] at h
    exact h
  case check5 =>
    have h := buffersApart_iff_addresses p ds k d
    simp only [bufferPeer_iff, and_imp] at h
    exact h

end Sys2Proof.ConfigurationImage
end

section
/-! PROOF. ARM (Chapter 9). The lemmas put the decision in the order of the table of R171 and say what a taken ARM leaves for each
decision. -/
namespace Sys2Proof.Machine

open Sys2Proof Sys2Proof.Safety

/-! ### The decision (R171) -/

theorem StreamState.arming_iff (x : StreamState) : x.arming = true ↔ x.armAwaited ≠ [] := by
  rw [StreamState.arming, Bool.not_eq_true', Bool.eq_false_iff, Ne, List.isEmpty_iff]

/-- The decision with one condition for each row of the table, in its order (R171). -/
theorem State.armDecision_eq (s : State) (st : StreamId) :
    s.armDecision st =
      if s.softResetPending then (.busy, false)
      else if s.device = .loading then (.busy, false)
      else if s.device = .transparent ∨ s.device = .configFault then (.badState, false)
      else if s.reloadInProgress then (.busy, false)
      else if (s.stream st).life = .active then (.done, false)
      else if (s.stream st).life = .draining then (.busy, false)
      else if (s.stream st).life = .refused then (.badState, false)
      else if (s.stream st).armAwaited ≠ [] then (.done, false)
      else if (s.stream st).outcome ≠ some .enabled then (.badState, false)
      else (.done, true) := by
  simp only [State.armDecision]
  cases s.device
  case running => cases (s.stream st).life <;> simp [StreamState.arming_iff]
  all_goals simp

/-! ### What a taken ARM leaves (R170, R184) -/

/-- The state a taken ARM leaves for a decision: its status, and the arm of the stream where one is started (R170, R171). -/
def State.armAnswer (s : State) (st : StreamId) (d : LinkStatus × Bool) : State :=
  if d.2 then (responds s [d.1.code]).setStream st (s.stream st).beginArm else responds s [d.1.code]

theorem State.exec_arm (s : State) (b : Byte) (st : StreamId) (hlink : s.link = .stream 0x20#8) (hb : b.toNat = st.val) :
    exec (.arm b) s = .next (s.armAnswer st (s.armDecision st)) := by
  have htakes : s.takesAtStream .arm = true := by rw [State.takesAtStream, hlink]; rfl
  have hdecides : s.quietPorts.armDecision st = s.armDecision st := rfl
  show execArm b s = _
  rw [execArm, if_pos htakes, State.takeArm, streamOfByte_some b st hb]
  dsimp only
  rw [hdecides, State.armAnswer]
  split <;> rfl

/-- An arm that starts in OFF changes the arm request and the messages awaited only (R170). -/
theorem StreamState.beginArm_of_off (x : StreamState) (h : x.life = .off) :
    x.beginArm = { x with
      armRequest := true
      armAwaited := [.poolManager, .captureUnit, .presentationUnit, .cadenceMonitor, .eventUnit] } := by
  rw [StreamState.beginArm, ← h]; rfl

theorem Lifecycle.eq_off (l : Lifecycle) (hactive : l ≠ .active) (hdraining : l ≠ .draining) (hrefused : l ≠ .refused) :
    l = .off := by
  cases l
  case off => rfl
  all_goals contradiction

end Sys2Proof.Machine

namespace Sys2Proof.StreamLifecycle

open Sys2Proof Sys2Proof.Machine Sys2Proof.Safety

/-- Settles O13: every row but the last answers with its status only; in the last the stream is OFF, so starting its arm leaves its
lifecycle state. -/
theorem armByTable : Obligations.ArmByTable := by
  intro s b st hlink hb
  rw [State.exec_arm s b st hlink hb, State.armDecision_eq]
  split_ifs
  case neg _ _ _ _ hactive hdraining hrefused _ _ =>
    have hoff := Lifecycle.eq_off _ hactive hdraining hrefused
    rw [← StreamState.beginArm_of_off _ hoff]
    rfl
  all_goals rfl

end Sys2Proof.StreamLifecycle
end

section
/-! PROOF. The Event Unit (Chapter 10). The lemmas say what a taken ACK_EVENTS leaves for each set it can name, which flags the
clearing leaves, and which flags hold ATTN_N low. -/
namespace Sys2Proof.Machine

open Sys2Proof Sys2Proof.Safety

/-! ### ACK_EVENTS (R186, R192) -/

/-- The clearing leaves a flag that is set and whose position has a 0 in the mask (R192). -/
theorem getLsbD_clearMasked {w : Nat} (flags : BitVec w) (mask : Byte) (n : Nat) :
    (flags &&& ~~~(mask.setWidth w)).getLsbD n = (flags.getLsbD n && !mask.getLsbD n) := by
  by_cases hn : n < w
  · simp [hn]
  · have hflags : flags.getLsbD n = false := BitVec.getLsbD_of_ge flags n (Nat.le_of_not_lt hn)
    simp [hflags]

theorem State.exec_ackEvents (s : State) (b sb : Byte) (hlink : s.link = .arguments 0x07#8 sb) :
    exec (.ackEvents b) s = .next (s.quietPorts.takeAckEvents sb b) := by
  have htakes : s.takesAtArgument .ackEvents = some sb := by rw [State.takesAtArgument, hlink]; rfl
  show execAckEvents b s = _
  rw [execAckEvents, htakes]

/-- FFh names the device set. -/
theorem State.takeAckEvents_device (s : State) (mask : Byte) :
    s.quietPorts.takeAckEvents 0xFF#8 mask =
      { responds s [0x01#8, (s.deviceFlags &&& ~~~(mask.setWidth 5)).setWidth 8] with
        deviceFlags := s.deviceFlags &&& ~~~(mask.setWidth 5) } := rfl

theorem ne_deviceSet_of_stream (sb : Byte) (st : StreamId) (hsb : sb.toNat = st.val) : sb ≠ 0xFF#8 := by
  rintro rfl
  have hlt : st.val < 8 := st.isLt
  rw [← hsb] at hlt
  exact absurd hlt (by decide)

/-- A stream byte of 0 to 7 names that stream's set. -/
theorem State.takeAckEvents_stream (s : State) (sb mask : Byte) (st : StreamId) (hsb : sb.toNat = st.val) :
    s.quietPorts.takeAckEvents sb mask =
      (responds s [0x01#8, (s.stream st).flags &&& ~~~mask]).onStream st
        (fun x => { x with flags := x.flags &&& ~~~mask }) := by
  rw [State.takeAckEvents, if_neg (ne_deviceSet_of_stream sb st hsb), streamOfByte_some sb st hsb]
  rfl

/-! ### ATTN_N (R182, R193) -/

/-- A set of flags is not clear exactly if some flag of it is set. -/
theorem flags_ne_zero_iff {w : Nat} (x : BitVec w) : x ≠ 0#w ↔ ∃ n, x.getLsbD n = true := by
  simp only [ne_eq, BitVec.zero_iff_eq_false, not_forall, Bool.not_eq_false]

/-- The mask in force has the bits of byte 19 of the current descriptor, and none without one (R193, Table 11-9). -/
theorem StreamState.getLsbD_mask (x : StreamState) (n : Nat) :
    x.mask.getLsbD n = true ↔ ∃ i, x.current = some i ∧ (i.desc.getD 19 0#8).getLsbD n = true := by
  cases h : x.current with
  | none => simp [StreamState.mask, h]
  | some i => simp [StreamState.mask, h, Decode.eventMask]

theorem StreamState.unmasked_iff (x : StreamState) :
    x.flags &&& x.mask ≠ 0#8 ↔ ∃ i n, x.current = some i ∧ x.flags.getLsbD n = true ∧
      (i.desc.getD 19 0#8).getLsbD n = true := by
  simp only [flags_ne_zero_iff, BitVec.getLsbD_and, Bool.and_eq_true, StreamState.getLsbD_mask]
  constructor
  · rintro ⟨n, hflag, i, hcurrent, hmask⟩
    exact ⟨i, n, hcurrent, hflag, hmask⟩
  · rintro ⟨i, n, hcurrent, hflag, hmask⟩
    exact ⟨n, hflag, i, hcurrent, hmask⟩

theorem State.mem_streams_iff (s : State) (x : StreamState) : x ∈ s.streams.toList ↔ ∃ st, s.stream st = x := by
  rw [Vector.mem_toList_iff, Vector.mem_iff_getElem]
  exact ⟨fun ⟨i, hi, h⟩ => ⟨⟨i, hi⟩, h⟩, fun ⟨st, h⟩ => ⟨st.val, st.isLt, h⟩⟩

theorem State.attnLow_iff (s : State) :
    s.attnLow = true ↔ s.resetN = true ∧
      (s.deviceFlags ≠ 0#5 ∨ ∃ st, (s.stream st).flags &&& (s.stream st).mask ≠ 0#8) := by
  simp only [State.attnLow, Bool.and_eq_true, Bool.or_eq_true, bne_iff_ne, List.any_eq_true, State.mem_streams_iff,
    exists_exists_eq_and]

end Sys2Proof.Machine

namespace Sys2Proof.EventUnit

open Sys2Proof Sys2Proof.Machine Sys2Proof.Safety

/-- Settles O11, by the set the stream byte names: FFh the device's, 0 to 7 a stream's. -/
theorem ackEventsClearsMasked : Obligations.AckEventsClearsMasked := by
  intro s b sb hlink
  rw [State.exec_ackEvents s b sb hlink]
  constructor
  · rintro rfl
    exact ⟨_, congrArg _ (State.takeAckEvents_device s b), rfl, getLsbD_clearMasked s.deviceFlags b, rfl⟩
  · intro st hsb
    refine ⟨_, congrArg _ (State.takeAckEvents_stream s sb b st hsb), ?answer, ?cleared, rfl, ?others, ?flagsOnly⟩
    case answer => rw [State.stream_onStream]; rfl
    case cleared =>
      intro n
      rw [State.stream_onStream, ← BitVec.setWidth_eq b]
      exact getLsbD_clearMasked (s.stream st).flags b n
    case others => exact fun k hk => State.stream_onStream_ne _ st k _ hk
    case flagsOnly => rw [State.stream_onStream]; rfl

/-- Settles O12, set by set: ATTN_N is low for a non-zero device set or a stream set with a bit in common with its mask. -/
theorem attnOutput : Obligations.AttnOutput := by
  intro s
  rw [State.attnLow_iff, flags_ne_zero_iff]
  simp only [StreamState.unmasked_iff]

end Sys2Proof.EventUnit
end

section
/-! PROOF. The invariants of the tables (Chapters 6 and 7): a step is one command, one expiry or one microsecond, and a command
leaves the table and the order lists as they are, shortens them, adds the one entry of a grant or a taking, or frees the one entry
of a return. -/
set_option Elab.async false

namespace Sys2Proof.Machine

open Sys2Proof Sys2Proof.Safety

/-! ### A step by its commands -/

/-- A property that neither the queue nor the free value's counter bears on holds after every step, where it survives one
microsecond and every command. -/
theorem step_preserves (I : State → Prop) (queue : ∀ s c l, I s → I { s with choice := c, pending := l })
    (tick : ∀ s, I s → I s.tick) (command : ∀ s u i, I s → exec i s = .next u → I u) (s u : State) (h : I s)
    (hs : step s = .next u) : I u := by
  rcases step_cases s u hs with rfl | ⟨i, v, hv, ⟨c, rfl⟩ | ⟨l, rfl⟩⟩
  · exact tick s h
  · exact command _ u i (queue s c s.pending h) hv
  · exact command _ u i (queue s s.choice l h) hv

theorem State.tick_within (s : State) : Within s s.tick ∧ s.tick.table = s.table ∧ s.tick.orders = s.orders := by
  unfold State.tick
  split <;> exact ⟨Within.same _ _ rfl rfl rfl rfl rfl, rfl, rfl⟩

/-! ### Adding an entry -/

theorem State.freeIndex_free (s : State) (h : s.table.length < 32) :
    s.freeIndex < 32 ∧ s.freeIndex ∉ s.table.map (·.index) :=
  lowestFree_spec 32 _ (by simpa using h)

/-- One more entry, at the free index, keeps the indices distinct and below 32 (R136). -/
theorem indices_grown (s : State) (k : EntryKind) (table : List Entry) (room : s.table.length < 32)
    (ht : table = s.table ++ [{ index := s.freeIndex, kind := k }])
    (hi : (s.table.map (·.index)).Nodup ∧ ∀ e ∈ s.table, e.index < 32) :
    table.length ≤ 32 ∧ (table.map (·.index)).Nodup ∧ ∀ e ∈ table, e.index < 32 := by
  obtain ⟨below, free⟩ := s.freeIndex_free room
  subst ht
  refine ⟨by simpa using room, ?_, fun e he => ?_⟩
  · rw [List.map_append, List.nodup_append]
    refine ⟨hi.1, by simp, fun a ha b hb => ?_⟩
    rw [List.map_singleton, List.mem_singleton] at hb
    exact fun hab => free ((hab.trans hb : a = s.freeIndex) ▸ ha)
  · rcases List.mem_append.1 he with he | he
    · exact hi.2 e he
    · rw [List.mem_singleton.1 he]; exact below

theorem State.entriesOf_grown (s u : State) (e : Entry) (r : Requester) (ht : u.table = s.table ++ [e]) :
    (u.entriesOf r).length = (s.entriesOf r).length + if e.kind.requester = r then 1 else 0 := by
  unfold State.entriesOf
  rw [ht, List.filter_append, List.length_append]
  by_cases h : e.kind.requester = r <;> simp [h]

theorem State.answer_order_length (s : State) (t : Txn) (st : Status) (d : List Byte) (i : Initiator) :
    ((s.answer t st d).order i).length ≤ (s.order i).length + if i = t.initiator then 1 else 0 := by
  unfold State.answer
  by_cases h : i = t.initiator
  · subst h
    rw [State.leaveReady_order]
    refine (splitReady_length _).trans ?_
    simp [State.joinOrder]
  · rw [State.leaveReady_order_ne _ _ _ h, State.joinOrder, State.order_setOrder_ne _ _ _ _ h]
    simp

theorem State.forward_order (s : State) (t : Txn) (k : EntryKind) (a : Address) (i : Initiator) :
    (s.forward t k a).order i =
      if i = t.initiator then s.order i ++ [orderEntry t (.waits s.freeIndex)] else s.order i := by
  change (s.joinOrder t (.waits s.freeIndex)).order i = _
  unfold State.joinOrder
  split
  · rename_i h; subst h; exact State.order_setOrder _ _ _
  · rename_i h; exact State.order_setOrder_ne _ _ _ _ h

theorem State.forward_table (s : State) (t : Txn) (k : EntryKind) (a : Address) :
    (s.forward t k a).table = s.table ++ [{ index := s.freeIndex, kind := k }] := rfl

theorem State.forward_starvation (s : State) (t : Txn) (k : EntryKind) (a : Address) :
    (s.forward t k a).starvation = if s.repairStands then min (s.starvation + 1) 8 else s.starvation := rfl

theorem State.freeRepairSlot_free (s : State) (h : s.bursts.length < 4) :
    s.freeRepairSlot < 4 ∧ s.freeRepairSlot ∉ s.bursts.map (·.slot) :=
  lowestFree_spec 4 _ (by simpa using h)

/-- What a matched response leaves of the table and the order lists: the entry freed, and for a PASS entry its
initiator's list made ready (R143, R144). -/
theorem State.takeReturn_tables (s : State) (r : DsResponse) (e : Entry) (h : s.matched r = some e) :
    (s.takeReturn r).table = s.table.filter (fun f => f.index != e.index) ∧
      (s.takeReturn r).orders = (s.route e r).orders := by
  simp only [State.takeReturn, h]
  rw [State.settleStream_frame, State.settleRequester_frame, State.freeEntry_frame]
  constructor
  · change ((s.route e r).settleCount e.kind r.status).table.filter _ = _
    rw [State.settleCount_frame, State.route_frame]
  · change ((s.route e r).settleCount e.kind r.status).orders = _
    rw [State.settleCount_frame]

theorem State.route_orders_own (s : State) (e : Entry) (r : DsResponse) (h : e.kind.passKey = none) :
    (s.route e r).orders = s.orders := by
  obtain ⟨n, kind⟩ := e
  cases kind with
  | passThrough | captureWrite | captureRead | presentationRead => cases h
  | repairRead st b slot => change (s.routeRepair true slot r.status r.data).orders = _; rw [State.routeRepair_frame]
  | repairWrite st b slot => change (s.routeRepair false slot r.status r.data).orders = _; rw [State.routeRepair_frame]
  | loaderRead q => simp only [State.route]; split <;> rfl

theorem OrderEntry.fulfil_waits (n : Nat) (r : Response) (o : OrderEntry) (m : Nat)
    (h : (o.fulfil n r).state = .waits m) : o.fulfil n r = o ∧ o.state = .waits m ∧ m ≠ n := by
  unfold OrderEntry.fulfil at *
  split at h
  · cases h
  · rename_i hn
    exact ⟨if_neg hn, h, fun hm => hn (hm ▸ h)⟩

theorem State.matched_mem (s : State) (r : DsResponse) (e : Entry) (h : s.matched r = some e) : e ∈ s.table := by
  unfold State.matched at h
  split at h <;> exact List.mem_of_find?_eq_some h

end Sys2Proof.Machine

namespace Sys2Proof.Safety

open Sys2Proof Sys2Proof.Machine

/-! ### Capacity -/

theorem Capacity.within {s u : State} (h : Capacity s) (w : Within s u) : Capacity u where
  table := w.table.length_le.trans h.table
  indices := ⟨h.indices.1.sublist (w.table.map _), fun e he => h.indices.2 e (w.table.subset he)⟩
  repair := (w.table.filter _).length_le.trans h.repair
  loader := (w.table.filter _).length_le.trans h.loader
  jobs := by have := w.jobs; have := h.jobs; omega
  slots := by
    refine ⟨?_, h.slots.2.1.sublist w.bursts, fun b hb => ?_⟩
    · simpa using (w.bursts.length_le).trans (by simpa using h.slots.1)
    · obtain ⟨c, hc, hcb⟩ := List.mem_map.1 (w.bursts.subset (List.mem_map_of_mem hb))
      exact hcb ▸ h.slots.2.2 c hc
  orders i := (w.orders i).trans (h.orders i)
  starvation := w.starvation.trans h.starvation

/-- What a taking's preparation leaves in the ports does not bear on the sizes. -/
theorem Capacity.prepared {s w : State} (h : Capacity s) (p : Prepared s { w with ports := s.ports }) : Capacity w :=
  h.within (Within.of s w p.table p.jobs (by rw [show w.bursts = s.bursts from p.bursts])
    (by rw [show w.starvation = s.starvation from p.starvation]) p.orders)

theorem Capacity.answer {s : State} (h : Capacity s) (t : Txn) (st : Status) (d : List Byte)
    (room : (s.order t.initiator).length < 64) : Capacity (s.answer t st d) where
  table := by simpa using h.table
  indices := by simpa using h.indices
  repair := by simpa [State.entriesOf] using h.repair
  loader := by simpa [State.entriesOf] using h.loader
  jobs := by simpa using h.jobs
  slots := by simpa using h.slots
  orders i := by
    have := s.answer_order_length t st d i
    have := h.orders i
    by_cases hi : i = t.initiator
    · subst hi; rw [if_pos rfl] at *; omega
    · rw [if_neg hi] at *; omega
  starvation := by simpa using h.starvation

theorem Capacity.forward {s : State} (h : Capacity s) (t : Txn) (k : EntryKind) (a : Address)
    (hk : k.passKey = some (t.initiator, t.tag)) (list : (s.order t.initiator).length < 64) (room : s.table.length < 32) :
    Capacity (s.forward t k a) := by
  obtain ⟨size, indices⟩ := indices_grown s k _ room (s.forward_table t k a) h.indices
  have pass := k.requester_of_passKey _ hk
  have grown := fun r => s.entriesOf_grown _ _ r (s.forward_table t k a)
  exact {
    table := size
    indices := indices
    repair := by rw [grown, if_neg (by rw [pass]; decide)]; exact h.repair
    loader := by rw [grown, if_neg (by rw [pass]; decide)]; exact h.loader
    jobs := h.jobs
    slots := h.slots
    orders := fun i => by
      rw [State.forward_order]
      split
      · rename_i hi; subst hi; simpa using list
      · exact h.orders i
    starvation := by
      have := h.starvation
      rw [State.forward_starvation]
      split <;> omega }

theorem Capacity.offered {s u : State} (h : Capacity s) (t : Txn) (hu : s.offered t (State.takeAny t) = .next u) :
    Capacity u := by
  rcases State.offered_cases s u t hu with rfl | ⟨list, room, w, p, ⟨st, d, rfl⟩ | ⟨k, a, rfl, hk⟩⟩
  · exact h.within (State.quietPorts_within s).1
  · exact (h.prepared p).answer t st d (by rw [State.order, show w.orders = s.orders from p.orders]; exact list)
  · exact (h.prepared p).forward t k a hk (by rw [State.order, show w.orders = s.orders from p.orders]; exact list)
      (by rw [show w.table = s.table from p.table]; exact room)

theorem Capacity.grant {s u : State} (h : Capacity s) (o : Option Initiator) (hu : s.takeGrant o = .next u) :
    Capacity u := by
  rcases State.takeGrant_cases s u o hu with
    rfl | ⟨room, k, -, table, orders, jobs, starvation, loader, repair, slots⟩
  · exact h
  obtain ⟨size, indices⟩ := indices_grown s k _ room table h.indices
  have grown := fun r => s.entriesOf_grown u _ r table
  exact {
    table := size
    indices := indices
    repair := by
      have := h.repair
      rw [grown]
      split
      · have := repair (by assumption); omega
      · exact this
    loader := by
      have := h.loader
      rw [grown]
      split
      · have := loader (by assumption); omega
      · exact this
    jobs := jobs ▸ h.jobs
    slots := by
      have ⟨count, distinct, below⟩ := h.slots
      have below' : ∀ n ∈ s.bursts.map (·.slot), n < 4 := by simpa using below
      suffices hs : (u.bursts.map (·.slot)).length ≤ 4 ∧ (u.bursts.map (·.slot)).Nodup ∧ ∀ n ∈ u.bursts.map (·.slot), n < 4 by
        simpa using hs
      rcases slots with same | ⟨free, more⟩
      · rw [same]; exact ⟨by simpa using count, distinct, below'⟩
      · obtain ⟨fresh, new⟩ := s.freeRepairSlot_free free
        rw [more]
        refine ⟨by simpa using free, ?_, fun n hn => ?_⟩
        · rw [List.nodup_append]
          refine ⟨distinct, by simp, fun a ha b hb => ?_⟩
          exact fun hab => new (List.mem_singleton.1 hb ▸ hab ▸ ha)
        · rcases List.mem_append.1 hn with hn | hn
          · exact below' n hn
          · rw [List.mem_singleton.1 hn]; exact fresh
    orders := fun i => by rw [State.order, orders]; exact h.orders i
    starvation := starvation.trans h.starvation }

theorem Capacity.of_exec {s u : State} (h : Capacity s) (i : Instr) (hu : exec i s = .next u) : Capacity u := by
  rcases exec_cases s u i hu with ⟨t, ht⟩ | ⟨o, rfl⟩ | ⟨r, rfl⟩ | ⟨w, -⟩
  · exact h.offered t (ht ▸ hu)
  · exact (h.within (State.quietPorts_within s).1).grant o hu
  · cases hw : r.wf with
    | true =>
      rw [exec_returned s r hw] at hu
      cases hu
      exact h.within ((State.quietPorts_within s).1.trans (within_return _ r))
    | false => simp [exec, execReturned, hw] at hu
  · exact h.within w

/-! ### Order lists and outstanding table -/

theorem OrderLinks.congr {s u : State} (h : OrderLinks s) (ht : u.table = s.table) (ho : u.orders = s.orders) :
    OrderLinks u := by
  have order : ∀ i, u.order i = s.order i := fun i => by rw [State.order, ho]; rfl
  obtain ⟨heads, links, indices, room⟩ := h
  exact ⟨fun i => order i ▸ heads i, fun i => by rw [order i, ht]; exact links i, ht ▸ indices, ht ▸ room⟩

theorem OrderLinks.emptied {u : State} (ht : u.table = []) (ho : ∀ i, u.order i = []) : OrderLinks u := by
  refine ⟨fun i e l r h => ?_, fun i o h => ?_, ?_, ?_⟩
  · rw [ho i] at h; cases h
  · rw [ho i] at h; cases h
  · rw [ht]; exact List.nodup_nil
  · rw [ht]; simp

theorem OrderLinks.answer {s : State} (h : OrderLinks s) (t : Txn) (st : Status) (d : List Byte) :
    OrderLinks (s.answer t st d) where
  heads i e l r ho := by
    unfold State.answer at ho
    by_cases hi : i = t.initiator
    · subst hi
      rw [State.leaveReady_order] at ho
      exact splitReady_head _ e l r ho
    · rw [State.leaveReady_order_ne _ _ _ hi, State.joinOrder, State.order_setOrder_ne _ _ _ _ hi] at ho
      exact h.heads i e l r ho
  links i o ho n hn := by
    rw [State.answer_table]
    refine h.links i o ?_ n hn
    unfold State.answer at ho
    by_cases hi : i = t.initiator
    · subst hi
      rw [State.leaveReady_order] at ho
      have joined := splitReady_subset _ o ho
      rw [State.joinOrder, State.order_setOrder] at joined
      rcases List.mem_append.1 joined with old | new
      · exact old
      · rw [List.mem_singleton.1 new] at hn; cases hn
    · rwa [State.leaveReady_order_ne _ _ _ hi, State.joinOrder, State.order_setOrder_ne _ _ _ _ hi] at ho
  indices := by simpa using h.indices
  room := by simpa using h.room

/-- A table that only gains an entry keeps every link of the entries that waited before. -/
theorem OrderLinks.links_grown {s : State} (h : OrderLinks s) (new : Entry) (i : Initiator) (o : OrderEntry)
    (ho : o ∈ s.order i) (n : Nat) (hn : o.state = .waits n) :
    ∃ e ∈ s.table ++ [new], e.index = n ∧ e.kind.passKey = some (i, o.tag) := by
  obtain ⟨e, he, hi, hk⟩ := h.links i o ho n hn
  exact ⟨e, List.mem_append_left _ he, hi, hk⟩

theorem OrderLinks.forward {s : State} (h : OrderLinks s) (t : Txn) (k : EntryKind) (a : Address)
    (hk : k.passKey = some (t.initiator, t.tag)) (room : s.table.length < 32) : OrderLinks (s.forward t k a) := by
  obtain ⟨size, indices, below⟩ := indices_grown s k _ room (s.forward_table t k a) ⟨h.indices, h.room.2⟩
  refine ⟨fun i e l r ho => ?_, fun i o ho n hn => ?_, indices, size, below⟩
  · rw [State.forward_order] at ho
    split at ho
    · cases hs : s.order i with
      | nil => rw [hs] at ho; cases ho; exact fun hr => by cases hr
      | cons e' l' => rw [hs] at ho; cases ho; exact h.heads i e l' r hs
    · exact h.heads i e l r ho
  · rw [State.forward_order] at ho
    rw [State.forward_table]
    split at ho
    · rename_i hi
      subst hi
      rcases List.mem_append.1 ho with old | new
      · exact h.links_grown _ _ o old n hn
      · rw [List.mem_singleton.1 new] at hn ⊢
        cases hn
        exact ⟨_, List.mem_append_right _ (List.mem_singleton_self _), rfl, hk⟩
    · exact h.links_grown _ i o ho n hn

theorem OrderLinks.offered {s u : State} (h : OrderLinks s) (t : Txn) (hu : s.offered t (State.takeAny t) = .next u) :
    OrderLinks u := by
  rcases State.offered_cases s u t hu with rfl | ⟨-, room, w, p, ⟨st, d, rfl⟩ | ⟨k, a, rfl, hk⟩⟩
  · exact h.congr rfl rfl
  · exact (h.congr (u := w) p.table p.orders).answer t st d
  · exact (h.congr (u := w) p.table p.orders).forward t k a hk (by rw [show w.table = s.table from p.table]; exact room)

theorem OrderLinks.grant {s u : State} (h : OrderLinks s) (o : Option Initiator) (hu : s.takeGrant o = .next u) :
    OrderLinks u := by
  rcases State.takeGrant_cases s u o hu with rfl | ⟨room, k, -, table, orders, -⟩
  · exact h
  obtain ⟨size, indices, below⟩ := indices_grown s k _ room table ⟨h.indices, h.room.2⟩
  have order : ∀ i, u.order i = s.order i := fun i => by rw [State.order, orders]; rfl
  refine ⟨fun i => order i ▸ h.heads i, fun i o ho n hn => ?_, indices, size, below⟩
  rw [order i] at ho
  rw [table]
  exact h.links_grown _ i o ho n hn

/-- An entry of the table is the only one of its index, so a waiter of that index waits for it. -/
theorem OrderLinks.waits_for {s : State} (h : OrderLinks s) (e : Entry) (he : e ∈ s.table) (i : Initiator)
    (o : OrderEntry) (ho : o ∈ s.order i) (hn : o.state = .waits e.index) : e.kind.passKey = some (i, o.tag) := by
  obtain ⟨f, hf, hi, hk⟩ := h.links i o ho e.index hn
  rw [← List.inj_on_of_nodup_map h.indices hf he hi]
  exact hk

/-- Freeing an entry that nobody waits for any more keeps every link. -/
theorem OrderLinks.freed {s u : State} (h : OrderLinks s) (n : Nat) (ht : u.table = s.table.filter (fun f => f.index != n))
    (heads : ∀ i e l r, u.order i = e :: l → e.state ≠ .ready r)
    (waiters : ∀ i, ∀ o ∈ u.order i, ∀ m, o.state = .waits m → o ∈ s.order i ∧ m ≠ n) : OrderLinks u where
  heads := heads
  links i o ho m hm := by
    obtain ⟨old, other⟩ := waiters i o ho m hm
    obtain ⟨f, hf, hi, hk⟩ := h.links i o old m hm
    exact ⟨f, by rw [ht]; exact List.mem_filter.2 ⟨hf, by rw [hi]; simpa using other⟩, hi, hk⟩
  indices := by rw [ht]; exact h.indices.sublist (List.filter_sublist.map _)
  room := by
    rw [ht]
    exact ⟨(List.length_filter_le _ _).trans h.room.1, fun e he => h.room.2 e (List.mem_filter.1 he).1⟩

theorem OrderLinks.takeReturn {s : State} (h : OrderLinks s) (r : DsResponse) : OrderLinks (s.takeReturn r) := by
  cases hm : s.matched r with
  | none => simpa only [State.takeReturn, hm] using h
  | some e =>
    obtain ⟨table, orders⟩ := s.takeReturn_tables r e hm
    have mem := s.matched_mem r e hm
    have order : ∀ i, (s.takeReturn r).order i = (s.route e r).order i := fun i => by rw [State.order, orders]; rfl
    cases hk : e.kind.passKey with
    | none =>
      have same : ∀ i, (s.takeReturn r).order i = s.order i := fun i => by
        rw [order, State.order, s.route_orders_own e r hk]; rfl
      refine h.freed e.index table (fun i => same i ▸ h.heads i) fun i o ho m hw => ?_
      rw [same] at ho
      refine ⟨ho, fun hmn => ?_⟩
      subst hmn
      rw [h.waits_for e mem i o ho hw] at hk
      cases hk
    | some key =>
      obtain ⟨id, tag⟩ := key
      rw [s.route_pass e r id tag hk] at order
      refine h.freed e.index table (fun i f l q ho => ?_) fun i o ho m hw => ?_
      · rw [order, State.fulfil_order] at ho
        split at ho
        · exact splitReady_head _ f l q ho
        · exact h.heads i f l q ho
      · rw [order, State.fulfil_order] at ho
        split at ho
        · rename_i hi
          subst hi
          obtain ⟨w, hwm, rfl⟩ := List.mem_map.1 (splitReady_subset _ o ho)
          obtain ⟨same, -, other⟩ := w.fulfil_waits _ _ m hw
          exact ⟨same.symm ▸ hwm, other⟩
        · rename_i hi
          refine ⟨ho, fun hmn => hi ?_⟩
          subst hmn
          have := h.waits_for e mem i o ho hw
          rw [hk] at this
          exact (congrArg Prod.fst (Option.some.inj this)).symm

theorem OrderLinks.of_exec {s u : State} (h : OrderLinks s) (i : Instr) (hu : exec i s = .next u) : OrderLinks u := by
  rcases exec_cases s u i hu with ⟨t, ht⟩ | ⟨o, rfl⟩ | ⟨r, rfl⟩ | ⟨-, ⟨table, orders⟩ | ⟨table, orders⟩⟩
  · exact h.offered t (ht ▸ hu)
  · exact (h.congr (u := s.quietPorts) rfl rfl).grant o hu
  · cases hw : r.wf with
    | true =>
      rw [exec_returned s r hw] at hu
      cases hu
      exact (h.congr (u := s.quietPorts) rfl rfl).takeReturn r
    | false => simp [exec, execReturned, hw] at hu
  · exact h.congr table orders
  · exact OrderLinks.emptied table orders

end Sys2Proof.Safety

namespace Sys2Proof.Invariants

open Sys2Proof Sys2Proof.Machine Sys2Proof.Safety

/-- Settles O57: a command shortens the tables, or adds one entry to a table that has room for it. -/
theorem stepKeepsCapacity : Obligations.StepKeepsCapacity :=
  step_preserves Capacity (fun s _ _ h => h.within (Within.same s _ rfl rfl rfl rfl rfl))
    (fun s h => h.within s.tick_within.1) fun _ _ i h hu => h.of_exec i hu

/-- Settles O58: a taking links its own entry, and the return that frees an entry makes every waiter of it ready. -/
theorem stepKeepsOrderLinks : Obligations.StepKeepsOrderLinks :=
  step_preserves OrderLinks (fun _ _ _ h => h.congr rfl rfl)
    (fun s h => h.congr s.tick_within.2.1 s.tick_within.2.2) fun _ _ i h hu => h.of_exec i hu

end Sys2Proof.Invariants
end

section
/-! PROOF. The invariant of lock states (Chapters 5 and 9): every taking outside the management link, a load's evaluation and the
resets leaves the device level as it is and each slot as Laws/Slots.lean says; those few are taken one by one. -/
set_option Elab.async false

namespace Sys2Proof.Machine

open Sys2Proof Sys2Proof.Safety

/-! ### What a completed link byte does to the part -/

/-- The effects a management command has besides its answer (R171, R172, R175, R180, R192, R195). -/
inductive LinkEffect (s : State) : State → Prop where
  | answered : LinkEffect s s
  | countersCleared (st) : LinkEffect s (s.onStream st (fun x => { x with counters := Counters.zero }))
  | flagsLeft (st flags) : LinkEffect s (s.onStream st (fun x => { x with flags := flags }))
  | deviceFlagsLeft (flags) : LinkEffect s { s with deviceFlags := flags }
  | armed (st) (h : (s.armDecision st).2 = true) : LinkEffect s (s.onStream st StreamState.beginArm)
  | disarmed (st) (h : (s.disarmDecision st).2 = true) :
    LinkEffect s (s.onStream st (fun x => { x with armRequest := false }.beginTeardown))
  | reloaded (h : s.reloadTaken = true) : LinkEffect s ({ s with reloadInProgress := true }.startLoad .reload)
  | softReset (h : s.softResetPending = false) : LinkEffect s s.beginSoftReset

/-- The part after a byte of a frame: the link controller moved on, and at most one effect of a command. -/
def LinkMoved (s u : State) : Prop := ∃ w l p, LinkEffect s w ∧ u = { w with link := l, ports := p }

theorem LinkMoved.same (s : State) : LinkMoved s s := ⟨s, s.link, s.ports, .answered, rfl⟩

theorem LinkMoved.moves (s : State) (l : Link) (m : Byte) : LinkMoved s (s.linkMoves l m) := ⟨s, _, _, .answered, rfl⟩

theorem LinkMoved.responds {s w : State} (h : LinkEffect s w) (status : LinkStatus) (data : List Byte) :
    LinkMoved s (w.respond status data) := ⟨w, _, _, h, rfl⟩

theorem State.takeAtStream_moved (s : State) (c : Decode.LinkCommand) (b : Byte) : LinkMoved s (s.takeAtStream c b) := by
  cases c with
  | getDevice => exact .responds .answered _ _
  | getStream => simp only [State.takeAtStream, State.takeGetStream]; split <;> exact .responds .answered _ _
  | getPool => simp only [State.takeAtStream, State.takeGetPool]; split <;> exact .responds .answered _ _
  | getReaders => simp only [State.takeAtStream, State.takeGetReaders]; split <;> exact .responds .answered _ _
  | arm =>
    simp only [State.takeAtStream, State.takeArm]
    split
    · exact .responds .answered _ _
    · split
      · exact .responds (.armed _ (by assumption)) _ _
      · exact .responds .answered _ _
  | disarm =>
    simp only [State.takeAtStream, State.takeDisarm]
    split
    · exact .responds .answered _ _
    · split
      · exact .responds (.disarmed _ (by assumption)) _ _
      · exact .responds .answered _ _
  | reload =>
    simp only [State.takeAtStream, State.takeReload]
    split
    · exact .responds (.reloaded (by assumption)) _ _
    · exact .responds .answered _ _
  | softReset =>
    simp only [State.takeAtStream, State.takeSoftReset]
    split
    · exact .responds .answered _ _
    · exact .responds (.softReset (by simpa using ‹¬ s.softResetPending = true›)) _ _
  | getCoverage | getCounters | ackEvents => exact .same s

theorem State.takeAtArgument_moved (s : State) (c : Decode.LinkCommand) (sb b : Byte) :
    LinkMoved s (s.takeAtArgument c sb b) := by
  cases c with
  | getCoverage =>
    simp only [State.takeAtArgument, State.takeGetCoverage]
    split
    · exact .responds .answered _ _
    · split
      · exact .responds .answered _ _
      · split <;> exact .responds .answered _ _
  | getCounters =>
    simp only [State.takeAtArgument, State.takeGetCounters]
    split
    · exact .responds .answered _ _
    · split
      · exact .responds .answered _ _
      · split
        · exact .responds (.countersCleared _) _ _
        · exact .responds .answered _ _
  | ackEvents =>
    simp only [State.takeAtArgument, State.takeAckEvents]
    split
    · exact .responds (.deviceFlagsLeft _) _ _
    · split
      · exact .responds .answered _ _
      · exact .responds (.flagsLeft _ _) _ _
  | getDevice | getStream | getPool | getReaders | arm | disarm | reload | softReset => exact .same s

/-- A byte that completes in IDLE is ignored; any other moves the frame on (Table 10-1, R184). -/
theorem State.byteCompletes_moved (s : State) (b : Byte) :
    (s.link = .idle ∧ s.byteCompletes b = s) ∨ (s.link ≠ .idle ∧ LinkMoved s (s.byteCompletes b)) := by
  cases hl : s.link with
  | idle => exact .inl ⟨rfl, by simp only [State.byteCompletes, hl]⟩
  | command => exact .inr ⟨nofun, by simp only [State.byteCompletes, hl]; exact .moves s _ _⟩
  | stream c =>
    refine .inr ⟨nofun, ?_⟩
    simp only [State.byteCompletes, hl]
    split
    · exact .responds .answered _ _
    · split
      · exact .moves s _ _
      · exact s.takeAtStream_moved _ b
  | arguments c sb =>
    refine .inr ⟨nofun, ?_⟩
    simp only [State.byteCompletes, hl]
    split
    · exact .responds .answered _ _
    · exact s.takeAtArgument_moved _ sb b
  | response rest =>
    cases rest <;> exact .inr ⟨nofun, by simp only [State.byteCompletes, hl]; exact .moves s _ _⟩

/-- The table of R171 starts an arm only in RUNNING, for an OFF slot with an ENABLED descriptor and no arm in progress. -/
theorem State.armDecision_started (s : State) (st : StreamId) (h : (s.armDecision st).2 = true) :
    s.device = .running ∧ (s.stream st).life = .off ∧ (s.stream st).armAwaited = [] ∧
      (s.stream st).outcome = some .enabled := by
  rw [State.armDecision_eq] at h
  split_ifs at h with pending loading other reload active draining refused awaited outcome
  refine ⟨?_, Lifecycle.eq_off _ active draining refused, not_not.1 awaited, not_not.1 outcome⟩
  cases hd : s.device <;> simp_all

theorem State.disarmDecision_eq (s : State) (st : StreamId) :
    s.disarmDecision st =
      if s.softResetPending then (.busy, false)
      else if s.device = .loading then (.busy, false)
      else if s.device = .transparent ∨ s.device = .configFault then (.done, false)
      else if s.reloadInProgress then (.busy, false)
      else if (s.stream st).life = .active then (.done, true)
      else if (s.stream st).life = .off ∧ (s.stream st).armAwaited ≠ [] then (.busy, false)
      else (.done, false) := by
  unfold State.disarmDecision
  cases s.softResetPending with
  | true => simp
  | false =>
    cases s.device with
    | transparent | loading | configFault => simp
    | running =>
      cases s.reloadInProgress with
      | true => simp
      | false => cases hl : (s.stream st).life <;> simp [hl, StreamState.arming]

/-- The table of R172 starts a teardown only in RUNNING, for an ACTIVE stream. -/
theorem State.disarmDecision_started (s : State) (st : StreamId) (h : (s.disarmDecision st).2 = true) :
    s.device = .running ∧ (s.stream st).life = .active := by
  rw [State.disarmDecision_eq] at h
  split_ifs at h with pending loading other reload active
  refine ⟨?_, active⟩
  cases hd : s.device <;> simp_all

theorem State.reloadTaken_device (s : State) (h : s.reloadTaken = true) : s.device = .running ∨ s.device = .configFault := by
  unfold State.reloadTaken at h
  cases hd : s.device <;> simp_all

end Sys2Proof.Machine

namespace Sys2Proof.Safety

open Sys2Proof Sys2Proof.Machine

/-! ### Takings that leave the device level -/

/-- Nothing the invariant of lock states reads at device level changes, and each slot keeps its own part of it. -/
structure Undisturbed (s u : State) : Prop where
  slots : Keeps s u
  device : u.device = s.device
  resetN : u.resetN = s.resetN
  pending : u.softResetPending = s.softResetPending
  link : u.link = s.link
  load : ∀ l, u.load = some l → ∃ m, s.load = some m ∧ l.purpose = m.purpose

theorem Undisturbed.of {s u : State} (slots : Keeps s u) (device : u.device = s.device) (resetN : u.resetN = s.resetN)
    (pending : u.softResetPending = s.softResetPending) (link : u.link = s.link) (load : u.load = s.load) :
    Undisturbed s u := ⟨slots, device, resetN, pending, link, fun l h => ⟨l, load ▸ h, rfl⟩⟩

theorem Undisturbed.refl (s : State) : Undisturbed s s := .of .refl rfl rfl rfl rfl rfl

theorem Undisturbed.trans {s u v : State} (a : Undisturbed s u) (b : Undisturbed u v) : Undisturbed s v where
  slots := a.slots.trans b.slots
  device := b.device.trans a.device
  resetN := b.resetN.trans a.resetN
  pending := b.pending.trans a.pending
  link := b.link.trans a.link
  load l h := by
    obtain ⟨m, hm, hp⟩ := b.load l h
    obtain ⟨n, hn, hq⟩ := a.load m hm
    exact ⟨n, hn, hp.trans hq⟩

theorem Undisturbed.lockStates {s u : State} (k : Undisturbed s u) (h : LockStates s) : LockStates u where
  slots st := (k.slots st).slot (h.slots st)
  idle hd st := (k.slots st).idle (h.idle (k.device ▸ hd) st)
  held hr := k.device ▸ h.held (k.resetN ▸ hr)
  quiet hr := by rw [k.pending, k.link]; exact h.quiet (k.resetN ▸ hr)
  start l hl hp := by
    obtain ⟨m, hm, hq⟩ := k.load l hl
    exact k.device ▸ h.start m hm (hq ▸ hp)
  reload l hl hp := by
    obtain ⟨m, hm, hq⟩ := k.load l hl
    exact k.device ▸ h.reload m hm (hq ▸ hp)

/-- What the invariant does not read may change. -/
theorem LockStates.aside {s u : State} (h : LockStates s) (streams : u.streams = s.streams) (device : u.device = s.device)
    (resetN : u.resetN = s.resetN) (pending : u.softResetPending = s.softResetPending) (link : u.link = s.link)
    (load : u.load = s.load) : LockStates u :=
  (Undisturbed.of (.of s u streams) device resetN pending link load).lockStates h

theorem Undisturbed.on (s : State) (st : StreamId) (f : StreamState → StreamState)
    (h : Keep (s.stream st) (f (s.stream st))) : Undisturbed s (s.onStream st f) :=
  .of (Keeps.on s st f h) rfl rfl rfl rfl rfl

theorem undisturbed_drain (s : State) (st : StreamId) (i : Nat) : Undisturbed s (s.drain st i) := by
  have f := s.drain_frame st i
  exact .of (keeps_drain s st i) (by rw [f]) (by rw [f]) (by rw [f]) (by rw [f]) (by rw [f])

theorem undisturbed_answer (s : State) (t : Txn) (st : Status) (d : List Byte) : Undisturbed s (s.answer t st d) :=
  .of (.of _ _ (by simp)) (by simp) (by simp) (by simp) (by simp) (by simp)

theorem undisturbed_forward (s : State) (t : Txn) (k : EntryKind) (a : Address) : Undisturbed s (s.forward t k a) :=
  .of (.of _ _ rfl) rfl rfl rfl rfl rfl

theorem undisturbed_handleClose (s : State) (st : StreamId) (c : Decode.CloseRecord) (now : Micros) (early : Bool) :
    Undisturbed s (s.handleClose st c now early) := by
  unfold State.handleClose
  split
  · refine Undisturbed.trans (.on s st _ ?_) (undisturbed_drain _ st _)
    exact SameLock.keep ⟨rfl, rfl, rfl, rfl, rfl, rfl, rfl, rfl⟩
  · exact .on s st _ ((sameLock_count _ _).keep.trans (keep_lockInput _ _))
  · refine .on s st _ ?_
    rw [StreamState.closeSink_eq]
    exact SameLock.keep ⟨rfl, rfl, rfl, rfl, rfl, rfl, rfl, rfl⟩

theorem sameLock_increment (x : StreamState) (i : Nat) : SameLock x (x.increment i) := sameLock_onBuf x i _

theorem undisturbed_takeLineWrite (s v : State) (t : Txn) (st : StreamId) (o : Nat) (h : s.takeLineWrite t st o = .next v) :
    Undisturbed s v := by
  have begun : Undisturbed s (s.onStream st StreamState.beginFrame) := .on s st _ (sameLock_beginFrame _).keep
  unfold State.takeLineWrite at h
  split at h
  · cases h
    exact (Undisturbed.on s st _ (sameLock_count _ _).keep).trans (undisturbed_answer _ t _ _)
  · dsimp only at h
    split at h
    · unfold State.forwardWrite at h
      split at h
      · cases h
      · cases h
        refine begun.trans (Undisturbed.trans (.on _ st _ ?_) (undisturbed_forward _ t _ _))
        exact ((sameLock_onBuf _ _ _).trans (sameLock_increment _ _)).keep
    · cases h; exact begun.trans (undisturbed_answer _ t _ _)
    · cases h; exact begun.trans (undisturbed_answer _ t _ _)

theorem undisturbed_refuse (s : State) (t : Txn) (cause : FaultCause) (st : Option StreamId) :
    Undisturbed s (s.refuse t cause st) := by
  rw [State.refuse_spec]
  refine Undisturbed.trans ?_ (undisturbed_answer _ t _ _)
  refine Undisturbed.trans (u := { s with fault :=
    { initiator := t.initiator, dir := Txn.dir t, address := t.address, cause := cause, stream := st } }) (.of (.of s _ rfl) rfl rfl rfl rfl rfl) ?_
  cases st with
  | none => exact .of (.of _ _ rfl) rfl rfl rfl rfl rfl
  | some k => exact .on _ k (·.raise .accessFault) (sameLock_raise _ _).keep

theorem undisturbed_takeAs (s v : State) (t : Txn) (c : Machine.Class) (h : s.takeAs t c = .next v) : Undisturbed s v := by
  cases c with
  | forward => cases h; exact undisturbed_forward s t _ _
  | refuse cause st => cases h; exact undisturbed_refuse s t cause st
  | lineWrite st o => exact undisturbed_takeLineWrite s v t st o h
  | excessWrite st =>
    cases h
    refine Undisturbed.trans (.on s st _ ?_) (undisturbed_answer _ t _ _)
    split
    · exact (sameLock_count _ _).keep
    · exact ((sameLock_beginFrame _).trans (sameLock_count _ _)).keep
  | captureLineRead st o fill =>
    change s.takeCaptureRead t st o fill = _ at h
    unfold State.takeCaptureRead at h
    split at h
    · split at h
      · cases h; exact undisturbed_forward s t _ _
      · cases h
    · cases h; exact undisturbed_answer s t _ _
    · cases h; exact undisturbed_answer s t _ _
  | close st =>
    cases h
    refine Undisturbed.trans (Undisturbed.trans (.on s st _ ?_) (undisturbed_handleClose _ st _ _ _))
      (undisturbed_answer _ t _ _)
    exact SameLock.keep ⟨by simp, by simp, by simp, by simp, by simp, by simp, by simp, by simp⟩
  | claim st k =>
    cases h
    exact (Undisturbed.on s st _ (sameLock_claim _ _ _).keep).trans (undisturbed_answer _ t _ _)
  | presentationLineRead st k o fill =>
    change s.takePresentationRead t st k o fill = _ at h
    unfold State.takePresentationRead at h
    split at h
    · split at h
      · cases h
        exact (Undisturbed.on s st _ (sameLock_increment _ _).keep).trans (undisturbed_forward _ t _ _)
      · cases h
    all_goals cases h; exact undisturbed_answer s t _ _
  | captureExcessRead | statusRead | peek | presentationExcessRead | dormantDrop | dormantCaptureFill | dormantStatus
  | dormantPresentationFill | dormantPresentationRecord => cases h; exact undisturbed_answer s t _ _

theorem undisturbed_offered (s v : State) (t : Txn) (h : s.offered t (State.takeAny t) = .next v) : Undisturbed s v := by
  unfold State.offered at h
  split at h
  · split at h
    · exact Undisturbed.trans (u := { s with ports := { Ports.quiet with accepted := true } })
        (.of (.of _ _ rfl) rfl rfl rfl rfl rfl) (undisturbed_takeAs _ v t _ h)
    · cases h; exact .of (.of _ _ rfl) rfl rfl rfl rfl rfl
  · cases h

/-! ### Grants -/

theorem undisturbed_jobIssued (s : State) : Undisturbed s s.jobIssued := by
  rw [s.jobIssued_frame]
  exact .of (.of _ _ rfl) rfl rfl rfl rfl rfl

theorem undisturbed_burstIssued (s : State) (d : Descriptor) (j : Job) (cov : List Nat) (ph : BurstPhase) :
    Undisturbed s (s.burstIssued d j cov ph) := by
  refine Undisturbed.trans ?_ (undisturbed_jobIssued _)
  rw [State.onHead_frame]
  exact .of (.of _ _ rfl) rfl rfl rfl rfl rfl

theorem undisturbed_incremented (s u : State) (st : StreamId) (i : Nat)
    (h : ∃ table ports bursts starvation, u = { s.onStream st (fun x => x.increment i) with
      table := table, ports := ports, bursts := bursts, starvation := starvation }) : Undisturbed s u := by
  obtain ⟨_, _, _, _, rfl⟩ := h
  exact (Undisturbed.on s st (fun x => x.increment i) (sameLock_increment _ i).keep).trans
    (.of (.of _ _ rfl) rfl rfl rfl rfl rfl)

theorem undisturbed_grantRepair (s v : State) (j : Job) (q : RepairRequest) (h : s.grantRepair j q = .next v) :
    Undisturbed s v := by
  unfold State.grantRepair at h
  split at h
  · unfold State.grantHeldWrite at h
    split at h
    · cases h
    · cases h
      exact (undisturbed_incremented s _ j.stream j.target ⟨_, _, _, _, rfl⟩).trans (undisturbed_jobIssued _)
  · split at h
    · unfold State.grantPad at h
      dsimp only at h
      split at h
      · cases h
      · cases h
        exact (undisturbed_incremented s _ j.stream j.target ⟨_, _, _, _, rfl⟩).trans (undisturbed_burstIssued _ _ _ _ _)
    · rename_i source _
      unfold State.grantCopyRead at h
      dsimp only at h
      split at h
      · cases h
        exact (undisturbed_incremented s _ j.stream source ⟨_, _, _, _, rfl⟩).trans (undisturbed_burstIssued _ _ _ _ _)
      · cases h

theorem undisturbed_grantLoader (s : State) (q : LoaderRead) : Undisturbed s (s.grantLoader q) :=
  ⟨.of _ _ rfl, rfl, rfl, rfl, rfl, fun l h => by
    obtain ⟨m, hm, rfl⟩ := Option.map_eq_some_iff.1 (show s.load.map _ = some l from h)
    exact ⟨m, hm, rfl⟩⟩

theorem undisturbed_takeGrant (s v : State) (o : Option Initiator) (h : s.takeGrant o = .next v) : Undisturbed s v := by
  unfold State.takeGrant at h
  split at h
  · cases h; exact undisturbed_grantLoader s _
  · split at h
    · exact undisturbed_grantRepair s v _ _ h
    · cases h; exact .refl s

/-! ### Returns -/

theorem Load.receive_purpose (l : Load) (q : LoaderRead) (st : Status) (d : List Byte) :
    (l.receive q st d).purpose = l.purpose := by
  cases st <;> rfl

theorem undisturbed_fulfil (s : State) (i : Initiator) (n : Nat) (r : Response) : Undisturbed s (s.fulfil i n r) := by
  rw [State.fulfil_frame]
  exact .of (.of _ _ rfl) rfl rfl rfl rfl rfl

theorem undisturbed_routeRepair (s : State) (r : Bool) (n : Nat) (st : Status) (d : List Byte) :
    Undisturbed s (s.routeRepair r n st d) := by
  have f := s.routeRepair_frame r n st d
  exact .of (keeps_routeRepair s r n st d) (by rw [f]) (by rw [f]) (by rw [f]) (by rw [f]) (by rw [f])

theorem undisturbed_route (s : State) (e : Entry) (r : DsResponse) : Undisturbed s (s.route e r) := by
  unfold State.route
  split
  · exact undisturbed_fulfil s _ _ _
  · exact undisturbed_fulfil s _ _ _
  · exact undisturbed_fulfil s _ _ _
  · exact undisturbed_fulfil s _ _ _
  · exact undisturbed_routeRepair s _ _ _ _
  · exact undisturbed_routeRepair s _ _ _ _
  · split
    · exact .refl s
    · refine ⟨.of _ _ rfl, rfl, rfl, rfl, rfl, fun l h => ?_⟩
      obtain ⟨m, hm, rfl⟩ := Option.map_eq_some_iff.1 h
      exact ⟨m, hm, Load.receive_purpose m _ _ _⟩

theorem undisturbed_settleCount (s : State) (k : EntryKind) (st : Status) : Undisturbed s (s.settleCount k st) := by
  unfold State.settleCount
  split
  · exact (Undisturbed.on s _ _ (sameLock_onBuf _ _ _).keep).trans (undisturbed_drain _ _ _)
  · exact .refl s

theorem undisturbed_settleStream (s : State) (k : EntryKind) (before : State) :
    Undisturbed s (s.settleStream k before) := by
  have f := s.settleStream_frame k before
  refine .of ?_ (by rw [f]) (by rw [f]) (by rw [f]) (by rw [f]) (by rw [f])
  unfold State.settleStream
  split
  · exact (keeps_quiet s _ _ _).trans (keeps_settleDrain _ _)
  · exact .refl

theorem undisturbed_accountRepair (s : State) : Undisturbed s s.accountRepair := by
  have f := s.accountRepair_frame
  exact .of (keeps_account s) (by rw [f]) (by rw [f]) (by rw [f]) (by rw [f]) (by rw [f])

/-! ### The evaluation of a load -/

theorem LockStates.reset_released {s : State} (h : LockStates s) (hd : s.device ≠ .transparent) : s.resetN = true := by
  by_contra hr
  exact hd (h.held (by simpa using hr))

/-- A slot in which nothing runs takes a descriptor with positive counts (R163, R168). -/
theorem SlotLock.handOff {x : StreamState} (h : SlotLock x) (idle : SlotIdle x) (i : Installed) (hi : EnabledCounts (some i)) :
    SlotLock (StreamState.handOff i x) := by
  obtain ⟨down, awaited, -⟩ := idle
  obtain ⟨acquire, loss⟩ := Machine.SlotLock.counters_down h down
  exact SlotLock.follow (x := { x with pendingSlot := none }) i hi nofun down acquire loss awaited

/-- A load's end in a state where RESET_N is high: every slot keeps its part, and the device is RUNNING. -/
theorem LockStates.ofRunning {u : State} (hr : u.resetN = true) (hd : u.device = .running) (hl : u.load = none)
    (slots : ∀ st, SlotLock (u.stream st)) : LockStates u where
  slots := slots
  idle hn := absurd hd hn
  held hn := by rw [hn] at hr; cases hr
  quiet hn := by rw [hn] at hr; cases hr
  start l h := by rw [hl] at h; cases h
  reload l h := by rw [hl] at h; cases h

theorem State.handOffStart_device (s : State) (c : CopyIndex) (slot : List Byte) :
    (s.handOffStart c slot).device = .running := by
  unfold State.handOffStart
  dsimp only
  rw [State.raiseDevice_device,
    State.foldl_onStream_frame allStreams (fun st => StreamState.handOff (installedOf s.place (imageDescriptors slot) st.val))]

theorem LockStates.handOffStart {s : State} (h : LockStates s) (hd : s.device = .loading ∨ s.device = .configFault)
    (hl : s.load = none) (c : CopyIndex) (slot : List Byte) : LockStates (s.handOffStart c slot) := by
  have stopped : s.device ≠ .running := by rcases hd with hd | hd <;> rw [hd] <;> decide
  have released := h.reset_released (by rcases hd with hd | hd <;> rw [hd] <;> decide)
  have f := s.handOffStart_frame c slot
  refine .ofRunning (by rw [f]; exact released) (State.handOffStart_device s c slot) (by rw [f]; exact hl) fun st => ?_
  rw [State.handOffStart_stream]
  exact (h.slots st).handOff (h.idle stopped st) _ (enabledCounts_installed _ _ _ _)

theorem LockStates.endReload {s : State} (h : LockStates s) (r : ReloadResult) (e : DeviceEvent) :
    LockStates (s.endReload r e) := h.aside rfl rfl rfl rfl rfl rfl

theorem LockStates.handOffReload {s : State} (h : LockStates s) (hd : s.device = .running) (hl : s.load = none)
    (c : CopyIndex) (slot : List Byte) : LockStates (s.handOffReload c slot) := by
  have released := h.reset_released (by rw [hd]; decide)
  have folded : LockStates (allStreams.foldl (State.reloadOne s.place (imageDescriptors slot))
      { s with generation := Decode.imageGeneration slot, copyIndex := some c }) := by
    have f := State.foldl_reloadOne_frame s.place (imageDescriptors slot) allStreams
      { s with generation := Decode.imageGeneration slot, copyIndex := some c }
    refine .ofRunning (by rw [f]; exact released) (by rw [f]; exact hd) (by rw [f]; exact hl) fun st => ?_
    rw [(State.foldl_reloadOne_spec _ _ allStreams _ (by decide)).1]
    split
    · exact SlotLock.reloadSlot _ _ (enabledCounts_installed _ _ _ _) (h.slots st)
    · exact h.slots st
  unfold State.handOffReload
  dsimp only
  split
  · exact folded.endReload _ _
  · exact folded

theorem LockStates.withoutLoad {s : State} (h : LockStates s) : LockStates { s with load := none } :=
  ⟨h.slots, h.idle, h.held, h.quiet, nofun, nofun⟩

theorem LockStates.evaluateStart {s : State} (h : LockStates s) (l : Load) (hl : s.load = none) (hd : s.device = .loading) :
    LockStates (s.evaluateStart l) := by
  have released := h.reset_released (by rw [hd]; decide)
  have none : ∀ l, s.load ≠ some l := by rw [hl]; exact nofun
  unfold State.evaluateStart
  split
  · exact h.handOffStart (.inl hd) hl _ _
  · exact {
      slots := h.slots
      idle := fun _ => h.idle (by rw [hd]; decide)
      held := fun hn => absurd released (by rw [show s.resetN = false from hn]; decide)
      quiet := h.quiet
      start := fun l h => absurd h (none l)
      reload := fun l h => absurd h (none l) }

theorem LockStates.evaluateReload {s : State} (h : LockStates s) (l : Load) (hl : s.load = none)
    (hd : s.device = .running ∨ s.device = .configFault) : LockStates (s.evaluateReload l) := by
  unfold State.evaluateReload
  split
  · exact h.endReload _ _
  · split
    · exact h.endReload _ _
    · split
      · rename_i hc
        exact (h.handOffStart (.inr hc) hl _ _).endReload _ _
      · rename_i hc
        exact h.handOffReload (hd.resolve_right hc) hl _ _

theorem LockStates.settleLoad {s : State} (h : LockStates s) : LockStates s.settleLoad := by
  unfold State.settleLoad
  split
  · exact h
  · rename_i l hl
    split
    · exact h
    · split
      · rename_i hp
        exact LockStates.evaluateStart (s := { s with load := none }) h.withoutLoad l rfl (h.start l hl hp)
      · rename_i hp
        exact LockStates.evaluateReload (s := { s with load := none }) h.withoutLoad l rfl (h.reload l hl hp)

theorem LockStates.takeReturn {s : State} (h : LockStates s) (r : DsResponse) : LockStates (s.takeReturn r) := by
  unfold State.takeReturn
  split
  · exact h
  · rename_i e _
    refine (undisturbed_settleStream _ _ _).lockStates ?_
    have freed : LockStates (((s.route e r).settleCount e.kind r.status).freeEntry e) := by
      refine Undisturbed.lockStates ?_ h
      exact ((undisturbed_route s e r).trans (undisturbed_settleCount _ _ _)).trans (.of (.of _ _ rfl) rfl rfl rfl rfl rfl)
    unfold State.settleRequester
    split
    · exact freed
    · exact (undisturbed_accountRepair _).lockStates freed
    · exact freed.settleLoad

/-! ### The management link and the resets -/

/-- What moves the link controller alone does not bear on lock states while RESET_N is high. -/
theorem LockStates.withLink {s : State} (h : LockStates s) (hr : s.resetN = true) (l : Link) (p : Ports) (m : Bool) :
    LockStates { s with link := l, ports := p, softResetPending := m } where
  slots := h.slots
  idle := h.idle
  held := h.held
  quiet hn := absurd hr (by rw [show s.resetN = false from hn]; decide)
  start := h.start
  reload := h.reload

/-- A slot changes while the device is RUNNING. -/
theorem LockStates.onRunning {s : State} (h : LockStates s) (hd : s.device = .running) (st : StreamId)
    (f : StreamState → StreamState) (hf : SlotLock (f (s.stream st))) : LockStates (s.onStream st f) where
  slots k := by
    by_cases hk : k = st
    · subst hk; rw [State.stream_onStream]; exact hf
    · rw [State.stream_onStream_ne _ _ _ _ hk]; exact h.slots k
  idle hn := absurd hd hn
  held := h.held
  quiet := h.quiet
  start := h.start
  reload := h.reload

theorem SlotLock.beginTeardown {x : StreamState} (h : SlotLock x) (hl : x.life = .active) :
    SlotLock ({ x with armRequest := false }.beginTeardown) := by
  refine ⟨h.current, h.waiting, h.ranges, h.counts, fun (ha : x.armAwaited ≠ []) => ?_, nofun, nofun, fun _ (ht : 2 ≤ 0) => ?_⟩
  · have := (h.arming ha).1
    rw [hl] at this
    cases this
  · omega

theorem LockStates.linkEffect {s w : State} (h : LockStates s) (hr : s.resetN = true) (e : LinkEffect s w) :
    LockStates w := by
  cases e with
  | answered => exact h
  | countersCleared st => exact (Undisturbed.on s st _ (SameLock.keep ⟨rfl, rfl, rfl, rfl, rfl, rfl, rfl, rfl⟩)).lockStates h
  | flagsLeft st flags => exact (Undisturbed.on s st _ (SameLock.keep ⟨rfl, rfl, rfl, rfl, rfl, rfl, rfl, rfl⟩)).lockStates h
  | deviceFlagsLeft flags => exact h.aside rfl rfl rfl rfl rfl rfl
  | armed st hs =>
    obtain ⟨device, off, awaited, enabled⟩ := s.armDecision_started st hs
    exact h.onRunning device st _ (Machine.SlotLock.beginArm (h.slots st) enabled off awaited)
  | disarmed st hs =>
    obtain ⟨device, active⟩ := s.disarmDecision_started st hs
    exact h.onRunning device st _ ((h.slots st).beginTeardown active)
  | reloaded hs =>
    refine ⟨h.slots, h.idle, h.held, h.quiet, fun l hl hp => ?_, fun _ _ _ => s.reloadTaken_device hs⟩
    cases hl
    cases hp
  | softReset hs =>
    refine LockStates.withLink (s := { s with starvation := 0, load := s.load.map (fun l => { l with plan := [] }) })
      ?_ hr s.link s.ports true
    refine Undisturbed.lockStates (s := s) ⟨.of s _ rfl, rfl, rfl, rfl, rfl, fun l hl => ?_⟩ h
    obtain ⟨m, hm, rfl⟩ := Option.map_eq_some_iff.1 hl
    exact ⟨m, hm, rfl⟩

theorem LockStates.byteCompletes {s : State} (h : LockStates s) (b : Byte) : LockStates (s.byteCompletes b) := by
  rcases s.byteCompletes_moved b with ⟨-, same⟩ | ⟨frame, w, l, p, effect, moved⟩
  · rw [same]; exact h
  · have released : s.resetN = true := by
      by_contra hr
      exact frame (h.quiet (by simpa using hr)).2
    have hw : w.resetN = true := by
      cases effect <;> exact released
    rw [moved]
    exact (h.linkEffect released effect).withLink hw l p w.softResetPending

theorem LockStates.powered (s : State) (hs : ∀ st, s.stream st = StreamState.empty) (hd : s.device = .transparent)
    (hq : s.resetN = false → s.softResetPending = false ∧ s.link = .idle) (hl : s.load = none) : LockStates s where
  slots st := by
    rw [hs]
    exact SlotLock.of_down nofun nofun rfl rfl rfl (fun h => absurd rfl h)
  idle _ st := by rw [hs]; exact ⟨rfl, rfl, rfl⟩
  held _ := hd
  quiet := hq
  start l h := by rw [hl] at h; cases h
  reload l h := by rw [hl] at h; cases h

/-- Sampling the straps in a state without a load and without a slot that runs (R167). -/
theorem LockStates.sampleStraps {s : State} (h : LockStates s) (hr : s.resetN = true) (hd : s.device = .transparent)
    (a c : Byte) : LockStates (s.sampleStraps a c) := by
  have noLoad : s.load = none := by
    cases hl : s.load with
    | none => rfl
    | some l =>
      cases hp : l.purpose with
      | start => have := h.start l hl hp; rw [hd] at this; cases this
      | reload => have := h.reload l hl hp; rw [hd] at this; rcases this with e | e <;> cases e
  have idle := h.idle (by rw [hd]; decide)
  unfold State.sampleStraps
  dsimp only
  split
  · have none : ∀ l, s.load ≠ some l := by rw [noLoad]; exact nofun
    exact ⟨h.slots, fun _ => idle, fun _ => rfl, h.quiet, fun l hl => absurd hl (none l), fun l hl => absurd hl (none l)⟩
  · refine ⟨h.slots, fun _ => idle, fun hn => ?_, h.quiet, fun _ _ _ => rfl, fun l hl hp => ?_⟩
    · exact absurd hr (by rw [show s.resetN = false from hn]; decide)
    · cases hl; cases hp

theorem LockStates.of_exec {s u : State} (h : LockStates s) (i : Instr) (hu : exec i s = .next u) : LockStates u := by
  have quieted : LockStates s.quietPorts := h.aside rfl rfl rfl rfl rfl rfl
  cases command_kind s i with
  | byte _ b he => rw [he] at hu; cases hu; exact quieted.byteCompletes b
  | port _ t he => rw [he] at hu; exact (undisturbed_offered s u t hu).lockStates h
  | powerOn => cases hu; exact .powered _ reset_slots rfl (fun _ => ⟨rfl, rfl⟩) rfl
  | release a c =>
    change execResetRelease a c s = _ at hu
    unfold execResetRelease at hu
    split at hu
    · cases hu; exact quieted
    · rename_i low
      have device := h.held (by simpa using low)
      cases hu
      refine LockStates.sampleStraps (s := { s.quietPorts with resetN := true, link := .idle }) ?_ rfl device a c
      exact ⟨h.slots, h.idle, nofun, nofun, h.start, h.reload⟩
  | reinit a c =>
    change execReinitialisation a c s = _ at hu
    unfold execReinitialisation at hu
    split at hu
    · rename_i waits
      have released : s.resetN = true := by
        by_contra hr
        have := (h.quiet (by simpa using hr)).1
        rw [waits.1] at this
        cases this
      cases hu
      refine LockStates.sampleStraps (s := s.reinitialised) ?_ released rfl a c
      exact .powered _ reset_slots rfl (fun hn => by rw [show s.resetN = false from hn] at released; cases released) rfl
    · cases hu; exact quieted
  | frameEnd =>
    cases hu
    exact ⟨h.slots, h.idle, h.held, fun hn => ⟨(h.quiet hn).1, rfl⟩, h.start, h.reload⟩
  | frameBegin =>
    change execFrameBegin s = _ at hu
    unfold execFrameBegin at hu
    split at hu
    · cases hu
      refine ⟨h.slots, h.idle, h.held, fun hn => ⟨(h.quiet hn).1, ?_⟩, h.start, h.reload⟩
      have low : s.resetN = false := hn
      simp only [low]
      exact (h.quiet low).2
    · cases hu; exact quieted
  | grant o => exact (undisturbed_takeGrant _ u o hu).lockStates quieted
  | returned r =>
    cases hw : r.wf with
    | true => rw [exec_returned s r hw] at hu; cases hu; exact quieted.takeReturn r
    | false => simp [exec, execReturned, hw] at hu
  | miss st =>
    change execMiss st s = _ at hu
    unfold execMiss at hu
    split at hu
    · cases hu
      refine (Undisturbed.on s.quietPorts st _ ?_).lockStates quieted
      refine Keep.trans (SameLock.keep ?_) (keep_lockInput _ _)
      exact ⟨rfl, rfl, rfl, rfl, rfl, rfl, rfl, rfl⟩
    · cases hu; exact quieted
  | scan st k =>
    change execScanTimerExpiry st k s = _ at hu
    unfold execScanTimerExpiry at hu
    split at hu
    · cases hu
      refine Undisturbed.lockStates (.of ((Keeps.on _ st _ (sameLock_expire _ k).keep).trans (keeps_quiet _ st _ _)) ?_ ?_ ?_ ?_ ?_) quieted
      all_goals rw [State.reportQuiet_frame]; rfl
    · cases hu; exact quieted
  | arm st b =>
    change execArmMessage st b s = _ at hu
    unfold execArmMessage at hu
    split at hu
    · rename_i awaited
      have waits : (s.stream st).armAwaited ≠ [] := fun e => by rw [e] at awaited; cases awaited
      have running : s.device = .running := by
        by_contra hn
        exact waits (h.idle hn st).2.1
      cases hu
      refine quieted.onRunning running st _ (SlotLock.armTaken _ b (SlotLock.armBlock _ _ b (h.slots st) waits) ?_)
      rw [armBlock_await]
      exact waits
    · cases hu; exact quieted
  | teardown st =>
    change execTeardownRequest st s = _ at hu
    unfold execTeardownRequest at hu
    split at hu
    · rename_i due
      cases hu
      refine Undisturbed.lockStates (.of (keeps_teardown s.quietPorts st due.1) ?_ ?_ ?_ ?_ ?_) quieted
      all_goals rw [State.takeTeardown_frame]
    · cases hu; exact quieted

theorem LockStates.tick {s : State} (h : LockStates s) : LockStates s.tick := by
  unfold State.tick
  split <;> exact h.aside rfl rfl rfl rfl rfl rfl

end Sys2Proof.Safety

namespace Sys2Proof.Invariants

open Sys2Proof Sys2Proof.Machine Sys2Proof.Safety

/-- Settles O59, command by command: most keep each slot's part, and the device leaves RUNNING only where no slot runs. -/
theorem stepKeepsLockStates : Obligations.StepKeepsLockStates :=
  step_preserves LockStates (fun _ _ _ h => h.aside rfl rfl rfl rfl rfl rfl)
    (fun _ h => h.tick) fun _ _ i h hu => h.of_exec i hu

end Sys2Proof.Invariants
end

section
/-! PROOF. The invariant of pools and reader entries (Chapters 1 and 4): the operations keep it by Laws/Buffers.lean and
Laws/Pools.lean, so that a command keeps it by what it does to its stream's slot and to the repair queue. -/
set_option Elab.async false

namespace Sys2Proof.Safety

open Sys2Proof Sys2Proof.Machine

theorem PoolsOk.quietPorts {s : State} (h : PoolsOk s) : PoolsOk s.quietPorts := h.same rfl rfl

/-- A cadence expiry moves the slot's lock state and at most its hold mark (R99). -/
theorem PoolsOk.miss {s u : State} (h : PoolsOk s) (st : StreamId) (hu : execMiss st s = .next u) : PoolsOk u := by
  unfold execMiss at hu
  split at hu
  · cases hu; exact h.quietPorts.moves st _ PoolOk.miss
  · cases hu; exact h.quietPorts

/-- A scan timer that is due belongs to an entry, since a slot without entries reads as STOPPED (R91). -/
theorem PoolsOk.scanTimerExpiry {s u : State} (h : PoolsOk s) (st : StreamId) (k : ReaderSlot)
    (hu : execScanTimerExpiry st k s = .next u) : PoolsOk u := by
  unfold execScanTimerExpiry at hu
  split at hu
  · rename_i due
    cases hu
    cases hr : (s.stream st).readers[k.val]? with
    | none =>
      have absent : ((s.stream st).reader k).timer = .stopped := by
        rw [StreamState.reader, List.getD_eq_getElem?_getD, hr]; rfl
      rw [absent] at due
      cases due
    | some r =>
      refine PoolsOk.reportQuiet ?_ st _ _
      exact h.quietPorts.moves st _ fun slot => slot.expire k r hr
  · cases hu; exact h.quietPorts

theorem PoolsOk.armTaken {s u : State} (h : PoolsOk s) (locks : LockStates s) (st : StreamId) (b : ArmBlock)
    (hu : execArmMessage st b s = .next u) : PoolsOk u := by
  unfold execArmMessage at hu
  split at hu
  · rename_i awaited
    have waits : (s.stream st).armAwaited ≠ [] := fun e => by rw [e] at awaited; cases awaited
    cases hu
    exact h.quietPorts.on st _ fun ⟨pool, slot⟩ => pool.armMessage slot (locks.slots st) waits s.now b
  · cases hu; exact h.quietPorts

theorem PoolsOk.teardownRequest {s u : State} (h : PoolsOk s) (st : StreamId) (hu : execTeardownRequest st s = .next u) :
    PoolsOk u := by
  unfold execTeardownRequest at hu
  split at hu
  · rename_i due
    cases hu; exact h.quietPorts.teardown st due.1
  · cases hu; exact h.quietPorts

theorem PoolsOk.resetRelease {s u : State} (h : PoolsOk s) (a c : Byte) (hu : execResetRelease a c s = .next u) :
    PoolsOk u := by
  unfold execResetRelease at hu
  split at hu
  · cases hu; exact h.quietPorts
  · cases hu; exact (h.same (u := { s.quietPorts with resetN := true, link := .idle }) rfl rfl).straps a c

theorem PoolsOk.reinitialisation {s u : State} (h : PoolsOk s) (a c : Byte) (hu : execReinitialisation a c s = .next u) :
    PoolsOk u := by
  unfold execReinitialisation at hu
  split at hu
  · cases hu; exact (PoolsOk.fresh s.reinitialised reset_slots rfl).straps a c
  · cases hu; exact h.quietPorts

theorem PoolsOk.frameBegin {s u : State} (h : PoolsOk s) (hu : execFrameBegin s = .next u) : PoolsOk u := by
  unfold execFrameBegin at hu
  split at hu <;> cases hu
  · exact h.same rfl rfl
  · exact h.quietPorts

theorem PoolsOk.of_exec {s u : State} (h : PoolsOk s) (locks : LockStates s) (i : Instr) (hu : exec i s = .next u) :
    PoolsOk u := by
  cases command_kind s i with
  | byte _ b he => rw [he] at hu; cases hu; exact h.quietPorts.byteCompletes b
  | port _ t he => rw [he] at hu; exact h.offered t hu
  | powerOn => cases hu; exact .fresh _ reset_slots rfl
  | release a c => exact h.resetRelease a c hu
  | reinit a c => exact h.reinitialisation a c hu
  | frameEnd => cases hu; exact h.same rfl rfl
  | frameBegin => exact h.frameBegin hu
  | grant o => exact h.quietPorts.takeGrant o hu
  | returned r =>
    cases hw : r.wf with
    | true =>
      rw [exec_returned s r hw] at hu
      cases hu
      exact h.quietPorts.takeReturn (locks.aside rfl rfl rfl rfl rfl rfl) r
    | false => simp [exec, execReturned, hw] at hu
  | miss st => exact h.miss st hu
  | scan st k => exact h.scanTimerExpiry st k hu
  | arm st b => exact h.armTaken locks st b hu
  | teardown st => exact h.teardownRequest st hu

theorem PoolsOk.tick {s : State} (h : PoolsOk s) : PoolsOk s.tick := by
  unfold State.tick
  split <;> exact h.same rfl rfl

end Sys2Proof.Safety

namespace Sys2Proof.Invariants

open Sys2Proof Sys2Proof.Machine Sys2Proof.Safety

/-- Settles O60, for the two invariants together: which slots rest is what LockStates says. -/
theorem stepKeepsPools : Obligations.StepKeepsPools := fun _ u locks pools hs =>
  (step_preserves (fun s => LockStates s ∧ PoolsOk s)
    (fun _ _ _ h => ⟨h.1.aside rfl rfl rfl rfl rfl rfl, h.2.same rfl rfl⟩)
    (fun _ h => ⟨h.1.tick, h.2.tick⟩)
    (fun _ _ i h hu => ⟨h.1.of_exec i hu, h.2.of_exec h.1 i hu⟩) _ u ⟨locks, pools⟩ hs).2

/-- Settles O56: after reset every table, queue and list is empty and every slot is the empty one. -/
theorem resetMeetsInvariants : Obligations.ResetMeetsInvariants := by
  have lists : ∀ i, State.reset.order i = [] := fun i => by
    unfold State.order State.reset; simp [Vector.get]
  refine ⟨?capacity, OrderLinks.emptied rfl lists, LockStates.powered _ reset_slots rfl (fun _ => ⟨rfl, rfl⟩) rfl,
    PoolsOk.fresh _ reset_slots rfl⟩
  exact {
    table := Nat.zero_le _
    indices := ⟨List.nodup_nil, nofun⟩
    repair := Nat.zero_le _
    loader := Nat.zero_le _
    jobs := Nat.zero_le _
    slots := ⟨Nat.zero_le _, List.nodup_nil, nofun⟩
    orders := fun i => by rw [lists]; exact Nat.zero_le _
    starvation := Nat.zero_le _ }

end Sys2Proof.Invariants
end

section
/-! PROOF. The queue, the resets and the management link (Chapters 5, 9, 10 and 11): what a step on a queue and on an empty queue
is, what the resets leave, what each command of the link answers, and the bytes of its snapshots. -/
set_option Elab.async false

namespace Sys2Proof.Machine

open Sys2Proof Sys2Proof.Safety

/-! ### The empty queue (R97, R99; log 1) -/

theorem Timer.due_false_iff (t : Timer) (now : Micros) : t.due now = false ↔ ∀ e, t = .running e → now < e := by
  cases t <;> simp [Timer.due]

theorem State.dueIn_nil (s : State) (st : StreamId) (hc : (s.stream st).timer.due s.now = false)
    (hs : ∀ k, ((s.stream st).reader k).timer.due s.now = false) : s.dueIn st = [] := by
  simp [State.dueIn, hc, hs]

theorem State.dueIn_cadence (s : State) (st : StreamId) (hc : (s.stream st).timer.due s.now = true)
    (hs : ∀ k, ((s.stream st).reader k).timer.due s.now = false) : s.dueIn st = [.cadence st] := by
  simp [State.dueIn, hc, hs]

theorem flatMap_single_stream {α : Type} (f : StreamId → List α) (st : StreamId) (h : ∀ k, k ≠ st → f k = []) :
    allStreams.flatMap f = f st := by
  have single : ∀ l : List StreamId, l.Nodup → l.flatMap f = if st ∈ l then f st else [] := by
    intro l
    induction l with
    | nil => intro _; rfl
    | cons k l ih =>
      intro hn
      obtain ⟨hk, hl⟩ := List.nodup_cons.1 hn
      rw [List.flatMap_cons, ih hl]
      by_cases he : k = st
      · subst he; simp [hk]
      · rw [h k he]; simp [Ne.symm he]
  rw [single allStreams (by decide), if_pos (mem_allStreams st)]

/-! ### Bytes of the snapshots (R197) -/

theorem one_toNat {w : Nat} (v : BitVec w) : one v.toNat = v.setWidth 8 := BitVec.ofNat_toNat 8 v

theorem leBytes_two_zero : Decode.leBytes 2 0 = [0#8, 0#8] := by decide

/-- Adding flags from position i up to a number below 2^i sets just their bits. -/
theorem testBit_foldl_flags (k : Nat) (l : List Bool) : ∀ i v : Nat, v < 2 ^ i →
    ((l.zipIdx i).foldl (fun v fk => if fk.1 then v + 2 ^ fk.2 else v) v).testBit k =
      if k < i then v.testBit k else l.getD (k - i) false := by
  induction l with
  | nil =>
    intro i v hv
    split
    · rfl
    · rename_i h
      exact Nat.testBit_lt_two_pow (hv.trans_le (Nat.pow_le_pow_right (by decide) (by omega)))
  | cons a l ih =>
    intro i v hv
    have hv' : (if a then v + 2 ^ i else v) < 2 ^ (i + 1) := by
      rw [Nat.pow_succ]; cases a <;> simp only [Bool.false_eq_true, if_true, if_false] <;> omega
    rw [List.zipIdx_cons, List.foldl_cons, ih (i + 1) _ hv']
    rcases Nat.lt_trichotomy k i with hk | rfl | hk
    · rw [if_pos (by omega), if_pos hk]
      cases a with
      | true => exact (congrArg (Nat.testBit · k) (Nat.add_comm _ _)).trans (Nat.testBit_two_pow_add_gt hk v)
      | false => rfl
    · rw [if_pos (Nat.lt_succ_self k), if_neg (Nat.lt_irrefl k), Nat.sub_self]
      have hz := Nat.testBit_lt_two_pow hv
      cases a with
      | true =>
        refine (congrArg (Nat.testBit · k) (Nat.add_comm _ _)).trans ?_
        rw [Nat.testBit_two_pow_add_eq, hz]; rfl
      | false => exact hz
    · rw [if_neg (by omega), if_neg (by omega), show k - i = (k - (i + 1)) + 1 by omega]
      rfl

theorem getLsbD_flagByte (l : List Bool) (k : Nat) (h : k < 8) : (Decode.flagByte l).getLsbD k = l.getD k false := by
  unfold Decode.flagByte
  rw [BitVec.getLsbD_ofNat, testBit_foldl_flags k l 0 0 (by decide)]
  simp [h]

/-- Bit n mod 8 of byte n ÷ 8 of a coverage snapshot is line n's flag (R202). -/
theorem getLsbD_coverageSnapshot (b : Buf) (n : Nat) (h : n < 2048) :
    (b.coverageSnapshot.getD (n / 8) 0#8).getLsbD (n % 8) = decide (n ∈ b.coverage) := by
  have byte : b.coverageSnapshot.getD (n / 8) 0#8 = coverageByte b.coverage (n / 8) := by
    unfold Buf.coverageSnapshot
    rw [List.getD_eq_getElem?_getD, List.getElem?_map, List.getElem?_range (by omega)]
    rfl
  have bit : n % 8 < 8 := Nat.mod_lt n (by decide)
  rw [byte, coverageByte, getLsbD_flagByte _ _ bit, List.getD_eq_getElem?_getD, List.getElem?_map,
    List.getElem?_range bit]
  simp [Nat.div_add_mod]

theorem Buf.snapshot_eq (b : Buf) : b.snapshot = poolEntryBytes b := by
  unfold Buf.snapshot poolEntryBytes
  rw [leBytes_two_nat b.covered, leBytes_four_nat b.close.time, flagByte_six]
  simp [byte_one, leBytes_two, leBytes_four, leBytes_two_zero]

theorem poolEntryBytes_length (b : Buf) : (poolEntryBytes b).length = 28 := rfl

theorem Reader.snapshot_eq (now : Micros) (r : Reader) : r.snapshot now = readerEntryBytes now r := by
  unfold Reader.snapshot readerEntryBytes
  rw [flagByte_two]
  cases r.state <;> cases r.timer <;>
    simp [byte_one, leBytes_two, leBytes_four_nat, ReaderState.buffer, optionalByte, Timer.isRunning, Timer.remaining, one, bit]

theorem optionalByte_val {n : Nat} (o : Option (Fin n)) :
    optionalByte (o.map (·.val)) = [match o with | some c => one c.val | none => 0xFF#8] := by
  cases o <;> simp [optionalByte, byte_one, one]

theorem State.deviceSnapshot_eq (s : State) :
    s.deviceSnapshot = [0x16#8, 0x42#8, 0x01#8, s.apsel, s.cfgsel, one s.device.code,
        bit s.reloadInProgress 0 ||| bit s.softResetPending 1, one s.lastReload.code] ++ lsb32 s.generation
      ++ [match s.copyIndex with | some c => one c.val | none => 0xFF#8, s.deviceFlags.setWidth 8,
          one s.fault.initiator.val, one s.fault.dir.code] ++ lsb40 s.fault.address
      ++ [one s.fault.cause.code, match s.fault.stream with | some st => one st.val | none => 0xFF#8] := by
  have code : Decode.leBytes 2 Config.deviceCode.toNat = [0x16#8, 0x42#8] := by decide
  unfold State.deviceSnapshot
  rw [code, flagByte_two, leBytes_four, leBytes_five, optionalByte_val, optionalByte_val]
  simp only [byte_one, one_toNat, List.cons_append, List.nil_append, List.append_assoc, Config.revision]
  cases s.copyIndex <;> cases s.fault.stream <;> rfl

theorem StreamState.snapshot_eq (x : StreamState) :
    x.snapshot =
      [match x.current with
         | none => 0#8
         | some i => match i.outcome with
           | .enabled => 1#8
           | .refused => 2#8
           | .disabled => 3#8,
       match x.current with
         | none => 0#8
         | some i => one i.cause.code,
       one x.life.code,
       if x.armRequest then 1#8 else 0#8,
       if x.life = .active then one x.lock.code else 0#8,
       one x.acquire, one x.loss, x.flags,
       match x.current with
         | none => 0#8
         | some i => i.desc.getD 19 0#8] := by
  have lock : one x.reportedLock.code = if x.life = .active then one x.lock.code else 0#8 := by
    unfold StreamState.reportedLock; cases x.life <;> rfl
  have request : one x.armRequest.toNat = if x.armRequest then 1#8 else 0#8 := by cases x.armRequest <;> rfl
  unfold StreamState.snapshot
  simp only [byte_one, lock, request]
  unfold StreamState.outcome StreamState.refusalCause StreamState.mask
  cases x.current with
  | none => rfl
  | some i => cases h : i.outcome <;> simp [h, outcomeCode, Decode.eventMask, one]

theorem Counters.snapshot_eq (c : Counters) :
    c.snapshot = lsb16 c.framesStarted ++ lsb16 c.clean ++ lsb16 c.repaired ++ lsb16 c.rejected ++ lsb16 c.droppedOverrun
      ++ lsb16 c.abandoned ++ lsb16 c.misses ++ lsb16 c.earlyCloses ++ lsb16 c.emptyCloses ++ lsb16 c.excessWrites
      ++ lsb16 c.skipped ++ lsb16 c.stales := by
  unfold Counters.snapshot Counters.inOrder
  simp only [leBytes_two, List.flatMap_cons, List.flatMap_nil, List.append_nil, List.append_assoc]

/-! ### A command at its last byte (R184) -/

section
variable (i : Instr) (b : Byte) (s : State) (k : Decode.LinkCommand)
  (hi : i ∈ [Instr.softReset b, .getDevice b, .getStream b, .getPool b, .getReaders b, .getCoverage b, .getCounters b,
    .ackEvents b, .arm b, .disarm b, .reload b, .unlistedCommand b, .byteComplete b])
include hi

theorem exec_atStream (c : Byte) (hl : s.link = .stream c) (hk : Decode.linkCommand c = some k)
    (hn : Decode.hasArgument k = false) : exec i s = .next (s.quietPorts.takeAtStream k b) := by
  rw [exec_byte i b s hi]
  simp [State.byteCompletes, hl, hk, hn]

theorem exec_atArgument (c sb : Byte) (hl : s.link = .arguments c sb) (hk : Decode.linkCommand c = some k) :
    exec i s = .next (s.quietPorts.takeAtArgument k sb b) := by
  rw [exec_byte i b s hi]
  simp [State.byteCompletes, hl, hk]

end

theorem State.respond_quiet (s : State) (status : LinkStatus) (data : List Byte) :
    s.quietPorts.respond status data = responds s (status.code :: data) := rfl

theorem linkCommand_unlisted (c : Byte)
    (h : c ∉ [0x01#8, 0x02#8, 0x03#8, 0x04#8, 0x05#8, 0x06#8, 0x07#8, 0x20#8, 0x21#8, 0x22#8, 0x2F#8]) :
    Decode.linkCommand c = none := by
  revert h
  revert c
  decide

theorem State.anyArming_iff (s : State) : s.anyArming = true ↔ ∃ st, (s.stream st).armAwaited ≠ [] := by
  simp only [State.anyArming, List.any_eq_true, StreamState.arming_iff]
  exact ⟨fun ⟨st, _, h⟩ => ⟨st, h⟩, fun ⟨st, h⟩ => ⟨st, mem_allStreams st, h⟩⟩

/-- The conditions of R175 under which RELOAD answers BUSY. -/
theorem State.reloadTaken_iff (s : State) :
    s.reloadTaken = true ↔ ¬ (s.softResetPending ∨ s.device = .transparent ∨ s.device = .loading ∨ s.reloadInProgress
      ∨ (s.device = .running ∧ ∃ st, (s.stream st).armAwaited ≠ [])) := by
  rw [← State.anyArming_iff]
  unfold State.reloadTaken
  cases s.device <;> simp [and_assoc]

end Sys2Proof.Machine

namespace Sys2Proof.QueueAndResets

open Sys2Proof Sys2Proof.Machine Sys2Proof.Safety

/-- Settles O1: the step takes the queue's front. -/
theorem stepRunsFrontCommand : Obligations.StepRunsFrontCommand := by
  intro s c rest h
  rw [step, h]

/-- Settles O2, by the timers that are due: none, or the one cadence timer. -/
theorem emptyQueueStep : Obligations.EmptyQueueStep := by
  constructor
  · intro s hq cadence scan
    have none : s.due = [] := by
      rw [State.due, flatMap_single_stream _ 0 fun k _ => ?_]
      all_goals exact s.dueIn_nil _ ((Timer.due_false_iff _ _).2 (cadence _)) fun k => (Timer.due_false_iff _ _).2 (scan _ k)
    have idles : step s = .next s.tick := by
      unfold step
      rw [hq]
      dsimp only
      rw [State.idle, none]
    rw [idles]
    unfold State.tick
    split <;> rfl
  · intro s st e hq running due others scan
    have quiet : ∀ st' k, ((s.stream st').reader k).timer.due s.now = false :=
      fun st' k => (Timer.due_false_iff _ _).2 (scan st' k)
    have one : s.due = [.cadence st] := by
      rw [State.due, flatMap_single_stream _ st fun k hk => ?_]
      · exact s.dueIn_cadence st (by rw [running]; exact decide_eq_true due) (quiet st)
      · exact s.dueIn_nil k ((Timer.due_false_iff _ _).2 fun e' => others k e' hk) (quiet k)
    rw [step, hq]
    dsimp only
    rw [State.idle, one]
    rfl

/-- Settles O3: the state is the one of reset but for the queue, the pin MCS_N and the model's counter. -/
theorem powerOnResetClears : Obligations.PowerOnResetClears := by
  intro s
  have slots : ∀ st, s.powerOn.stream st = StreamState.empty := reset_slots
  have lists : ∀ i, s.powerOn.order i = [] := fun i => by
    unfold State.order State.powerOn State.reset; simp [Vector.get]
  refine ⟨s.powerOn, rfl, rfl, rfl, rfl, rfl, rfl, rfl, rfl, rfl, rfl, rfl, rfl, rfl, rfl, rfl, rfl, rfl, rfl, rfl, lists,
    fun st => ?_⟩
  rw [slots st]
  exact ⟨rfl, rfl, rfl, rfl, rfl, rfl, rfl, rfl, rfl, rfl, rfl, rfl, rfl, rfl, rfl, rfl, rfl, rfl, rfl, rfl⟩

/-- Settles O4, by the strap APSEL. -/
theorem resetReleaseStartsUp : Obligations.ResetReleaseStartsUp := by
  intro s apsel cfgsel low
  have released : exec (.resetRelease apsel cfgsel) s =
      .next ({ s.quietPorts with resetN := true, link := .idle }.sampleStraps apsel cfgsel) := by
    change execResetRelease apsel cfgsel s = _
    rw [execResetRelease, if_neg (by rw [low]; decide)]
  rw [released]
  unfold State.sampleStraps
  exact ⟨fun h => by rw [if_pos h]; rfl, fun h => by rw [if_neg h]; rfl⟩

/-- Settles O5: SOFT_RESET by whether one is pending; REINITIALISATION with the ports drained. -/
theorem softResetWaitAndEnd : Obligations.SoftResetWaitAndEnd := by
  constructor
  · intro s b hl
    rw [exec_atStream _ b s .softReset (by simp) _ hl rfl rfl]
    by_cases pending : s.softResetPending = true
    · have taken : s.quietPorts.takeSoftReset = responds s [0x01#8] := by
        rw [State.takeSoftReset, if_pos (show s.quietPorts.softResetPending = true from pending)]; rfl
      refine ⟨_, congrArg _ taken, rfl, pending, ?_, ?_, fun _ => rfl, fun h => absurd pending (by rw [h]; decide)⟩
      · have : (responds s [0x01#8]).softResetPending = true := pending
        simp [State.repairStands, State.repairRequest, this]
      · exact if_pos pending
    · have taken : s.quietPorts.takeSoftReset = { responds s [0x01#8] with
          softResetPending := true, starvation := 0, load := s.load.map (fun l => { l with plan := [] }) } := by
        rw [State.takeSoftReset, if_neg (show ¬ s.quietPorts.softResetPending = true from pending)]; rfl
      refine ⟨_, congrArg _ taken, rfl, rfl, rfl, rfl, fun h => absurd h pending, fun _ => ⟨rfl, rfl, ?_, ?_⟩⟩
      · intro h; simp [h]
      · intro l h; exact ⟨{ l with plan := [] }, by simp [h], rfl, rfl, rfl⟩
  · intro s apsel cfgsel pending table orders
    have drained : s.portsDrained = true := by
      simp only [State.portsDrained, table, List.isEmpty_nil, Bool.true_and, List.all_eq_true, List.isEmpty_iff]
      intro l hl
      obtain ⟨i, hi, rfl⟩ := List.mem_iff_getElem.1 hl
      exact orders ⟨i, by simpa using hi⟩
    have began : exec (.reinitialisation apsel cfgsel) s = .next (s.reinitialised.sampleStraps apsel cfgsel) := by
      change execReinitialisation apsel cfgsel s = _
      rw [execReinitialisation, if_pos ⟨pending, drained⟩]
    have slots : ∀ st, s.reinitialised.stream st = StreamState.empty := reset_slots
    have silent : ∀ u : State, u.deviceFlags = 0#5 → (∀ st, u.stream st = StreamState.empty) → u.attnLow = false := by
      intro u hf hs
      rw [Bool.eq_false_iff, ne_eq, State.attnLow_iff]
      rintro ⟨-, h | ⟨st, h⟩⟩
      · exact h hf
      · rw [hs st] at h; exact h rfl
    refine ⟨_, began, ?_⟩
    unfold State.sampleStraps
    dsimp only
    by_cases h0 : apsel = 0#8
    · rw [if_pos h0]
      exact ⟨rfl, rfl, rfl, rfl, rfl, rfl, by rw [if_pos h0], fun _ => rfl, fun h => absurd h0 h, rfl, rfl, rfl, rfl, rfl, rfl,
        rfl, rfl, rfl, rfl, rfl, silent _ rfl slots, rfl, rfl, slots⟩
    · rw [if_neg h0]
      exact ⟨rfl, rfl, rfl, rfl, rfl, rfl, by rw [if_neg h0]; rfl, fun h => absurd h h0, fun _ => ⟨_, rfl, rfl, rfl⟩, rfl, rfl, rfl,
        rfl, rfl, rfl, rfl, rfl, rfl, rfl, rfl, silent _ rfl slots, rfl, rfl, slots⟩

end Sys2Proof.QueueAndResets

namespace Sys2Proof.ManagementLink

open Sys2Proof Sys2Proof.Machine Sys2Proof.Safety

/-- Settles O6, edge by edge and byte position by byte position. -/
theorem linkFramesAndBadArguments : Obligations.LinkFramesAndBadArguments := by
  refine ⟨fun s => ⟨fun hm hr => ?_, fun hm hr => ?_, rfl⟩, fun s b => ?_, fun s c b hl hc => ?_, fun s b sb => ?_⟩
  · change execFrameBegin s = _
    rw [execFrameBegin, if_pos hm, if_pos hr]; rfl
  · change execFrameBegin s = _
    rw [execFrameBegin, if_pos hm, if_neg (by rw [hr]; decide)]; rfl
  · have byte : exec (.byteComplete b) s = .next (s.quietPorts.byteCompletes b) := rfl
    rw [byte]
    refine ⟨fun hl => ?_, fun hl => ?_, fun c hc hl => ?_, fun r rest hl => ?_, fun hl => ?_⟩
    case refine_3 =>
      have argument : ∃ k, Decode.linkCommand c = some k ∧ Decode.hasArgument k = true := by
        clear hl; revert hc; revert c; decide
      obtain ⟨k, hk, ha⟩ := argument
      simp [State.byteCompletes, hl, hk, ha, State.linkMoves, State.quietPorts]
    all_goals simp [State.byteCompletes, hl, State.linkMoves, State.quietPorts]
  · rw [exec_byte _ b s (by simp)]
    simp only [State.byteCompletes, State.quietPorts_link, hl, linkCommand_unlisted c hc]
    rfl
  · refine ⟨fun hb hl => ?_, fun hb hl => ?_, fun hb hl => ?_, fun hb hl => ?_, fun hb hl => ?_, fun hb hl => ?_,
      fun hb hl => ?_, fun hb hd hl => ?_⟩
    · rw [exec_atStream _ b s .getStream (by simp) _ hl rfl rfl, State.takeAtStream, State.takeGetStream,
        streamOfByte_none b hb]; rfl
    · rw [exec_atStream _ b s .getPool (by simp) _ hl rfl rfl, State.takeAtStream, State.takeGetPool,
        streamOfByte_none b hb]; rfl
    · rw [exec_atStream _ b s .getReaders (by simp) _ hl rfl rfl, State.takeAtStream, State.takeGetReaders,
        streamOfByte_none b hb]; rfl
    · rw [exec_atStream _ b s .arm (by simp) _ hl rfl rfl, State.takeAtStream, State.takeArm, streamOfByte_none b hb]; rfl
    · rw [exec_atStream _ b s .disarm (by simp) _ hl rfl rfl, State.takeAtStream, State.takeDisarm,
        streamOfByte_none b hb]; rfl
    · rw [exec_atArgument _ b s .getCoverage (by simp) _ sb hl rfl, State.takeAtArgument, State.takeGetCoverage]
      split
      · rfl
      · rename_i named
        rw [if_pos (hb.resolve_left fun h => by rw [streamOfByte_none sb h] at named; cases named)]; rfl
    · rw [exec_atArgument _ b s .getCounters (by simp) _ sb hl rfl, State.takeAtArgument, State.takeGetCounters]
      split
      · rfl
      · rename_i named
        rw [if_pos (hb.resolve_left fun h => by rw [streamOfByte_none sb h] at named; cases named)]; rfl
    · rw [exec_atArgument _ b s .ackEvents (by simp) _ sb hl rfl, State.takeAtArgument, State.takeAckEvents, if_neg hd,
        streamOfByte_none sb hb]; rfl

/-- Settles O7, table by table. -/
theorem recordCodes : Obligations.RecordCodes :=
  ⟨by decide, by decide, ⟨rfl, fun _ => rfl, rfl⟩, by decide, ⟨rfl, fun _ => rfl, rfl, rfl⟩, by decide, by decide, by decide,
    by decide, by decide, by decide, by decide, by decide, by decide⟩

/-- Settles O8: the answers are the snapshots, whose bytes are those of Tables 11-12 and 11-13. -/
theorem deviceAndStreamSnapshot : Obligations.DeviceAndStreamSnapshot := by
  refine ⟨fun s b hl => ?_, fun s b st hl hb => ?_⟩
  · rw [exec_atStream _ b s .getDevice (by simp) _ hl rfl rfl, State.takeAtStream, State.takeGetDevice, State.respond_quiet,
      State.deviceSnapshot_eq]
    rfl
  · rw [exec_atStream _ b s .getStream (by simp) _ hl rfl rfl, State.takeAtStream, State.takeGetStream,
      streamOfByte_some b st hb]
    dsimp only
    rw [State.respond_quiet, State.quietPorts_stream, StreamState.snapshot_eq]
    rfl

/-- Settles O9: the answers list the entries of Tables 11-14 and 11-15. -/
theorem poolAndReadersSnapshot : Obligations.PoolAndReadersSnapshot := by
  refine ⟨fun s b st hl hb => ⟨?_, ?_⟩, fun s b st hl hb => ?_⟩
  · rw [exec_atStream _ b s .getPool (by simp) _ hl rfl rfl, State.takeAtStream, State.takeGetPool,
      streamOfByte_some b st hb]
    dsimp only
    rw [State.respond_quiet, State.quietPorts_stream, StreamState.poolSnapshot]
    have entries : (s.stream st).bufs.flatMap Buf.snapshot = ((s.stream st).bufs.map poolEntryBytes).flatten := by
      rw [List.flatMap_def]; exact congrArg _ (List.map_congr_left fun b _ => b.snapshot_eq)
    have queue : (s.stream st).ready.flatMap byte = (s.stream st).ready.map one := by
      rw [show byte = fun n => [one n] from funext byte_one, List.map_eq_flatMap]
    rw [entries, queue, byte_one, byte_one]
    simp only [List.cons_append, List.nil_append, List.append_assoc]
    rfl
  · simp [List.length_flatten, Function.comp_def, poolEntryBytes_length, Nat.mul_comm]
  · have taken : exec (.getReaders b) s = .next (responds s (0x01#8 :: (s.stream st).readersSnapshot s.time.toNat)) := by
      rw [exec_atStream _ b s .getReaders (by simp) _ hl rfl rfl, State.takeAtStream, State.takeGetReaders,
        streamOfByte_some b st hb]
      rfl
    rw [taken]
    unfold StreamState.readersSnapshot
    refine ⟨fun r0 r1 hr => ?_, fun hr => ?_⟩
    · simp [hr, Reader.snapshot_eq]
    · simp only [hr]; rfl

/-- Settles O10: the flags of the coverage bytes, the counters in their order, and one advance by whether it is at FFFFh. -/
theorem coverageAndCounters : Obligations.CoverageAndCounters := by
  refine ⟨fun s b sb st hl hs hb => ?_, fun s b sb st hl hs hb => ?_, fun c => ⟨fun h => ?_, rfl⟩⟩
  · have taken : exec (.getCoverage b) s = .next (match (s.stream st).bufs[b.toNat]? with
        | some r => responds s (0x01#8 :: r.coverageSnapshot)
        | none => responds s [0x04#8]) := by
      rw [exec_atArgument _ b s .getCoverage (by simp) _ sb hl rfl, State.takeAtArgument, State.takeGetCoverage,
        streamOfByte_some sb st hs]
      dsimp only
      rw [if_neg (by omega), State.quietPorts_stream]
      cases (s.stream st).bufs[b.toNat]? <;> rfl
    rw [taken]
    refine ⟨fun h => by rw [h], fun r h => ⟨r.coverageSnapshot, by rw [h], by simp [Buf.coverageSnapshot], fun n hn => ?_⟩⟩
    exact getLsbD_coverageSnapshot r n hn
  · have taken : exec (.getCounters b) s = .next ((if b = 1#8 then
          s.quietPorts.onStream st (fun x => { x with counters := Counters.zero }) else s.quietPorts).respond .done
          (s.stream st).counters.snapshot) := by
      rw [exec_atArgument _ b s .getCounters (by simp) _ sb hl rfl, State.takeAtArgument, State.takeGetCounters,
        streamOfByte_some sb st hs]
      dsimp only
      rw [if_neg (by omega), State.quietPorts_stream]
      split <;> rfl
    refine ⟨_, taken, ?_⟩
    rw [Counters.snapshot_eq]
    split
    · refine ⟨rfl, rfl, fun k hk => ?_, ?_⟩
      · rw [State.respond_stream, State.stream_onStream_ne _ _ _ _ hk]; rfl
      · rw [State.respond_stream, State.stream_onStream]; rfl
    · exact ⟨rfl, rfl, fun _ _ => rfl, rfl⟩
  · rw [advance16, if_neg h]
    bv_omega

end Sys2Proof.ManagementLink

namespace Sys2Proof.StreamLifecycle

open Sys2Proof Sys2Proof.Machine Sys2Proof.Safety

/-- Settles O14: DISARM condition by condition of R172, RELOAD by whether R175 lets it be taken. -/
theorem disarmAndReloadByTable : Obligations.DisarmAndReloadByTable := by
  refine ⟨fun s b st hl hb => ?_, fun s b hl => ?_⟩
  · have taken : exec (.disarm b) s = .next ((if (s.disarmDecision st).2 then
        s.quietPorts.onStream st (fun x => { x with armRequest := false }.beginTeardown) else s.quietPorts).respond
        (s.disarmDecision st).1 []) := by
      rw [exec_atStream _ b s .disarm (by simp) _ hl rfl rfl, State.takeAtStream, State.takeDisarm, streamOfByte_some b st hb]
      rfl
    rw [taken, State.disarmDecision_eq]
    split_ifs <;> first | contradiction | rfl
  · have taken : exec (.reload b) s = .next (if s.reloadTaken then
        ({ s.quietPorts with reloadInProgress := true }.startLoad .reload).respond .done [] else
        s.quietPorts.respond .busy []) := by
      rw [exec_atStream _ b s .reload (by simp) _ hl rfl rfl]
      rfl
    rw [taken]
    simp only [State.reloadTaken_iff, ite_not]
    rfl

end Sys2Proof.StreamLifecycle
end

section
/-! PROOF. Classification (Chapter 6, R137 to R140): the windows an address lies in and their order, the regions and the class of an
access to a window, the guard, and when the port takes. -/
set_option Elab.async false

namespace Sys2Proof.Machine

open Sys2Proof Sys2Proof.Safety

/-! ### The first of an ascending list -/

/-- Of an ascending list of streams the first that has an answer is the lowest that has one. -/
theorem findSome?_lowest {α : Type} (f : StreamId → Option α) (a : α) :
    ∀ l : List StreamId, l.Pairwise (· < ·) → l.findSome? f = some a →
      ∃ st ∈ l, f st = some a ∧ ∀ k ∈ l, (f k).isSome = true → st.val ≤ k.val := by
  intro l
  induction l with
  | nil => intro _ h; cases h
  | cons x l ih =>
    intro hl h
    obtain ⟨hx, hl⟩ := List.pairwise_cons.1 hl
    rw [List.findSome?_cons] at h
    cases hf : f x with
    | some b =>
      rw [hf] at h
      refine ⟨x, List.mem_cons_self, hf.trans h, fun k hk _ => ?_⟩
      rcases List.mem_cons.1 hk with rfl | hk
      · exact Nat.le_refl _
      · exact Nat.le_of_lt (hx k hk)
    | none =>
      rw [hf] at h
      obtain ⟨st, hst, hs, least⟩ := ih hl h
      refine ⟨st, List.mem_cons_of_mem _ hst, hs, fun k hk hp => ?_⟩
      rcases List.mem_cons.1 hk with rfl | hk
      · rw [hf] at hp; cases hp
      · exact least k hk hp

theorem allStreams_ascending : allStreams.Pairwise (· < ·) := by decide

/-- The stream that a search of all slots finds is the lowest that passes. -/
theorem allStreams_find_iff (p : StreamId → Bool) (st : StreamId) :
    allStreams.find? p = some st ↔ p st = true ∧ ∀ k, p k = true → st.val ≤ k.val := by
  have lowest : ∀ st', allStreams.find? p = some st' → p st' = true ∧ ∀ k, p k = true → st'.val ≤ k.val := by
    intro st' h
    rw [List.find?_eq_findSome?_guard] at h
    obtain ⟨x, -, hx, least⟩ := findSome?_lowest _ st' allStreams allStreams_ascending h
    obtain ⟨rfl, hp⟩ := Option.guard_eq_some_iff.1 hx
    exact ⟨hp, fun k hk => least k (mem_allStreams k) (by simp [Option.guard, hk])⟩
  refine ⟨lowest st, fun ⟨hp, least⟩ => ?_⟩
  have found : (allStreams.find? p).isSome = true := List.find?_isSome.2 ⟨st, mem_allStreams st, hp⟩
  obtain ⟨st', h⟩ := Option.isSome_iff_exists.1 found
  obtain ⟨hp', least'⟩ := lowest st' h
  rw [h, Fin.ext (Nat.le_antisymm (least' st hp) (least st' hp'))]

/-! ### The window match of an address (R118) -/

/-- The streams in the order in which their windows are looked at: DRAINING ones first (R118; log 35). -/
def State.windowOrder (s : State) : List StreamId :=
  allStreams.filter (fun st => (s.stream st).life == .draining) ++
    allStreams.filter (fun st => (s.stream st).life != .draining)

theorem State.windowAt_eq (s : State) (a : Nat) : s.windowAt a = s.windowOrder.findSome? (s.matchIn a) := rfl

theorem State.mem_windowOrder (s : State) (st : StreamId) : st ∈ s.windowOrder := by
  rw [State.windowOrder, List.mem_append, List.mem_filter, List.mem_filter]
  cases h : (s.stream st).life == .draining
  · exact .inr ⟨mem_allStreams st, by simp [bne, h]⟩
  · exact .inl ⟨mem_allStreams st, rfl⟩

theorem State.windowAt_none_iff (s : State) (a : Nat) : s.windowAt a = none ↔ ∀ st, s.matchIn a st = none := by
  rw [State.windowAt_eq, List.findSome?_eq_none_iff]
  exact ⟨fun h st => h st (s.mem_windowOrder st), fun h st _ => h st⟩

theorem State.windowAt_some (s : State) (a : Nat) (m : Match) (h : s.windowAt a = some m) :
    s.matchIn a m.stream = some m ∧
      (∀ st, (s.stream st).life = .draining → (s.matchIn a st).isSome = true →
        (s.stream m.stream).life = .draining ∧ m.stream.val ≤ st.val) ∧
      (∀ st, (s.matchIn a st).isSome = true → (s.stream m.stream).life = .draining ∨ m.stream.val ≤ st.val) := by
  rw [State.windowAt_eq, State.windowOrder, List.findSome?_append] at h
  have ascending : ∀ p : StreamId → Bool, (allStreams.filter p).Pairwise (· < ·) :=
    fun p => allStreams_ascending.sublist List.filter_sublist
  cases first : (allStreams.filter fun st => (s.stream st).life == .draining).findSome? (s.matchIn a) with
  | some m' =>
    obtain rfl : m' = m := by rw [first] at h; exact Option.some.inj h
    obtain ⟨st, hst, hm, least⟩ := findSome?_lowest _ _ _ (ascending _) first
    obtain rfl := s.matchIn_stream a st m' hm
    have drains : (s.stream m'.stream).life = .draining := eq_of_beq (List.mem_filter.1 hst).2
    exact ⟨hm, fun k hk hs => ⟨drains, least k (List.mem_filter.2 ⟨mem_allStreams k, beq_iff_eq.2 hk⟩) hs⟩,
      fun _ _ => .inl drains⟩
  | none =>
    rw [first, Option.none_or] at h
    obtain ⟨st, hst, hm, least⟩ := findSome?_lowest _ _ _ (ascending _) h
    obtain rfl := s.matchIn_stream a st m hm
    have noneDrains : ∀ k, (s.stream k).life = .draining → (s.matchIn a k).isSome ≠ true := by
      intro k hk hs
      rw [List.findSome?_eq_none_iff.1 first k (List.mem_filter.2 ⟨mem_allStreams k, beq_iff_eq.2 hk⟩)] at hs
      cases hs
    refine ⟨hm, fun k hk hs => absurd hs (noneDrains k hk), fun k hs => .inr (least k (List.mem_filter.2 ⟨mem_allStreams k, ?_⟩) hs)⟩
    exact bne_iff_ne.2 fun hk => noneDrains k hk hs

theorem Windows.covers_iff (w : Windows) (base a : Nat) : w.covers base a = true ↔ base ≤ a ∧ a < base + w.size := by
  rw [Windows.covers, Bool.and_eq_true, decide_eq_true_iff, decide_eq_true_iff]

theorem State.matchIn_unmapped (s : State) (a : Nat) (st : StreamId) (h : (s.stream st).windows = none) :
    s.matchIn a st = none := by
  rw [State.matchIn, h]

theorem State.matchIn_mapped (s : State) (a : Nat) (st : StreamId) (w : Windows) (h : (s.stream st).windows = some w) :
    s.matchIn a st = if w.covers w.capture.toNat a = true then some { stream := st, kind := .capture, entry := w }
      else if w.covers w.presentation.toNat a = true then some { stream := st, kind := .presentation, entry := w }
      else none := by
  rw [State.matchIn, h]

/-! ### Aperture, offsets and regions (R116, R119, R126) -/

theorem State.inAperture_iff (s : State) (a : Nat) :
    s.inAperture a = true ↔ s.apsel.toNat * 2 ^ 28 ≤ a ∧ a < (s.apsel.toNat + 1) * 2 ^ 28 := by
  have size : Config.apertureSize = 2 ^ 28 := by decide
  rw [State.inAperture, Bool.and_eq_true, decide_eq_true_iff, decide_eq_true_iff, State.apertureBase, size, Nat.succ_mul]

theorem Match.base_eq (m : Match) :
    m.base = if m.kind = .capture then m.entry.capture.toNat else m.entry.presentation.toNat := by
  unfold Match.base; cases m.kind <;> rfl

theorem Match.crossesRegion_iff (m : Match) (t : Txn) : m.crossesRegion t = true ↔
    m.entry.region (m.offset t.address.toNat) ≠ m.entry.region (m.offset (t.address.toNat + t.length - 1)) :=
  bne_iff_ne

theorem Windows.region_iff (w : Windows) (o : Nat) :
    (w.region o = .line ↔ o < w.lines * w.pitch) ∧
    (w.region o = .excess ↔ w.lines * w.pitch ≤ o ∧ o < w.size - 64) ∧
    (w.region o = .mark ↔ w.lines * w.pitch ≤ o ∧ w.size - 64 ≤ o) := by
  have mark : Config.markSize = 64 := rfl
  rw [Windows.region, mark]
  split_ifs with line excess <;> simp <;> omega

theorem Windows.slotOf_iff (w : Windows) (i : Initiator) :
    (w.slotOf i = some 0 ↔ w.reader0.valid = true ∧ w.reader0.id = i) ∧
    (w.slotOf i = some 1 ↔ ¬ (w.reader0.valid = true ∧ w.reader0.id = i) ∧ w.reader1.valid = true ∧ w.reader1.id = i) ∧
    (w.slotOf i = none ↔
      ¬ (w.reader0.valid = true ∧ w.reader0.id = i) ∧ ¬ (w.reader1.valid = true ∧ w.reader1.id = i)) := by
  unfold Windows.slotOf
  split_ifs with slot0 slot1
  · simp [slot0]
  · simp [slot0, slot1]
  · exact ⟨⟨nofun, fun h => absurd h slot0⟩, ⟨nofun, fun h => absurd h.2 slot1⟩, fun _ => ⟨slot0, slot1⟩, fun _ => rfl⟩

/-! ### Checks 4 and 5 of R120 -/

section
variable (s : State) (t : Txn) (m : Match)

theorem State.classifyWindow_dormantCapture (hk : m.kind = .capture) (hi : t.initiator = m.entry.producer)
    (hl : (s.stream m.stream).life ≠ .active) :
    s.classifyWindow t m = classifyDormantCapture m.stream m.entry (m.offset t.address.toNat) t.body := by
  have dormant : ((s.stream m.stream).life == .active) = false := beq_eq_false_iff_ne.2 hl
  unfold State.classifyWindow
  rw [hk, dormant]; dsimp only
  rw [if_neg (by simpa using hi), if_neg (by decide)]

theorem State.classifyWindow_dormantPresentation (k : ReaderSlot) (n : Nat) (hk : m.kind = .presentation)
    (hs : m.entry.slotOf t.initiator = some k) (hb : t.body = .read n) (hl : (s.stream m.stream).life ≠ .active) :
    s.classifyWindow t m = classifyDormantPresentation m.stream k m.entry (m.offset t.address.toNat) n := by
  have dormant : ((s.stream m.stream).life == .active) = false := beq_eq_false_iff_ne.2 hl
  unfold State.classifyWindow
  rw [hk, dormant, hs, hb]; dsimp only
  rw [if_neg (by decide)]

/-- Only the producer reaches a capture window (R124). -/
theorem State.classifyWindow_notProducer (hk : m.kind = .capture) (hi : t.initiator ≠ m.entry.producer) :
    s.classifyWindow t m = .refuse .notOwner (some m.stream) := by
  unfold State.classifyWindow
  rw [hk]; dsimp only
  rw [if_pos hi]

/-- Only a valid reader reaches a presentation window (R126). -/
theorem State.classifyWindow_notReader (hk : m.kind = .presentation) (hs : m.entry.slotOf t.initiator = none) :
    s.classifyWindow t m = .refuse .notOwner (some m.stream) := by
  unfold State.classifyWindow
  rw [hk, hs]

theorem State.classifyWindow_readerWrites (k : ReaderSlot) (d : List Byte) (hk : m.kind = .presentation)
    (hs : m.entry.slotOf t.initiator = some k) (hb : t.body = .write d) :
    s.classifyWindow t m = .refuse .writeToPresentation (some m.stream) := by
  unfold State.classifyWindow
  rw [hk, hs, hb]

end

section
variable (st : StreamId) (w : Windows) (a k : Nat) (hr : w.region a = .mark) (ha : a = w.size - 64 + k)
include hr ha

/-- A write to the mark slot of a dormant capture window: a close dropped, or misuse (R127). -/
theorem classifyDormantCapture_mark_write (d : List Byte) : classifyDormantCapture st w a (.write d) =
    if k = 0 ∧ d.length = 32 ∧ d.head? = some 0x43#8 then .dormantDrop st else .refuse .markMisuse (some st) := by
  unfold classifyDormantCapture
  rw [hr]
  simp only [isClose_iff w a k d (w.markOffset_of a k ha)]

/-- A read of the mark slot of a dormant capture window: the dormant record, or misuse (R127). -/
theorem classifyDormantCapture_mark_read (n : Nat) : classifyDormantCapture st w a (.read n) =
    if k = 0 ∧ n = 32 then .dormantStatus st else .refuse .markMisuse (some st) := by
  unfold classifyDormantCapture
  rw [hr]
  dsimp only
  rw [w.markOffset_of a k ha]

/-- A read of the mark slot of a dormant presentation window (R128). -/
theorem classifyDormantPresentation_mark (r : ReaderSlot) (n : Nat) : classifyDormantPresentation st r w a n =
    if (k = 0 ∨ k = 32) ∧ n = 32 then .dormantPresentationRecord st r else .refuse .markMisuse (some st) := by
  unfold classifyDormantPresentation
  rw [hr]
  dsimp only
  rw [w.markOffset_of a k ha]

end

section
variable (s : State) (t : Txn) (m : Match) (o : Nat) (ho : m.offset t.address.toNat = o)
include ho

/-- The class of a producer's write to its capture window, by region (R32, R35, R127). -/
theorem State.class_capture_write (hk : m.kind = .capture) (hi : t.initiator = m.entry.producer) (d : List Byte)
    (hb : t.body = .write d) :
    (m.entry.region o = .line →
      ((s.stream m.stream).life = .active → s.classifyWindow t m = .lineWrite m.stream o) ∧
      (¬ (s.stream m.stream).life = .active → s.classifyWindow t m = .dormantDrop m.stream)) ∧
    (m.entry.region o = .excess →
      ((s.stream m.stream).life = .active → s.classifyWindow t m = .excessWrite m.stream) ∧
      (¬ (s.stream m.stream).life = .active → s.classifyWindow t m = .dormantDrop m.stream)) ∧
    (∀ k, o = m.entry.size - 64 + k → m.entry.region o = .mark → ¬ (s.stream m.stream).life = .active →
      (k = 0 ∧ d.length = 32 ∧ d.head? = some 0x43#8 → s.classifyWindow t m = .dormantDrop m.stream) ∧
      (¬ (k = 0 ∧ d.length = 32 ∧ d.head? = some 0x43#8) →
        s.classifyWindow t m = .refuse .markMisuse (some m.stream))) := by
  refine ⟨fun hr => ⟨fun hl => ?_, fun hl => ?_⟩, fun hr => ⟨fun hl => ?_, fun hl => ?_⟩, fun k ha hr hl => ?_⟩
  · rw [s.classifyWindow_capture t m hk hi hl, hb, ho]; unfold classifyCapture; rw [hr]
  · rw [s.classifyWindow_dormantCapture t m hk hi hl, hb, ho]; unfold classifyDormantCapture; rw [hr]
  · rw [s.classifyWindow_capture t m hk hi hl, hb, ho]; unfold classifyCapture; rw [hr]
  · rw [s.classifyWindow_dormantCapture t m hk hi hl, hb, ho]; unfold classifyDormantCapture; rw [hr]
  · rw [s.classifyWindow_dormantCapture t m hk hi hl, hb, ho, classifyDormantCapture_mark_write _ _ _ k hr ha]
    exact ⟨fun h => if_pos h, fun h => if_neg h⟩

/-- The class of a producer's read of its capture window, by region (R36 to R38, R127). -/
theorem State.class_capture_read (hk : m.kind = .capture) (hi : t.initiator = m.entry.producer) (n : Nat)
    (hb : t.body = .read n) :
    (m.entry.region o = .line →
      ((s.stream m.stream).life = .active → s.classifyWindow t m = .captureLineRead m.stream o m.entry.fill) ∧
      (¬ (s.stream m.stream).life = .active → s.classifyWindow t m = .dormantCaptureFill m.stream m.entry.fill)) ∧
    (m.entry.region o = .excess →
      ((s.stream m.stream).life = .active → s.classifyWindow t m = .captureExcessRead m.stream m.entry.fill) ∧
      (¬ (s.stream m.stream).life = .active → s.classifyWindow t m = .dormantCaptureFill m.stream m.entry.fill)) ∧
    (∀ k, o = m.entry.size - 64 + k → m.entry.region o = .mark → ¬ (s.stream m.stream).life = .active →
      (k = 0 ∧ n = 32 → s.classifyWindow t m = .dormantStatus m.stream) ∧
      (¬ (k = 0 ∧ n = 32) → s.classifyWindow t m = .refuse .markMisuse (some m.stream))) := by
  refine ⟨fun hr => ⟨fun hl => ?_, fun hl => ?_⟩, fun hr => ⟨fun hl => ?_, fun hl => ?_⟩, fun k ha hr hl => ?_⟩
  · rw [s.classifyWindow_capture t m hk hi hl, hb, ho]; unfold classifyCapture; rw [hr]
  · rw [s.classifyWindow_dormantCapture t m hk hi hl, hb, ho]; unfold classifyDormantCapture; rw [hr]
  · rw [s.classifyWindow_capture t m hk hi hl, hb, ho]; unfold classifyCapture; rw [hr]
  · rw [s.classifyWindow_dormantCapture t m hk hi hl, hb, ho]; unfold classifyDormantCapture; rw [hr]
  · rw [s.classifyWindow_dormantCapture t m hk hi hl, hb, ho, classifyDormantCapture_mark_read _ _ _ k hr ha]
    exact ⟨fun h => if_pos h, fun h => if_neg h⟩

/-- The class of a valid reader's read of a presentation window, by region (R86, R87, R128). -/
theorem State.class_presentation_read (hk : m.kind = .presentation) (r : ReaderSlot) (n : Nat)
    (hs : m.entry.slotOf t.initiator = some r) (hb : t.body = .read n) :
    (m.entry.region o = .line →
      ((s.stream m.stream).life = .active → s.classifyWindow t m = .presentationLineRead m.stream r o m.entry.fill) ∧
      (¬ (s.stream m.stream).life = .active →
        s.classifyWindow t m = .dormantPresentationFill m.stream r m.entry.fill)) ∧
    (m.entry.region o = .excess →
      ((s.stream m.stream).life = .active → s.classifyWindow t m = .presentationExcessRead m.stream r m.entry.fill) ∧
      (¬ (s.stream m.stream).life = .active →
        s.classifyWindow t m = .dormantPresentationFill m.stream r m.entry.fill)) ∧
    (∀ k, o = m.entry.size - 64 + k → m.entry.region o = .mark → ¬ (s.stream m.stream).life = .active →
      ((k = 0 ∨ k = 32) ∧ n = 32 → s.classifyWindow t m = .dormantPresentationRecord m.stream r) ∧
      (¬ ((k = 0 ∨ k = 32) ∧ n = 32) → s.classifyWindow t m = .refuse .markMisuse (some m.stream))) := by
  refine ⟨fun hr => ⟨fun hl => ?_, fun hl => ?_⟩, fun hr => ⟨fun hl => ?_, fun hl => ?_⟩, fun k ha hr hl => ?_⟩
  · rw [s.classifyWindow_presentation t m r n hk hs hb hl, ho]; unfold classifyPresentation; rw [hr]
  · rw [s.classifyWindow_dormantPresentation t m r n hk hs hb hl, ho]; unfold classifyDormantPresentation; rw [hr]
  · rw [s.classifyWindow_presentation t m r n hk hs hb hl, ho]; unfold classifyPresentation; rw [hr]
  · rw [s.classifyWindow_dormantPresentation t m r n hk hs hb hl, ho]; unfold classifyDormantPresentation; rw [hr]
  · rw [s.classifyWindow_dormantPresentation t m r n hk hs hb hl, ho, classifyDormantPresentation_mark _ _ _ k hr ha]
    exact ⟨fun h => if_pos h, fun h => if_neg h⟩

end

/-! ### The checks of R120 in their order -/

section
variable (s : State) (t : Txn)

theorem State.classify_transparent (h : s.device = .transparent) : s.classify t = .forward := by
  rw [State.classify, if_pos h]

/-- What R121 refuses: a transaction that leaves its 4 KiB block, the address space, or its region. -/
def State.crosses : Bool := Txn.crossesPage t || (s.matchOf t).any (fun m => m.crossesRegion t)

theorem State.crosses_iff : s.crosses t = true ↔
    (t.address.toNat / 4096 ≠ (t.address.toNat + t.length - 1) / 4096 ∨ 2 ^ 40 < t.address.toNat + t.length
      ∨ ∃ m, s.matchOf t = some m ∧ m.crossesRegion t = true) := by
  rw [State.crosses, Bool.or_eq_true, Txn.crossesPage_iff, or_assoc, Option.any_eq_true]

theorem State.classify_crosses (hd : s.device ≠ .transparent) (h : s.crosses t = true) :
    s.classify t = .refuse .crossing ((s.matchOf t).map (·.stream)) := by
  rw [State.classify, if_neg hd]
  exact if_pos h

theorem State.matchOf_inside (h : s.inAperture t.address.toNat = true) : s.matchOf t = s.windowAt t.address.toNat :=
  if_pos h

theorem State.classify_outside (hd : s.device ≠ .transparent) (hc : ¬ s.crosses t = true)
    (h : s.inAperture t.address.toNat = false) :
    s.classify t = match s.guardHit t with
      | some st => .refuse .guardedWrite (some st)
      | none => .forward := by
  rw [State.classify, if_neg hd]
  refine (if_neg hc).trans ((if_neg (by rw [h]; decide)).trans ?_)
  cases s.guardHit t <;> rfl

theorem State.classify_inside (hd : s.device ≠ .transparent) (hc : ¬ s.crosses t = true)
    (h : s.inAperture t.address.toNat = true) :
    s.classify t = match s.windowAt t.address.toNat with
      | some m => s.classifyWindow t m
      | none => .refuse (if s.device = .loading then .notReady else .unmapped) none := by
  rw [State.classify, if_neg hd]
  refine (if_neg hc).trans ((if_pos h).trans ?_)
  have window := State.matchOf_inside s t h
  cases found : s.windowAt t.address.toNat with
  | none => rw [window.trans found]
  | some m => rw [window.trans found]

end

/-! ### The guard (R123) -/

theorem StreamState.guardedWrite_iff (x : StreamState) (a n : Nat) :
    x.guardedWrite a n = true ↔ x.life = .active ∧ Decode.guards x.desc = true ∧
      ∃ b ∈ x.bufs, ∃ y, a ≤ y ∧ y < a + n ∧ b.base.toNat * 4096 ≤ y ∧
        y < b.base.toNat * 4096 + Decode.lines x.desc * Decode.pitch x.desc := by
  rw [StreamState.guardedWrite, Bool.and_eq_true, Bool.and_eq_true, beq_iff_eq, List.any_eq_true, and_assoc]
  simp only [overlap_iff]
  exact Iff.rfl

theorem State.guardHit_write (s : State) (t : Txn) (d : List Byte) (h : t.body = .write d) :
    s.guardHit t = allStreams.find? (fun st => (s.stream st).guardedWrite t.address.toNat d.length) := by
  rw [State.guardHit, Txn.length, h]
  rfl

/-! ### The port (R140) -/

/-- Every upstream command offers its transaction to the port (log 5). -/
theorem exec_upstream (s : State) (t : Txn) : ∀ c ∈ [Instr.passThrough t, .lineAreaWrite t, .excessWrite t, .captureRead t,
    .close t, .captureStatusRead t, .claim t, .peek t, .presentationLineRead t, .dormantCaptureAccess t,
    .dormantPresentationAccess t, .accessRefusal t], exec c s = s.offered t (State.takeAny t) := by
  simp only [List.mem_cons, List.not_mem_nil, or_false]
  rintro c (rfl | rfl | rfl | rfl | rfl | rfl | rfl | rfl | rfl | rfl | rfl | rfl)
  · exact execPassThrough_any t s
  · exact execLineAreaWrite_any t s
  · exact execExcessWrite_any t s
  · exact execCaptureRead_any t s
  · exact execClose_any t s
  · exact execCaptureStatusRead_any t s
  · exact execClaim_any t s
  · exact execPeek_any t s
  · exact execPresentationLineRead_any t s
  · exact execDormantCaptureAccess_any t s
  · exact execDormantPresentationAccess_any t s
  · exact execAccessRefusal_any t s

end Sys2Proof.Machine

namespace Sys2Proof.Classification

open Sys2Proof Sys2Proof.Machine Sys2Proof.Safety

/-- Settles O15, check by check in the order of R120. -/
theorem classificationOrder : Obligations.ClassificationOrder := by
  intro s t
  refine ⟨s.classify_transparent t, fun hd => ⟨fun h => s.classify_crosses t hd ((s.crosses_iff t).2 h),
    fun page top region => ?_⟩⟩
  have hc : ¬ s.crosses t = true := by
    rw [State.crosses_iff]
    rintro (h | h | ⟨m, hm, h⟩)
    · exact h page
    · omega
    · rw [region m hm] at h; cases h
  refine ⟨fun outside => ?_, fun inside => ?_⟩
  · rw [s.classify_outside t hd hc outside]
    exact ⟨fun st h => by rw [h], fun h => by rw [h]⟩
  · have window : ∀ m, s.windowAt t.address.toNat = some m → s.classify t = s.classifyWindow t m :=
      fun m hm => by rw [s.classify_inside t hd hc inside, hm]
    refine ⟨fun h => by rw [s.classify_inside t hd hc inside, h], window, fun m hm hk hi => ?_, fun m hm hk hs => ?_,
      fun m k d hm hk hs hb => ?_⟩
    · rw [window m hm, s.classifyWindow_notProducer t m hk hi]
    · rw [window m hm, s.classifyWindow_notReader t m hk hs]
    · rw [window m hm, s.classifyWindow_readerWrites t m k d hk hs hb]

/-- Settles O16, by the order in which the slots are looked at and by the two windows of one slot. -/
theorem windowPrecedence : Obligations.WindowPrecedence := by
  intro s a
  refine ⟨s.windowAt_none_iff a, s.windowAt_some a, s.matchIn_unmapped a, fun st w hw => ?_⟩
  rw [s.matchIn_mapped a st w hw]
  simp only [Windows.covers_iff]
  exact ⟨fun h => if_pos h, fun h h' => by rw [if_neg h, if_pos h'], fun h h' => by rw [if_neg h, if_neg h']⟩

/-- Settles O17: aperture, entry, offset, regions and slots one by one, then the class by window and direction. -/
theorem windowClasses : Obligations.WindowClasses := by
  refine ⟨State.inAperture_iff, fun _ _ => rfl, ?_, ?_, Windows.region_iff, Windows.slotOf_iff, fun s t m o ho => ?_⟩
  · rintro d w rfl
    exact ⟨rfl, rfl, rfl, rfl, rfl, rfl, rfl, rfl, rfl, rfl⟩
  · rintro m t o last rfl rfl
    rw [Match.crossesRegion_iff, Match.offset, Match.offset, Match.base_eq]
    exact ⟨rfl, Iff.rfl⟩
  · exact ⟨fun hk hi => ⟨s.class_capture_write t m o ho hk hi, s.class_capture_read t m o ho hk hi⟩,
      fun hk r n => s.class_presentation_read t m o ho hk r n⟩

/-- Settles O18: what the guard looks for is what it meets, and the search finds the lowest. -/
theorem guardHits : Obligations.GuardHits := by
  intro s t
  refine ⟨fun n h => by rw [State.guardHit, h], fun d h meets hmeets => ?_⟩
  have same : ∀ st, meets st ↔ (s.stream st).guardedWrite t.address.toNat d.length = true :=
    fun st => (hmeets st).trans ((s.stream st).guardedWrite_iff _ _).symm
  simp only [same, s.guardHit_write t d h]
  refine ⟨?_, allStreams_find_iff _⟩
  rw [List.find?_isSome]
  exact ⟨fun ⟨st, _, hst⟩ => ⟨st, hst⟩, fun ⟨st, hst⟩ => ⟨st, mem_allStreams st, hst⟩⟩

/-- Settles O19: the port's condition wait by wait, and an offer in a wait, whatever the command. -/
theorem portTakesAtPassGrant : Obligations.PortTakesAtPassGrant := by
  refine ⟨fun s i => ?_, fun s t hw h c hc => ?_⟩
  · have loader := not_congr s.loaderEligible_iff
    have relief := not_congr (s.reliefDue_iff.trans (and_congr_right' s.repairEligible_iff))
    rw [Bool.not_eq_true] at loader relief
    rw [State.mayTake_iff, State.passEligible_iff, loader, relief]
    simp only [and_assoc]
  · rw [exec_upstream s t c hc, State.offered_waiting s t _ hw h]
    rfl

end Sys2Proof.Classification
end

section
/-! PROOF. The taking of upstream transactions (Chapters 1, 2, 4 and 6): forwarding, refusal, frame start, line and excess writes,
capture and presentation reads, and the dormant windows. -/
set_option Elab.async false

namespace Sys2Proof.Machine

open Sys2Proof Sys2Proof.Safety

/-! ### A taken transaction (R120, R140) -/

/-- Whatever command brings a transaction that the port takes, its class decides what is done (log 5). -/
theorem exec_taken (s : State) (t : Txn) (h : Takes s t) (c : Instr) (hc : c ∈ [Instr.passThrough t, .lineAreaWrite t,
    .excessWrite t, .captureRead t, .close t, .captureStatusRead t, .claim t, .peek t, .presentationLineRead t,
    .dormantCaptureAccess t, .dormantPresentationAccess t, .accessRefusal t]) (k : Class) (hk : s.classify t = k) :
    exec c s = s.accepting.takeAs t k := by
  rw [exec_upstream s t c hc, State.offered_takeAny s t h, hk]

/-- A transaction answered from the state of the acceptance, slots changed or not. -/
theorem State.answer_taken (s : State) (streams : Vector StreamState 8) (t : Txn) (status : Status) (d : List Byte) :
    Answered s (State.answer { s.accepting with streams := streams } t status d) t status d :=
  State.answer_spec s _ t status d rfl rfl

theorem State.acknowledge_taken (s : State) (streams : Vector StreamState 8) (t : Txn) :
    Answered s (State.acknowledge { s.accepting with streams := streams } t) t .okay [] :=
  State.answer_spec s _ t .okay [] rfl rfl

/-- An acknowledgement after a change of one slot changes nothing else but pins and order lists. -/
theorem State.acknowledged_onStream (s : State) (st : StreamId) (f : StreamState → StreamState) (t : Txn) :
    Answered s ((s.accepting.onStream st f).acknowledge t) t .okay [] ∧
      PortAndStreams s ((s.accepting.onStream st f).acknowledge t) ∧
      OnlyStream s ((s.accepting.onStream st f).acknowledge t) st ∧
      ((s.accepting.onStream st f).acknowledge t).stream st = f (s.stream st) :=
  ⟨s.acknowledge_taken _ t, rfl,
    fun _ hk => (State.acknowledge_stream _ _ _).trans (State.stream_onStream_ne _ _ _ _ hk),
    (State.acknowledge_stream _ _ _).trans (State.stream_onStream _ _ _)⟩

/-- A transaction forwarded after a change of one slot that leaves its descriptor in force. -/
theorem State.forwarded_onStream (s : State) (st : StreamId) (f : StreamState → StreamState)
    (hf : ∀ x, (f x).current = x.current) (t : Txn) (k : EntryKind) (a : Address) :
    Forwarded s ((s.accepting.onStream st f).forward t k a) t k a := by
  refine State.forward_spec s _ t k a rfl (State.repairStands_congr _ _ rfl rfl rfl fun i => ?_)
  exact State.onStream_current s.accepting st i f hf

theorem State.forwarded_accepting (s : State) (t : Txn) (k : EntryKind) (a : Address) :
    Forwarded s (s.accepting.forward t k a) t k a :=
  State.forward_spec s s.accepting t k a rfl (State.repairStands_congr _ _ rfl rfl rfl fun _ => rfl)

/-- An answer alone changes no slot. -/
theorem State.answered_accepting (s : State) (t : Txn) (status : Status) (d : List Byte) :
    (s.accepting.answer t status d).streams = s.streams ∧ PortAndStreams s (s.accepting.answer t status d) ∧
      Answered s (s.accepting.answer t status d) t status d :=
  ⟨rfl, rfl, State.answer_taken s s.streams t status d⟩

/-- Fill is answered without a change of any slot (R38). -/
theorem State.fill_taken (s : State) (t : Txn) (fill : BitVec 32) :
    (s.accepting.answerFill t fill).streams = s.streams ∧ PortAndStreams s (s.accepting.answerFill t fill) ∧
      Answered s (s.accepting.answerFill t fill) t .okay (fillData fill t.address.toNat t.length) := by
  rw [State.answerFill_eq]
  exact s.answered_accepting t .okay _

theorem State.stream_of_streams {u v : State} (h : u.streams = v.streams) (k : StreamId) : u.stream k = v.stream k := by
  unfold State.stream
  rw [h]

/-- What the fault record holds of a refusal (R130). -/
def faultOf (t : Txn) (cause : FaultCause) (st : Option StreamId) : FaultRecord :=
  { initiator := t.initiator, dir := Txn.dir t, address := t.address, cause := cause, stream := st }

theorem State.refuse_none (s : State) (t : Txn) (cause : FaultCause) : s.refuse t cause none =
    State.answer { s with fault := faultOf t cause none, deviceFlags := s.deviceFlags ||| 0x10#5 } t .error [] := rfl

theorem State.refuse_some (s : State) (t : Txn) (cause : FaultCause) (st : StreamId) : s.refuse t cause (some st) =
    State.answer { s with
      fault := faultOf t cause (some st)
      streams := (s.onStream st (·.raise .accessFault)).streams } t .error [] := rfl

/-! ### Frame start (R8 to R10, R29) -/

/-- The sequence and the counter that every frame start advances (R29). -/
def StreamState.frameNumbered (x : StreamState) : StreamState := { x with
  lastSeq := x.lastSeq + 1#32
  counters := { x.counters with framesStarted := advance16 x.counters.framesStarted } }

theorem StreamState.beginFrame_eq (x : StreamState) (h : x.mode = .none) : x.beginFrame =
    { (x.frameNumbered.startFrame (x.lastSeq + 1#32)).1 with
      mode := modeOf (x.frameNumbered.startFrame (x.lastSeq + 1#32)).2 } :=
  x.beginFrame_none h

theorem StreamState.stealAllowed_iff (x : StreamState) : x.stealAllowed = true ↔
    Decode.discipline x.desc = .latest ∨ x.lock = .search ∨ x.lock = .freerun := by
  unfold StreamState.stealAllowed
  cases Decode.discipline x.desc <;> simp

section
variable (x : StreamState) (q : BitVec 32)

/-- The lowest FREE buffer is taken (R8). -/
theorem StreamState.startFrame_free (i : Nat) (b : Buf) (h : x.bufs[i]? = some b) (free : b.state = .free)
    (first : ∀ j c, j < i → x.bufs[j]? = some c → c.state ≠ .free) :
    x.startFrame q = ({ x with bufs := x.bufs.set i (Buf.fill q b) }, some i) := by
  have found : x.bufs.findIdx? (fun b => b.state == .free) = some i :=
    findIdx_of _ _ i b h (beq_iff_eq.2 free) fun j c hj hc => beq_eq_false_iff_ne.2 (first j c hj hc)
  unfold StreamState.startFrame
  rw [found]
  dsimp only
  rw [x.onBuf_at i b _ h]

/-- The oldest unpinned READY buffer is stolen (R9). -/
theorem StreamState.startFrame_steal (full : ∀ b ∈ x.bufs, b.state ≠ .free) (allowed : x.stealAllowed = true) (i : Nat)
    (b : Buf) (h : x.bufs[i]? = some b) (ready : b.state = .ready) (unpinned : b.pins = 0)
    (oldest : ∀ j c, j ≠ i → x.bufs[j]? = some c → c.state = .ready → c.pins = 0 → b.seq < c.seq) :
    x.startFrame q = ({ x with
      bufs := x.bufs.set i (Buf.fill q b)
      ready := x.ready.filter (· != i)
      counters := { x.counters with skipped := advance16 x.counters.skipped } }, some i) := by
  have found : x.oldestBuf (fun b => b.state == .ready && b.pins == 0) = some i :=
    x.oldestBuf_of _ i b h (by simp [ready, unpinned]) fun j c hj hc hp => by
      simp only [Bool.and_eq_true, beq_iff_eq] at hp
      exact oldest j c hj hc hp.1 hp.2
  unfold StreamState.startFrame
  rw [findIdx_none _ _ fun b hb => beq_eq_false_iff_ne.2 (full b hb)]
  dsimp only
  rw [if_pos allowed, found]
  dsimp only
  rw [StreamState.onBuf_at ((x.dequeue i).count .skipped) i b _ h]
  rfl

/-- Without a buffer to take the frame is a SINK frame, and OVERRUN is raised (R10). -/
theorem StreamState.startFrame_sink (full : ∀ b ∈ x.bufs, b.state ≠ .free)
    (none : x.stealAllowed = false ∨ ∀ b ∈ x.bufs, b.state = .ready → b.pins ≠ 0) :
    x.startFrame q = ({ x with flags := x.flags ||| 0x04#8 }, .none) := by
  have found : (if x.stealAllowed then x.oldestBuf (fun b => b.state == .ready && b.pins == 0) else .none) = .none := by
    rcases none with refused | pinned
    · rw [refused]; rfl
    · rw [x.oldestBuf_none _ fun b hb => ?_, ite_self]
      by_cases ready : b.state = .ready
      · simp [ready, pinned b hb ready]
      · simp [ready]
  unfold StreamState.startFrame
  rw [findIdx_none _ _ fun b hb => beq_eq_false_iff_ne.2 (full b hb)]
  dsimp only
  rw [found]
  rfl

end

/-! ### Line area writes (R30 to R33) -/

theorem State.onStream_onStream (s : State) (st : StreamId) (f g : StreamState → StreamState) :
    (s.onStream st f).onStream st g = s.onStream st fun x => g (f x) :=
  State.onStream_setStream s st _ g

theorem State.takeLineWrite_ended (s : State) (t : Txn) (st : StreamId) (o : Nat) (h : (s.stream st).sequenceEnded = true) :
    s.takeLineWrite t st o = .next ((s.onStream st (·.count .excessWrites)).acknowledge t) := by
  rw [State.takeLineWrite, if_pos h]

section
variable (s : State) (t : Txn) (st : StreamId) (o : Nat) (h : ¬ (s.stream st).sequenceEnded = true)
include h

theorem State.takeLineWrite_sink (hm : (s.stream st).beginFrame.mode = .sink) :
    s.takeLineWrite t st o = .next ((s.onStream st StreamState.beginFrame).acknowledge t) := by
  rw [State.takeLineWrite, if_neg h]
  dsimp only
  rw [State.stream_onStream, hm]

theorem State.takeLineWrite_buffer (i : Nat) (b : Buf) (hm : (s.stream st).beginFrame.mode = .buffer i)
    (hb : (s.stream st).beginFrame.bufs[i]? = some b) :
    s.takeLineWrite t st o = .next ((s.onStream st fun x => (x.beginFrame.onBuf i
      (Buf.mark (linesMarked x.beginFrame.desc o t.length))).increment i).forward t (.captureWrite t.initiator t.tag st i)
        (b.addressAt o)) := by
  rw [State.takeLineWrite, if_neg h]
  dsimp only
  rw [State.stream_onStream, hm]
  dsimp only
  rw [State.forwardWrite, State.stream_onStream, hb]
  dsimp only
  rw [State.onStream_onStream]

end

/-- A forwarded write marks its lines and counts in its buffer (R5, R33). -/
theorem StreamState.marked_incremented (x : StreamState) (i : Nat) (b : Buf) (l : List Nat) (h : x.bufs[i]? = some b) :
    (x.onBuf i (Buf.mark l)).increment i = { x with
      bufs := x.bufs.set i { b with coverage := (b.mark l).coverage, inFlight := b.inFlight + 1 } } := by
  rw [x.onBuf_at i b _ h, StreamState.increment, StreamState.onBuf_at _ i (b.mark l) _ (getElem_set_at _ _ _ _ h)]
  simp [Buf.mark]

theorem StreamState.increment_at (x : StreamState) (i : Nat) (b : Buf) (h : x.bufs[i]? = some b) :
    x.increment i = { x with bufs := x.bufs.set i { b with inFlight := b.inFlight + 1 } } :=
  x.onBuf_at i b _ h

/-- An excess write, or a write at the end of the sequence range, counts once after the frame start it may bring (R35). -/
theorem StreamState.excessWrite_eq (x : StreamState) :
    (if x.sequenceEnded then x.count .excessWrites else x.beginFrame.count .excessWrites) =
      (if x.mode = .none ∧ x.lastSeq ≠ 0xFFFFFFFF#32 then x.beginFrame else x).count .excessWrites := by
  by_cases ended : x.sequenceEnded = true
  · have h := (x.sequenceEnded_iff).1 ended
    rw [if_pos ended, if_neg fun k => k.2 h.2]
  · rw [if_neg ended]
    by_cases mode : x.mode = .none
    · rw [if_pos ⟨mode, fun h => ended ((x.sequenceEnded_iff).2 ⟨mode, h⟩)⟩]
    · rw [if_neg fun k => mode k.1, x.beginFrame_not mode]

/-! ### Dormant records (R47, R85) -/

theorem StreamState.dormantStatus_eq (x : StreamState) :
    x.dormantStatus = [0x53#8, 0#8, 0#8, one ((x.bufs.filter (fun b => b.state = .free)).length)] ++ lsb32 x.lastSeq
      ++ [0#8, 0#8, 0#8, one x.newest.verdict.code, one x.previous.verdict.code, 0#8]
      ++ lsb16 (BitVec.ofNat 16 x.newest.missing) ++ lsb32 x.newest.seq ++ lsb16 x.newest.producerSeq
      ++ lsb16 x.previous.producerSeq ++ lsb32 x.previous.seq ++ lsb16 (BitVec.ofNat 16 x.previous.missing)
      ++ [0#8, 0#8] := by
  unfold StreamState.dormantStatus statusRecord
  rw [leBytes_two_nat x.newest.missing, leBytes_two_nat x.previous.missing]
  simp only [byte_one, leBytes_two, leBytes_four, leBytes_two_zero, StreamState.countIn_one]
  rfl

theorem dormantPresentation_eq (k : ReaderSlot) :
    dormantPresentation k = [0x50#8, 0#8, one k.val] ++ List.replicate 29 0#8 := by
  unfold dormantPresentation
  simp only [byte_one]
  rfl

end Sys2Proof.Machine

namespace Sys2Proof.UpstreamTakings

open Sys2Proof Sys2Proof.Machine Sys2Proof.Safety

/-- Settles O20: the taking forwards from the state of the acceptance. -/
theorem passThroughForwards : Obligations.PassThroughForwards := fun s t h hc =>
  ⟨_, exec_taken s t h _ (by simp) _ hc, s.forwarded_accepting t _ _, rfl⟩

/-- Settles O21, by whether a stream applies. -/
theorem refusalRecorded : Obligations.RefusalRecorded := by
  intro s t cause st h hc
  have taken : exec (.accessRefusal t) s = .next (s.accepting.refuse t cause st) := exec_taken s t h _ (by simp) _ hc
  cases st with
  | none =>
    rw [State.refuse_none] at taken
    exact ⟨_, taken, State.answer_spec s _ t _ _ rfl rfl, rfl, rfl, fun _ => ⟨rfl, rfl⟩, nofun⟩
  | some k =>
    rw [State.refuse_some] at taken
    refine ⟨_, taken, State.answer_spec s _ t _ _ rfl rfl, rfl, rfl, nofun, ?_⟩
    rintro _ ⟨⟩
    refine ⟨rfl, fun j hj => ?_, ?_⟩
    · exact (State.stream_of_streams (v := s.accepting.onStream k (·.raise .accessFault)) rfl j).trans (State.stream_onStream_ne s.accepting k j _ hj)
    · exact (State.stream_of_streams (v := s.accepting.onStream k (·.raise .accessFault)) rfl k).trans (State.stream_onStream s.accepting k _)

/-- Settles O22, by what the Pool Manager finds: a FREE buffer, a READY one to steal, or none. -/
theorem frameStart : Obligations.FrameStart := by
  intro x hm
  refine ⟨fun i b h free first => ?_, fun full allowed i b h ready unpinned oldest => ?_, fun full none => ?_⟩
  · rw [x.beginFrame_eq hm, StreamState.startFrame_free x.frameNumbered _ i b h free first]
    rfl
  · rw [x.beginFrame_eq hm, StreamState.startFrame_steal x.frameNumbered _ full (x.stealAllowed_iff.2 allowed) i b h ready
      unpinned oldest]
    rfl
  · rw [x.beginFrame_eq hm, StreamState.startFrame_sink x.frameNumbered _ full
      (none.imp_left fun k => Bool.eq_false_iff.2 fun h => k (x.stealAllowed_iff.1 h))]
    rfl

/-- Settles O23: the end of the range, then the frame mode that the frame start leaves. -/
theorem lineAreaWrite : Obligations.LineAreaWrite := by
  intro s t st o h hc
  have taken : exec (.lineAreaWrite t) s = s.accepting.takeLineWrite t st o := exec_taken s t h _ (by simp) _ hc
  refine ⟨fun ended => ?_, fun open_ x hx => ?_⟩
  · rw [taken, State.takeLineWrite_ended s.accepting _ _ _ ((s.stream st).sequenceEnded_iff.2 ended)]
    exact ⟨_, rfl, s.acknowledged_onStream st _ t⟩
  have going : ¬ (s.accepting.stream st).sequenceEnded = true := fun k => open_ ((s.stream st).sequenceEnded_iff.1 k)
  rw [StreamState.beginFrame_if] at hx
  subst hx
  refine ⟨fun sink => ?_, fun i b mode hb => ?_⟩
  · rw [taken, State.takeLineWrite_sink s.accepting t st o going sink]
    exact ⟨_, rfl, s.acknowledged_onStream st _ t⟩
  · refine ⟨_, _, taken.trans (State.takeLineWrite_buffer s.accepting t st o going i b mode hb),
      s.forwarded_onStream st (fun x => (x.beginFrame.onBuf i (Buf.mark (linesMarked x.beginFrame.desc o t.length))).increment i)
        (fun x => x.beginFrame_current) t _ _,
      fun k hk => (State.forward_stream _ _ _ _ _).trans (State.stream_onStream_ne _ _ _ _ hk),
      (State.forward_stream _ _ _ _ _).trans ((State.stream_onStream _ _ _).trans (StreamState.marked_incremented _ i b _ hb)), fun n => ?_, fun sorted => ?_⟩
    · exact (mem_foldl_markLine _ _ n).trans (or_comm.trans (or_congr_right (mem_linesMarked _ _ _ n)))
    · exact foldl_markLine_sorted _ _ sorted

/-- Settles O24: the excess write, then reads by frame mode and region. -/
theorem excessWriteAndCaptureRead : Obligations.ExcessWriteAndCaptureRead := by
  refine ⟨fun s t st h hc x hx => ?_, fun s t st h => ⟨fun o fill hc => ⟨fun i b mode hb => ?_, fun mode => ?_⟩,
    fun fill hc => ⟨_, exec_taken s t h _ (by simp) _ hc, s.fill_taken t fill⟩⟩⟩
  · obtain ⟨answered, ports, others, slot⟩ := s.acknowledged_onStream st (fun x =>
      if x.sequenceEnded then x.count .excessWrites else x.beginFrame.count .excessWrites) t
    rw [StreamState.excessWrite_eq, ← hx] at slot
    exact ⟨_, exec_taken s t h _ (by simp) _ hc, answered, ports, others, slot⟩
  · refine ⟨s.accepting.forward t (.captureRead t.initiator t.tag) (b.addressAt o),
      (exec_taken s t h _ (by simp) _ hc).trans ?_, rfl, s.forwarded_accepting t _ _⟩
    simp only [State.takeAs, State.takeCaptureRead, State.accepting_stream, mode, hb]
  · refine ⟨_, (exec_taken s t h _ (by simp) _ hc).trans ?_, s.fill_taken t fill⟩
    rcases mode with mode | mode <;> simp only [State.takeAs, State.takeCaptureRead, State.accepting_stream, mode]

/-- Settles O30, by the reader's state and the region. -/
theorem presentationRead : Obligations.PresentationRead := by
  refine fun s t st k h => ⟨fun o fill hc => ⟨fun i b bound hb => ?_, fun unbound => ?_⟩,
    fun fill hc => ⟨_, exec_taken s t h _ (by simp) _ hc, s.fill_taken t fill⟩⟩
  · refine ⟨(s.accepting.onStream st (·.increment i)).forward t (.presentationRead t.initiator t.tag st i) (b.addressAt o),
      (exec_taken s t h _ (by simp) _ hc).trans ?_, fun j hj => (State.forward_stream _ _ _ _ _).trans (State.stream_onStream_ne _ _ _ _ hj),
      (State.forward_stream _ _ _ _ _).trans ((State.stream_onStream _ _ _).trans (StreamState.increment_at _ i b hb)),
      s.forwarded_onStream st (·.increment i) (fun _ => rfl) t _ _⟩
    simp only [State.takeAs, State.takePresentationRead, State.accepting_stream, bound, hb]
  · refine ⟨_, (exec_taken s t h _ (by simp) _ hc).trans ?_, s.fill_taken t fill⟩
    simp only [State.takeAs, State.takePresentationRead, State.accepting_stream]
    cases state : ((s.stream st).reader k).state with
    | bound i => exact absurd state (unbound i)
    | unbound | subst | stale => rfl

/-- Settles O31, class by class of R127 and R128. -/
theorem dormantAccess : Obligations.DormantAccess := by
  refine ⟨fun s t st h => ⟨fun hc => ?_, fun fill hc => ?_, fun hc x hx => ?_⟩, fun s t st k h => ⟨fun fill hc => ?_, fun hc => ?_⟩⟩
  · exact ⟨_, exec_taken s t h _ (by simp) _ hc, s.answered_accepting t .okay []⟩
  · exact ⟨_, exec_taken s t h _ (by simp) _ hc, s.fill_taken t fill⟩
  · rw [hx, ← StreamState.dormantStatus_eq]
    exact ⟨_, exec_taken s t h _ (by simp) _ hc, s.answered_accepting t .okay _⟩
  · exact ⟨_, exec_taken s t h _ (by simp) _ hc, s.fill_taken t fill⟩
  · rw [← dormantPresentation_eq]
    exact ⟨_, exec_taken s t h _ (by simp) _ hc, s.answered_accepting t .okay _⟩

end Sys2Proof.UpstreamTakings
end

section
/-! PROOF. The buffer pool's own operations (Chapters 1, 3 and 4): binds, unbinds and the hold mark, skips, trims and joins, claims
out of lock, and the verdict at drain with the job it may queue. -/
set_option Elab.async false

namespace Sys2Proof.Machine

open Sys2Proof Sys2Proof.Safety

/-! ### One record changed twice -/

theorem StreamState.onBuf_twice (x : StreamState) (i : Nat) (b : Buf) (f g : Buf → Buf) (h : x.bufs[i]? = some b) :
    (x.onBuf i f).onBuf i g = { x with bufs := x.bufs.set i (g (f b)) } := by
  rw [onBuf_onBuf, x.onBuf_at i b _ h]

/-- A release after a change of the same record. -/
theorem StreamState.release_onBuf (x : StreamState) (i : Nat) (b : Buf) (f : Buf → Buf) (h : x.bufs[i]? = some b)
    (h1 : (f b).state ≠ .free) (h2 : (f b).state ≠ .releasing) : (x.onBuf i f).release i = releasedAt x i (f b) := by
  rw [x.onBuf_at i b f h, StreamState.release_at _ i (f b) (getElem_set_at _ _ _ _ h) h1 h2, releasedAt]
  simp [releasedAt]

/-! ### Binds and unbinds (R20, R21) -/

section
variable (x : StreamState) (i : Nat) (b : Buf) (h : x.bufs[i]? = some b)
include h

theorem StreamState.bind_ready (hb : b.state = .ready) : x.bind i = { x with
    bufs := x.bufs.set i { b with state := .shown, readers := 1 }, ready := x.ready.filter (· != i) } := by
  unfold StreamState.bind
  rw [(x.stateOf_at i b h).trans (congrArg some hb)]
  exact (x.dequeue i).onBuf_at i b _ h

theorem StreamState.bind_shown (hb : b.state = .shown) :
    x.bind i = { x with bufs := x.bufs.set i { b with readers := b.readers + 1 } } := by
  unfold StreamState.bind
  rw [(x.stateOf_at i b h).trans (congrArg some hb)]
  dsimp only
  exact x.onBuf_at i b _ h

theorem StreamState.bind_kept (hb : b.state = .kept) :
    x.bind i = { x with bufs := x.bufs.set i { b with state := .shown, readers := 1 } } := by
  unfold StreamState.bind
  rw [(x.stateOf_at i b h).trans (congrArg some hb)]
  dsimp only
  exact x.onBuf_at i b _ h

theorem StreamState.unbind_at : x.unbind i =
    if b.readers - 1 = 0 then
      if b.hold then (x.onBuf i fun b => { b with readers := b.readers - 1 }).onBuf i fun b => { b with state := .kept }
      else (x.onBuf i fun b => { b with readers := b.readers - 1 }).release i
    else x.onBuf i fun b => { b with readers := b.readers - 1 } := by
  have found : (x.onBuf i fun b => { b with readers := b.readers - 1 }).bufs[i]? = some { b with readers := b.readers - 1 } := by
    rw [x.onBuf_at i b _ h]
    exact getElem_set_at _ _ _ _ h
  unfold StreamState.unbind
  dsimp only
  rw [found]

theorem StreamState.unbind_shared (hn : 1 < b.readers) :
    x.unbind i = { x with bufs := x.bufs.set i { b with readers := b.readers - 1 } } := by
  rw [x.unbind_at i b h, if_neg (by omega), x.onBuf_at i b _ h]

theorem StreamState.unbind_marked (hn : b.readers = 1) (hm : b.hold = true) :
    x.unbind i = { x with bufs := x.bufs.set i { b with state := .kept, readers := 0 } } := by
  rw [x.unbind_at i b h, if_pos (by omega), if_pos hm, x.onBuf_twice i b _ _ h, hn]

theorem StreamState.unbind_last (hb : b.state = .shown) (hn : b.readers = 1) (hm : b.hold = false) :
    x.unbind i = releasedAt x i { b with readers := 0 } := by
  rw [x.unbind_at i b h, if_pos (by omega), hm, if_neg (by decide),
    x.release_onBuf i b _ h (by simp [hb]) (by simp [hb])]
  simp [releasedAt, releasedBuf, hn]

end

/-! ### The hold mark (R22, R23) -/

section
variable (x : StreamState) (i : Nat) (b : Buf) (h : Newest x [.shown, .ready] i b)
include h

theorem StreamState.placeHold_at : x.placeHold = { x with
    bufs := x.bufs.set i (if b.state = .ready then { b with state := .kept, hold := true } else { b with hold := true })
    ready := x.ready.filter (· != i) } := by
  obtain ⟨hi, hs, newest⟩ := h
  have found : x.newestBuf (fun b => b.state == .shown || b.state == .ready) = some i :=
    x.newestBuf_of _ i b hi (by simpa using hs) fun j c hj hc hp => newest j c hj hc (by simpa using hp)
  unfold StreamState.placeHold
  rw [found]
  exact (x.dequeue i).onBuf_at i b _ hi

end

theorem StreamState.placeHold_none (x : StreamState) (h : ∀ b ∈ x.bufs, b.state ≠ .shown ∧ b.state ≠ .ready) :
    x.placeHold = x := by
  unfold StreamState.placeHold
  rw [x.newestBuf_none _ fun b hb => by simp [h b hb]]

section
variable (x : StreamState) (i : Nat) (b : Buf) (h : x.bufs[i]? = some b) (hm : x.marked = some i)
include h hm

theorem StreamState.clearHold_kept (hb : b.state = .kept) : x.clearHold = releasedAt x i { b with hold := false } := by
  unfold StreamState.clearHold
  rw [hm]
  dsimp only
  rw [x.stateOf_at i b h, if_pos (congrArg some hb)]
  exact x.release_onBuf i b (fun b => { b with hold := false }) h (by simp [hb]) (by simp [hb])

theorem StreamState.clearHold_shown (hb : b.state = .shown) :
    x.clearHold = { x with bufs := x.bufs.set i { b with hold := false } } := by
  unfold StreamState.clearHold
  rw [hm]
  dsimp only
  rw [x.stateOf_at i b h, if_neg (by simp [hb])]
  exact x.onBuf_at i b _ h

end

theorem StreamState.clearHold_none (x : StreamState) (h : ∀ b ∈ x.bufs, b.hold = false) : x.clearHold = x := by
  unfold StreamState.clearHold
  rw [x.marked_none h]

/-! ### Claims out of lock (R77) -/

section
variable (x : StreamState) (r : Reader)

theorem StreamState.notByDiscipline (hl : x.lock = .search ∨ x.lock = .freerun)
    (hu : Decode.unlock x.desc = some .fill ∨ Decode.unlock x.desc = some .hold) : ¬ ByDiscipline x := by
  unfold ByDiscipline
  rcases hl with hl | hl <;> rcases hu with hu | hu <;> simp [hl, hu]

theorem StreamState.target_outOfLock (h : ¬ ByDiscipline x) : x.target r =
    if x.lock = .freerun ∧ Decode.unlock x.desc = some .hold then x.holdTarget r else .fill := by
  rw [StreamState.target, if_neg fun k => h (x.byDiscipline_iff.1 k)]

/-- Without a hold to show there is no target (R77). -/
theorem StreamState.target_fill (h : ¬ ByDiscipline x)
    (hn : x.lock = .search ∨ Decode.unlock x.desc = some .fill ∨ ∀ b ∈ x.bufs, b.hold = false) : x.target r = .fill := by
  rw [x.target_outOfLock r h]
  rcases hn with hn | hn | hn
  · rw [if_neg (by simp [hn])]
  · rw [if_neg (by simp [hn])]
  · rw [StreamState.holdTarget, x.marked_none hn]
    exact ite_self _

theorem StreamState.target_hold (h : ¬ ByDiscipline x) (hl : x.lock = .freerun) (hu : Decode.unlock x.desc = some .hold)
    (i : Nat) (hm : x.marked = some i) : x.target r = if r.state = .bound i then .keep .hold else .bind i .hold := by
  rw [x.target_outOfLock r h, if_pos ⟨hl, hu⟩, StreamState.holdTarget, hm]

theorem StreamState.afterSkip_outOfLock (y : StreamState) (h : ¬ ByDiscipline x) : x.afterSkip y = y := by
  rw [StreamState.afterSkip, x.latestClaim_out h, if_neg (by decide)]

end

/-! ### Joins (R14, R16) -/

section
variable (x : StreamState) (i : Nat) (b : Buf) (h : x.bufs[i]? = some b)
include h

theorem StreamState.overtaken_iff : x.overtaken i = true ↔
    ∃ c ∈ x.bufs, (c.state = .ready ∨ c.state = .shown ∨ c.state = .kept) ∧ b.seq < c.seq := by
  simp [StreamState.overtaken, x.seqOf_at i b h, BitVec.lt_def, or_assoc]

theorem StreamState.releaseSkipped_at (h1 : b.state ≠ .free) (h2 : b.state ≠ .releasing) :
    x.releaseSkipped i = { releasedAt x i b with
      counters := { x.counters with skipped := advance16 x.counters.skipped } } := by
  rw [StreamState.releaseSkipped, x.release_at i b h h1 h2]
  rfl

end

/-- The READY queue's slot after an insertion (R14). -/
def StreamState.inserted (x : StreamState) (i : Nat) : StreamState :=
  { x.onBuf i (fun b => { b with state := .ready }) with ready := insertBySeq x.seqOf i x.ready }

theorem StreamState.join_superseded (x : StreamState) (i : Nat) (hl : Decode.discipline x.desc = .latest)
    (ho : x.overtaken i = true) : x.join i = x.releaseSkipped i := if_pos ⟨hl, ho⟩

theorem StreamState.join_inserted (x : StreamState) (i : Nat)
    (h : ¬ (Decode.discipline x.desc = .latest ∧ x.overtaken i = true)) :
    x.join i = if (x.inserted i).trims then (x.inserted i).trim else x.inserted i := if_neg h

theorem StreamState.inserted_trims_iff (x : StreamState) (i : Nat) : (x.inserted i).trims = true ↔
    (x.lock = .search ∨ x.lock = .freerun) ∧
      (Decode.unlock x.desc = some .hold ∨ Decode.unlock x.desc = some .fill) := by
  change x.trims = true ↔ _
  simp [StreamState.trims]

/-! ### A verdict handed on (R13, R44) -/

/-- A slot after the report of a final verdict, with this lock input, these counters and these event flags raised (R13, R44). -/
def StreamState.handedOn (x : StreamState) (v : Verdict) (b : Buf) (input : LockInput) (c : Counters) (flags : BitVec 8) :
    StreamState :=
  { x.lockInput input with
    previous := x.newest
    newest := { verdict := v, seq := b.seq, producerSeq := b.close.producerSeq,
                missing := Decode.lines x.desc - b.coverage.length }
    counters := c
    flags := (x.lockInput input).flags ||| flags }

/-- The report of a verdict before its counter advances. -/
theorem StreamState.reported_eq (x : StreamState) (v : Verdict) (b : Buf) (input : LockInput) :
    (x.lockInput input).report
      { verdict := v, seq := b.seq, producerSeq := b.close.producerSeq, missing := x.missing b } =
    x.handedOn v b input x.counters 0#8 := by
  unfold StreamState.report StreamState.handedOn
  rw [x.lockInput_newest input, BitVec.or_zero, ← x.lockInput_counters input]
  rfl

theorem StreamState.handOn_eq (x : StreamState) (v : Verdict) (b : Buf) (input : LockInput)
    (h : v.lockInput b.early = input) : x.handOn v b = (x.handedOn v b input x.counters 0#8).countVerdict v := by
  rw [StreamState.handOn, h, StreamState.reported_eq]

/-! ### The verdict at drain (R12, R51, R52) -/

theorem State.onStream_eq (s : State) (st : StreamId) (f : StreamState → StreamState) :
    s.onStream st f = s.setStream st (f (s.stream st)) := rfl

section
variable (s : State) (st : StreamId) (i : Nat) (b : Buf) (h : (s.stream st).bufs[i]? = some b) (hc : b.state = .closing)
  (hf : b.inFlight = 0)
include h hc hf

/-- No verdict at drain: a job is queued (R12, check 6). -/
theorem State.drain_queues (hv : drainVerdict (s.stream st) b s.jobs.length = .none) :
    s.drain st i = s.queueJob st i b := by
  unfold State.drain
  rw [h]
  dsimp only
  rw [if_pos ⟨hc, hf⟩, hv]

theorem State.drain_clean (hv : drainVerdict (s.stream st) b s.jobs.length = .clean) :
    s.drain st i = s.setStream st ((s.stream st).finishGood .clean i b) := by
  unfold State.drain
  rw [h]
  dsimp only
  rw [if_pos ⟨hc, hf⟩, hv]
  exact State.onStream_eq s st _

/-- Any verdict but CLEAN hands it on and releases the buffer (R12, checks 1 to 3 and 5). -/
theorem State.drain_rejects (v : Verdict) (hv : drainVerdict (s.stream st) b s.jobs.length = v) (hn : v ≠ .none)
    (hk : v ≠ .clean) : s.drain st i = s.setStream st (((s.stream st).handOn v b).release i) := by
  unfold State.drain
  rw [h]
  dsimp only
  rw [if_pos ⟨hc, hf⟩, hv]
  cases v with
  | none => exact absurd rfl hn
  | clean => exact absurd rfl hk
  | _ => exact State.onStream_eq s st _

end

/-- The job a drain queues (R51, R52, R54). -/
def State.newJob (s : State) (st : StreamId) (i : Nat) (b : Buf) : Job :=
  { stream := st, target := i, method := (s.stream st).repairMethod i,
    state := if s.jobs.isEmpty then .running else .queued,
    nextLine := nextMissing b.coverage (Decode.lines (s.stream st).desc) 0, nextPos := 0, outstanding := 0 }

theorem State.queueJob_eq (s : State) (st : StreamId) (i : Nat) (b : Buf) : s.queueJob st i b =
    { s.setStream st (((s.stream st).pinFor ((s.stream st).repairMethod i)).onBuf i fun b => { b with state := .repairing })
      with jobs := s.jobs ++ [s.newJob st i b] } := rfl

theorem State.queueJob_stream (s : State) (st : StreamId) (i : Nat) (b : Buf) : (s.queueJob st i b).stream st =
    ((s.stream st).pinFor ((s.stream st).repairMethod i)).onBuf i fun b => { b with state := .repairing } :=
  State.stream_setStream s st _

/-- Whether a buffer may be the source of a job for a target with this sequence (R52). -/
def mayBeSource (seq : BitVec 32) (c : Buf) : Prop :=
  (c.state = .ready ∨ c.state = .shown ∨ c.state = .kept) ∧ c.seq < seq

section
variable (x : StreamState) (i : Nat) (b : Buf) (h : x.bufs[i]? = some b)
include h

theorem StreamState.copySource_eq : x.copySource i = x.newestBuf (fun c =>
    (c.state == .ready || c.state == .shown || c.state == .kept) && decide (c.seq.toNat < b.seq.toNat)) := by
  rw [StreamState.copySource, x.seqOf_at i b h]

theorem StreamState.copySource_none (hn : ∀ c ∈ x.bufs, ¬ mayBeSource b.seq c) : x.copySource i = none := by
  rw [x.copySource_eq i b h, x.newestBuf_none _ fun c hc => ?_]
  rw [← Bool.not_eq_true]
  intro hp
  simp only [Bool.and_eq_true, Bool.or_eq_true, beq_iff_eq, decide_eq_true_eq, or_assoc] at hp
  exact hn c hc ⟨hp.1, hp.2⟩

theorem StreamState.copySource_some (k : Nat) (c : Buf) (hk : x.bufs[k]? = some c) (hs : mayBeSource b.seq c)
    (newest : ∀ l d, l ≠ k → x.bufs[l]? = some d → mayBeSource b.seq d → d.seq < c.seq) : x.copySource i = some k := by
  rw [x.copySource_eq i b h]
  refine x.newestBuf_of _ k c hk ?_ fun l d hl hd hp => ?_
  · obtain ⟨hstate, hseq⟩ := hs
    simp only [Bool.and_eq_true, Bool.or_eq_true, beq_iff_eq, decide_eq_true_eq, or_assoc]
    exact ⟨hstate, hseq⟩
  · simp only [Bool.and_eq_true, Bool.or_eq_true, beq_iff_eq, decide_eq_true_eq, or_assoc] at hp
    exact newest l d hl hd ⟨hp.1, hp.2⟩

end

end Sys2Proof.Machine

namespace Sys2Proof.BufferPool

open Sys2Proof Sys2Proof.Machine Sys2Proof.Safety

/-- Settles O29, by the target out of lock: none, the kept buffer, or the marked one to bind. -/
theorem claimOutOfLock : Obligations.ClaimOutOfLock := by
  intro x now k r hl hu hr
  have out := x.notByDiscipline hl hu
  refine ⟨fun hn => ?_, fun free hold i b hi hb alone => ?_⟩
  · rw [x.claim_fill now k r hr (x.target_fill r out hn), x.afterSkip_outOfLock _ out]
  have target := x.target_hold r out free hold i (x.marked_some i b hi hb alone)
  refine ⟨fun bound => ?_, fun other => ?_⟩
  · rw [if_pos bound] at target
    rw [x.claim_keep now k r hr .hold target, x.afterSkip_outOfLock _ out]
  · rw [if_neg other] at target
    rw [x.claim_bind now k r hr i b .hold target hi, x.afterSkip_outOfLock _ out]

/-- Settles O33, operation by operation and state by state. -/
theorem bindUnbindHold : Obligations.BindUnbindHold := by
  refine ⟨fun x i b h => ⟨x.bind_ready i b h, x.bind_shown i b h, x.bind_kept i b h, fun _ => x.unbind_shared i b h,
    fun _ => x.unbind_marked i b h, x.unbind_last i b h⟩, fun x => ⟨fun i b h hb => ?_, fun i b h hb hq => ?_,
    x.placeHold_none, fun i b h hm alone => ?_, x.clearHold_none⟩⟩
  · rw [x.placeHold_at i b h, if_pos hb]
  · have queue : x.ready.filter (· != i) = x.ready := List.filter_eq_self.2 fun j hj => bne_iff_ne.2 fun e => hq (e ▸ hj)
    rw [x.placeHold_at i b h, if_neg (by simp [hb]), queue]
  · exact ⟨x.clearHold_kept i b h (x.marked_some i b h hm alone), x.clearHold_shown i b h (x.marked_some i b h hm alone)⟩

/-- Settles O34: skip and trim release the indices they filter out of the records. -/
theorem skipAndTrimRelease : Obligations.SkipAndTrimRelease := by
  refine fun x => ⟨fun seq => x.releasesReady_of _ _ (x.indices_nodup _) fun j => ?_, fun n b newest => ?_⟩
  · simp [StreamState.mem_indices]
  · obtain ⟨hn, hs, hmax⟩ := newest
    have found : x.newestBuf (fun b => b.state == .ready) = some n :=
      x.newestBuf_of _ n b hn (by simpa using hs) fun j c hj hc hp => hmax j c hj hc (by simpa using hp)
    have trims : x.trim = ((x.indices (fun b => b.state == .ready)).filter (· != n)).foldl StreamState.releaseSkipped x := by
      unfold StreamState.trim
      rw [found]
    rw [trims]
    refine x.releasesReady_of _ _ ((x.indices_nodup _).filter _) fun j => ?_
    rw [List.mem_filter, StreamState.mem_indices]
    simp only [beq_iff_eq, bne_iff_ne]
    exact ⟨fun ⟨⟨c, hc, hr⟩, hj⟩ => ⟨c, hc, hr, hj⟩, fun ⟨c, hc, hr, hj⟩ => ⟨⟨c, hc, hr⟩, hj⟩⟩

/-- Settles O35, by whether the buffer is superseded, then by whether the queue is trimmed. -/
theorem joinReadyQueue : Obligations.JoinReadyQueue := by
  intro x i b h hs superseded
  have overtaken : superseded ↔ Decode.discipline x.desc = .latest ∧ x.overtaken i = true :=
    and_congr_right' (x.overtaken_iff i b h).symm
  refine ⟨fun late => ?_, fun stays sorted distinct => ?_⟩
  · obtain ⟨hl, ho⟩ := overtaken.1 late
    rw [x.join_superseded i hl ho]
    exact x.releaseSkipped_at i b h (by rcases hs with hs | hs <;> simp [hs]) (by rcases hs with hs | hs <;> simp [hs])
  · have key : x.seqOf i = b.seq.toNat := x.seqOf_at i b h
    obtain ⟨older, younger, hq, hins, ho, hy⟩ :=
      insertBySeq_spec x.seqOf i x.ready sorted fun j hj => by rw [key]; exact distinct j hj
    rw [key] at ho hy
    have slot : x.inserted i = { x with bufs := x.bufs.set i { b with state := .ready }, ready := older ++ i :: younger } := by
      rw [StreamState.inserted, x.onBuf_at i b _ h, hins]
    refine ⟨older, younger, x.inserted i, hq, ho, hy, slot, fun trims => ?_, fun keeps => ?_⟩
    · rw [x.join_inserted i fun k => stays (overtaken.2 k), if_pos ((x.inserted_trims_iff i).2 trims)]
    · rw [x.join_inserted i fun k => stays (overtaken.2 k), if_neg fun k => keeps ((x.inserted_trims_iff i).1 k)]

/-- Settles O36, check by check in the order of R12. -/
theorem verdictAtDrain : Obligations.VerdictAtDrain := by
  intro s st i b h hc hf x missing rejects
  have rejected : ∀ v, drainVerdict x b s.jobs.length = v → v ≠ .none → v ≠ .clean → rejects v :=
    s.drain_rejects st i b h hc hf
  have miss : x.missing b = missing := rfl
  refine ⟨fun error => ?_, fun whole abandon => ?_, fun whole used => ⟨fun full => ?_, fun short => ⟨fun refuse => ?_,
    fun may policy limit => ⟨fun busy => ?_, fun room => ?_⟩⟩⟩⟩
  · exact rejected _ (by simp [drainVerdict, error]) nofun nofun
  · exact rejected _ (by simp [drainVerdict, whole, abandon]) nofun nofun
  · have verdict : drainVerdict x b s.jobs.length = .clean := by simp [drainVerdict, whole, used, miss, full]
    exact ⟨_, s.drain_clean st i b h hc hf verdict, rfl⟩
  · exact rejected _ (by simp [drainVerdict, whole, used, miss, short, refuse]) nofun nofun
  · have allowed : ¬ (b.close.noRepair = true ∨ Decode.repairPolicy x.desc = some .reject ∨
        Decode.repairLimit x.desc < missing) := by
      rintro (k | k | k)
      · rw [may] at k; cases k
      · exact policy k
      · omega
    have limit : Config.jobLimit ≤ s.jobs.length := busy
    exact rejected _ (by simp only [drainVerdict, whole, used, miss, short, if_neg allowed, if_pos limit]; rfl) nofun nofun
  · have allowed : ¬ (b.close.noRepair = true ∨ Decode.repairPolicy x.desc = some .reject ∨
        Decode.repairLimit x.desc < missing) := by
      rintro (k | k | k)
      · rw [may] at k; cases k
      · exact policy k
      · omega
    have limit : ¬ Config.jobLimit ≤ s.jobs.length := Nat.not_le.2 room
    have verdict : drainVerdict x b s.jobs.length = .none := by
      simp only [drainVerdict, whole, used, miss, short, if_neg allowed, if_neg limit]; rfl
    exact s.drain_queues st i b h hc hf verdict

/-- Settles O37: the job's fields, then the method and its source. -/
theorem jobQueued : Obligations.JobQueued := by
  intro s st i b h hc
  refine ⟨s.newJob st i b, rfl, rfl, rfl, rfl, rfl, ?_, fun n hn hm => nextMissing_le _ _ _ _ (Nat.zero_le n) hn hm,
    fun open_ => (nextMissing_open _ _ _ open_).1, fun k hk => State.stream_setStream_ne s st k _ hk, rfl, fun pad => ?_,
    fun copy k c hki hk hs hlt newest => ?_⟩
  · simp [State.newJob]
  · have method : (s.stream st).repairMethod i = .pad := by
      unfold StreamState.repairMethod
      rcases pad with policy | none
      · rw [if_neg policy]
      · rw [StreamState.copySource_none _ i b h fun c hc hm => none c hc hm.1 hm.2]
        exact ite_self _
    refine ⟨method, ?_⟩
    rw [State.queueJob_stream, method]
    exact StreamState.onBuf_at _ i b _ h
  · have method : (s.stream st).repairMethod i = .copy k := by
      unfold StreamState.repairMethod
      rw [if_pos copy, StreamState.copySource_some _ i b h k c hk ⟨hs, hlt⟩ fun l d hl hd hm => newest l d hl hd hm.1 hm.2]
    refine ⟨method, ?_⟩
    rw [State.queueJob_stream, method, StreamState.pinFor, StreamState.pin, StreamState.onBuf_at _ k c _ hk]
    refine StreamState.onBuf_at _ i b _ ?_
    rw [List.getElem?_set_ne hki]
    exact h

/-- Settles O38, verdict by verdict. -/
theorem verdictHandedOn : Obligations.VerdictHandedOn := by
  intro x v b y
  have handed : ∀ input, v.lockInput b.early = input →
      x.handOn v b = (x.handedOn v b input x.counters 0#8).countVerdict v := x.handOn_eq v b
  refine ⟨?_, ?_, ?_, ?_⟩
  · rintro rfl
    exact handed _ rfl
  · rintro (rfl | rfl)
    · exact handed _ rfl
    · exact handed _ rfl
  · have rejects : v.lockInput b.early = .fault → (∀ z : StreamState, z.countVerdict v = (z.count .rejected).raise .frameRejected) →
        x.handOn v b = y .fault { x.counters with rejected := advance16 x.counters.rejected } 0x08#8 := by
      intro input counts
      rw [handed _ input, counts]
      simp only [StreamState.handedOn, StreamState.raise, BitVec.or_zero]
      rfl
    rintro (rfl | rfl | rfl | rfl) <;> exact rejects rfl fun _ => rfl
  · rintro rfl
    exact handed _ rfl

end Sys2Proof.BufferPool
end

section
/-! PROOF. Timers, arm messages, teardown requests and the drain end (Chapters 1, 4, 5 and 9). -/
set_option Elab.async false

namespace Sys2Proof.Machine

open Sys2Proof Sys2Proof.Safety

/-! ### Timers (R91, R99) -/

theorem Timer.due_of_running (t : Timer) (now e : Micros) (h : t = .running e) (he : e ≤ now) : t.due now = true := by
  rw [h]
  exact decide_eq_true he

theorem Timer.not_due (t : Timer) (now : Micros) (h : t = .stopped ∨ ∃ e, t = .running e ∧ now < e) : ¬ t.due now = true := by
  rw [Bool.not_eq_true, Timer.due_false_iff]
  rintro e rfl
  rcases h with h | ⟨e', h, hn⟩
  · cases h
  · cases h; exact hn

theorem unboundFrom_frame (x : StreamState) (r : Reader) :
    unboundFrom x r = { x with bufs := (unboundFrom x r).bufs, ready := (unboundFrom x r).ready } := by
  unfold unboundFrom
  cases r.state with
  | bound i => exact x.unbind_frame i
  | unbound | subst | stale => rfl

theorem foldl_unboundFrom_frame (l : List Reader) : ∀ x : StreamState, l.foldl unboundFrom x =
    { x with bufs := (l.foldl unboundFrom x).bufs, ready := (l.foldl unboundFrom x).ready } := by
  induction l with
  | nil => intro x; rfl
  | cons r l ih =>
    intro x
    rw [List.foldl_cons, ih, unboundFrom_frame x r]

/-- The slot a scan timer expiry leaves, before the quiet report (R91). -/
theorem StreamState.expire_eq (x : StreamState) (k : ReaderSlot) (r : Reader) (h : x.readers[k.val]? = some r) :
    x.expire k = { unboundFrom x r with
      readers := (unboundFrom x r).readers.set k.val { r with
        state := .stale, boundSeq := 0#32, lastSource := .fill, lastSkipped := 0#16, timer := .stopped }
      flags := (unboundFrom x r).flags ||| 0x20#8
      counters := { (unboundFrom x r).counters with stales := advance16 (unboundFrom x r).counters.stales } } := by
  rw [StreamState.expire, x.reader_at k r h, x.unbindOld_eq]
  rfl

theorem StreamState.expire_kept (x : StreamState) (k : ReaderSlot) (r : Reader) (h : x.readers[k.val]? = some r) :
    (x.expire k).poolQuiet = x.poolQuiet ∧ (x.expire k).life = x.life ∧ (x.expire k).bufs = (unboundFrom x r).bufs := by
  rw [x.expire_eq k r h, unboundFrom_frame]
  exact ⟨rfl, rfl, rfl⟩

theorem State.setStream_setStream (s : State) (st : StreamId) (x y : StreamState) :
    (s.setStream st x).setStream st y = s.setStream st y :=
  s.onStream_setStream st x fun _ => y

/-- The quiet report sets the one flag, and only where it stands (R25). -/
theorem quietAfter_eq (before x : StreamState) (q : Bool) (h : q = true ↔ x.poolQuiet = true ∨
      (x.life = .draining ∧ (∀ b ∈ x.bufs, b.state = .free) ∧ ∃ b ∈ before.bufs, b.state ≠ .free)) :
    quietAfter before x = { x with poolQuiet := q } := by
  unfold quietAfter
  split
  next reports => rw [h.2 (.inr reports)]
  next silent =>
    have same : q = x.poolQuiet := by
      rw [Bool.eq_iff_iff, h]
      exact ⟨fun k => k.resolve_right silent, .inl⟩
    rw [same]

/-! ### The teardown requests (R173) -/

/-- What the first four blocks do to the slot, by the number of requests taken (R173). -/
def StreamState.teardownBlock (x : StreamState) : Nat → StreamState
  | 0 => x.captureTeardown
  | 1 => x.cadenceTeardown
  | 2 => x.poolTeardown
  | _ => x.presentationTeardown

/-- A slot with the quiet report of a request, at the request itself where `atRequest` says so (R25). -/
def quietReported (before : StreamState) (atRequest : Bool) (x : StreamState) : StreamState :=
  if x.life = .draining ∧ x.allFree ∧ (atRequest ∨ ¬ before.allFree) then { x with poolQuiet := true } else x

theorem StreamState.allFree_iff (x : StreamState) : x.allFree = true ↔ ∀ b ∈ x.bufs, b.state = .free := by
  simp [StreamState.allFree]

theorem StreamState.not_allFree_iff (x : StreamState) : ¬ x.allFree = true ↔ ∃ b ∈ x.bufs, b.state ≠ .free := by
  rw [x.allFree_iff]
  push Not
  rfl

theorem State.reportQuiet_setStream (s : State) (st : StreamId) (x before : StreamState) (atRequest : Bool) :
    (s.setStream st x).reportQuiet st before atRequest = s.setStream st (quietReported before atRequest x) := by
  unfold State.reportQuiet quietReported
  dsimp only
  rw [State.stream_setStream]
  split
  · exact State.onStream_setStream s st x _
  · rfl

theorem quietReported_frame (before : StreamState) (atRequest : Bool) (x : StreamState) :
    quietReported before atRequest x = { x with poolQuiet := (quietReported before atRequest x).poolQuiet } := by
  unfold quietReported
  split <;> rfl

theorem quietReported_iff (before : StreamState) (atRequest : Bool) (x : StreamState) (h : x.life = .draining) :
    (quietReported before atRequest x).poolQuiet = true ↔ x.poolQuiet = true ∨
      ((∀ b ∈ x.bufs, b.state = .free) ∧ (atRequest = true ∨ ∃ b ∈ before.bufs, b.state ≠ .free)) := by
  rw [← x.allFree_iff, ← before.not_allFree_iff]
  unfold quietReported
  split
  next reports => exact ⟨fun _ => .inr reports.2, fun _ => rfl⟩
  next silent => exact ⟨.inl, fun k => k.resolve_right fun reports => silent ⟨h, reports⟩⟩

theorem StreamState.captureTeardown_frame (x : StreamState) : x.captureTeardown =
    { x with mode := .none, bufs := x.captureTeardown.bufs, ready := x.captureTeardown.ready } := by
  unfold StreamState.captureTeardown
  cases x.mode <;> rfl

theorem StreamState.captureTeardown_buffer (x : StreamState) (i : Nat) (b : Buf) (hm : x.mode = .buffer i)
    (h : x.bufs[i]? = some b) (hb : b.state = .filling) :
    x.captureTeardown.bufs = x.bufs.set i (releasedBuf b) ∧ x.captureTeardown.ready = x.ready.filter (· != i) := by
  unfold StreamState.captureTeardown
  rw [hm]
  dsimp only
  rw [x.release_at i b h (by simp [hb]) (by simp [hb])]
  exact ⟨rfl, rfl⟩

theorem StreamState.captureTeardown_idle (x : StreamState) (hm : ∀ i, x.mode ≠ .buffer i) :
    x.captureTeardown.bufs = x.bufs ∧ x.captureTeardown.ready = x.ready := by
  unfold StreamState.captureTeardown
  cases h : x.mode with
  | buffer i => exact absurd h (hm i)
  | none | sink => exact ⟨rfl, rfl⟩

theorem StreamState.cadenceTeardown_frame (x : StreamState) : x.cadenceTeardown = { x with
    lock := .down, acquire := 0, loss := 0, timer := .stopped
    bufs := x.cadenceTeardown.bufs, ready := x.cadenceTeardown.ready } := by
  unfold StreamState.cadenceTeardown
  dsimp only
  split
  · rw [StreamState.clearHold_frame]
  · rfl

theorem StreamState.cadenceTeardown_hold (x : StreamState) (h : Decode.unlock x.desc = some .hold) :
    x.cadenceTeardown.bufs = x.clearHold.bufs ∧ x.cadenceTeardown.ready = x.clearHold.ready := by
  unfold StreamState.cadenceTeardown
  dsimp only
  rw [if_pos h]
  exact clearHold_congr x _ rfl rfl

theorem StreamState.cadenceTeardown_other (x : StreamState) (h : Decode.unlock x.desc ≠ some .hold) :
    x.cadenceTeardown.bufs = x.bufs ∧ x.cadenceTeardown.ready = x.ready := by
  unfold StreamState.cadenceTeardown
  dsimp only
  rw [if_neg h]
  exact ⟨rfl, rfl⟩

theorem foldl_release_length (l : List Nat) : ∀ x : StreamState,
    (l.foldl StreamState.release x).bufs.length = x.bufs.length := by
  induction l with
  | nil => intro x; rfl
  | cons i l ih =>
    intro x
    rw [List.foldl_cons, ih]
    exact List.length_modify _ _ _

/-- The Pool Manager's teardown request releases the CLOSING and READY buffers and leaves the others (R24). -/
theorem StreamState.poolTeardown_spec (x : StreamState) :
    x.poolTeardown.bufs.length = x.bufs.length ∧ (∀ i, i ∈ x.poolTeardown.ready → i ∈ x.ready) ∧
      ∀ i b, x.bufs[i]? = some b →
        (b.state = .closing ∨ b.state = .ready →
          x.poolTeardown.bufs[i]? = some (releasedBuf b) ∧ i ∉ x.poolTeardown.ready) ∧
        (b.state ≠ .closing → b.state ≠ .ready →
          x.poolTeardown.bufs[i]? = some b ∧ (i ∈ x.poolTeardown.ready ↔ i ∈ x.ready)) := by
  obtain ⟨bufs, queue, -⟩ := StreamState.foldl_release_spec
    (x.indices (fun b => b.state == .closing || b.state == .ready)) (x.indices_nodup _) x
  have named : ∀ i b, x.bufs[i]? = some b → (i ∈ x.indices (fun b => b.state == .closing || b.state == .ready) ↔
      b.state = .closing ∨ b.state = .ready) := by
    intro i b h
    simp [StreamState.mem_indices, h]
  refine ⟨?_, fun i hi => ((queue i).1 hi).1, fun i b h => ⟨fun hs => ⟨?_, fun hi => ?_⟩, fun hc hr => ⟨?_, ?_⟩⟩⟩
  · exact foldl_release_length _ x
  · rw [StreamState.poolTeardown, bufs, if_pos ((named i b h).2 hs), h, Option.map_some,
      b.release_eq (by rcases hs with hs | hs <;> simp [hs]) (by rcases hs with hs | hs <;> simp [hs])]
  · exact ((queue i).1 hi).2 ((named i b h).2 hs)
  · rw [StreamState.poolTeardown, bufs, if_neg fun k => ((named i b h).1 k).elim hc hr, h]
  · exact ⟨fun hi => ((queue i).1 hi).1, fun hi => (queue i).2 ⟨hi, fun k => ((named i b h).1 k).elim hc hr⟩⟩

theorem StreamState.presentationTeardown_eq (x : StreamState) : x.presentationTeardown = { x with
    bufs := (x.readers.foldl unboundFrom x).bufs
    ready := (x.readers.foldl unboundFrom x).ready
    readers := x.readers.map (fun r => { r with
      state := .unbound, boundSeq := 0#32, lastSource := .fill, lastSkipped := 0#16, timer := .stopped }) } := by
  rw [StreamState.presentationTeardown, foldl_unbindOld, foldl_unboundFrom_frame]
  rfl

/-- None of the first four blocks touches the lifecycle state, the count or the quiet report. -/
theorem StreamState.teardownBlock_kept (x : StreamState) (n : Nat) :
    (x.teardownBlock n).life = x.life ∧ (x.teardownBlock n).poolQuiet = x.poolQuiet := by
  unfold StreamState.teardownBlock
  split
  · rw [x.captureTeardown_frame]; exact ⟨rfl, rfl⟩
  · rw [x.cadenceTeardown_frame]; exact ⟨rfl, rfl⟩
  · exact ⟨x.poolTeardown_life, x.poolTeardown_poolQuiet⟩
  · rw [x.presentationTeardown_eq]; exact ⟨rfl, rfl⟩

/-- The slot one of the first four requests leaves: the block's effect, the count, and the quiet report (R25, R173). -/
def StreamState.tornDown (x : StreamState) (n : Nat) : StreamState :=
  quietReported x (n == 2) { x.teardownBlock n with drainTaken := n + 1 }

theorem StreamState.tornDown_eq (x : StreamState) (n : Nat) : x.tornDown n =
    { x.teardownBlock n with drainTaken := n + 1, poolQuiet := (x.tornDown n).poolQuiet } :=
  quietReported_frame _ _ _

theorem StreamState.tornDown_bufs (x : StreamState) (n : Nat) :
    (x.tornDown n).bufs = (x.teardownBlock n).bufs ∧ (x.tornDown n).ready = (x.teardownBlock n).ready := by
  rw [x.tornDown_eq n]
  exact ⟨rfl, rfl⟩

/-- The count, the lifecycle state and the quiet report after one of the first four requests (R25, R173). -/
theorem StreamState.tornDown_spec (x : StreamState) (n : Nat) (h : x.life = .draining) :
    (x.tornDown n).life = .draining ∧ (x.tornDown n).drainTaken = n + 1 ∧
      ((x.tornDown n).poolQuiet = true ↔ x.poolQuiet = true ∨
        ((∀ b ∈ (x.tornDown n).bufs, b.state = .free) ∧ (n = 2 ∨ ∃ b ∈ x.bufs, b.state ≠ .free))) := by
  obtain ⟨life, quiet⟩ := x.teardownBlock_kept n
  refine ⟨by rw [x.tornDown_eq n]; exact life.trans h, by rw [x.tornDown_eq n], ?_⟩
  have reported := quietReported_iff x (n == 2) { x.teardownBlock n with drainTaken := n + 1 } (life.trans h)
  rw [beq_iff_eq] at reported
  rw [(x.tornDown_bufs n).1, ← quiet]
  exact reported

/-- The Capture Unit's request (R48). -/
theorem StreamState.tornDown_capture (x : StreamState) :
    x.tornDown 0 = { x with mode := .none, bufs := (x.tornDown 0).bufs, ready := (x.tornDown 0).ready, drainTaken := 1,
                            poolQuiet := (x.tornDown 0).poolQuiet } ∧
      (∀ i b, x.mode = .buffer i → x.bufs[i]? = some b → b.state = .filling →
        (x.tornDown 0).bufs = x.bufs.set i (releasedBuf b) ∧ (x.tornDown 0).ready = x.ready.filter (· != i)) ∧
      ((∀ i, x.mode ≠ .buffer i) → (x.tornDown 0).bufs = x.bufs ∧ (x.tornDown 0).ready = x.ready) := by
  obtain ⟨bufs, ready⟩ := x.tornDown_bufs 0
  have whole := x.tornDown_eq 0
  rw [StreamState.teardownBlock] at bufs ready whole
  rw [bufs, ready]
  refine ⟨?_, x.captureTeardown_buffer, x.captureTeardown_idle⟩
  rw [x.captureTeardown_frame] at whole
  exact whole

/-- The Cadence Monitor's request (R113). -/
theorem StreamState.tornDown_cadence (x : StreamState) :
    x.tornDown 1 = { x with lock := .down, acquire := 0, loss := 0, timer := .stopped, bufs := (x.tornDown 1).bufs,
                            ready := (x.tornDown 1).ready, drainTaken := 2, poolQuiet := (x.tornDown 1).poolQuiet } ∧
      (Decode.unlock x.desc ≠ some .hold → (x.tornDown 1).bufs = x.bufs ∧ (x.tornDown 1).ready = x.ready) ∧
      (Decode.unlock x.desc = some .hold →
        (x.tornDown 1).bufs = x.clearHold.bufs ∧ (x.tornDown 1).ready = x.clearHold.ready) := by
  obtain ⟨bufs, ready⟩ := x.tornDown_bufs 1
  have whole := x.tornDown_eq 1
  rw [StreamState.teardownBlock] at bufs ready whole
  rw [bufs, ready]
  refine ⟨?_, x.cadenceTeardown_other, x.cadenceTeardown_hold⟩
  rw [x.cadenceTeardown_frame] at whole
  exact whole

/-- The Pool Manager's request (R24). -/
theorem StreamState.tornDown_pool (x : StreamState) :
    x.tornDown 2 = { x with bufs := (x.tornDown 2).bufs, ready := (x.tornDown 2).ready, drainTaken := 3,
                            poolQuiet := (x.tornDown 2).poolQuiet } ∧
      (x.tornDown 2).bufs.length = x.bufs.length ∧ (∀ i, i ∈ (x.tornDown 2).ready → i ∈ x.ready) ∧
      ∀ i b, x.bufs[i]? = some b →
        (b.state = .closing ∨ b.state = .ready →
          (x.tornDown 2).bufs[i]? = some (releasedBuf b) ∧ i ∉ (x.tornDown 2).ready) ∧
        (b.state ≠ .closing → b.state ≠ .ready →
          (x.tornDown 2).bufs[i]? = some b ∧ (i ∈ (x.tornDown 2).ready ↔ i ∈ x.ready)) := by
  obtain ⟨bufs, ready⟩ := x.tornDown_bufs 2
  have whole := x.tornDown_eq 2
  rw [StreamState.teardownBlock] at bufs ready whole
  rw [bufs, ready]
  refine ⟨?_, x.poolTeardown_spec⟩
  rw [x.poolTeardown_frame] at whole
  exact whole

/-- The Presentation Unit's request (R93). -/
theorem StreamState.tornDown_presentation (x : StreamState) : x.tornDown 3 = { x with
    bufs := (x.readers.foldl unboundFrom x).bufs
    ready := (x.readers.foldl unboundFrom x).ready
    readers := x.readers.map (fun r => { r with
      state := .unbound, boundSeq := 0#32, lastSource := .fill, lastSkipped := 0#16, timer := .stopped })
    drainTaken := 4
    poolQuiet := (x.tornDown 3).poolQuiet } := by
  have whole := x.tornDown_eq 3
  rw [show x.teardownBlock 3 = x.presentationTeardown from rfl, x.presentationTeardown_eq] at whole
  exact whole

/-- One of the first four requests; the drain does not end (R173). -/
theorem State.takeTeardown_block (s : State) (st : StreamId) (n : Nat) (h : (s.stream st).drainTaken = n) (hn : n < 4) :
    s.takeTeardown st = s.setStream st ((s.stream st).tornDown n) := by
  have taking : s.teardownTaking st = s.setStream st ((s.stream st).teardownBlock n) := by
    unfold State.teardownTaking
    rw [h]
    interval_cases n <;> rfl
  have count : ((s.stream st).tornDown n).drainTaken ≠ 5 := by
    rw [StreamState.tornDown_eq]
    change n + 1 ≠ 5
    omega
  unfold State.takeTeardown
  dsimp only
  rw [taking, h, State.onStream_setStream, State.reportQuiet_setStream]
  refine State.settleDrain_not _ _ ?_
  rw [State.stream_setStream]
  exact count

/-! ### The Repair Engine's request without jobs, and the jobs it leaves (R65, R66) -/

theorem State.onStream_id (s : State) (st : StreamId) : s.onStream st (fun x => x) = s := s.setStream_self st

/-- A stream without jobs has nothing to cancel. -/
theorem State.cancelRepair_none (s : State) (st : StreamId) (h : ∀ j ∈ s.jobs, j.stream ≠ st) : s.cancelRepair st = s := by
  have queued : s.cancelQueued st = s := by
    unfold State.cancelQueued
    split
    · rfl
    next j l hj =>
      have others : ∀ k ∈ l, k.stream ≠ st := fun k hk => h k (hj ▸ List.mem_cons_of_mem _ hk)
      have mine : l.filter (fun k => k.stream == st) = [] := List.filter_eq_nil_iff.2 fun k hk => by simpa using others k hk
      have kept : l.filter (fun k => k.stream != st) = l := List.filter_eq_self.2 fun k hk => by simpa using others k hk
      rw [mine, kept, ← hj]
      exact State.onStream_id s st
  have head : s.cancelHead st = s := by
    unfold State.cancelHead
    split
    · rfl
    next j l hj => rw [if_neg (h j (hj ▸ List.mem_cons_self))]
  unfold State.cancelRepair
  split
  · rfl
  · rw [queued, head]

/-- Settling keeps the queue or removes its head, the next job promoted (R54). -/
theorem State.settleJob_jobs (s : State) : s.settleJob.jobs = s.jobs ∨ s.settleJob.jobs = promote s.jobs.tail := by
  unfold State.settleJob
  split
  · exact .inl rfl
  · split
    · exact .inr rfl
    · exact .inl rfl

theorem promote_streams (l : List Job) (st : StreamId) (h : ∀ j ∈ l, j.stream ≠ st) : ∀ j ∈ promote l, j.stream ≠ st := by
  intro j hj
  obtain ⟨k, hk, he⟩ := promote_mem l j hj
  rw [he]
  exact h k hk

/-- After the cancellation no job of the stream stands behind the head, and a head job of it is CANCELLING (R65, R66). -/
def NoJobsLeft (l : List Job) (st : StreamId) : Prop :=
  (∀ j ∈ l.tail, j.stream ≠ st) ∧ ∀ j ∈ l.head?, j.stream = st → j.state = .cancelling

theorem noJobsLeft_of_none (l : List Job) (st : StreamId) (h : ∀ j ∈ l, j.stream ≠ st) : NoJobsLeft l st :=
  ⟨fun j hj => h j (List.mem_of_mem_tail hj), fun j hj hs => absurd hs (h j (List.mem_of_mem_head? hj))⟩

/-- The head's cancellation where the jobs behind it are cancelled already. -/
theorem State.cancelHead_jobs (s : State) (st : StreamId) (h : ∀ j ∈ s.jobs.tail, j.stream ≠ st) :
    NoJobsLeft (s.cancelHead st).jobs st := by
  unfold State.cancelHead
  cases hj : s.jobs with
  | nil =>
    dsimp only
    rw [hj]
    exact ⟨nofun, nofun⟩
  | cons j l =>
    rw [hj, List.tail_cons] at h
    dsimp only
    split
    next mine =>
      have cancelled := State.onHead_jobs s.withdrawRepair (fun k => { k with state := .cancelling }) j l
        (s.withdrawRepair_jobs.trans hj)
      rcases State.settleJob_jobs { (s.withdrawRepair).onHead (fun k => { k with state := .cancelling }) with
        bursts := dropHeld s.bursts } with same | ended
      · rw [same, show State.jobs { (s.withdrawRepair).onHead (fun k => { k with state := .cancelling }) with
          bursts := dropHeld s.bursts } = _ from cancelled]
        refine ⟨h, fun k hk _ => ?_⟩
        obtain rfl := Option.some.inj hk
        rfl
      · rw [ended, show State.jobs { (s.withdrawRepair).onHead (fun k => { k with state := .cancelling }) with
          bursts := dropHeld s.bursts } = _ from cancelled]
        exact noJobsLeft_of_none _ st (promote_streams _ st h)
    next other =>
      rw [hj]
      exact noJobsLeft_of_none _ st fun k hk => (List.mem_cons.1 hk).elim (fun e => e ▸ other) (h k)

theorem State.cancelRepair_jobs (s : State) (st : StreamId) (h : s.softResetPending = false) :
    NoJobsLeft (s.cancelRepair st).jobs st := by
  unfold State.cancelRepair
  rw [if_neg (by rw [h]; decide)]
  refine State.cancelHead_jobs _ st ?_
  unfold State.cancelQueued
  cases hj : s.jobs with
  | nil =>
    dsimp only
    rw [hj]
    nofun
  | cons j l =>
    intro k hk
    exact bne_iff_ne.1 (List.mem_filter.1 hk).2

/-- The fifth request, before the drain it may end (R173). -/
theorem State.takeTeardown_repair (s : State) (st : StreamId) (h : (s.stream st).drainTaken = 4) :
    s.takeTeardown st = (((s.cancelRepair st).onStream st fun x => { x with drainTaken := 5 }).reportQuiet st
      (s.stream st) false).settleDrain st := by
  unfold State.takeTeardown State.teardownTaking
  rw [h]
  rfl

theorem State.takeTeardown_stream_ne (s : State) (st k : StreamId) (h : k ≠ st) :
    (s.takeTeardown st).stream k = s.stream k := by
  unfold State.takeTeardown
  dsimp only
  rw [State.settleDrain_stream_ne _ _ _ h, State.reportQuiet_stream_ne _ _ _ _ _ h, State.stream_onStream_ne _ _ _ _ h,
    State.teardownTaking_stream_ne _ _ _ h]

/-! ### Where a slot comes to rest (R163, R165, R174) -/

theorem StreamState.restOff_frame (x : StreamState) : x.restOff = { x with
    life := .off, armRequest := false, armAwaited := [], drainTaken := 0, poolQuiet := false
    bufs := x.restOff.bufs, ready := [], readers := entriesBuilt x.desc } := by
  unfold StreamState.restOff StreamState.standbyPool
  split <;> rfl

theorem StreamState.restRefused_frame (x : StreamState) : x.restRefused = { x with
    life := .refused, armRequest := false, armAwaited := [], drainTaken := 0, poolQuiet := false
    bufs := [], ready := [], readers := entriesBuilt x.desc } := rfl

theorem StreamState.rearm_frame (x : StreamState) : x.rearm = { x with
    life := .off, armRequest := true, armAwaited := armBlocks, drainTaken := 0, poolQuiet := false
    bufs := poolBuilt x.desc, ready := [], readers := entriesBuilt x.desc } := rfl

theorem StreamState.restOff_bufs (x : StreamState) : x.restOff.bufs =
    if 2 ≤ Decode.poolSize x.desc ∧ Decode.poolSize x.desc ≤ 6 then poolBuilt x.desc else [] := by
  unfold StreamState.restOff StreamState.standbyPool
  split
  next size => exact (if_pos size).symm
  next size => exact (if_neg size).symm

theorem StreamState.desc_of_current (x : StreamState) (i : Installed) (h : x.current = some i) : x.desc = i.desc := by
  unfold StreamState.desc
  rw [h]

section
variable (x : StreamState) (i : Installed) (h : x.current = some i)
include h

theorem builtFor_restOff (ho : i.outcome ≠ .refused) : BuiltFor x.restOff i where
  readers := by rw [x.restOff_frame, x.desc_of_current i h]
  queue := by rw [x.restOff_frame]
  pool _ lo hi := by
    rw [x.restOff_bufs, x.desc_of_current i h, if_pos ⟨lo, hi⟩]
  absent none := by
    rcases none with refused | ⟨-, size⟩
    · exact absurd refused ho
    · rw [x.restOff_bufs, x.desc_of_current i h, if_neg size]

theorem builtFor_restRefused (ho : i.outcome = .refused) : BuiltFor x.restRefused i where
  readers := by rw [x.restRefused_frame, x.desc_of_current i h]
  queue := rfl
  pool ne := absurd ho ne
  absent _ := rfl

theorem builtFor_rearm (ho : i.outcome = .enabled) : BuiltFor x.rearm i where
  readers := by rw [x.rearm_frame, x.desc_of_current i h]
  queue := rfl
  pool _ _ _ := by rw [x.rearm_frame, x.desc_of_current i h]
  absent none := by
    rcases none with k | ⟨k, -⟩
    · rw [ho] at k; cases k
    · rw [ho] at k; cases k

end

/-! ### The drain end (R174) -/

/-- The state a drain comes to keeps descriptor, windows, flags and counters, and starts its own count anew (R174). -/
structure Rested (x y : StreamState) : Prop where
  current : y.current = x.current
  windows : y.windows = x.windows
  pending : y.pendingSlot = x.pendingSlot
  flags : y.flags = x.flags
  counters : y.counters = x.counters
  taken : y.drainTaken = 0
  quiet : y.poolQuiet = false

theorem rested_restOff (x : StreamState) : Rested x x.restOff := by
  rw [x.restOff_frame]
  exact ⟨rfl, rfl, rfl, rfl, rfl, rfl, rfl⟩

theorem StreamState.outcome_of_current (x : StreamState) (i : Installed) (h : x.current = some i) :
    x.outcome = some i.outcome := congrArg _ h

theorem StreamState.afterDrain_refused (x : StreamState) (h : x.outcome = some .refused) :
    x.afterDrain = x.restRefused := by
  unfold StreamState.afterDrain
  rw [h]

theorem StreamState.afterDrain_armed (x : StreamState) (h : x.outcome = some .enabled) (ha : x.armRequest = true) :
    x.afterDrain = x.rearm := by
  unfold StreamState.afterDrain
  rw [h]
  exact if_pos ha

theorem StreamState.afterDrain_off (x : StreamState) (h : x.outcome ≠ some .refused)
    (hn : ¬ (x.outcome = some .enabled ∧ x.armRequest = true)) : x.afterDrain = x.restOff := by
  unfold StreamState.afterDrain
  cases ho : x.outcome with
  | none => rfl
  | some o =>
    cases o with
    | refused => exact absurd ho h
    | disabled => rfl
    | enabled => exact if_neg fun k => hn ⟨ho, k⟩

theorem StreamState.afterDrain_cases (x : StreamState) :
    (x.outcome = some .refused ∧ x.afterDrain = x.restRefused) ∨
    (x.outcome = some .enabled ∧ x.armRequest = true ∧ x.afterDrain = x.rearm) ∨
    (x.outcome ≠ some .refused ∧ ¬ (x.outcome = some .enabled ∧ x.armRequest = true) ∧ x.afterDrain = x.restOff) := by
  by_cases refused : x.outcome = some .refused
  · exact .inl ⟨refused, x.afterDrain_refused refused⟩
  · by_cases armed : x.outcome = some .enabled ∧ x.armRequest = true
    · exact .inr (.inl ⟨armed.1, armed.2, x.afterDrain_armed armed.1 armed.2⟩)
    · exact .inr (.inr ⟨refused, armed, x.afterDrain_off refused armed⟩)

theorem rested_afterDrain (x : StreamState) : Rested x x.afterDrain := by
  rcases x.afterDrain_cases with ⟨-, h⟩ | ⟨-, -, h⟩ | ⟨-, -, h⟩
  · rw [h]; exact ⟨rfl, rfl, rfl, rfl, rfl, rfl, rfl⟩
  · rw [h]; exact ⟨rfl, rfl, rfl, rfl, rfl, rfl, rfl⟩
  · rw [h]; exact rested_restOff x

theorem builtFor_afterDrain (x : StreamState) (i : Installed) (h : x.current = some i) : BuiltFor x.afterDrain i := by
  have outcome := x.outcome_of_current i h
  rcases x.afterDrain_cases with ⟨ho, he⟩ | ⟨ho, -, he⟩ | ⟨ho, -, he⟩
  · rw [he]; exact builtFor_restRefused x i h (Option.some.inj (outcome.symm.trans ho))
  · rw [he]; exact builtFor_rearm x i h (Option.some.inj (outcome.symm.trans ho))
  · rw [he]; exact builtFor_restOff x i h fun k => ho (outcome.trans (congrArg some k))

theorem StreamState.switch_none (x : StreamState) (h : x.pendingSlot = none) : x.switch = x := by
  unfold StreamState.switch
  rw [h]

theorem StreamState.switch_some (x : StreamState) (i : Installed) (h : x.pendingSlot = some i) : x.switch = { x with
    current := some i, windows := if i.mapped then some (windowsOf i.desc) else none, pendingSlot := none } := by
  unfold StreamState.switch
  rw [h]
  rfl

theorem StreamState.switch_frame (x : StreamState) :
    x.switch = { x with current := x.switch.current, windows := x.switch.windows, pendingSlot := none } := by
  cases h : x.pendingSlot with
  | none => rw [x.switch_none h, ← h]
  | some i => rw [x.switch_some i h]

section
variable (s : State) (st : StreamId)

theorem State.leaveWaitSet_outside (h : st ∉ s.waitSet) : s.leaveWaitSet st = s := by
  unfold State.leaveWaitSet
  rw [if_neg (by simpa using h)]

theorem State.leaveWaitSet_rest (h : st ∈ s.waitSet) (hk : ∃ k ∈ s.waitSet, k ≠ st) :
    s.leaveWaitSet st = { s with waitSet := s.waitSet.filter (· != st) } := by
  obtain ⟨k, hk, hne⟩ := hk
  have stays : k ∈ s.waitSet.filter (· != st) := List.mem_filter.2 ⟨hk, bne_iff_ne.2 hne⟩
  unfold State.leaveWaitSet
  rw [if_pos (by simpa using h)]
  dsimp only
  rw [if_neg fun e => List.not_mem_nil (List.isEmpty_iff.1 e ▸ stays)]

/-- The removal that leaves the wait set empty ends the reload (R178). -/
theorem State.leaveWaitSet_last (h : st ∈ s.waitSet) (hk : ∀ k ∈ s.waitSet, k = st) : s.leaveWaitSet st =
    { s with waitSet := [], reloadInProgress := false, lastReload := .applied, deviceFlags := s.deviceFlags ||| 0x04#5 } := by
  have empty : s.waitSet.filter (· != st) = [] := List.filter_eq_nil_iff.2 fun k hm => by simpa using hk k hm
  unfold State.leaveWaitSet
  rw [if_pos (by simpa using h), empty]
  rfl

theorem State.settleDrain_waits (h : (s.stream st).poolQuiet = false ∨ (s.stream st).drainTaken ≠ 5) :
    s.settleDrain st = s := by
  unfold State.settleDrain
  dsimp only
  rw [if_neg]
  rintro ⟨-, quiet, taken⟩
  rcases h with h | h
  · rw [h] at quiet; cases quiet
  · exact h taken

theorem State.settleDrain_ends (h1 : (s.stream st).life = .draining) (h2 : (s.stream st).poolQuiet = true)
    (h3 : (s.stream st).drainTaken = 5) : s.settleDrain st = s.endDrain st := by
  unfold State.settleDrain
  exact if_pos ⟨h1, h2, h3⟩

end

/-- The slot a drain end leaves outside a soft reset's wait (R174). -/
def StreamState.drained (x : StreamState) : StreamState := ((x.raise .streamDown).switch).afterDrain

/-- The slot after STREAM_DOWN and the descriptor switch, before it comes to rest (R174, steps 1 and 2). -/
def StreamState.switched (x : StreamState) : StreamState := (x.raise .streamDown).switch

theorem StreamState.drained_eq (x : StreamState) : x.drained = x.switched.afterDrain := rfl

theorem StreamState.switched_frame (x : StreamState) : x.switched = { x with
    flags := x.flags ||| 0x80#8, current := x.switched.current, windows := x.switched.windows, pendingSlot := none } :=
  (x.raise .streamDown).switch_frame

theorem StreamState.switched_none (x : StreamState) (h : x.pendingSlot = none) :
    x.switched.current = x.current ∧ x.switched.windows = x.windows := by
  rw [StreamState.switched, (x.raise .streamDown).switch_none h]
  exact ⟨rfl, rfl⟩

theorem StreamState.switched_some (x : StreamState) (i : Installed) (h : x.pendingSlot = some i) :
    x.switched.current = some i ∧ x.switched.windows = if i.mapped then some (windowsOf i.desc) else none := by
  rw [StreamState.switched, (x.raise .streamDown).switch_some i h]
  exact ⟨rfl, rfl⟩

theorem StreamState.afterDrain_outcome (x : StreamState) : x.afterDrain.outcome = x.outcome := by
  unfold StreamState.outcome
  rw [(rested_afterDrain x).current]

/-- Where the drain leaves the lifecycle state and the arm request (R174, step 3). -/
theorem StreamState.drained_rest (x : StreamState) :
    (x.drained.outcome = some .refused → x.drained.life = .refused ∧ x.drained.armRequest = false ∧
      x.drained.armAwaited = []) ∧
    (x.drained.outcome = some .enabled → x.armRequest = true → x.drained.life = .off ∧ x.drained.armRequest = true ∧
      x.drained.armAwaited = [.poolManager, .captureUnit, .presentationUnit, .cadenceMonitor, .eventUnit]) ∧
    (x.drained.outcome = some .disabled ∨ (x.drained.outcome = some .enabled ∧ x.armRequest = false) →
      x.drained.life = .off ∧ x.drained.armRequest = false ∧ x.drained.armAwaited = []) := by
  have request : x.switched.armRequest = x.armRequest := by rw [x.switched_frame]
  rw [x.drained_eq, StreamState.afterDrain_outcome]
  refine ⟨fun h => ?_, fun h ha => ?_, fun h => ?_⟩
  · rw [StreamState.afterDrain_refused _ h]
    exact ⟨rfl, rfl, rfl⟩
  · rw [StreamState.afterDrain_armed _ h (request.trans ha)]
    exact ⟨rfl, rfl, rfl⟩
  · rw [StreamState.afterDrain_off, StreamState.restOff_frame]
    · exact ⟨rfl, rfl, rfl⟩
    · rcases h with h | ⟨h, -⟩ <;> rw [h] <;> nofun
    · rw [request]
      rcases h with h | ⟨-, h⟩
      · rw [h]; nofun
      · rw [h]; nofun

theorem State.endDrain_eq (s : State) (st : StreamId) (h : s.softResetPending = false) :
    s.endDrain st = (s.setStream st (s.stream st).drained).leaveWaitSet st := by
  unfold State.endDrain
  rw [if_neg (by rw [h]; decide)]
  rfl

theorem State.endDrain_inReset (s : State) (st : StreamId) (h : s.softResetPending = true) :
    s.endDrain st = s.setStream st ((s.stream st).raise .streamDown).restOff := by
  unfold State.endDrain
  rw [if_pos h]
  rfl

end Sys2Proof.Machine

namespace Sys2Proof.TimersAndTeardown

open Sys2Proof Sys2Proof.Machine Sys2Proof.Safety

/-- Settles O40: each timer by whether it is due. -/
theorem timerExpiries : Obligations.TimerExpiries := by
  refine ⟨fun s st => ⟨fun e hr he x hx => ?_, fun h => if_neg (Timer.not_due _ _ h)⟩,
    fun s st k r hk => ⟨fun e hr he x y q hx hy hq => ?_, fun h => if_neg ?_⟩⟩
  · subst hx
    exact if_pos (Timer.due_of_running _ _ e hr he)
  · subst hx hy
    have due : ((s.stream st).reader k).timer.due s.now = true := by
      rw [StreamState.reader_at _ k r hk]
      exact Timer.due_of_running _ _ e hr he
    have taken : exec (.scanTimerExpiry st k) s =
        .next ((s.quietPorts.onStream st (fun x => x.expire k)).reportQuiet st (s.stream st) false) := if_pos due
    obtain ⟨quiet, life, bufs⟩ := (s.stream st).expire_kept k r hk
    rw [taken, State.reportQuiet_after, State.stream_onStream, State.quietPorts_stream,
      quietAfter_eq _ _ q (by rw [quiet, life, bufs]; exact hq), StreamState.expire_eq _ k r hk]
    exact congrArg Host.Outcome.next (State.setStream_setStream s.quietPorts st _ _)
  · rw [StreamState.reader_at _ k r hk]
    exact Timer.not_due _ _ h

/-- Settles O41: a message not awaited, one of several awaited, and the last. -/
theorem armMessageTaken : Obligations.ArmMessageTaken := by
  intro s st b x y hx hy
  subst hx
  have block : (s.stream st).armBlock s.now b = y := by
    subst hy
    cases b <;> rfl
  have awaited : y.armAwaited = (s.stream st).armAwaited := by rw [← block, armBlock_await]
  have taken : b ∈ (s.stream st).armAwaited →
      exec (.armMessage st b) s = .next ({ s with ports := Ports.quiet }.setStream st (y.armTaken b)) := by
    intro h
    rw [← block]
    exact if_pos (by simpa using h)
  refine ⟨fun h => if_neg (by simpa using h), fun h others => ?_, fun h alone => ?_⟩
  · obtain ⟨c, hc, hne⟩ := others
    have stays : c ∈ (s.stream st).armAwaited.filter (· != b) := List.mem_filter.2 ⟨hc, bne_iff_ne.2 hne⟩
    have more : ¬ ((s.stream st).armAwaited.filter (· != b)).isEmpty = true :=
      fun e => List.not_mem_nil (List.isEmpty_iff.1 e ▸ stays)
    rw [taken h, StreamState.armTaken, awaited]
    exact congrArg (fun z => Host.Outcome.next (State.setStream _ st z)) (if_neg more)
  · have last : ((s.stream st).armAwaited.filter (· != b)).isEmpty = true :=
      List.isEmpty_iff.2 (List.filter_eq_nil_iff.2 fun c hc => by simpa using alone c hc)
    rw [taken h, StreamState.armTaken, awaited]
    exact congrArg (fun z => Host.Outcome.next (State.setStream _ st z)) (if_pos last)

/-- Settles O42: outside DRAINING, the first four requests by their block, and the fifth. -/
theorem teardownInOrder : Obligations.TeardownInOrder := by
  intro s st x hx
  subst hx
  refine ⟨fun h => if_neg fun k => ?_, fun hl hn => ?_⟩
  · rcases h with h | h
    · exact h k.1
    · omega
  have taken : exec (.teardownRequest st) s = .next (s.quietPorts.takeTeardown st) := if_pos ⟨hl, hn⟩
  refine ⟨_, _, taken, rfl, fun k hk => State.takeTeardown_stream_ne _ st k hk, ?_⟩
  by_cases four : (s.stream st).drainTaken < 4
  · have block := State.takeTeardown_block s.quietPorts st _ rfl four
    rw [State.quietPorts_stream] at block
    obtain ⟨life, count, quiet⟩ := (s.stream st).tornDown_spec (s.stream st).drainTaken hl
    rw [block, State.stream_setStream]
    refine ⟨fun _ => ⟨life, count, rfl, quiet⟩, fun h => ?_, fun h => ?_, fun h => ?_, fun h => ?_, fun h => ?_, fun h => ?_⟩
    · rw [h]; exact StreamState.tornDown_capture _
    · rw [h]; exact StreamState.tornDown_cadence _
    · rw [h]; exact StreamState.tornDown_pool _
    · rw [h]; exact StreamState.tornDown_presentation _
    · omega
    · omega
  · have fifth : (s.stream st).drainTaken = 4 := by omega
    have last := State.takeTeardown_repair s.quietPorts st fifth
    refine ⟨fun h => absurd h four, fun h => absurd h (by omega), fun h => absurd h (by omega), fun h => absurd h (by omega),
      fun h => absurd h (by omega), fun _ soft => ?_, fun _ none => ?_⟩
    · rw [last, State.settleDrain_frame, State.reportQuiet_frame]
      exact State.cancelRepair_jobs s.quietPorts st soft
    · rw [last, State.cancelRepair_none s.quietPorts st none, State.reportQuiet_after, State.stream_onStream,
        quietAfter_eq _ _ (s.stream st).poolQuiet ?_]
      · exact congrArg (State.settleDrain · st) (State.setStream_setStream s.quietPorts st _ _)
      · refine ⟨.inl, fun k => k.resolve_right ?_⟩
        rintro ⟨-, free, b, hb, hne⟩
        exact hne (free b hb)

/-- Settles O43: a drain that goes on, one that ends in a soft reset's wait, and one that ends outside. -/
theorem drainEnd : Obligations.DrainEnd := by
  intro s st x hx hl
  subst hx
  refine ⟨s.settleDrain_waits st, fun quiet taken soft => ⟨_, _, rfl, rfl, fun k hk => s.settleDrain_stream_ne st k hk, ?_⟩,
    fun quiet taken soft => ⟨_, _, rfl, rfl, fun k hk => s.settleDrain_stream_ne st k hk, ?_⟩⟩
  · rw [s.settleDrain_ends st hl quiet taken, s.endDrain_inReset st soft, State.stream_setStream, StreamState.restOff_frame]
    exact ⟨rfl, rfl, rfl, rfl, rfl, rfl, rfl, rfl⟩
  · have rested := rested_afterDrain (s.stream st).switched
    have kept := (s.stream st).switched_frame
    rw [s.settleDrain_ends st hl quiet taken, s.endDrain_eq st soft, State.leaveWaitSet_stream, State.stream_setStream]
    refine ⟨?_, rested.taken, rested.quiet, ?_, ?_, fun none => ?_, fun i hi => ?_,
      fun i hi => builtFor_afterDrain _ i (rested.current.symm.trans hi), (s.stream st).drained_rest.1,
      (s.stream st).drained_rest.2.1, (s.stream st).drained_rest.2.2, fun out => ?_, fun member others => ?_,
      fun member alone => ?_⟩
    · exact rested.flags.trans (by rw [kept])
    · exact rested.counters.trans (by rw [kept])
    · exact rested.pending.trans (by rw [kept])
    · obtain ⟨current, windows⟩ := (s.stream st).switched_none none
      exact ⟨rested.current.trans current, rested.windows.trans windows⟩
    · obtain ⟨current, windows⟩ := (s.stream st).switched_some i hi
      exact ⟨rested.current.trans current, rested.windows.trans windows⟩
    · rw [State.leaveWaitSet_outside (s.setStream st (s.stream st).drained) st out]; rfl
    · rw [State.leaveWaitSet_rest (s.setStream st (s.stream st).drained) st member others]; rfl
    · rw [State.leaveWaitSet_last (s.setStream st (s.stream st).drained) st member alone]; rfl

end Sys2Proof.TimersAndTeardown
end

section
/-! PROOF. Grants and returns at the downstream port (Chapters 1, 3, 7 and 8): the Loader's reads, the Repair Engine's grants, and
what a response to a PASS transaction does. -/
set_option Elab.async false

namespace Sys2Proof.Machine

open Sys2Proof Sys2Proof.Safety

/-! ### The grant (R138) -/

section
variable (s : State) (offer : Option Initiator)

theorem State.takeGrant_loader (q : LoaderRead) (h : s.loaderEligible = true) (hq : s.loaderRequest = some q) :
    s.takeGrant offer = .next (s.grantLoader q) := by
  unfold State.takeGrant
  rw [h, hq]

theorem State.takeGrant_repair (j : Job) (q : RepairRequest) (h : s.loaderEligible = false)
    (ht : s.repairTurn offer = true) (hq : s.repairRequest = some (j, q)) : s.takeGrant offer = s.grantRepair j q := by
  unfold State.takeGrant
  rw [h, ht, hq]

theorem State.takeGrant_none (h : s.loaderEligible = false) (ht : s.repairTurn offer = false) :
    s.takeGrant offer = .next s := by
  unfold State.takeGrant
  rw [h, ht]

end

/-- No LOADER request is granted without one, without a free entry, or at the Loader's limit (R137). -/
theorem State.loaderEligible_false (s : State)
    (h : s.loaderRequest = none ∨ 32 ≤ s.table.length ∨ 3 ≤ (s.entriesOf .loader).length) : s.loaderEligible = false := by
  rw [← Bool.not_eq_true, State.loaderEligible_iff]
  rintro ⟨request, room, limit⟩
  rcases h with h | h | h
  · rw [h] at request; cases request
  · omega
  · omega

/-- No REPAIR request is granted where none is eligible, or where an eligible PASS request goes first (R138). -/
theorem State.repairTurn_false (s : State) (offer : Option Initiator)
    (h : s.repairStands = false ∨ 32 ≤ s.table.length ∨ 4 ≤ (s.entriesOf .repair).length ∨
      (s.starvation ≠ 8 ∧ ∃ i, offer = some i ∧ s.passEligible i = true)) : s.repairTurn offer = false := by
  rw [State.repairTurn, Bool.and_eq_false_iff, ← Bool.not_eq_true, State.repairEligible_iff]
  rcases h with h | h | h | ⟨calm, i, rfl, pass⟩
  · exact .inl fun k => by rw [h] at k; exact absurd k.1 (by decide)
  · exact .inl fun k => by omega
  · exact .inl fun k => by omega
  · refine .inr ?_
    rw [Option.any_some, pass, Bool.or_eq_false_iff]
    exact ⟨beq_eq_false_iff_ne.2 calm, rfl⟩

/-! ### The Loader's reads (R149 to R151) -/

theorem State.loaderRequest_of (s : State) (l : Load) (q : LoaderRead) (rest : List LoaderRead)
    (hs : s.softResetPending = false) (hl : s.load = some l) (hp : l.plan = q :: rest) : s.loaderRequest = some q := by
  unfold State.loaderRequest
  rw [if_neg (by rw [hs]; decide), hl]
  exact congrArg List.head? hp

theorem Load.receive_failed (l : Load) (q : LoaderRead) (d : List Byte) : l.receive q .error d = { l with
    copies := l.copies.set q.copy.val { l.copies.get q.copy with state := .failed } q.copy.isLt
    plan := l.plan.filter (fun p => p.copy ≠ q.copy) } := by
  unfold Load.receive
  dsimp only
  congr 1
  refine List.filter_congr fun p _ => ?_
  rw [bne, beq_eq_decide, decide_not]

theorem Load.receive_purpose_copies (l : Load) (q : LoaderRead) (status : Status) (d : List Byte) :
    ∀ k, k ≠ q.copy → (l.receive q status d).copies.get k = l.copies.get k := by
  intro k hk
  have hne : q.copy.val ≠ k.val := fun e => hk (Fin.ext e.symm)
  cases status <;>
    simp only [Load.receive, Vector.get_eq_getElem, Vector.getElem_set_ne q.copy.isLt k.isLt hne]

theorem Load.receive_copy (l : Load) (q : LoaderRead) (status : Status) (d : List Byte) :
    (l.receive q status d).copies.get q.copy = match status with
      | .okay => (l.copies.get q.copy).store q.offset d
      | .error => { l.copies.get q.copy with state := .failed } := by
  cases status <;> simp [Load.receive, Vector.get_eq_getElem]

section
variable (c : CopyRx) (d : List Byte)

theorem CopyRx.store_failed (o : Nat) (h : c.state = .failed) : c.store o d = c := if_pos h

theorem CopyRx.settled_pending (h : c.state = .pending) : c.settled = { c with
    state := if c.first.isSome ∧ c.second.isSome ∧ c.third.isSome then .received else .pending } := by
  unfold CopyRx.settled
  by_cases all : c.first.isSome ∧ c.second.isSome ∧ c.third.isSome
  · rw [if_pos ⟨h, all⟩, if_pos all]
  · rw [if_neg fun k => all k.2, if_neg all, ← h]

variable (h : c.state = .pending)
include h

/-- The bytes of each of the three reads go to their place, and the last of them completes the copy (R151). -/
theorem CopyRx.store_pending :
    (c.store 0 d = { c with
      first := some d
      state := if c.second.isSome ∧ c.third.isSome then .received else .pending }) ∧
    (c.store 256 d = { c with
      second := some d
      state := if c.first.isSome ∧ c.third.isSome then .received else .pending }) ∧
    (c.store 512 d = { c with
      third := some d
      state := if c.first.isSome ∧ c.second.isSome then .received else .pending }) := by
  have live : c.state ≠ .failed := by rw [h]; decide
  refine ⟨?_, ?_, ?_⟩
  · rw [CopyRx.store, if_neg live, if_pos rfl, CopyRx.settled_pending { c with first := some d } h]
    simp
  · rw [CopyRx.store, if_neg live, if_neg (by decide), if_pos rfl, CopyRx.settled_pending { c with second := some d } h]
    simp
  · rw [CopyRx.store, if_neg live, if_neg (by decide), if_neg (by decide),
      CopyRx.settled_pending { c with third := some d } h]
    simp

end

/-- The return to an image read: its entry freed, its bytes received, and the evaluation it may bring (R143, R151). -/
theorem State.takeReturn_loader (s : State) (r : DsResponse) (e : Entry) (q : LoaderRead) (h : s.matched r = some e)
    (hk : e.kind = .loaderRead q) : s.takeReturn r = ((s.route e r).freeEntry e).settleLoad := by
  unfold State.takeReturn
  rw [h]
  dsimp only
  rw [hk]
  rfl

theorem State.route_loader (s : State) (r : DsResponse) (e : Entry) (q : LoaderRead) (hk : e.kind = .loaderRead q) :
    s.route e r = if s.softResetPending then s
      else { s with load := s.load.map (fun l => l.receive q r.status r.data) } := by
  unfold State.route
  rw [hk]

theorem filter_ne_index (l : List Entry) (n : Nat) :
    l.filter (fun f => f.index != n) = l.filter (fun f => f.index ≠ n) :=
  List.filter_congr fun f _ => by rw [bne, beq_eq_decide, decide_not]

theorem State.settleLoad_inReset (s : State) (h : s.softResetPending = true) : s.settleLoad = s := by
  unfold State.settleLoad
  split
  · rfl
  · rw [if_pos (.inl h)]

/-! ### The Repair Engine's grants (R55 to R59) -/

/-- Whether the next burst is due, or a held one can be written, a REPAIR request stands. -/
theorem State.repairStands_of (s : State) (x : Job × RepairRequest) (h : s.repairRequest = some x) :
    s.repairStands = true := by
  rw [State.repairStands, h]
  rfl

theorem State.repairRequest_held (s : State) (j : Job) (rest : List Job) (l m : List Burst) (b : Burst) (d : List Byte)
    (hs : s.softResetPending = false) (hj : s.jobs = j :: rest) (hr : j.state = .running) (hb : s.bursts = l ++ b :: m)
    (hp : b.phase = .held d) (first : ∀ x ∈ l, ∀ e, x.phase ≠ .held e) :
    s.repairRequest = some (j, .writeHeld b.slot b.offset d) := by
  unfold State.repairRequest
  rw [if_neg (by rw [hs]; decide), hj]
  dsimp only
  rw [if_pos hr, hb, oldestHeld_some l m b d hp first]

/-- A grant to the presented request of the head job. -/
theorem exec_grant_repair (s : State) (offer : Option Initiator) (j : Job) (q : RepairRequest) (turn : RepairTurn s offer)
    (h : s.repairRequest = some (j, q)) : exec (.grant offer) s = s.quietPorts.grantRepair j q := by
  obtain ⟨loader, repair⟩ := RepairTurn.granted s offer turn (s.repairStands_of _ h)
  exact State.takeGrant_repair s.quietPorts offer j q loader repair h

/-- Issuing the write of the burst in one slot marks that burst alone (R58, R59). -/
theorem map_writes (l m : List Burst) (b : Burst) (h : ((l ++ b :: m).map (·.slot)).Nodup) :
    (l ++ b :: m).map (Burst.writes b.slot) = l ++ { b with phase := .writing } :: m := by
  rw [List.map_append, List.map_cons, List.nodup_append, List.nodup_cons] at h
  obtain ⟨-, ⟨after, -⟩, before⟩ := h
  have other : ∀ x : Burst, x.slot ≠ b.slot → Burst.writes b.slot x = x := fun x hx => if_neg hx
  rw [List.map_append, List.map_cons, List.map_congr_left (g := id), List.map_congr_left (l := m) (g := id), List.map_id,
    List.map_id]
  · exact congrArg (fun x => l ++ x :: m) (if_pos rfl)
  · exact fun x hx => other x fun e => after (e ▸ List.mem_map_of_mem hx)
  · exact fun x hx => other x (before _ (List.mem_map_of_mem hx) _ List.mem_cons_self)

section
variable (s : State) (j : Job) (rest : List Job) (b : Buf) (hj : s.jobs = j :: rest)
  (hb : (s.stream j.stream).bufs[j.target]? = some b)
include hj hb

/-- The write of a held burst (R58, R59). -/
theorem State.grantHeldWrite_eq (slot offset : Nat) (data : List Byte) :
    s.quietPorts.grantHeldWrite j slot offset data = .next { s.setStream j.stream { s.stream j.stream with
        bufs := (s.stream j.stream).bufs.set j.target { b with inFlight := b.inFlight + 1 } } with
      jobs := { j with outstanding := j.outstanding + 1 } :: rest
      bursts := s.bursts.map (Burst.writes slot)
      table := s.table ++ [{ index := s.freeIndex, kind := .repairWrite j.stream j.target slot }]
      starvation := 0
      ports := ownIssue s (b.addressAt offset) (.write data) } := by
  unfold State.grantHeldWrite
  rw [State.quietPorts_stream, hb]
  dsimp only
  rw [State.onStream_eq, State.quietPorts_stream, StreamState.increment_at _ j.target b hb]
  unfold State.jobIssued State.onHead
  dsimp only [State.issue, State.setStream_jobs, State.quietPorts]
  rw [hj]
  rfl

/-- The next write of a PAD job (R56, R57). -/
theorem State.grantPad_eq : s.quietPorts.grantPad j = .next { s.setStream j.stream { s.stream j.stream with
      bufs := (s.stream j.stream).bufs.set j.target { b with inFlight := b.inFlight + 1 } } with
    jobs := { j.walked (s.stream j.stream).desc b.coverage with
      outstanding := (j.walked (s.stream j.stream).desc b.coverage).outstanding + 1 } :: rest
    bursts := s.bursts ++ [{ slot := s.freeRepairSlot, offset := burstOffset (s.stream j.stream).desc j,
                             length := burstLength (s.stream j.stream).desc j, phase := .writing }]
    table := s.table ++ [{ index := s.freeIndex, kind := .repairWrite j.stream j.target s.freeRepairSlot }]
    starvation := 0
    ports := ownIssue s (b.addressAt (burstOffset (s.stream j.stream).desc j)) (.write (fillData
      (Decode.fillWord (s.stream j.stream).desc) (b.addressAt (burstOffset (s.stream j.stream).desc j)).toNat
      (burstLength (s.stream j.stream).desc j))) } := by
  unfold State.grantPad
  dsimp only
  rw [State.quietPorts_stream, hb]
  dsimp only
  rw [State.onStream_eq, State.quietPorts_stream, StreamState.increment_at _ j.target b hb, fillBytes_fillData]
  exact congrArg Host.Outcome.next (State.burstIssued_eq _ _ j rest _ _ hj)

/-- The next read of a COPY job (R56, R58). -/
theorem State.grantCopyRead_eq (source : Nat) (c : Buf) (hc : (s.stream j.stream).bufs[source]? = some c) :
    s.quietPorts.grantCopyRead j source = .next { s.setStream j.stream { s.stream j.stream with
        bufs := (s.stream j.stream).bufs.set source { c with inFlight := c.inFlight + 1 } } with
      jobs := { j.walked (s.stream j.stream).desc b.coverage with
        outstanding := (j.walked (s.stream j.stream).desc b.coverage).outstanding + 1 } :: rest
      bursts := s.bursts ++ [{ slot := s.freeRepairSlot, offset := burstOffset (s.stream j.stream).desc j,
                               length := burstLength (s.stream j.stream).desc j, phase := .reading }]
      table := s.table ++ [{ index := s.freeIndex, kind := .repairRead j.stream source s.freeRepairSlot }]
      starvation := 0
      ports := ownIssue s (c.addressAt (burstOffset (s.stream j.stream).desc j))
        (.read (burstLength (s.stream j.stream).desc j)) } := by
  unfold State.grantCopyRead
  dsimp only
  rw [State.quietPorts_stream, hb, hc]
  dsimp only
  rw [State.onStream_eq, State.quietPorts_stream, StreamState.increment_at _ source c hc]
  exact congrArg Host.Outcome.next (State.burstIssued_eq _ _ j rest _ _ hj)

end

/-! ### The return of a PASS transaction (R142 to R144) -/

theorem EntryKind.requester_pass (k : EntryKind) (x : Initiator × Tag) (h : k.passKey = some x) : k.requester = .pass := by
  cases k with
  | passThrough | captureWrite | captureRead | presentationRead => rfl
  | repairRead | repairWrite | loaderRead => cases h

section
variable (s : State) (r : DsResponse)

theorem State.takeReturn_unmatched (h : s.matched r = none) : s.takeReturn r = s := by
  unfold State.takeReturn
  rw [h]

theorem State.matched_pass (h : r.origin = false) :
    s.matched r = s.table.find? (fun e => e.kind.passKey == some (r.initiator, r.tag)) := by
  unfold State.matched
  rw [if_neg (by rw [h]; decide)]

theorem State.matched_own (h : r.origin = true) :
    s.matched r = s.table.find? (fun e => e.index == r.tag.toNat && e.kind.requester != .pass) := by
  unfold State.matched
  rw [if_pos h]

/-- A matched PASS response names its entry's initiator and tag. -/
theorem State.matched_passKey (e : Entry) (h : r.origin = false) (hm : s.matched r = some e) :
    e.kind.passKey = some (r.initiator, r.tag) := by
  rw [s.matched_pass r h] at hm
  simpa using List.find?_some hm

/-- The oldest entry with the response's initiator and tag is matched (R142). -/
theorem State.matched_oldest (l m : List Entry) (e : Entry) (h : r.origin = false) (ht : s.table = l ++ e :: m)
    (he : e.kind.passKey = some (r.initiator, r.tag)) (first : ∀ f ∈ l, f.kind.passKey ≠ some (r.initiator, r.tag)) :
    s.matched r = some e := by
  have none : l.find? (fun e => e.kind.passKey == some (r.initiator, r.tag)) = .none :=
    List.find?_eq_none.2 fun f hf => by simpa using first f hf
  rw [s.matched_pass r h, ht, List.find?_append, none, Option.none_or, List.find?_cons_of_pos (by simpa using he)]

variable (e : Entry) (hm : s.matched r = some e)
include hm

theorem State.takeReturn_ports : (s.takeReturn r).ports = (s.route e r).ports := by
  unfold State.takeReturn
  rw [hm]
  dsimp only
  rw [State.settleStream_frame, State.settleRequester_frame, State.freeEntry_frame]
  change ((s.route e r).settleCount e.kind r.status).ports = _
  rw [State.settleCount_frame]

variable (hp : e.kind.passKey = some (r.initiator, r.tag))
include hp

/-- The return of an uncounted PASS transaction changes table, order lists and pins alone. -/
theorem State.takeReturn_uncounted (hc : e.kind.counted = none) : s.takeReturn r =
    { s with table := (s.takeReturn r).table, orders := (s.takeReturn r).orders, ports := (s.takeReturn r).ports } := by
  have whole : s.takeReturn r = (s.fulfil r.initiator e.index ⟨r.status, r.data⟩).freeEntry e := by
    unfold State.takeReturn State.settleStream State.settleRequester State.settleCount
    rw [hm]
    dsimp only
    rw [hc, e.kind.requester_pass _ hp, s.route_pass e r _ _ hp]
  rw [whole]
  rfl

end

/-- An entry that does not wait for this index stays as it is. -/
theorem map_fulfil_others (l : List OrderEntry) (n : Nat) (x : Response) (h : ∀ o ∈ l, o.state ≠ .waits n) :
    l.map (OrderEntry.fulfil n x) = l :=
  (List.map_congr_left fun o ho => if_neg (h o ho)).trans (List.map_id l)

theorem map_fulfil_one (pre post : List OrderEntry) (w : OrderEntry) (n : Nat) (x : Response) (hw : w.state = .waits n)
    (h : ∀ o ∈ pre ++ post, o.state ≠ .waits n) :
    (pre ++ w :: post).map (OrderEntry.fulfil n x) = pre ++ { w with state := .ready x } :: post := by
  rw [List.map_append, List.map_cons, map_fulfil_others pre n x fun o ho => h o (List.mem_append_left _ ho),
    map_fulfil_others post n x fun o ho => h o (List.mem_append_right _ ho)]
  exact congrArg (fun y => pre ++ y :: post) (if_pos hw)

theorem filter_index_split (l m : List Entry) (e : Entry) (h : ((l ++ e :: m).map (·.index)).Nodup) :
    (l ++ e :: m).filter (fun f => f.index != e.index) = l ++ m := by
  rw [List.map_append, List.map_cons, List.nodup_append, List.nodup_cons] at h
  obtain ⟨-, ⟨after, -⟩, before⟩ := h
  rw [List.filter_append, List.filter_cons_of_neg (by simp), List.filter_eq_self.2, List.filter_eq_self.2]
  · exact fun f hf => bne_iff_ne.2 fun e => after (e ▸ List.mem_map_of_mem hf)
  · exact fun f hf => bne_iff_ne.2 (before _ (List.mem_map_of_mem hf) _ List.mem_cons_self)

/-- A list with a ready head sends it and the ready entries behind it, and keeps the rest (R136). -/
theorem splitReady_ready_head (w : OrderEntry) (post : List OrderEntry) (i : Initiator) (x : Response)
    (h : w.state = .ready x) : ∃ (run : List (OrderEntry × Response)) (left : List OrderEntry),
      post = run.map Prod.fst ++ left ∧ (∀ y ∈ run, y.1.state = .ready y.2) ∧
      (∀ y z, left = y :: z → ∀ x, y.state ≠ .ready x) ∧ (splitReady (w :: post)).2 = left ∧
      (splitReady (w :: post)).1.flatMap (OrderEntry.sent i) =
        sentFor i w x :: run.map (fun y => sentFor i y.1 y.2) := by
  have leaves : splitReady (w :: post) = (w :: (splitReady post).1, (splitReady post).2) := by
    rw [splitReady, h]
  obtain ⟨run, prefix_, ready, sent⟩ := splitReady_run post
  obtain ⟨split, -, waiting⟩ := splitReady_spec post
  refine ⟨run, (splitReady post).2, prefix_ ▸ split, ready, fun y z hyz x hx => ?_, by rw [leaves], ?_⟩
  · obtain ⟨n, hn⟩ := waiting y z hyz
    rw [hn] at hx
    cases hx
  · have head : w.sent i = [sentFor i w x] := by
      rw [OrderEntry.sent, h]
      rfl
    rw [leaves, List.flatMap_cons, head, sent]
    rfl

/-! ### The decrement of a counted buffer (R5, R144) -/

/-- The state a counted return leaves before the quiet report and the drain end. -/
def State.counted (s : State) (r : DsResponse) (e : Entry) : State :=
  ((s.route e r).settleCount e.kind r.status).freeEntry e

theorem State.takeReturn_counted (s : State) (r : DsResponse) (e : Entry) (st : StreamId) (i : Nat)
    (hm : s.matched r = some e) (hp : e.kind.requester = .pass) (hc : e.kind.counted = some (st, i)) :
    s.takeReturn r = ((s.counted r e).setStream st (quietAfter (s.stream st) ((s.counted r e).stream st))).settleDrain st := by
  rw [← State.reportQuiet_after]
  unfold State.takeReturn State.settleStream State.settleRequester State.counted
  rw [hm]
  dsimp only
  rw [hp, hc]

theorem quietAfter_of_not (before x : StreamState) (h : x.life ≠ .draining) : quietAfter before x = x :=
  if_neg fun k => h k.1

theorem State.settleDrain_life (s : State) (st : StreamId) (h : (s.stream st).life ≠ .draining) : s.settleDrain st = s := by
  unfold State.settleDrain
  exact if_neg fun k => h k.1

/-- The write error mark is for an ERROR to a capture write alone (R6). -/
theorem EntryKind.writeFailed_iff (k : EntryKind) (status : Status) (i : Initiator) (t : Tag) (st : StreamId) (n : Nat)
    (hp : k.passKey = some (i, t)) (hc : k.counted = some (st, n)) :
    k.writeFailed status = true ↔ status = .error ∧ k = .captureWrite i t st n := by
  cases k with
  | passThrough | captureRead => cases hc
  | repairRead | repairWrite | loaderRead => cases hp
  | captureWrite i' t' st' n' =>
    cases hp
    cases hc
    cases status <;> simp [EntryKind.writeFailed]
  | presentationRead i' t' st' n' => simp [EntryKind.writeFailed]

section
variable (s : State) (st : StreamId) (i : Nat) (b : Buf) (w : Bool) (h : (s.stream st).bufs[i]? = some b)
include h

theorem State.decrement_eq : s.decrement st i w = (s.setStream st { s.stream st with
    bufs := (s.stream st).bufs.set i (Buf.decrement w b) }).drain st i := by
  rw [State.decrement, State.onStream_eq, StreamState.onBuf_at _ i b _ h]

/-- A decrement that leaves a record that is not judged only counts down (R5). -/
theorem State.decrement_quiet (hn : ¬ ((Buf.decrement w b).state = .closing ∧ (Buf.decrement w b).inFlight = 0)) :
    s.decrement st i w = s.setStream st { s.stream st with bufs := (s.stream st).bufs.set i (Buf.decrement w b) } := by
  rw [s.decrement_eq st i b w h]
  refine State.drain_not _ st i (Buf.decrement w b) ?_ hn
  rw [State.stream_setStream]
  exact getElem_set_at _ _ _ _ h

end

theorem Buf.decrement_notClosing (b : Buf) (w : Bool) (h : b.state ≠ .closing) : (Buf.decrement w b).state ≠ .closing := by
  rw [Buf.decrement_eq]
  split
  · split
    · nofun
    · exact h
  · exact h

theorem State.decrement_life (s : State) (st : StreamId) (i : Nat) (w : Bool) :
    ((s.decrement st i w).stream st).life = (s.stream st).life := by
  rw [State.decrement, State.drain_life, State.stream_onStream]
  rfl

/-- What a counted PASS return leaves: the order list and pins of its response, the decrement, and its entry freed. -/
theorem State.counted_eq (s : State) (r : DsResponse) (e : Entry) (st : StreamId) (i : Nat)
    (hp : e.kind.passKey = some (r.initiator, r.tag)) (hc : e.kind.counted = some (st, i)) : s.counted r e =
      { (s.fulfil r.initiator e.index ⟨r.status, r.data⟩).decrement st i (e.kind.writeFailed r.status) with
        table := s.table.filter (fun f => f.index ≠ e.index) } := by
  unfold State.counted State.settleCount
  rw [s.route_pass e r _ _ hp, hc]
  dsimp only
  rw [State.freeEntry, filter_ne_index, State.decrement_frame]
  rfl

/-- The decrement of a counted buffer and what stands around it: the pins, the order lists and the table. -/
theorem State.decrement_around (s w t : State) (st : StreamId) (i : Nat) (f : Bool) (table : List Entry)
    (hw : w = { s with orders := w.orders, ports := w.ports })
    (ht : t = { w.decrement st i f with table := table }) : t =
    { s with streams := t.streams, jobs := t.jobs, orders := t.orders, ports := t.ports, table := table } := by
  rw [State.decrement_frame, hw] at ht
  rw [ht]

end Sys2Proof.Machine

namespace Sys2Proof.DownstreamPort

open Sys2Proof Sys2Proof.Machine Sys2Proof.Safety

/-- Settles O44: the grant, the response outside a soft reset's wait, and the response in it. -/
theorem loaderReads : Obligations.LoaderReads := by
  refine ⟨fun s offer => ⟨fun l q rest soft hl hp room limit => ?_, fun loader repair => ?_⟩,
    fun s r e l q wf soft hm hk hl _ => ?_, fun s r e q wf soft hm hk => ?_⟩
  · have request := s.loaderRequest_of l q rest soft hl hp
    have eligible : s.loaderEligible = true := s.loaderEligible_iff.2 ⟨by rw [request]; rfl, room, limit⟩
    refine (State.takeGrant_loader s.quietPorts offer q eligible request).trans (congrArg Host.Outcome.next ?_)
    unfold State.grantLoader
    rw [show s.quietPorts.load = some l from hl, Option.map_some, hp]
    rfl
  · exact State.takeGrant_none s.quietPorts offer (s.loaderEligible_false loader) (s.repairTurn_false offer repair)
  · have routed : s.quietPorts.route e r =
        { s with load := some (l.receive q r.status r.data), ports := Ports.quiet } := by
      rw [State.route_loader _ r e q hk, if_neg (fun k => by rw [show s.quietPorts.softResetPending = false from soft] at k; cases k),
        show s.quietPorts.load = some l from hl]
      rfl
    have taken := State.takeReturn_loader s.quietPorts r e q hm hk
    rw [routed] at taken
    refine ⟨_, l.receive q r.status r.data, l.copies.get q.copy, (exec_returned s r wf).trans (congrArg _ taken), rfl, rfl,
      Load.receive_purpose l q r.status r.data, l.receive_purpose_copies q r.status r.data, rfl, fun f => ?_, fun error => ?_,
      fun okay => ?_⟩
    · change f ∈ s.table.filter _ ↔ _
      rw [List.mem_filter, bne_iff_ne]
    · rw [error]
      exact ⟨l.receive_copy q .error r.data, by rw [Load.receive_failed]⟩
    · rw [okay]
      have stored := l.receive_copy q .okay r.data
      refine ⟨rfl, fun failed => stored.trans (CopyRx.store_failed _ _ _ failed), fun pending => ?_⟩
      obtain ⟨first, second, third⟩ := CopyRx.store_pending (l.copies.get q.copy) r.data pending
      refine ⟨fun o => ?_, fun o => ?_, fun o => ?_⟩
      · rw [o] at stored; exact stored.trans first
      · rw [o] at stored; exact stored.trans second
      · rw [o] at stored; exact stored.trans third
  · have routed : s.quietPorts.route e r = s.quietPorts := by
      rw [State.route_loader _ r e q hk]
      exact if_pos soft
    rw [exec_returned s r wf, State.takeReturn_loader s.quietPorts r e q hm hk, routed]
    refine (congrArg Host.Outcome.next (State.settleLoad_inReset (s.quietPorts.freeEntry e) soft)).trans ?_
    rw [State.freeEntry, filter_ne_index]
    rfl

/-- Settles O45: the PAD write, the write of a held burst, and the COPY read. -/
theorem repairGrants : Obligations.RepairGrants := by
  refine ⟨fun s offer j rest b d turn hj due pad hb hd => ?_, fun s offer j rest source b c d turn hj running copy hb hc hd =>
    ⟨fun l m burst data hbursts held first distinct => ?_, fun due => ?_⟩⟩
  · subst hd
    have taken := exec_grant_repair s offer j .nextBurst turn (s.repairRequest_due j rest turn.1 hj due)
    have granted : s.quietPorts.grantRepair j .nextBurst = s.quietPorts.grantPad j := by
      unfold State.grantRepair
      rw [pad]
    rw [granted, s.grantPad_eq j rest b hj hb] at taken
    obtain ⟨slot, free⟩ := s.freeRepairSlot_free due.2.2.1
    exact ⟨_, _, _, s.freeRepairSlot, taken, rfl, slot, fun x hx he => free (he ▸ List.mem_map_of_mem hx),
      Job.walked_spec _ _ j due.2.2.2, rfl, rfl, rfl, fun k hk => State.stream_setStream_ne _ _ _ _ hk,
      State.stream_setStream _ _ _⟩
  · rw [exec_grant_repair s offer j _ turn (s.repairRequest_held j rest l m burst data turn.1 hj running hbursts held first)]
    refine (s.grantHeldWrite_eq j rest b hj hb burst.slot burst.offset data).trans ?_
    rw [hbursts] at distinct ⊢
    rw [map_writes l m burst distinct]
    rfl
  · subst hd
    have taken := exec_grant_repair s offer j .nextBurst turn (s.repairRequest_due j rest turn.1 hj due)
    have granted : s.quietPorts.grantRepair j .nextBurst = s.quietPorts.grantCopyRead j source := by
      unfold State.grantRepair
      rw [copy]
    rw [granted, s.grantCopyRead_eq j rest b hj hb source c hc] at taken
    obtain ⟨slot, free⟩ := s.freeRepairSlot_free due.2.2.1
    exact ⟨_, _, s.freeRepairSlot, taken, slot, fun x hx he => free (he ▸ List.mem_map_of_mem hx),
      Job.walked_spec _ _ j due.2.2.2, rfl, rfl, rfl, fun k hk => State.stream_setStream_ne _ _ _ _ hk,
      State.stream_setStream _ _ _⟩

/-- Settles O46: the two kinds of unmatched response, then the match, what it frees, and what its list sends. -/
theorem returnToInitiator : Obligations.ReturnToInitiator := by
  intro s r wf
  refine ⟨fun pass none => ?_, fun own none => ?_, fun l e m pass ht hp first distinct pre w post ho hw others => ?_⟩
  · rw [exec_returned s r wf, State.takeReturn_unmatched]
    · rfl
    · rw [State.matched_pass _ r pass]
      exact List.find?_eq_none.2 fun e he => by simpa using none e he
  · rw [exec_returned s r wf, State.takeReturn_unmatched]
    · rfl
    · rw [State.matched_own _ r own]
      refine List.find?_eq_none.2 fun e he hk => ?_
      rw [Bool.and_eq_true, beq_iff_eq, bne_iff_ne] at hk
      exact (none e he).elim hk.2 fun k => k hk.1
  have hm : s.quietPorts.matched r = some e := s.quietPorts.matched_oldest r l m e pass ht hp first
  obtain ⟨table, orders⟩ := s.quietPorts.takeReturn_tables r e hm
  have ports := s.quietPorts.takeReturn_ports r e hm
  rw [s.quietPorts.route_pass e r _ _ hp] at orders ports
  have lists : ∀ i, (s.quietPorts.takeReturn r).order i =
      (s.quietPorts.fulfil r.initiator e.index ⟨r.status, r.data⟩).order i := fun i => by
    unfold State.order
    rw [orders]
  have mine : (s.quietPorts.order r.initiator).map (OrderEntry.fulfil e.index ⟨r.status, r.data⟩) =
      pre ++ { w with state := .ready ⟨r.status, r.data⟩ } :: post := by
    rw [show s.quietPorts.order r.initiator = _ from ho]
    exact map_fulfil_one pre post w e.index _ hw others
  rw [State.fulfil_ports, mine] at ports
  have list : (s.quietPorts.takeReturn r).order r.initiator =
      (splitReady (pre ++ { w with state := .ready ⟨r.status, r.data⟩ } :: post)).2 := by
    rw [lists, State.fulfil_order, if_pos rfl, mine]
  refine ⟨_, exec_returned s r wf, ?_, fun i hi => ?_, by rw [ports]; rfl, by rw [ports]; rfl, fun hc => ?_,
    fun p q n hpre waits => ?_, fun hpre => ?_⟩
  · rw [table, show s.quietPorts.table = _ from ht]
    exact filter_index_split l m e (ht ▸ distinct)
  · rw [lists, State.fulfil_order, if_neg hi]
    rfl
  · exact s.quietPorts.takeReturn_uncounted r e hm hp hc
  · subst hpre
    have stays : splitReady (p :: q ++ { w with state := .ready ⟨r.status, r.data⟩ } :: post) =
        ([], p :: q ++ { w with state := .ready ⟨r.status, r.data⟩ } :: post) := by
      rw [List.cons_append, splitReady, waits]
    rw [list, ports, stays]
    exact ⟨rfl, rfl⟩
  · subst hpre
    obtain ⟨run, left, split, ready, waiting, rest, sent⟩ :=
      splitReady_ready_head { w with state := .ready ⟨r.status, r.data⟩ } post r.initiator ⟨r.status, r.data⟩ rfl
    exact ⟨run, left, split, ready, waiting, list.trans rest, (congrArg Ports.responses ports).trans sent⟩

/-- Settles O47, by the state of the counted buffer. -/
theorem returnDecrements : Obligations.ReturnDecrements := by
  intro s r e st i b failed wf pass hm hc hb hf
  have hp : e.kind.passKey = some (r.initiator, r.tag) := s.matched_passKey r e pass hm
  have mark : e.kind.writeFailed r.status = failed :=
    Bool.eq_iff_iff.2 ((e.kind.writeFailed_iff r.status _ _ st i hp hc).trans hf.symm)
  have taken := s.quietPorts.takeReturn_counted r e st i hm (e.kind.requester_pass _ hp) hc
  have whole := s.quietPorts.counted_eq r e st i hp hc
  rw [mark] at whole
  generalize hv : s.quietPorts.counted r e = v at taken whole
  generalize hw : s.quietPorts.fulfil r.initiator e.index ⟨r.status, r.data⟩ = w at whole
  have slots : w.streams = s.streams := by rw [← hw]; rfl
  have queue : w.jobs = s.jobs := by rw [← hw]; rfl
  have slot : ∀ k, w.stream k = s.stream k := fun k => State.stream_of_streams slots k
  have hbw : (w.stream st).bufs[i]? = some b := by rw [slot]; exact hb
  have own : ∀ k, v.stream k = (w.decrement st i failed).stream k := fun k => by rw [whole]; rfl
  have life : (v.stream st).life = (s.stream st).life := by rw [own, State.decrement_life, slot]
  have counts : ¬ ((Buf.decrement failed b).state = .closing ∧ (Buf.decrement failed b).inFlight = 0) →
      v.jobs = s.jobs ∧ v.stream st = { s.stream st with bufs := (s.stream st).bufs.set i (Buf.decrement failed b) } := by
    intro hn
    rw [own, whole, w.decrement_quiet st i b failed hbw hn, State.stream_setStream, slot]
    exact ⟨queue, rfl⟩
  refine ⟨_, v, (exec_returned s r wf).trans (congrArg _ taken), rfl, fun hl => ?_, ?_, fun k hk => ?_, fun open_ => ?_,
    fun closing releasing => ?_, fun releasing => ?_, fun closing => ?_⟩
  · rw [quietAfter_of_not _ _ (by rw [life]; exact hl), State.setStream_self, State.settleDrain_life _ _ (by rw [life]; exact hl)]
  · exact State.decrement_around s w v st i failed _ (hw ▸ rfl) whole
  · rw [own, State.decrement, State.drain_stream_ne _ _ _ _ hk, State.stream_onStream_ne _ _ _ _ hk, slot]
  · exact (counts fun k => b.decrement_notClosing failed open_ k.1).1
  · rw [(counts fun k => b.decrement_notClosing failed closing k.1).2, Buf.decrement_eq, if_neg releasing]
    simp [closing]
  · rw [(counts fun k => b.decrement_notClosing failed (by rw [releasing]; nofun) k.1).2, Buf.decrement_eq, if_pos releasing]
  · have left : Buf.decrement failed b =
        { b with inFlight := b.inFlight - 1, writeError := b.writeError || failed } := by
      rw [Buf.decrement_eq, if_neg (by simp [closing])]
      simp [closing]
    refine ⟨_, rfl, fun more => ?_, fun last => ?_⟩
    · have unjudged : ¬ ((Buf.decrement failed b).state = .closing ∧ (Buf.decrement failed b).inFlight = 0) := by
        rw [left]
        exact fun k => absurd k.2 (by simp; omega)
      refine ⟨?_, (counts unjudged).1⟩
      rw [whole, w.decrement_quiet st i b failed hbw unjudged, left]
      simp only [State.setStream, slots, slot]
    · rw [whole, w.decrement_eq st i b failed hbw, left]
      exact State.drain_congr _ _ st i (by simp only [State.setStream, slots, slot]) queue

end Sys2Proof.DownstreamPort
end

section
/-! PROOF. The Repair Engine (Chapter 3): the response to a repair transaction, the end of the head job, and the cancellation of
a stream's jobs. -/
set_option Elab.async false

namespace Sys2Proof.Machine

open Sys2Proof Sys2Proof.Safety

/-! ### Unpins and releases where they find no record (R4, R7) -/

theorem StreamState.onBuf_absent (x : StreamState) (i : Nat) (f : Buf → Buf) (h : x.bufs[i]? = none) : x.onBuf i f = x := by
  have same : x.bufs.modify i f = x.bufs := List.modify_eq_self (List.getElem?_eq_none_iff.1 h)
  unfold StreamState.onBuf
  rw [same]

theorem bufs_set_self (l : List Buf) (i : Nat) (b : Buf) (h : l[i]? = some b) : l.set i b = l := by
  obtain ⟨hi, rfl⟩ := List.getElem?_eq_some_iff.1 h
  exact List.set_getElem_self hi

/-- The record an unpin leaves (R7). -/
theorem Buf.unpinned_eq (c : Buf) : Buf.settle { c with pins := c.pins - 1 } =
    if c.state = .releasing ∧ c.inFlight = 0 ∧ c.pins ≤ 1 then Buf.fresh c.base else { c with pins := c.pins - 1 } := by
  unfold Buf.settle
  refine if_congr (and_congr_right fun _ => and_congr_right fun _ => ?_) rfl rfl
  exact ⟨fun k => by dsimp only at k; omega, fun k => by dsimp only; omega⟩

theorem StreamState.unpinFor_eq (x : StreamState) (m : Method) : x.unpinFor m = sourceLeft x m := by
  cases m with
  | pad => rfl
  | copy k =>
    unfold StreamState.unpinFor StreamState.unpin sourceLeft
    dsimp only
    cases h : x.bufs[k]? with
    | none => exact x.onBuf_absent k _ h
    | some c =>
      rw [x.onBuf_at k c _ h, Buf.unpinned_eq]
      rfl

theorem StreamState.release_eq (x : StreamState) (i : Nat) : x.release i = targetReleased x i := by
  unfold targetReleased
  cases h : x.bufs[i]? with
  | none => exact (x.dequeue i).onBuf_absent i _ h
  | some b =>
    dsimp only
    split
    next rests =>
      have same : Buf.release b = b := if_pos rests
      rw [StreamState.release, (x.dequeue i).onBuf_at i b _ h, same, show (x.dequeue i).bufs = x.bufs from rfl,
        bufs_set_self x.bufs i b h]
      rfl
    next moves => exact x.release_at i b h (fun k => moves (.inl k)) (fun k => moves (.inr k))

/-- The unpin of a job's source keeps the descriptor and the lifecycle. -/
theorem sourceLeft_frame (x : StreamState) (m : Method) : sourceLeft x m = { x with bufs := (sourceLeft x m).bufs } := by
  unfold sourceLeft
  cases m with
  | pad => rfl
  | copy k => dsimp only; split <;> rfl

/-- The cancellation of queued jobs, in queue order (R65). -/
theorem foldl_cancelJob (l : List Job) : ∀ x : StreamState, l.foldl StreamState.cancelJob x = cancelled x l := by
  induction l with
  | nil => exact fun _ => rfl
  | cons j l ih =>
    intro x
    rw [List.foldl_cons, StreamState.cancelJob, StreamState.unpinFor_eq, StreamState.release_eq]
    exact ih _

/-! ### The bursts a response or a cancellation leaves (R58, R63, R66) -/

theorem mem_dropHeld (l : List Burst) (x : Burst) : x ∈ dropHeld l ↔ x ∈ l ∧ ∀ d, x.phase ≠ .held d := by
  rw [dropHeld, List.mem_filter]
  refine and_congr_right fun _ => ?_
  cases x.phase with
  | held d => exact ⟨nofun, fun k => absurd rfl (k d)⟩
  | reading | writing => exact ⟨fun _ => nofun, fun _ => rfl⟩

theorem freeSlot_eq (n : Nat) (l : List Burst) : freeSlot n l = l.filter (fun x => x.slot ≠ n) :=
  List.filter_congr fun x _ => by rw [bne, beq_eq_decide, decide_not]

theorem mem_freeSlot (n : Nat) (l : List Burst) (x : Burst) : x ∈ freeSlot n l ↔ x ∈ l ∧ x.slot ≠ n := by
  rw [freeSlot, List.mem_filter, bne_iff_ne]

/-! ### The end of the head job (R60, R64, R66 to R68) -/

theorem State.settleJob_inReset (s : State) (h : s.softResetPending = true) : s.settleJob = s := by
  unfold State.settleJob
  split
  · rfl
  · rw [h]
    rfl

theorem State.jobOver_iff (s : State) (j : Job) : s.jobOver j = true ↔ j.outstanding = 0 ∧
    ((j.state = .running ∧ Decode.lines (s.stream j.stream).desc ≤ j.nextLine ∧ s.bursts = []) ∨ j.state = .failing ∨
      j.state = .cancelling) := by
  unfold State.jobOver
  cases j.state with
  | running =>
    simp only [walkDone, Bool.and_eq_true, decide_eq_true_eq, beq_iff_eq, List.isEmpty_iff, reduceCtorEq, true_and, or_false,
      and_comm, and_left_comm]
  | failing | cancelling => simp
  | queued => simp

section
variable (x : StreamState) (j : Job) (b : Buf) (h : x.bufs[j.target]? = some b)
include h

theorem StreamState.jobReport_cancelled (hc : j.state = .cancelling ∨ (x.life = .draining ∧ 3 ≤ x.drainTaken)) :
    x.jobReport j = x.release j.target := by
  unfold StreamState.jobReport
  rw [h]
  exact if_pos (hc.imp_right fun ⟨life, taken⟩ => by simp [StreamState.poolTornDown, life, taken])

variable (hc : ¬ (j.state = .cancelling ∨ (x.life = .draining ∧ 3 ≤ x.drainTaken)))
include hc

omit h in
/-- The Pool Manager's teardown request is not yet taken, or the stream does not drain (R67). -/
theorem StreamState.reports : ¬ (j.state = .cancelling ∨ x.poolTornDown = true) := fun k =>
  hc (k.imp_right fun t => by simpa [StreamState.poolTornDown] using t)

theorem StreamState.jobReport_failing (hf : j.state = .failing) :
    x.jobReport j = (x.handOn .rejectedRepairFail b).release j.target := by
  unfold StreamState.jobReport
  rw [h]
  exact (if_neg (x.reports j hc)).trans (if_pos hf)

theorem StreamState.jobReport_done (hf : j.state ≠ .failing) : x.jobReport j =
    x.finishGood (match j.method with | .pad => .repairedPad | .copy _ => .repairedCopy) j.target b := by
  unfold StreamState.jobReport
  rw [h]
  refine (if_neg (x.reports j hc)).trans ((if_neg hf).trans ?_)
  cases j.method <;> rfl

end

/-! ### A response to a repair transaction (R58, R63, R64, R66, R68) -/

section
variable (s : State) (j : Job) (rest : List Job) (h : s.jobs = j :: rest)
include h

theorem State.onHead_eq (f : Job → Job) : s.onHead f = { s with jobs := f j :: rest } := by
  unfold State.onHead
  rw [h]

/-- A request stands for a RUNNING head job alone (R59). -/
theorem State.repairStands_of_head (hj : j.state ≠ .running) : s.repairStands = false := by
  unfold State.repairStands State.repairRequest
  rw [h]
  split
  · rfl
  · dsimp only
    rw [if_neg hj]
    rfl

theorem State.repairLive_iff : s.repairLive = true ↔ s.softResetPending = false ∧ j.state = .running := by
  unfold State.repairLive
  rw [h, Bool.and_eq_true, Bool.not_eq_true']
  exact and_congr_right fun _ => by simp

variable (isRead : Bool) (slot : Nat) (data : List Byte)

/-- Outside RUNNING and in a soft reset's wait the slot is freed whatever the response says (R64, R66, R68). -/
theorem State.routeRepair_free (status : Status) (hl : j.state ≠ .running ∨ s.softResetPending = true) :
    s.routeRepair isRead slot status data = { s with bursts := freeSlot slot s.bursts } := by
  unfold State.routeRepair
  refine if_neg fun live => ?_
  obtain ⟨reset, running⟩ := (s.repairLive_iff j rest h).1 live
  exact hl.elim (fun k => k running) fun k => by rw [reset] at k; cases k

variable (hr : s.softResetPending = false) (hj : j.state = .running)
include hr hj

theorem State.routeRepair_okay : s.routeRepair isRead slot .okay data =
    { s with bursts := if isRead then holdData slot data s.bursts else freeSlot slot s.bursts } := by
  unfold State.routeRepair
  rw [if_pos ((s.repairLive_iff j rest h).2 ⟨hr, hj⟩)]
  cases isRead <;> rfl

/-- The first error of a job (R63). -/
theorem State.routeRepair_error : s.routeRepair isRead slot .error data = { s with
    starvation := if s.repairStands then 0 else s.starvation
    jobs := { j with state := .failing } :: rest
    bursts := dropHeld (freeSlot slot s.bursts) }.setStream j.stream ((s.stream j.stream).raise .repairFault) := by
  unfold State.routeRepair
  rw [if_pos ((s.repairLive_iff j rest h).2 ⟨hr, hj⟩)]
  dsimp only
  rw [State.onHead_eq _ j rest (s.withdrawRepair_jobs.trans h), h]
  unfold State.withdrawRepair
  cases s.repairStands <;> rfl

end

/-- The kind of the entry of a repair transaction. -/
def repairKind (isRead : Bool) (st : StreamId) (i slot : Nat) : EntryKind :=
  if isRead then .repairRead st i slot else .repairWrite st i slot

theorem repairKind_of (k : EntryKind) (st : StreamId) (i slot : Nat)
    (h : k = .repairWrite st i slot ∨ k = .repairRead st i slot) : ∃ isRead, k = repairKind isRead st i slot :=
  h.elim (fun w => ⟨false, w⟩) fun r => ⟨true, r⟩

/-- The state a repair return leaves before the job may end: routed, decremented, its entry freed, counted at the job. -/
def State.repairReturned (s : State) (e : Entry) (r : DsResponse) (st : StreamId) (i : Nat) : State :=
  (((s.route e r).decrement st i false).freeEntry e).onHead fun j => { j with outstanding := j.outstanding - 1 }

section
variable (s : State) (r : DsResponse) (e : Entry) (st : StreamId) (i slot : Nat) (isRead : Bool)
  (hk : e.kind = repairKind isRead st i slot)
include hk

theorem State.route_repair : s.route e r = s.routeRepair isRead slot r.status r.data := by
  unfold State.route
  rw [hk]
  cases isRead <;> rfl

theorem State.takeReturn_repair (hm : s.matched r = some e) : s.takeReturn r =
    ((s.repairReturned e r st i).settleJob.setStream st
      (quietAfter (s.stream st) ((s.repairReturned e r st i).settleJob.stream st))).settleDrain st := by
  rw [← State.reportQuiet_after]
  unfold State.takeReturn State.settleStream State.settleRequester State.settleCount
  rw [hm]
  dsimp only
  rw [hk]
  cases isRead <;> rfl

end

/-- A repair return once its routing is known: the count falls, a RELEASING buffer left with counts of 0 goes to FREE. -/
theorem State.repairReturned_eq (s t : State) (e : Entry) (r : DsResponse) (st : StreamId) (i : Nat) (b c : Buf) (j : Job)
    (rest : List Job) (ht : s.route e r = t) (hj : t.jobs = j :: rest) (hb : (t.stream st).bufs[i]? = some b)
    (hn : b.state ≠ .closing)
    (hc : c = if b.state = .releasing ∧ b.inFlight ≤ 1 ∧ b.pins = 0 then Buf.fresh b.base
      else { b with inFlight := b.inFlight - 1 }) : s.repairReturned e r st i =
    { t with
      jobs := { j with outstanding := j.outstanding - 1 } :: rest
      table := t.table.filter (fun f => f.index ≠ e.index) }.setStream st
        { t.stream st with bufs := (t.stream st).bufs.set i c } := by
  have record : Buf.decrement false b = c := by
    rw [hc, Buf.decrement_eq]
    by_cases hr : b.state = .releasing
    · simp [hr]
    · simp [hr]
  unfold State.repairReturned
  rw [ht, t.decrement_quiet st i b false hb fun k => b.decrement_notClosing false hn k.1, record]
  generalize { t.stream st with bufs := (t.stream st).bufs.set i c } = y
  rw [State.onHead_eq ((t.setStream st y).freeEntry e) j rest hj, State.freeEntry, filter_ne_index]
  rfl

/-! ### The cancellation of a stream's jobs (R65, R66) -/

/-- The request of the head job reads the head, the bursts and its stream's descriptor alone (R59). -/
theorem State.repairStands_of_sameHead (s v : State) (j : Job) (l m : List Job) (hs : s.jobs = j :: l) (hv : v.jobs = j :: m)
    (hr : v.softResetPending = s.softResetPending) (hb : v.bursts = s.bursts)
    (hd : (v.stream j.stream).desc = (s.stream j.stream).desc) : v.repairStands = s.repairStands := by
  simp only [State.repairStands, State.repairRequest, hs, hv, hr, hb, hd]

theorem StreamState.cancelJob_current (x : StreamState) (j : Job) : (x.cancelJob j).current = x.current := by
  rw [StreamState.cancelJob, StreamState.release_current, StreamState.unpinFor_eq, sourceLeft_frame]

theorem cancelled_current (l : List Job) : ∀ x : StreamState, (cancelled x l).current = x.current := by
  induction l with
  | nil => exact fun _ => rfl
  | cons j l ih =>
    intro x
    rw [cancelled, ih, ← StreamState.unpinFor_eq, ← StreamState.release_eq]
    exact x.cancelJob_current j

section
variable (s : State) (st : StreamId) (j : Job) (rest : List Job) (h : s.jobs = j :: rest)
include h

theorem State.cancelQueued_eq : s.cancelQueued st =
    { s with jobs := j :: rest.filter (fun k => k.stream ≠ st) }.setStream st
      (cancelled (s.stream st) (rest.filter (fun k => k.stream = st))) := by
  have mine : rest.filter (fun k => k.stream == st) = rest.filter (fun k => k.stream = st) :=
    List.filter_congr fun k _ => beq_eq_decide _ _
  have others : rest.filter (fun k => k.stream != st) = rest.filter (fun k => k.stream ≠ st) :=
    List.filter_congr fun k _ => by rw [bne, beq_eq_decide, decide_not]
  unfold State.cancelQueued
  rw [h]
  dsimp only
  rw [State.onStream_eq, foldl_cancelJob, mine, others]
  rfl

theorem State.cancelHead_other (hj : j.stream ≠ st) : s.cancelHead st = s := by
  unfold State.cancelHead
  rw [h]
  exact if_neg hj

theorem State.cancelHead_mine (hj : j.stream = st) : s.cancelHead st = State.settleJob { s with
    jobs := { j with state := .cancelling } :: rest
    starvation := if s.repairStands then 0 else s.starvation
    bursts := dropHeld s.bursts } := by
  unfold State.cancelHead
  rw [State.onHead_eq _ j rest (s.withdrawRepair_jobs.trans h), h]
  refine (if_pos hj).trans (congrArg State.settleJob ?_)
  unfold State.withdrawRepair
  cases s.repairStands <;> rfl

/-- The jobs behind the head are cancelled without a change of the request that stands (R65). -/
theorem State.cancelQueued_repairStands : (s.cancelQueued st).repairStands = s.repairStands := by
  have whole := s.cancelQueued_eq st j rest h
  refine State.repairStands_of_sameHead s _ j rest _ h (congrArg State.jobs whole) (by rw [whole]; rfl) (by rw [whole]; rfl) ?_
  rw [whole]
  by_cases hj : j.stream = st
  · rw [hj, State.stream_setStream, StreamState.desc, cancelled_current]
    rfl
  · rw [State.stream_setStream_ne _ _ _ _ hj]
    rfl

end

end Sys2Proof.Machine

namespace Sys2Proof.RepairEngine

open Sys2Proof Sys2Proof.Machine Sys2Proof.Safety

/-- Settles O48: the response of a live job by its status, and of any other. -/
theorem repairReturnTaken : Obligations.RepairReturnTaken := by
  intro s r e j rest i slot b wf hm kinds hj hb hn c hc
  obtain ⟨isRead, hk⟩ := repairKind_of e.kind j.stream i slot kinds
  have taken := (exec_returned s r wf).trans (congrArg _ (s.quietPorts.takeReturn_repair r e j.stream i slot isRead hk hm))
  have routed := s.quietPorts.route_repair r e j.stream i slot isRead hk
  refine ⟨s.quietPorts.repairReturned e r j.stream i, _, rfl, taken, ?_⟩
  by_cases live : j.state = .running ∧ s.softResetPending = false
  · obtain ⟨running, reset⟩ := live
    have noWait : ¬ s.softResetPending = true := by rw [reset]; decide
    cases status : r.status with
    | okay =>
      rw [status, s.quietPorts.routeRepair_okay j rest hj isRead slot r.data reset running] at routed
      rw [s.quietPorts.repairReturned_eq _ e r j.stream i b c j rest routed hj hb hn hc]
      refine ⟨rfl, fun k hk => State.stream_setStream_ne _ _ _ _ hk, fun _ _ _ => ⟨rfl, rfl, State.stream_setStream _ _ _,
        fun write => ?_, fun read => ?_⟩, fun _ _ => nofun, fun k => absurd k (not_or.2 ⟨fun n => n running, noWait⟩),
        fun k => absurd k noWait⟩
      · cases isRead with
        | false => exact freeSlot_eq slot s.bursts
        | true => cases hk.symm.trans write
      · cases isRead with
        | false => cases hk.symm.trans read
        | true => rfl
    | error =>
      rw [status, s.quietPorts.routeRepair_error j rest hj isRead slot r.data reset running] at routed
      rw [s.quietPorts.repairReturned_eq _ e r j.stream i b c { j with state := .failing } rest routed rfl
        (by rw [State.stream_setStream]; exact hb) hn hc]
      refine ⟨rfl, fun k hk => (State.stream_setStream_ne _ _ _ _ hk).trans (State.stream_setStream_ne _ _ _ _ hk),
        fun _ _ => nofun, fun _ _ _ => ⟨rfl, State.repairStands_of_head _ _ rest rfl nofun, rfl, fun x => ?_, ?_⟩,
        fun k => absurd k (not_or.2 ⟨fun n => n running, noWait⟩), fun k => absurd k noWait⟩
      · exact (mem_dropHeld _ x).trans ((and_congr_left' (mem_freeSlot slot s.bursts x)).trans and_assoc)
      · rw [State.stream_setStream]
        exact congrArg (fun x : StreamState => { x with bufs := x.bufs.set i c }) (State.stream_setStream _ _ _)
  · rw [s.quietPorts.routeRepair_free j rest hj isRead slot r.data r.status
      ((not_and_or.1 live).imp id Bool.eq_true_of_not_eq_false)] at routed
    rw [s.quietPorts.repairReturned_eq _ e r j.stream i b c j rest routed hj hb hn hc]
    exact ⟨rfl, fun k hk => State.stream_setStream_ne _ _ _ _ hk, fun running reset => absurd ⟨running, reset⟩ live,
      fun running reset => absurd ⟨running, reset⟩ live,
      fun _ => ⟨rfl, rfl, freeSlot_eq slot s.bursts, State.stream_setStream _ _ _⟩, fun k => State.settleJob_inReset _ k⟩

/-- Settles O49: when the head job is over, and what it reports. -/
theorem repairJobEnds : Obligations.RepairJobEnds := by
  intro s j rest x b hj hx hb ends asCancelled he ha
  have ending : ends ↔ (!s.softResetPending && s.jobOver j) = true := by
    rw [he, Bool.and_eq_true, Bool.not_eq_true', s.jobOver_iff j, hx, StreamState.desc, sourceLeft_frame]
    rfl
  unfold State.settleJob
  rw [hj]
  refine ⟨fun stays => if_neg fun k => stays (ending.2 k), fun e => ?_⟩
  refine ⟨_, _, rfl, rfl, ?_⟩
  dsimp only
  rw [if_pos (ending.1 e)]
  have slot : (s.endJob j).stream j.stream = x.jobReport j := by
    rw [hx, ← StreamState.unpinFor_eq]
    exact State.stream_setStream _ _ _
  rw [slot]
  have jobs : (s.endJob j).jobs = promote rest := congrArg (fun l : List Job => promote l.tail) hj
  refine ⟨fun k hk => s.endJob_stream_ne j k hk, s.endJob_frame j, fun none => ?_, fun k l more => ?_, fun c => ?_,
    fun c failing => ?_, fun c running v hv => ?_⟩
  · rw [jobs, none]
    rfl
  · rw [jobs, more]
    rfl
  · rw [x.jobReport_cancelled j b hb (ha.1 c), StreamState.release_eq]
  · exact x.jobReport_failing j b hb (fun k => c (ha.2 k)) failing
  · rw [x.jobReport_done j b hb (fun k => c (ha.2 k)) (by rw [running]; nofun), hv]
    cases j.method <;> rfl

/-- Settles O50: the jobs behind the head, then the head. -/
theorem repairCancellation : Obligations.RepairCancellation := by
  intro s st x hx life four
  subst hx
  have taken : exec (.teardownRequest st) s = .next (s.quietPorts.takeTeardown st) := if_pos ⟨life, by rw [four]; decide⟩
  rw [s.quietPorts.takeTeardown_repair st four, State.reportQuiet_after, State.onStream_eq, State.stream_setStream,
    State.setStream_setStream] at taken
  refine ⟨_, taken, fun waits => ?_, fun j rest others y reset hj ho hy => ?_⟩
  · unfold State.cancelRepair State.cancelHead State.cancelQueued
    rcases waits with pending | none
    · exact if_pos pending
    · rw [show s.quietPorts.jobs = [] from none]
      dsimp only
      rw [show s.quietPorts.jobs = [] from none]
      exact ite_self _
  have queued := s.quietPorts.cancelQueued_eq st j rest hj
  have stands := s.quietPorts.cancelQueued_repairStands st j rest hj
  have whole : s.quietPorts.cancelRepair st = (s.quietPorts.cancelQueued st).cancelHead st :=
    if_neg (by rw [show s.quietPorts.softResetPending = false from reset]; decide)
  subst ho hy
  refine ⟨fun other => ?_, fun mine => ?_⟩
  · rw [whole, State.cancelHead_other _ st j _ (congrArg State.jobs queued) other, queued]
    rfl
  · rw [whole, State.cancelHead_mine _ st j _ (congrArg State.jobs queued) mine, stands, queued]
    exact ⟨_, rfl, rfl, fun c => mem_dropHeld s.bursts c⟩

end Sys2Proof.RepairEngine
end

section
/-! PROOF. The hand-offs of a load (Chapters 8 and 9): what a slot becomes under a new descriptor, the hand-off of a reload slot
by slot, and the evaluation when the reads of a load have ended. -/
set_option Elab.async false

namespace Sys2Proof.Machine

open Sys2Proof Sys2Proof.Safety

/-! ### A slot that follows a descriptor new in force (R163, R168, R177) -/

/-- The slot that comes from x with this descriptor in force: its tables, its next lifecycle state and arm request, and what
of x it keeps. -/
structure Followed (x y : StreamState) (i : Installed) : Prop where
  current : y.current = some i
  windows : y.windows = if i.mapped then some (windowsOf i.desc) else none
  built : BuiltFor y i
  pending : y.pendingSlot = x.pendingSlot
  flags : y.flags = x.flags
  counters : y.counters = x.counters
  lock : y.lock = x.lock
  timer : y.timer = x.timer
  armRequest : y.armRequest = decide (i.outcome = .enabled)
  life : y.life = if i.outcome = .refused then .refused else .off
  awaited : y.armAwaited = if i.outcome = .enabled then
    [.poolManager, .captureUnit, .presentationUnit, .cadenceMonitor, .eventUnit] else []

theorem followed_follow (x : StreamState) (i : Installed) : Followed x ((x.install i).follow i.outcome) i := by
  cases h : i.outcome with
  | enabled =>
    exact ⟨rfl, rfl, builtFor_rearm _ i rfl h, rfl, rfl, rfl, rfl, rfl, by rw [h]; rfl, by rw [h]; rfl, by rw [h]; rfl⟩
  | disabled =>
    have frame := (x.install i).restOff_frame
    exact ⟨congrArg StreamState.current frame, congrArg StreamState.windows frame,
      builtFor_restOff (x.install i) i rfl (by rw [h]; nofun), (congrArg StreamState.pendingSlot frame).trans rfl,
      (congrArg StreamState.flags frame).trans rfl, (congrArg StreamState.counters frame).trans rfl, (congrArg StreamState.lock frame).trans rfl,
      (congrArg StreamState.timer frame).trans rfl, (congrArg StreamState.armRequest frame).trans (by rw [h]; rfl),
      (congrArg StreamState.life frame).trans (by rw [h]; rfl),
      (congrArg StreamState.armAwaited frame).trans (by rw [h]; rfl)⟩
  | refused =>
    exact ⟨rfl, rfl, builtFor_restRefused _ i rfl h, rfl, rfl, rfl, rfl, rfl, by rw [h]; rfl, by rw [h]; rfl, by rw [h]; rfl⟩

/-! ### One slot at the hand-off of a reload (R164, R177; log 13) -/

theorem StreamState.dropArm_idle (x : StreamState) (h : x.armAwaited = []) : x.dropArm = x := by
  unfold StreamState.dropArm StreamState.arming
  rw [h]
  rfl

/-- Dropping the arm in progress undoes the Cadence Monitor's part of it (log 13). -/
theorem StreamState.dropArm_arming (x : StreamState) (h : x.armAwaited ≠ []) :
    x.dropArm = { x with armAwaited := [], timer := .stopped, lock := .down, acquire := 0, loss := 0 } := by
  have arming : x.arming = true := by simpa [StreamState.arming] using h
  exact if_pos arming

theorem StreamState.dropArm_keeps (x : StreamState) : x.dropArm.pendingSlot = x.pendingSlot ∧ x.dropArm.flags = x.flags ∧
    x.dropArm.counters = x.counters := by
  by_cases h : x.armAwaited = []
  · rw [x.dropArm_idle h]
    exact ⟨rfl, rfl, rfl⟩
  · rw [x.dropArm_arming h]
    exact ⟨rfl, rfl, rfl⟩

theorem StreamState.changedBy_iff (x : StreamState) (d : Descriptor) :
    x.changedBy d = true ↔ x.current.map (·.desc) ≠ some d := bne_iff_ne

theorem imageDescriptors_getD (slot : List Byte) (st : StreamId) :
    (imageDescriptors slot).getD st.val [] = Decode.imageDescriptor slot st.val := by
  unfold imageDescriptors
  rw [List.getD_eq_getElem _ _ (by simp), List.getElem_map, List.getElem_range]

section
variable (s : State) (c : CopyIndex) (slot : List Byte)

/-- The tables of all slots under a reload, before the reload may end (R164, R177). -/
def State.reloadedSlots : State :=
  allStreams.foldl (State.reloadOne s.place (imageDescriptors slot))
    { s with generation := Decode.imageGeneration slot, copyIndex := some c }

theorem State.reloadedSlots_frame : s.reloadedSlots c slot = { s with
    generation := Decode.imageGeneration slot, copyIndex := some c
    streams := (s.reloadedSlots c slot).streams, waitSet := (s.reloadedSlots c slot).waitSet } :=
  State.foldl_reloadOne_frame s.place (imageDescriptors slot) allStreams _

theorem State.reloadedSlots_stream (st : StreamId) : (s.reloadedSlots c slot).stream st =
    if (s.stream st).changedBy (Decode.imageDescriptor slot st.val) = true then
      StreamState.reloadSlot (installedOf s.place (imageDescriptors slot) st.val) (s.stream st)
    else s.stream st := by
  refine ((State.foldl_reloadOne_spec _ _ allStreams _ (by decide)).1 st).trans ?_
  rw [imageDescriptors_getD]
  exact if_congr (and_iff_right (mem_allStreams st)) rfl rfl

theorem State.reloadedSlots_waitSet (h : s.waitSet = []) (st : StreamId) : st ∈ (s.reloadedSlots c slot).waitSet ↔
    (s.stream st).changedBy (Decode.imageDescriptor slot st.val) = true ∧
      ((s.stream st).life = .active ∨ (s.stream st).life = .draining) := by
  refine ((State.foldl_reloadOne_spec _ _ allStreams _ (by decide)).2 st).trans ?_
  rw [imageDescriptors_getD, show ({ s with generation := Decode.imageGeneration slot, copyIndex := some c } : State).waitSet = []
    from h]
  exact ⟨fun k => (k.resolve_left List.not_mem_nil).2, fun k => .inr ⟨mem_allStreams st, k⟩⟩

/-- The slots first; the reload ends at once where no changed slot waits for a drain (R178). -/
theorem State.handOffReload_eq : s.handOffReload c slot =
    if (s.reloadedSlots c slot).waitSet.isEmpty = true then (s.reloadedSlots c slot).endReload .applied .reloadDone
    else s.reloadedSlots c slot := by
  unfold State.handOffReload State.reloadedSlots
  exact rfl

end

/-- The hand-off of a reload: slots, wait set and table, whether or not it ends there. -/
theorem State.handOffReload_tables (s : State) (c : CopyIndex) (slot : List Byte) :
    (s.handOffReload c slot).streams = (s.reloadedSlots c slot).streams ∧
    (s.handOffReload c slot).waitSet = (s.reloadedSlots c slot).waitSet ∧
    (s.handOffReload c slot).generation = Decode.imageGeneration slot ∧
    (s.handOffReload c slot).copyIndex = some c ∧ (s.handOffReload c slot).device = s.device := by
  have frame := s.reloadedSlots_frame c slot
  rw [s.handOffReload_eq c slot]
  generalize s.reloadedSlots c slot = u at frame
  have table : u.generation = Decode.imageGeneration slot ∧ u.copyIndex = some c ∧ u.device = s.device := by
    rw [frame]
    exact ⟨rfl, rfl, rfl⟩
  split
  · exact ⟨rfl, rfl, table⟩
  · exact ⟨rfl, rfl, table⟩

/-- What of a reload's end the hand-off brings (R178). -/
theorem State.handOffReload_end (s : State) (c : CopyIndex) (slot : List Byte) :
    ((s.handOffReload c slot).waitSet = [] → (s.handOffReload c slot).reloadInProgress = false ∧
      (s.handOffReload c slot).lastReload = .applied ∧ (s.handOffReload c slot).deviceFlags = s.deviceFlags ||| 0x04#5) ∧
    ((s.handOffReload c slot).waitSet ≠ [] → (s.handOffReload c slot).reloadInProgress = s.reloadInProgress ∧
      (s.handOffReload c slot).lastReload = s.lastReload ∧ (s.handOffReload c slot).deviceFlags = s.deviceFlags) := by
  have frame := s.reloadedSlots_frame c slot
  have sets := (s.handOffReload_tables c slot).2.1
  rw [sets]
  rw [s.handOffReload_eq c slot]
  generalize s.reloadedSlots c slot = u at frame
  have flags : u.reloadInProgress = s.reloadInProgress ∧ u.lastReload = s.lastReload ∧ u.deviceFlags = s.deviceFlags := by
    rw [frame]
    exact ⟨rfl, rfl, rfl⟩
  refine ⟨fun none => ?_, fun rest => ?_⟩
  · rw [if_pos (List.isEmpty_iff.2 none)]
    exact ⟨rfl, rfl, congrArg (· ||| 0x04#5) flags.2.2⟩
  · rw [if_neg fun k => rest (List.isEmpty_iff.1 k)]
    exact flags

theorem StreamState.reloadSlot_active (x : StreamState) (i : Installed) (h : x.life = .active) : StreamState.reloadSlot i x =
    { x with pendingSlot := some i, armRequest := decide (i.outcome = .enabled), life := .draining, drainTaken := 0,
             poolQuiet := false } := by
  unfold StreamState.reloadSlot
  rw [h]
  rfl

theorem StreamState.reloadSlot_draining (x : StreamState) (i : Installed) (h : x.life = .draining) :
    StreamState.reloadSlot i x = x.awaitSwitch i := by
  unfold StreamState.reloadSlot
  rw [h]

/-- A changed slot at rest takes the new descriptor at once; an arm in progress is dropped first (R164, R177; log 13). -/
theorem StreamState.reloadSlot_rests (x : StreamState) (i : Installed) (h : x.life = .off ∨ x.life = .refused) :
    ∃ w, (w = x.dropArm ∨ (x.life = .refused ∧ w = x)) ∧ Followed w (StreamState.reloadSlot i x) i := by
  unfold StreamState.reloadSlot
  rcases h with off | refused
  · rw [off]
    exact ⟨_, .inl rfl, followed_follow _ i⟩
  · rw [refused]
    exact ⟨_, .inr ⟨rfl, rfl⟩, followed_follow _ i⟩

/-! ### The evaluation (R151, R154, R155) -/

section
variable (s : State) (c : CopyIndex) (slot : List Byte)

/-- The start-up hand-off beside its slots (R163, R168). -/
theorem State.handOffStart_eq : s.handOffStart c slot = { s with
    generation := Decode.imageGeneration slot, copyIndex := some c, device := .running
    deviceFlags := s.deviceFlags ||| 0x01#5, streams := (s.handOffStart c slot).streams } := by
  unfold State.handOffStart
  dsimp only
  rw [State.foldl_onStream_frame]
  rfl

theorem followed_handOff (i : Installed) (x : StreamState) :
    Followed { x with pendingSlot := none } (StreamState.handOff i x) i := followed_follow { x with pendingSlot := none } i

/-- One slot after the start-up hand-off. -/
theorem State.handOffStart_followed (st : StreamId) : Followed { s.stream st with pendingSlot := none }
    ((s.handOffStart c slot).stream st) (installedOf s.place (imageDescriptors slot) st.val) := by
  rw [State.handOffStart_stream]
  exact followed_handOff _ _

end

section
variable (s : State) (l : Load) (h : s.load = some l)
include h

/-- A load is evaluated when no read of it is left to present or outstanding, outside a soft reset's wait. -/
theorem State.settleLoad_evaluates (hp : l.plan = []) (ho : s.entriesOf .loader = []) (hr : s.softResetPending = false) :
    (l.purpose = .start → s.settleLoad = { s with load := none }.evaluateStart l) ∧
    (l.purpose = .reload → s.settleLoad = { s with load := none }.evaluateReload l) := by
  have due : ¬ (s.softResetPending = true ∨ l.plan ≠ [] ∨ s.entriesOf .loader ≠ []) := by
    rw [hp, ho, hr]
    simp
  unfold State.settleLoad
  rw [h]
  dsimp only
  rw [if_neg due]
  refine ⟨fun k => ?_, fun k => ?_⟩
  · rw [k]
  · rw [k]

end

theorem State.isNoChange_iff (s : State) (c : CopyIndex) (slot : List Byte) :
    s.isNoChange c slot = true ↔ s.copyIndex = some c ∧ s.generation = Decode.imageGeneration slot := by
  simp [State.isNoChange]

section
variable (s : State) (l : Load)

theorem State.evaluateStart_none (hc : l.selected = none) :
    s.evaluateStart l = { s with device := .configFault, deviceFlags := s.deviceFlags ||| 0x02#5 } := by
  unfold State.evaluateStart
  rw [hc]
  rfl

theorem State.evaluateReload_none (hc : l.selected = none) : s.evaluateReload l = s.endReload .failed .reloadFailed := by
  unfold State.evaluateReload
  rw [hc]

variable (c : CopyIndex) (hc : l.selected = some c)
include hc

theorem State.evaluateStart_selected : s.evaluateStart l = s.handOffStart c (l.copies.get c).bytes := by
  unfold State.evaluateStart
  rw [hc]

theorem State.evaluateReload_noChange
    (h : s.copyIndex = some c ∧ s.generation = Decode.imageGeneration (l.copies.get c).bytes) :
    s.evaluateReload l = s.endReload .noChange .reloadDone := by
  unfold State.evaluateReload
  rw [hc]
  exact if_pos ((s.isNoChange_iff c _).2 h)

variable (h : ¬ (s.copyIndex = some c ∧ s.generation = Decode.imageGeneration (l.copies.get c).bytes))
include h

/-- A reload out of CONFIG_FAULT hands off as a START load does, and ends (R179). -/
theorem State.evaluateReload_fault (hd : s.device = .configFault) :
    s.evaluateReload l = (s.handOffStart c (l.copies.get c).bytes).endReload .applied .reloadDone := by
  unfold State.evaluateReload
  rw [hc]
  exact (if_neg fun k => h ((s.isNoChange_iff c _).1 k)).trans (if_pos hd)

theorem State.evaluateReload_handOff (hd : s.device ≠ .configFault) :
    s.evaluateReload l = s.handOffReload c (l.copies.get c).bytes := by
  unfold State.evaluateReload
  rw [hc]
  exact (if_neg fun k => h ((s.isNoChange_iff c _).1 k)).trans (if_neg hd)

end

/-- The start-up hand-off raises TABLE_LOADED, the end of the reload RELOAD_DONE (R168, R179). -/
theorem State.handOffStart_endReload (s : State) (c : CopyIndex) (slot : List Byte) :
    (s.handOffStart c slot).endReload .applied .reloadDone = { s.handOffStart c slot with
      reloadInProgress := false, lastReload := .applied, deviceFlags := s.deviceFlags ||| 0x05#5 } := by
  have flags : (s.handOffStart c slot).deviceFlags = s.deviceFlags ||| 0x01#5 := by rw [s.handOffStart_eq]
  generalize s.handOffStart c slot = u at flags
  have both : u.deviceFlags ||| 0x04#5 = s.deviceFlags ||| 0x05#5 := by
    rw [flags, BitVec.or_assoc]
    rfl
  rw [← both]
  rfl

/-- No evaluation without a load, with a read left, or in a soft reset's wait (R146, R151). -/
theorem State.settleLoad_waits (s : State) (h : s.softResetPending = true ∨ s.load = none ∨
    (∃ l, s.load = some l ∧ l.plan ≠ []) ∨ s.entriesOf .loader ≠ []) : s.settleLoad = s := by
  unfold State.settleLoad
  cases hl : s.load with
  | none => rfl
  | some l =>
    refine if_pos ?_
    rcases h with reset | none | ⟨m, hm, plan⟩ | reads
    · exact .inl reset
    · rw [hl] at none
      cases none
    · rw [hl] at hm
      exact .inr (.inl (Option.some.inj hm ▸ plan))
    · exact .inr (.inr reads)

end Sys2Proof.Machine

namespace Sys2Proof.LoadEvaluation

open Sys2Proof Sys2Proof.Machine Sys2Proof.Safety

/-- Settles O53: the end of the reload, then one slot by its lifecycle state. -/
theorem reloadHandOff : Obligations.ReloadHandOff := by
  intro s c slot empty
  obtain ⟨streams, waitSet, table⟩ := s.handOffReload_tables c slot
  obtain ⟨ends, waits⟩ := s.handOffReload_end c slot
  refine ⟨_, rfl, table.1, table.2.1, table.2.2, ends, waits, ?_⟩
  intro st i x hx hi changed hc
  rw [← StreamState.changedBy_iff] at hc
  rw [waitSet, s.reloadedSlots_waitSet c slot empty, State.stream_of_streams streams, s.reloadedSlots_stream, ← hi, ← hx]
  refine ⟨and_congr_left' hc.symm, fun same => if_neg fun k => same (hc.2 k), fun ch life => ?_, fun ch life => ?_, fun ch rests => ?_⟩
  · exact (if_pos (hc.1 ch)).trans (x.reloadSlot_active i life)
  · exact (if_pos (hc.1 ch)).trans (x.reloadSlot_draining i life)
  · rw [if_pos (hc.1 ch)]
    obtain ⟨w, hw, y⟩ := x.reloadSlot_rests i rests
    have kept : w.pendingSlot = x.pendingSlot ∧ w.flags = x.flags ∧ w.counters = x.counters := by
      rcases hw with rfl | ⟨-, rfl⟩
      · exact x.dropArm_keeps
      · exact ⟨rfl, rfl, rfl⟩
    refine ⟨y.current, y.built, y.pending.trans kept.1, y.flags.trans kept.2.1, y.counters.trans kept.2.2, fun idle => ?_,
      fun off arming => ?_, y.windows, y.armRequest, y.life, y.awaited⟩
    · have same : w = x := hw.elim (fun k => k.trans (x.dropArm_idle idle)) fun k => k.2
      rw [y.lock, y.timer, same]
      exact ⟨rfl, rfl⟩
    · have dropped : w = x.dropArm := hw.resolve_right fun k => by rw [off] at k; cases k.1
      rw [y.lock, y.timer, dropped, x.dropArm_arming arming]
      exact ⟨rfl, rfl⟩

/-- Settles O52: a START load, then a RELOAD load by its selected copy and the device state. -/
theorem loadEvaluation : Obligations.LoadEvaluation := by
  refine ⟨fun s l hl plan reads reset => ?_, fun s h => s.settleLoad_waits h⟩
  obtain ⟨start, reload⟩ := s.settleLoad_evaluates l hl plan reads reset
  refine ⟨fun p none => ?_, fun p c hc slot hs => ?_, fun p none => ?_, fun p c hc current generation => ?_,
    fun p c slot hc hs changed => ⟨fun running => ?_, fun fault => ?_⟩⟩
  · rw [start p, State.evaluateStart_none _ l none]
  · subst hs
    rw [start p, State.evaluateStart_selected _ l c hc]
    refine ⟨_, rfl, State.handOffStart_eq _ c _, fun st i hi => ?_⟩
    have y := State.handOffStart_followed { s with load := none } c (l.copies.get c).bytes st
    rw [show installedOf (State.place { s with load := none }) _ _ = i from hi.symm] at y
    refine ⟨y.current, y.pending, y.windows, y.flags, y.built, fun o => ?_, fun o => ?_, fun o => ?_⟩
    · rw [y.life, y.armRequest, y.awaited, o]
      exact ⟨rfl, rfl, rfl⟩
    · rw [y.life, y.armRequest, y.awaited, o]
      exact ⟨rfl, rfl, rfl⟩
    · rw [y.life, y.armRequest, o]
      exact ⟨rfl, rfl⟩
  · rw [reload p, State.evaluateReload_none _ l none]
    rfl
  · rw [reload p, State.evaluateReload_noChange { s with load := none } l c hc ⟨current, generation⟩]
    rfl
  · subst hs
    rw [reload p, State.evaluateReload_handOff { s with load := none } l c hc changed running]
  · subst hs
    obtain ⟨asStart, -⟩ := State.settleLoad_evaluates { s with load := some { l with purpose := .start } }
      { l with purpose := .start } rfl plan reads reset
    refine ⟨_, rfl, ?_⟩
    rw [asStart rfl, State.evaluateStart_selected _ { l with purpose := .start } c hc, reload p,
      State.evaluateReload_fault { s with load := none } l c hc changed fault]
    exact State.handOffStart_endReload { s with load := none } c _

end Sys2Proof.LoadEvaluation
end
